-- ==== Sys2Proof/Word.lean ====
section
/-! DEFINITION. The word types of the machine: a 32-bit lane or uniform word, a 64-bit
configuration value, a mask over the 32 lanes, and a vector holding one word per lane. -/
namespace Sys2Proof

/-- A 32-bit word: one lane register, one uniform register, one instruction word (R12, R43). -/
abbrev Word := BitVec 32
/-- A 64-bit value: a configuration register, a format slot, a crook micro-operation. -/
abbrev DWord := BitVec 64
/-- One byte of a memory. -/
abbrev Byte := BitVec 8
/-- A set of lanes of a flock: bit `l` stands for lane `l` (R23). -/
abbrev Mask := BitVec 32
/-- One word per lane, lane 0 first; a missing lane reads 0. -/
abbrev LVec := List Word

/-- The two's complement reading of a word. -/
abbrev sval (w : Word) : Int := w.toInt
/-- The unsigned reading of a word. -/
abbrev uval (w : Word) : Nat := w.toNat

end Sys2Proof
end

