-- ==== Sys2Proof/Syntax.lean ====
section
/-! DEFINITION. The abstract syntax of Troldisk revision 1: one constructor per row of
spec/opcode_table.json. Encoded instructions carry their operands and modifiers as typed
fields; rows that name an event of the device carry the event's own parameters. -/
namespace Sys2Proof

/-- The constants of R52 (lane operand codes 0x70 to 0x7B). -/
inductive LConst where
  | zero | one | ones | fone | fmone | fhalf | ftwo | laneid | flockid | foldlane | inf | log2e
  deriving DecidableEq, Repr

/-- A lane source operand (R50). -/
inductive LSrc where
  | v (n : Nat) | q (n : Nat) | s (n : Nat) | const (c : LConst) | lit
  deriving DecidableEq, Repr

/-- A lane destination operand of kind Q (R50): a named register, or the queue only. -/
inductive LDst where
  | v (n : Nat) | q0
  deriving DecidableEq, Repr

/-- The fields every LR instruction has (R43, R46): the E bit, whether the extension word is
present, guard, hold bits, and the literal word (0 when no operand reads it). -/
structure LHdr where
  e : Bool
  x : Bool
  g : Nat
  gn : Bool
  ha : Bool
  hb : Bool
  hc : Bool
  lit : Word
  deriving DecidableEq, Repr

/-- A uniform source operand (R58). -/
inductive USrc where
  | s (n : Nat) | zero | one | ones | foldidx | flockidx | flocks | depth | lit
  deriving DecidableEq, Repr

/-- The fields every UR instruction has (R43, R57). -/
structure UHdr where
  e : Bool
  k : Nat
  kn : Bool
  lit : Word
  deriving DecidableEq, Repr

/-- A parameter word of a UE instruction (R59): as written, or substituted at issue. -/
inductive Param where
  | word (w : Word) | sub (u : USrc)
  deriving DecidableEq, Repr

/-- The fields every UE instruction has: E, the literal word of A, the four parameters. -/
structure EHdr where
  e : Bool
  lit : Word
  p0 : Param
  p1 : Param
  p2 : Param
  p3 : Param
  deriving DecidableEq, Repr

/-- Rounding codes (R54). -/
inductive Rnd where
  | dflt | rne | rtz | rup | rdn | rna | sr
  deriving DecidableEq, Repr

/-- Element formats (R106, R158). -/
inductive Fmt where
  | e4m3 | e5m2 | e2m1 | int8 | e3m2 | e2m3 | int4 | lut4 | bf16 | f16 | f32 | int32 | int16
  deriving DecidableEq, Repr

/-- Source modifiers of the floating-point instructions (R145, R146). -/
structure FMods where
  na : Bool
  nb : Bool
  nc : Bool
  aa : Bool
  ab : Bool
  ftz : Bool
  deriving DecidableEq, Repr

/-- Modes of VOTE (R126). -/
inductive VoteMode where
  | ballot | count | first | last | any | all | agree
  deriving DecidableEq, Repr

/-- Modes of MATCH (R127). -/
inductive MatchMode where
  | eq | rank | lead | uni
  deriving DecidableEq, Repr

/-- Conditions of ICMP (R134). -/
inductive ICond where
  | eq | ne | lt | le | gt | ge | ltu | leu | gtu | geu
  deriving DecidableEq, Repr

/-- Conditions of FCMP and HCMP2 (R135). -/
inductive FCond where
  | eq | ne | lt | le | gt | ge | num | nan | equ | neu | ltu | leu | gtu | geu
  deriving DecidableEq, Repr

/-- How a comparison combines with a predicate (R133). -/
inductive Comb where
  | none | and | or | xor
  deriving DecidableEq, Repr

/-- The combining fields of a comparison (R133). -/
structure CmpC where
  comb : Comb
  cn : Bool
  c : Nat
  deriving DecidableEq, Repr

/-- Sign source of FCOPYS (R155). -/
inductive SignSel where
  | copy | neg | xor
  deriving DecidableEq, Repr

/-- SIZE of a memory access (R194). -/
inductive MSize where
  | w | d | q | u8 | s8 | u16 | s16
  deriving DecidableEq, Repr

/-- ORD of a memory access (R193); for FENCE `none` is SC. -/
inductive MOrd where
  | none | acq | rel | ar
  deriving DecidableEq, Repr

/-- SCOPE of a memory access (R193). -/
inductive MScope where
  | fold | die | device | system
  deriving DecidableEq, Repr

/-- The ordering fields of a memory access (R193). -/
structure MOrder where
  ord : MOrd
  scope : MScope
  remote : Bool
  deriving DecidableEq, Repr

/-- Atomic operations (R205). -/
inductive AtomOp where
  | add | smin | smax | umin | umax | and | or | xor | xchg | fadd | badd2 | fmax
  deriving DecidableEq, Repr

/-- Shape of an atomic's operand (R215): one word, two words as one 64-bit value, or a vector. -/
inductive AtomShape where
  | w1 | d64 | v2 | v4
  deriving DecidableEq, Repr

/-- The op-specific bits of TCOPY (R246). -/
structure TcHdr where
  rlog : Nat
  qn : Nat
  res : Nat
  deriving DecidableEq, Repr

/-- Where something from another device arrives: the virtual device it is for, and the sender (R437, R438). -/
structure Arrival where
  vd : Nat
  src : Nat
  deriving DecidableEq, Repr

/-- A released resource of a core (R303): `what` 0 a segment, 1 a flock slot, by its number `n`, and 2 and 3 that
many register bytes of a stage. -/
structure Released where
  core : Nat
  what : Nat
  n : Nat
  deriving DecidableEq, Repr

/-- The virtual device number that a peer's access names, and the lea die that it reaches (R40, R347). -/
structure PeerTarget where
  vdn : Nat
  lea : Nat
  deriving DecidableEq, Repr

/-- A nonce, and the host port that it comes by (R451). -/
structure Challenge where
  port : Nat
  nonce : List Byte
  deriving DecidableEq, Repr

/-- The instructions of the device and the events of the opcode table. -/
inductive Instr where
  -- integer arithmetic (R117)
  | iadd (h : LHdr) (d : LDst) (a b : LSrc)
  | isub (h : LHdr) (d : LDst) (a b : LSrc)
  | imul (h : LHdr) (d : LDst) (a b : LSrc)
  | imulh (h : LHdr) (u : Bool) (d : LDst) (a b : LSrc)
  | imad (h : LHdr) (d : LDst) (a b c : LSrc)
  | iadds (h : LHdr) (u : Bool) (d : LDst) (a b : LSrc)
  | isubs (h : LHdr) (u : Bool) (d : LDst) (a b : LSrc)
  | imin (h : LHdr) (u : Bool) (d : LDst) (a b : LSrc)
  | imax (h : LHdr) (u : Bool) (d : LDst) (a b : LSrc)
  | iabs (h : LHdr) (sat : Bool) (d : LDst) (a : LSrc)
  | iabsd (h : LHdr) (u : Bool) (d : LDst) (a b : LSrc)
  -- logic, shifts and bit fields (R118 to R121)
  | and (h : LHdr) (d : LDst) (a b : LSrc)
  | or (h : LHdr) (d : LDst) (a b : LSrc)
  | xor (h : LHdr) (d : LDst) (a b : LSrc)
  | andn (h : LHdr) (d : LDst) (a b : LSrc)
  | lop3 (h : LHdr) (tab : Nat) (d : LDst) (a b c : LSrc)
  | shl (h : LHdr) (w : Bool) (d : LDst) (a b : LSrc)
  | shr (h : LHdr) (w : Bool) (d : LDst) (a b : LSrc)
  | sar (h : LHdr) (w : Bool) (d : LDst) (a b : LSrc)
  | rol (h : LHdr) (d : LDst) (a b : LSrc)
  | popc (h : LHdr) (d : LDst) (a : LSrc)
  | clz (h : LHdr) (d : LDst) (a : LSrc)
  | brev (h : LHdr) (d : LDst) (a : LSrc)
  | bfx (h : LHdr) (sx : Bool) (d : LDst) (a b : LSrc)
  | bfi (h : LHdr) (d : LDst) (a b c : LSrc)
  | lea (h : LHdr) (sh : Nat) (d : LDst) (a b : LSrc)
  | idot4 (h : LHdr) (ua ub sat : Bool) (d : LDst) (a b c : LSrc)
  | idot2 (h : LHdr) (ua ub sat : Bool) (d : LDst) (a b c : LSrc)
  -- floating point (R148 to R157)
  | fadd (h : LHdr) (f : FMods) (r : Rnd) (d : LDst) (a b : LSrc)
  | fsub (h : LHdr) (f : FMods) (r : Rnd) (d : LDst) (a b : LSrc)
  | fmul (h : LHdr) (f : FMods) (r : Rnd) (d : LDst) (a b : LSrc)
  | ffma (h : LHdr) (f : FMods) (r : Rnd) (d : LDst) (a b c : LSrc)
  | fmin (h : LHdr) (f : FMods) (d : LDst) (a b : LSrc)
  | fmax (h : LHdr) (f : FMods) (d : LDst) (a b : LSrc)
  | fdiv (h : LHdr) (f : FMods) (r : Rnd) (d : Nat) (a b : LSrc)
  | frcp (h : LHdr) (f : FMods) (d : Nat) (a : LSrc)
  | frsq (h : LHdr) (f : FMods) (d : Nat) (a : LSrc)
  | fsqrt (h : LHdr) (f : FMods) (r : Rnd) (d : Nat) (a : LSrc)
  | fexp2 (h : LHdr) (f : FMods) (d : Nat) (a : LSrc)
  | flog2 (h : LHdr) (f : FMods) (d : Nat) (a : LSrc)
  | fsin (h : LHdr) (f : FMods) (d : Nat) (a : LSrc)
  | fcos (h : LHdr) (f : FMods) (d : Nat) (a : LSrc)
  | ftanh (h : LHdr) (f : FMods) (d : Nat) (a : LSrc)
  | fexs (h : LHdr) (f : FMods) (d : Nat) (a b : LSrc)
  | fscale (h : LHdr) (f : FMods) (r : Rnd) (d : LDst) (a b : LSrc)
  | ffrac (h : LHdr) (f : FMods) (d : LDst) (a : LSrc)
  | frint (h : LHdr) (f : FMods) (r : Rnd) (d : LDst) (a : LSrc)
  | fclass (h : LHdr) (d : LDst) (a : LSrc)
  | fcopys (h : LHdr) (sg : SignSel) (d : LDst) (a b : LSrc)
  | hadd2 (h : LHdr) (bf : Bool) (f : FMods) (r : Rnd) (d : LDst) (a b : LSrc)
  | hmul2 (h : LHdr) (bf : Bool) (f : FMods) (r : Rnd) (d : LDst) (a b : LSrc)
  | hfma2 (h : LHdr) (bf : Bool) (f : FMods) (r : Rnd) (d : LDst) (a b c : LSrc)
  | hmin2 (h : LHdr) (bf : Bool) (f : FMods) (d : LDst) (a b : LSrc)
  | hmax2 (h : LHdr) (bf : Bool) (f : FMods) (d : LDst) (a b : LSrc)
  | fdot2 (h : LHdr) (bf : Bool) (f : FMods) (r : Rnd) (d : LDst) (a b c : LSrc)
  | fdot4 (h : LHdr) (fa fb nc : Bool) (r : Rnd) (d : LDst) (a b c : LSrc)
  -- conversions (R158 to R167); `c` is present exactly under stochastic rounding
  | cvt (h : LHdr) (dst src : Fmt) (u : Bool) (r : Rnd) (slot : Nat) (d : LDst) (a : LSrc) (c : Option LSrc)
  | cvt2 (h : LHdr) (dst src : Fmt) (u : Bool) (r : Rnd) (slot : Nat) (d : LDst) (a b : LSrc) (c : Option LSrc)
  | cvt4 (h : LHdr) (dst src : Fmt) (u : Bool) (r : Rnd) (slot : Nat) (d : LDst) (a b : LSrc) (c : Option LSrc)
  | unpk2 (h : LHdr) (fmt : Fmt) (hi : Bool) (d : LDst) (a : LSrc)
  | unpk4 (h : LHdr) (fmt : Fmt) (ix : Nat) (d : LDst) (a : LSrc)
  | xpand (h : LHdr) (b hi : Bool) (slot : Nat) (d : LDst) (a : LSrc)
  | sqz4 (h : LHdr) (r : Rnd) (slot : Nat) (d : LDst) (a : LSrc) (c : Option LSrc)
  | sqz8 (h : LHdr) (r : Rnd) (slot : Nat) (d : LDst) (a : LSrc) (c : Option LSrc)
  | sround (h : LHdr) (fmt : Fmt) (r : Rnd) (slot : Nat) (d : LDst) (a : LSrc) (c : Option LSrc)
  | scaleof (h : LHdr) (f4 : Bool) (slot : Nat) (d : LDst) (a : LSrc)
  -- moves and lane exchange (R124 to R131)
  | mov (h : LHdr) (d : LDst) (a : LSrc)
  | sel (h : LHdr) (neg : Bool) (d : LDst) (a b : LSrc) (p : Nat)
  | shfl (h : LHdr) (w : Nat) (z : Bool) (d : LDst) (a b : LSrc)
  | shflu (h : LHdr) (w : Nat) (z : Bool) (d : LDst) (a b : LSrc)
  | shfld (h : LHdr) (w : Nat) (z : Bool) (d : LDst) (a b : LSrc)
  | shflx (h : LHdr) (w : Nat) (z : Bool) (d : LDst) (a b : LSrc)
  | vote (h : LHdr) (mode : VoteMode) (neg : Bool) (d : LDst) (p : Nat)
  | matchv (h : LHdr) (mode : MatchMode) (d : LDst) (a : LSrc)
  | prmt (h : LHdr) (d : LDst) (a b c : LSrc)
  | rdx (h : LHdr) (len : Nat) (d : LDst) (n : Nat) (b : LSrc)
  | wrx (h : LHdr) (len : Nat) (n : Nat) (a b : LSrc)
  -- predicates (R129, R133 to R137)
  | elect (h : LHdr) (p : Nat)
  | icmp (h : LHdr) (cond : ICond) (cc : CmpC) (p : Nat) (a b : LSrc)
  | fcmp (h : LHdr) (cond : FCond) (cc : CmpC) (ftz : Bool) (p : Nat) (a b : LSrc)
  | hcmp2 (h : LHdr) (bf : Bool) (cond : FCond) (cc : CmpC) (ftz : Bool) (p : Nat) (a b : LSrc)
  | plop (h : LHdr) (tab : Nat) (d a b c : Nat)
  | ppack (h : LHdr) (d : LDst) (f : Nat)
  | punpk (h : LHdr) (count : Nat) (f : Nat) (a : LSrc)
  -- lane memory instructions (R192 to R219)
  | lds (h : LHdr) (sz : MSize) (o : MOrder) (d : Nat) (a b : LSrc)
  | sts (h : LHdr) (sz : MSize) (o : MOrder) (a b c : LSrc)
  | ldsm (h : LHdr) (n st : Nat) (d : Nat) (a b : LSrc)
  | stsm (h : LHdr) (n st : Nat) (a b : LSrc) (c : Nat)
  | atoms (h : LHdr) (op : AtomOp) (sh : AtomShape) (o : MOrder) (d : Nat) (a b : LSrc)
  | cass (h : LHdr) (dbl : Bool) (o : MOrder) (d : Nat) (a b c : LSrc)
  | ldc (h : LHdr) (sz : MSize) (o : MOrder) (d : Nat) (a b : LSrc)
  | stc (h : LHdr) (sz : MSize) (o : MOrder) (a b c : LSrc)
  | atomc (h : LHdr) (op : AtomOp) (sh : AtomShape) (o : MOrder) (d : Nat) (a b : LSrc)
  | casc (h : LHdr) (dbl : Bool) (o : MOrder) (d : Nat) (a b c : LSrc)
  | redc (h : LHdr) (op : AtomOp) (sh : AtomShape) (a b : LSrc)
  | fence (h : LHdr) (ord : MOrd) (scope : MScope)
  | chko (h : LHdr) (p : Nat) (a b : LSrc)
  -- lane control (R283 to R286)
  | brl (e : Bool) (p : Nat) (pn : Bool) (disp : Nat)
  | brxl (h : LHdr) (a : LSrc)
  | join (h : LHdr) (a : LSrc)
  | lexit (h : LHdr)
  -- crooks (R377)
  | crook (h : LHdr) (n : Nat) (slot : Nat) (mx : Nat) (d : LDst) (a b c : LSrc)
  -- uniform scalar group (R138 to R143)
  | sadd (h : UHdr) (d : Nat) (a b : USrc)
  | ssub (h : UHdr) (d : Nat) (a b : USrc)
  | smul (h : UHdr) (d : Nat) (a b : USrc)
  | smulh (h : UHdr) (u : Bool) (d : Nat) (a b : USrc)
  | smad (h : UHdr) (d : Nat) (a b : USrc)
  | sand (h : UHdr) (d : Nat) (a b : USrc)
  | sor (h : UHdr) (d : Nat) (a b : USrc)
  | sxor (h : UHdr) (d : Nat) (a b : USrc)
  | sshl (h : UHdr) (d : Nat) (a b : USrc)
  | sshr (h : UHdr) (d : Nat) (a b : USrc)
  | ssar (h : UHdr) (d : Nat) (a b : USrc)
  | smin (h : UHdr) (u : Bool) (d : Nat) (a b : USrc)
  | smax (h : UHdr) (u : Bool) (d : Nat) (a b : USrc)
  | scmp (h : UHdr) (u : Bool) (d : Nat) (a b : USrc)
  | ssel (h : UHdr) (d : Nat) (a b : USrc)
  | smov (h : UHdr) (d : Nat) (a : USrc)
  | sli (e : Bool) (d : Nat) (imm : Nat)
  | slih (e : Bool) (d : Nat) (imm : Nat)
  | slea (h : UHdr) (x8 : Bool) (d : Nat) (a b : USrc)
  | sadd64 (h : UHdr) (d : Nat) (a b : USrc)
  -- uniform control (R288)
  | bra (e : Bool) (k : Nat) (kn : Bool) (disp : Nat)
  | brk (e : Bool) (k : Nat) (kn : Bool) (disp : Nat)
  | call (e : Bool) (k : Nat) (kn : Bool) (disp : Nat)
  | ret (h : UHdr) (a : USrc)
  | brx (h : UHdr) (a b : USrc)
  | exit (h : UHdr)
  | nop (h : UHdr)
  | trap (h : UHdr) (code : Nat)
  | rett (h : UHdr) (skip : Bool) (a : USrc)
  | klop (h : UHdr) (tab : Nat) (d ka kb : Nat)
  | sget (h : UHdr) (sp : Bool) (d : Nat) (a b : USrc)
  -- barriers and waits (R289, R312, R255, R292, R294)
  | bar (h : UHdr) (b : Nat)
  | barSw (e : Bool) (b : Nat)
  | bara (h : UHdr) (b : Nat)
  | barw (h : UHdr) (b : Nat)
  | acquire (e : Bool)
  | trywait (h : UHdr) (any : Bool) (d : Nat) (a b : USrc)
  | trywaitTimeout (fold flock : Nat)
  | launch (h : EHdr) (a : USrc) (group : Nat)
  | launchRecordRead (op droveId : Nat)
  | cwait (h : UHdr) (a : USrc)
  -- copies (R246)
  | tcopyLoad (h : EHdr) (t : TcHdr) (a : USrc)
  | tcopyStore (h : EHdr) (t : TcHdr) (a : USrc)
  | tcopyFill (h : EHdr) (t : TcHdr) (a : USrc)
  | tcopyGather (h : EHdr) (t : TcHdr) (a : USrc)
  | tcopyScatter (h : EHdr) (t : TcHdr) (a : USrc)
  | tcopyColl (h : EHdr) (t : TcHdr) (a : USrc)
  -- matrix unit (R181 to R188)
  | mma (h : EHdr) (a : USrc) (tile slot : Nat)
  | mdrain (h : EHdr) (tile slot : Nat) (raw z : Bool) (r : Rnd)
  | mzero (h : UHdr) (mask : Nat)
  | mloadLoad (h : EHdr) (tile : Nat)
  | mloadAdd (h : EHdr) (tile : Nat)
  | mloadAddv (h : EHdr) (tile slot : Nat)
  | matrixCommandStart (core : Nat)
  | tstat (h : UHdr) (d : Nat) (a : USrc)
  -- special registers and counts (R408, R412, R368, R367, R239)
  | rdsr (h : UHdr) (d : Nat) (reg : Nat)
  | wrsr (h : UHdr) (reg : Nat) (a : USrc)
  | rdclk (h : UHdr) (cyc : Bool) (d : Nat)
  | rdperf (h : UHdr) (hi : Bool) (d : Nat) (a b : USrc)
  | trace (h : UHdr) (tag : Nat) (a b : USrc)
  | flushh (h : UHdr)
  | flushhComplete (op : Nat)
  -- configuration (R337)
  | pcfgPctl (h : EHdr) (a : USrc)
  | pcfgCores (h : EHdr) (a : USrc)
  | pcfgChans (h : EHdr) (a : USrc)
  | pcfgCommons (h : EHdr) (a : USrc)
  | pcfgStreams (h : EHdr) (a : USrc)
  | pcfgKeys (h : EHdr) (a : USrc)
  | pcfgCrook (h : EHdr) (a : USrc)
  | pcfgTracebuf (h : EHdr) (a : USrc)
  | pcfgDrover (h : EHdr) (a : USrc)
  | pcfgFaultq (h : EHdr) (a : USrc)
  | pcfgEvq (h : EHdr) (a : USrc)
  | pcfgStopHold (h : EHdr) (a : USrc)
  | pcfgStopReset (h : EHdr) (a : USrc)
  | pcfgStopRelease (h : EHdr) (a : USrc)
  | pcfgDeadline (h : EHdr) (a : USrc)
  | pcfgNetred (h : EHdr) (a : USrc)
  | pcfgCode (h : EHdr) (a : USrc)
  | pcfgGrouptab (h : EHdr) (a : USrc)
  | pcfgSavearea (h : EHdr) (a : USrc)
  | pcfgVctl (h : EHdr) (a : USrc)
  | pcfgS2root (h : EHdr) (a : USrc)
  | pcfgS1root (h : EHdr) (a : USrc)
  | pcfgHwin (h : EHdr) (a : USrc)
  | pcfgVdn (h : EHdr) (a : USrc)
  | pcfgTracectl (h : EHdr) (a : USrc)
  | pcfgHot (h : EHdr) (a : USrc)
  | pcfgQwin (h : EHdr) (a : USrc)
  | pcfgRd (h : EHdr) (a : USrc) (tgt reg : Nat)
  | configWriteComplete (op : Nat)
  -- privileged operations (R345 to R365, R384, R423, R426, R433)
  | pkeyGen (h : EHdr) (a : USrc)
  | pkeyLoad (h : EHdr) (a : USrc)
  | pkeyErase (h : EHdr) (a : USrc)
  | pmap (h : EHdr) (a : USrc) (lvl : Nat)
  | tlbiVd (h : UHdr) (a : USrc)
  | tlbiPage (h : UHdr) (a b : USrc)
  | tlbiPad (h : UHdr) (a : USrc)
  | tlbiAll (h : UHdr) (a : USrc)
  | vdnset (h : UHdr) (a b : USrc)
  | slice (h : EHdr) (a : USrc) (entry : Nat)
  | qossetBw (h : EHdr) (a : USrc)
  | qossetWays (h : EHdr) (a : USrc)
  | wayHandover (die way : Nat)
  | clearp (h : UHdr) (a b : USrc)
  | privilegedCompletion (op : Nat)
  | crkloadLoad (h : EHdr) (a : USrc) (crn : Nat)
  | crkloadUnbind (h : EHdr) (a : USrc) (crn : Nat)
  | crkloadEvict (h : EHdr) (a : USrc) (crn : Nat)
  | shepBegin (h : EHdr) (a : USrc)
  | shepRound (h : EHdr) (a : USrc)
  | shepStop (h : EHdr) (a : USrc)
  | shepAbort (h : EHdr) (a : USrc)
  | shepAccept (h : EHdr) (a : USrc)
  | migrationSwitch (vd : Nat)
  | granuleReceive (at_ : Arrival) (granule : Nat) (bytes : List Byte)
  | savexSave (h : EHdr) (a : USrc)
  | savexThaw (h : EHdr) (a : USrc)
  | savexDiscard (h : EHdr) (a : USrc)
  | loadx (h : EHdr) (a : USrc)
  | msg (h : EHdr) (a : USrc) (dest : Nat)
  | codemv (h : EHdr) (a : USrc)
  | forwardingEntryRetire (paddock entry : Nat)
  -- the scheduler (R271, R274, R276)
  | turnSelect (core stage : Nat)
  | unpark (fold flock : Nat)
  | resultReturn (op : Nat)
  -- commons and chunks (R206, R234, R250)
  | commonsOperation (op lane : Nat)
  | promotionEnd (op lane : Nat)
  | chunkReturn (core chunk : Nat)
  | copyStart (op : Nat)
  | copyComplete (op : Nat)
  | copyFault (op sub : Nat)
  | translationFault (op : Nat)
  | stage2Resolve (op : Nat) (fixed : Bool)
  | collectiveStart (op : Nat) (peers : List (List Byte))
  | stagingCopy (fold region : Nat)
  -- folds and droves (R301 to R317)
  | foldAdmit (drove core : Nat) (segs : List Nat)
  | foldRestore (fold core : Nat) (segs : List Nat)
  | foldEnd (fold : Nat)
  | resourceClear (piece : Released)
  | droveRetire (drove : Nat)
  | completionEntryWrite (vd queue : Nat)
  | launchEntryRead (vd queue droveId : Nat)
  | prioAging (drove : Nat)
  | shrinkRequest (fold : Nat)
  | childStop (fold : Nat)
  | stopRequest (fold : Nat)
  | pointSave (fold : Nat)
  | deadlineT1 (paddock : Nat)
  | instructionBoundarySave (fold : Nat)
  | forcedReset (paddock : Nat)
  | sliceEnd (paddock : Nat)
  | sliceSwitch (paddock : Nat)
  | standbyTakeover (lea : Nat)
  -- hosts, peers and queues
  | configRequest (vd : Nat) (words : List Word)
  | hostWindowAccess (port vf addr : Nat) (wr : Bool) (bytes : List Byte)
  | peerAccess (target : PeerTarget) (src gpa : Nat) (wr : Bool) (bytes : List Byte)
  | movedRefusal (vdn op : Nat)
  | movedRetry (op : Nat)
  | forwardingExpiry (vdn : Nat)
  | eventRecord (src : Nat) (payload : List Word)
  | eventQueuePoll
  | faultRecordWrite (paddock : Nat)
  | faultQueuePoll (paddock : Nat)
  | hostAssistRecord (vd : Nat)
  | lqnotify (vd queue : Nat) (value : DWord)
  | cqhead (vd queue : Nat) (value : DWord)
  | tlbinv (vd : Nat) (value : DWord)
  | gfqans (vd : Nat) (value : DWord)
  | shadow (vd queue : Nat) (value : DWord)
  | cfgans (port : Nat) (value : DWord)
  | hacons (port : Nat) (value : DWord)
  | shepcmd (port : Nat) (value : DWord)
  | registerWrite (port vf offset : Nat) (value : DWord)
  | bandwidthWindow (die : Nat)
  | hotMark (core temp droop : Nat)
  | clockStep (die : Nat) (up : Bool)
  | thermalReset (die : Nat)
  | scrub (die addr : Nat) (bad : Bool)
  | resourceRetire (kind ix : Nat)
  | start (code savearea : DWord)
  | attestationRequest (asked : Challenge)
  | i3cRead (reg : Nat)
  | i3cSetPowerLimit (value : Nat)
  | i3cHoldReset (on : Bool)
  | fetchDecode (core stage band : Nat)
  | roundAcknowledged (vd : Nat) (refused : Bool)
  | transferFailure (vd : Nat) (refused : Bool)
  | streamReceive (at_ : Arrival) (bytes : List Byte)
  | traceRecordWrite (paddock die : Nat)
  | s1rootWrite (vd : Nat) (value : DWord)
  deriving DecidableEq, Repr

end Sys2Proof
end

