-- ==== Sys2Proof/WellFormed.lean ====
section
/-! DEFINITION. Which terms of `Instr` are instructions: every number fits the field that the
encoding gives it, and the guards of R48, R49 and R57 hold. -/
namespace Sys2Proof

/-- A source operand names a register that exists (R12, R50). -/
def LSrc.wf : LSrc → Bool
  | .v n => n < 64
  | .q n => n < 16
  | .s n => n < 32
  | .const _ => true
  | .lit => true

/-- A kind-Q destination names a register that exists (R50). -/
def LDst.wf : LDst → Bool
  | .v n => n < 64
  | .q0 => true

/-- The guard names p0 to p95 and G = 0 is never negated (R48); without an extension word there
is no guard and no hold bit (R47). -/
def LHdr.wf (h : LHdr) : Bool :=
  h.g < 96 && !(h.g == 0 && h.gn) && (h.x || (h.g == 0 && !h.ha && !h.hb && !h.hc))

/-- A uniform source names a register that exists (R58). -/
def USrc.wf : USrc → Bool
  | .s n => n < 32
  | _ => true

/-- The guard names k0 to k7 and K = 0 is never negated (R57). -/
def UHdr.wf (h : UHdr) : Bool := h.k < 8 && !(h.k == 0 && h.kn)

/-- A substituted parameter names a code 0x00 to 0x26 (R59). -/
def Param.wf : Param → Bool
  | .word _ => true
  | .sub .lit => false
  | .sub u => u.wf

/-- The parameters of a UE instruction are encodable. -/
def EHdr.wf (h : EHdr) : Bool := h.p0.wf && h.p1.wf && h.p2.wf && h.p3.wf

/-- The combining predicate is p0 to p95 (R115). -/
def CmpC.wf (c : CmpC) : Bool := c.c < 96

/-- A TCOPY's op-specific fields are in range (R246). -/
def TcHdr.wf (t : TcHdr) : Bool := t.rlog < 13 && t.qn < 16 && t.res < 3

/-- An optional third source. -/
def optWf : Option LSrc → Bool
  | none => true
  | some c => c.wf

/-- Every field of the instruction fits its encoding. Events carry no encoded field. -/
def Instr.wf : Instr → Bool
  | .iadd h d a b | .isub h d a b | .imul h d a b | .and h d a b | .or h d a b | .xor h d a b
  | .andn h d a b | .rol h d a b => h.wf && d.wf && a.wf && b.wf
  | .imulh h _ d a b | .iadds h _ d a b | .isubs h _ d a b | .imin h _ d a b | .imax h _ d a b
  | .iabsd h _ d a b | .shl h _ d a b | .shr h _ d a b | .sar h _ d a b | .bfx h _ d a b
  | .fcopys h _ d a b => h.wf && d.wf && a.wf && b.wf
  | .imad h d a b c | .bfi h d a b c | .prmt h d a b c =>
      h.wf && d.wf && a.wf && b.wf && c.wf
  | .lop3 h t d a b c => h.wf && t < 256 && d.wf && a.wf && b.wf && c.wf
  | .lea h n d a b => h.wf && n < 8 && d.wf && a.wf && b.wf
  | .idot4 h _ _ _ d a b c | .idot2 h _ _ _ d a b c =>
      h.wf && d.wf && a.wf && b.wf && c.wf
  | .popc h d a | .clz h d a | .brev h d a | .fclass h d a | .mov h d a => h.wf && d.wf && a.wf
  | .iabs h _ d a => h.wf && d.wf && a.wf
  | .fadd h _ _ d a b | .fsub h _ _ d a b | .fmul h _ _ d a b | .fscale h _ _ d a b =>
      h.wf && d.wf && a.wf && b.wf
  | .ffma h _ _ d a b c => h.wf && d.wf && a.wf && b.wf && c.wf
  | .fmin h _ d a b | .fmax h _ d a b => h.wf && d.wf && a.wf && b.wf
  | .fdiv h _ _ d a b => h.wf && d < 64 && a.wf && b.wf
  | .fexs h _ d a b => h.wf && d < 64 && a.wf && b.wf
  | .frcp h _ d a | .frsq h _ d a | .fexp2 h _ d a | .flog2 h _ d a | .fsin h _ d a
  | .fcos h _ d a | .ftanh h _ d a => h.wf && d < 64 && a.wf
  | .fsqrt h _ _ d a => h.wf && d < 64 && a.wf
  | .ffrac h _ d a => h.wf && d.wf && a.wf
  | .frint h _ _ d a => h.wf && d.wf && a.wf
  | .hadd2 h _ _ _ d a b | .hmul2 h _ _ _ d a b => h.wf && d.wf && a.wf && b.wf
  | .hmin2 h _ _ d a b | .hmax2 h _ _ d a b => h.wf && d.wf && a.wf && b.wf
  | .hfma2 h _ _ _ d a b c | .fdot2 h _ _ _ d a b c =>
      h.wf && d.wf && a.wf && b.wf && c.wf
  | .fdot4 h _ _ _ _ d a b c => h.wf && d.wf && a.wf && b.wf && c.wf
  | .cvt h _ _ _ _ sl d a c => h.wf && sl < 8 && d.wf && a.wf && optWf c
  | .cvt2 h _ _ _ _ sl d a b c | .cvt4 h _ _ _ _ sl d a b c =>
      h.wf && sl < 8 && d.wf && a.wf && b.wf && optWf c
  | .unpk2 h _ _ d a => h.wf && d.wf && a.wf
  | .unpk4 h _ i d a => h.wf && i < 8 && d.wf && a.wf
  | .xpand h _ _ sl d a => h.wf && sl < 8 && d.wf && a.wf
  | .sqz4 h _ sl d a c | .sqz8 h _ sl d a c => h.wf && sl < 8 && d.wf && a.wf && optWf c
  | .sround h _ _ sl d a c => h.wf && sl < 8 && d.wf && a.wf && optWf c
  | .scaleof h _ sl d a => h.wf && sl < 8 && d.wf && a.wf
  | .sel h _ d a b p => h.wf && d.wf && a.wf && b.wf && p < 96
  | .shfl h w _ d a b | .shflu h w _ d a b | .shfld h w _ d a b | .shflx h w _ d a b =>
      h.wf && w < 6 && d.wf && a.wf && b.wf
  | .vote h _ _ d p => h.wf && d.wf && p < 96
  | .matchv h _ d a => h.wf && d.wf && a.wf
  | .rdx h l d n b => h.wf && 1 ≤ l && l ≤ 64 && d.wf && n < 64 && b.wf
  | .wrx h l n a b => h.wf && 1 ≤ l && l ≤ 64 && n < 64 && a.wf && b.wf
  | .elect h p => h.wf && p < 96
  | .icmp h _ cc p a b => h.wf && cc.wf && p < 96 && a.wf && b.wf
  | .fcmp h _ cc _ p a b => h.wf && cc.wf && p < 96 && a.wf && b.wf
  | .hcmp2 h _ _ cc _ p a b => h.wf && cc.wf && p < 95 && a.wf && b.wf
  | .plop h t d a b c => h.wf && t < 256 && d < 96 && a < 96 && b < 96 && c < 96
  | .ppack h d f => h.wf && d.wf && f < 65
  | .punpk h n f a => h.wf && 1 ≤ n && n ≤ 32 && 1 ≤ f && f + n ≤ 96 && a.wf
  | .lds h _ _ d a b | .ldc h _ _ d a b => h.wf && d < 64 && a.wf && b.wf
  | .sts h _ _ a b c | .stc h _ _ a b c => h.wf && a.wf && b.wf && c.wf
  | .ldsm h n st d a b => h.wf && 1 ≤ n && n ≤ 8 && 1 ≤ st && st ≤ 32 && d < 64 && a.wf && b.wf
  | .stsm h n st a b c => h.wf && 1 ≤ n && n ≤ 8 && 1 ≤ st && st ≤ 32 && a.wf && b.wf && c < 64
  | .atoms h _ _ _ d a b | .atomc h _ _ _ d a b => h.wf && d < 64 && a.wf && b.wf
  | .cass h _ _ d a b c | .casc h _ _ d a b c => h.wf && d < 64 && a.wf && b.wf && c.wf
  | .redc h _ _ a b => h.wf && a.wf && b.wf
  | .fence h _ _ => h.wf
  | .chko h p a b => h.wf && p < 96 && a.wf && b.wf
  | .brl _ p pn disp => p < 96 && !(p == 0 && pn) && disp < 32768
  | .brxl h a | .join h a => h.wf && a.wf
  | .lexit h => h.wf
  | .crook h n sl mx d a b c =>
      h.wf && n < 16 && sl < 8 && mx < 256 && d.wf && a.wf && b.wf && c.wf
  | .sadd h d a b | .ssub h d a b | .smul h d a b | .smad h d a b | .sand h d a b | .sor h d a b
  | .sxor h d a b | .sshl h d a b | .sshr h d a b | .ssar h d a b | .ssel h d a b
  | .sadd64 h d a b => h.wf && d < 32 && a.wf && b.wf
  | .smulh h _ d a b | .smin h _ d a b | .smax h _ d a b | .slea h _ d a b | .sget h _ d a b
  | .rdperf h _ d a b => h.wf && d < 32 && a.wf && b.wf
  | .scmp h _ d a b => h.wf && 1 ≤ d && d ≤ 6 && a.wf && b.wf
  | .smov h d a | .tstat h d a => h.wf && d < 32 && a.wf
  | .sli _ d i | .slih _ d i => d < 32 && i < 131072
  | .bra _ k kn disp | .call _ k kn disp | .brk _ k kn disp =>
      k < 8 && !(k == 0 && kn) && disp < 524288
  | .ret h a | .cwait h a | .tlbiVd h a | .tlbiPad h a | .tlbiAll h a => h.wf && a.wf
  | .rett h _ a => h.wf && a.wf
  | .brx h a b | .tlbiPage h a b | .vdnset h a b | .clearp h a b => h.wf && a.wf && b.wf
  | .exit h | .nop h | .flushh h => h.wf
  | .trap h c => h.wf && c < 64
  | .klop h t d ka kb => h.wf && t < 16 && d < 8 && ka < 8 && kb < 8
  | .bar h b | .bara h b | .barw h b => h.wf && b < 16
  | .barSw _ b => b < 16
  | .acquire _ => true
  | .trywait h _ d a b => h.wf && 1 ≤ d && d < 8 && a.wf && b.wf
  | .launch h a g => h.wf && a.wf && g < 16
  | .tcopyLoad h t a | .tcopyStore h t a | .tcopyFill h t a | .tcopyGather h t a
  | .tcopyScatter h t a | .tcopyColl h t a => h.wf && t.wf && a.wf
  | .mma h a t s => h.wf && a.wf && t < 4 && s < 8
  | .mdrain h t s _ _ _ => h.wf && t < 4 && s < 8
  | .mzero h m => h.wf && 1 ≤ m && m < 16
  | .mloadLoad h t | .mloadAdd h t => h.wf && t < 4
  | .mloadAddv h t s => h.wf && t < 4 && s < 8
  | .rdsr h d r => h.wf && d < 32 && r < 14
  | .wrsr h r a => h.wf && a.wf && (r == 6 || r == 7 || r == 8 || r == 10 || r == 11 || r == 13)
  | .rdclk h _ d => h.wf && d < 32
  | .trace h t a b => h.wf && t < 64 && a.wf && b.wf
  | .pcfgRd h a t r => h.wf && a.wf && t < 3 && r < 128
  | .pcfgPctl h a | .pcfgCores h a | .pcfgChans h a | .pcfgCommons h a | .pcfgStreams h a
  | .pcfgKeys h a | .pcfgCrook h a | .pcfgTracebuf h a | .pcfgDrover h a | .pcfgFaultq h a
  | .pcfgEvq h a | .pcfgStopHold h a | .pcfgStopReset h a | .pcfgStopRelease h a
  | .pcfgDeadline h a | .pcfgNetred h a | .pcfgCode h a | .pcfgGrouptab h a | .pcfgSavearea h a
  | .pcfgVctl h a | .pcfgS2root h a | .pcfgS1root h a | .pcfgHwin h a | .pcfgVdn h a
  | .pcfgTracectl h a | .pcfgHot h a | .pcfgQwin h a
  | .pkeyGen h a | .pkeyLoad h a | .pkeyErase h a | .qossetBw h a | .qossetWays h a
  | .shepBegin h a | .shepRound h a | .shepStop h a | .shepAbort h a | .shepAccept h a
  | .savexSave h a | .savexThaw h a | .savexDiscard h a | .loadx h a | .codemv h a =>
      h.wf && a.wf
  | .pmap h a l => h.wf && a.wf && l < 3
  | .slice h a n => h.wf && a.wf && n < 8
  | .crkloadLoad h a n | .crkloadUnbind h a n | .crkloadEvict h a n => h.wf && a.wf && n < 16
  | .msg h a d => h.wf && a.wf && d < 4
  | _ => true

end Sys2Proof
end

