-- ==== Sys2Proof/Decode.lean ====
section
/-! DEFINITION. Instruction words: the fields of each format (R43 to R59), the tables of the
opcode maps (R79, R80), the encoder, and the decoder, which accepts exactly the words that the
encoder gives for a legal instruction and refuses every other word (DECODE, check 2 of R61). -/
namespace Sys2Proof

/-- A Boolean as a bit. -/
def bit (b : Bool) : Nat := if b then 1 else 0

/-- Bit `i` of a number. -/
def bitOf (n i : Nat) : Bool := (n / 2 ^ i) % 2 == 1

/-! ### Operand codes -/

/-- Constant codes 0x70 to 0x7B (R52). -/
def LConst.code : LConst → Nat
  | .zero => 0x70 | .one => 0x71 | .ones => 0x72 | .fone => 0x73 | .fmone => 0x74
  | .fhalf => 0x75 | .ftwo => 0x76 | .laneid => 0x77 | .flockid => 0x78 | .foldlane => 0x79
  | .inf => 0x7A | .log2e => 0x7B

/-- Lane source operand codes (R50). -/
def LSrc.code : LSrc → Nat
  | .v n => n
  | .q n => 0x40 + n
  | .s n => 0x50 + n
  | .const c => c.code
  | .lit => 0x7F

/-- Lane destination codes of kind Q (R50). -/
def LDst.code : LDst → Nat
  | .v n => n
  | .q0 => 0x40

/-- The constant that a code names; 0x7C to 0x7E are reserved (R50). -/
def LConst.ofCode : Nat → Option LConst
  | 0x70 => some .zero | 0x71 => some .one | 0x72 => some .ones | 0x73 => some .fone
  | 0x74 => some .fmone | 0x75 => some .fhalf | 0x76 => some .ftwo | 0x77 => some .laneid
  | 0x78 => some .flockid | 0x79 => some .foldlane | 0x7A => some .inf | 0x7B => some .log2e
  | _ => none

/-- The source operand that a lane code names (R50). -/
def LSrc.ofCode (n : Nat) : Option LSrc :=
  if n < 0x40 then some (.v n)
  else if n < 0x50 then some (.q (n - 0x40))
  else if n < 0x70 then some (.s (n - 0x50))
  else if n = 0x7F then some .lit
  else (LConst.ofCode n).map .const

/-- The kind-Q destination that a lane code names (R50). -/
def LDst.ofCode (n : Nat) : Option LDst :=
  if n < 0x40 then some (.v n) else if n = 0x40 then some .q0 else none

/-- Uniform operand codes (R58). -/
def USrc.code : USrc → Nat
  | .s n => n
  | .zero => 0x20 | .one => 0x21 | .ones => 0x22 | .foldidx => 0x23 | .flockidx => 0x24
  | .flocks => 0x25 | .depth => 0x26 | .lit => 0x3F

/-- The source operand that a uniform code names; 0x27 to 0x3E are reserved (R58). -/
def USrc.ofCode (n : Nat) : Option USrc :=
  if n < 0x20 then some (.s n) else
  match n with
  | 0x20 => some .zero | 0x21 => some .one | 0x22 => some .ones | 0x23 => some .foldidx
  | 0x24 => some .flockidx | 0x25 => some .flocks | 0x26 => some .depth | 0x3F => some .lit
  | _ => none

/-- A named register below 64, as the window bases and deferred destinations need. -/
def vreg (n : Nat) : Option Nat := if n < 64 then some n else none
/-- A predicate number (R115). -/
def preg (n : Nat) : Option Nat := if n < 96 then some n else none
/-- A uniform register number as a destination (R58). -/
def sreg (n : Nat) : Option Nat := if n < 32 then some n else none

/-- Rounding codes (R54). -/
def Rnd.code : Rnd → Nat
  | .dflt => 0 | .rne => 1 | .rtz => 2 | .rup => 3 | .rdn => 4 | .rna => 5 | .sr => 6
def Rnd.ofCode : Nat → Option Rnd
  | 0 => some .dflt | 1 => some .rne | 2 => some .rtz | 3 => some .rup | 4 => some .rdn
  | 5 => some .rna | 6 => some .sr | _ => none

/-- Format codes (R106, R158). -/
def Fmt.code : Fmt → Nat
  | .e4m3 => 0 | .e5m2 => 1 | .e2m1 => 2 | .int8 => 3 | .e3m2 => 4 | .e2m3 => 5 | .int4 => 6
  | .lut4 => 7 | .bf16 => 8 | .f16 => 9 | .f32 => 10 | .int32 => 11 | .int16 => 12
def Fmt.ofCode : Nat → Option Fmt
  | 0 => some .e4m3 | 1 => some .e5m2 | 2 => some .e2m1 | 3 => some .int8 | 4 => some .e3m2
  | 5 => some .e2m3 | 6 => some .int4 | 7 => some .lut4 | 8 => some .bf16 | 9 => some .f16
  | 10 => some .f32 | 11 => some .int32 | 12 => some .int16 | _ => none

/-- Modes of VOTE (R126). -/
def VoteMode.code : VoteMode → Nat
  | .ballot => 0 | .count => 1 | .first => 2 | .last => 3 | .any => 4 | .all => 5 | .agree => 6
def VoteMode.ofCode : Nat → Option VoteMode
  | 0 => some .ballot | 1 => some .count | 2 => some .first | 3 => some .last | 4 => some .any
  | 5 => some .all | 6 => some .agree | _ => none

/-- Modes of MATCH (R127). -/
def MatchMode.code : MatchMode → Nat
  | .eq => 0 | .rank => 1 | .lead => 2 | .uni => 3
def MatchMode.ofCode : Nat → Option MatchMode
  | 0 => some .eq | 1 => some .rank | 2 => some .lead | 3 => some .uni | _ => none

/-- Condition codes of ICMP (R134). -/
def ICond.code : ICond → Nat
  | .eq => 0 | .ne => 1 | .lt => 2 | .le => 3 | .gt => 4 | .ge => 5 | .ltu => 6 | .leu => 7
  | .gtu => 8 | .geu => 9
def ICond.ofCode : Nat → Option ICond
  | 0 => some .eq | 1 => some .ne | 2 => some .lt | 3 => some .le | 4 => some .gt | 5 => some .ge
  | 6 => some .ltu | 7 => some .leu | 8 => some .gtu | 9 => some .geu | _ => none

/-- Condition codes of FCMP and HCMP2 (R135). -/
def FCond.code : FCond → Nat
  | .eq => 0 | .ne => 1 | .lt => 2 | .le => 3 | .gt => 4 | .ge => 5 | .num => 6 | .nan => 7
  | .equ => 8 | .neu => 9 | .ltu => 10 | .leu => 11 | .gtu => 12 | .geu => 13
def FCond.ofCode : Nat → Option FCond
  | 0 => some .eq | 1 => some .ne | 2 => some .lt | 3 => some .le | 4 => some .gt | 5 => some .ge
  | 6 => some .num | 7 => some .nan | 8 => some .equ | 9 => some .neu | 10 => some .ltu
  | 11 => some .leu | 12 => some .gtu | 13 => some .geu | _ => none

/-- COMB codes (R133). -/
def Comb.code : Comb → Nat
  | .none => 0 | .and => 1 | .or => 2 | .xor => 3
def Comb.ofCode : Nat → Option Comb
  | 0 => some .none | 1 => some .and | 2 => some .or | 3 => some .xor | _ => none

/-- SIZE codes (R194). -/
def MSize.code : MSize → Nat
  | .w => 0 | .d => 1 | .q => 2 | .u8 => 3 | .s8 => 4 | .u16 => 5 | .s16 => 6
def MSize.ofCode : Nat → Option MSize
  | 0 => some .w | 1 => some .d | 2 => some .q | 3 => some .u8 | 4 => some .s8 | 5 => some .u16
  | 6 => some .s16 | _ => none

/-- ORD codes (R193). -/
def MOrd.code : MOrd → Nat
  | .none => 0 | .acq => 1 | .rel => 2 | .ar => 3
def MOrd.ofCode : Nat → Option MOrd
  | 0 => some .none | 1 => some .acq | 2 => some .rel | 3 => some .ar | _ => none

/-- SCOPE codes (R193). -/
def MScope.code : MScope → Nat
  | .fold => 0 | .die => 1 | .device => 2 | .system => 3
def MScope.ofCode : Nat → Option MScope
  | 0 => some .fold | 1 => some .die | 2 => some .device | 3 => some .system | _ => none

/-- Operation codes of the atomics (R205). -/
def AtomOp.code : AtomOp → Nat
  | .add => 0 | .smin => 1 | .smax => 2 | .umin => 3 | .umax => 4 | .and => 5 | .or => 6
  | .xor => 7 | .xchg => 8 | .fadd => 9 | .badd2 => 10 | .fmax => 11
def AtomOp.ofCode : Nat → Option AtomOp
  | 0 => some .add | 1 => some .smin | 2 => some .smax | 3 => some .umin | 4 => some .umax
  | 5 => some .and | 6 => some .or | 7 => some .xor | 8 => some .xchg | 9 => some .fadd
  | 10 => some .badd2 | 11 => some .fmax | _ => none

/-- VEC codes of the atomics (R215); the 64-bit form carries VEC 0 and SIZE 1. -/
def AtomShape.vec : AtomShape → Nat
  | .w1 => 0 | .d64 => 0 | .v2 => 1 | .v4 => 2
/-- SIZE of an atomic (R215). -/
def AtomShape.size : AtomShape → Nat
  | .d64 => 1 | _ => 0
def AtomShape.ofCodes (vec size : Nat) : Option AtomShape :=
  match vec, size with
  | 0, 0 => some .w1 | 0, 1 => some .d64 | 1, 0 => some .v2 | 2, 0 => some .v4 | _, _ => none

/-- Words moved by one lane of an atomic (R215, R216). -/
def AtomShape.words : AtomShape → Nat
  | .w1 => 1 | .d64 => 2 | .v2 => 2 | .v4 => 4

/-! ### Raw formats -/

/-- The fields of an LR instruction with its extension and literal words (R45, R46). -/
structure LRaw where
  e : Bool
  op : Nat
  d : Nat
  a : Nat
  b : Nat
  m : Bool
  x : Bool
  c : Nat
  g : Nat
  gn : Bool
  rnd : Nat
  slot : Nat
  hold : Nat
  md : Nat
  lit : Option Word
  deriving DecidableEq, Repr

/-- The fields of a UR instruction (R57). -/
structure URaw where
  e : Bool
  op : Nat
  d : Nat
  a : Nat
  b : Nat
  k : Nat
  kn : Bool
  m : Bool
  lit : Option Word
  deriving DecidableEq, Repr

/-- The fields of a UE instruction (R57, R59); `ops` holds base bits [16:4]. -/
structure ERaw where
  e : Bool
  op : Nat
  a : Nat
  ops : Nat
  sub : Nat
  lit : Option Word
  w0 : Word
  w1 : Word
  w2 : Word
  w3 : Word
  deriving DecidableEq, Repr

/-- An instruction as its format's fields (R43). -/
inductive Raw where
  | lr (r : LRaw)
  | lb (e : Bool) (p : Nat) (pn : Bool) (disp : Nat)
  | ur (r : URaw)
  | ub (e : Bool) (op k : Nat) (kn : Bool) (disp : Nat)
  | ui (e : Bool) (op d imm : Nat)
  | ue (r : ERaw)
  deriving DecidableEq, Repr

/-! ### The opcode maps (R79, R80) -/

/-- Which of A, B and C a lane opcode reads as source operand codes (R50, and the entries of
R117 to R137, R145, R192, R283, R377). The conversions read C only under stochastic rounding. -/
def laneReads (op rnd : Nat) : Bool × Bool × Bool :=
  let sr := rnd == 6
  if op ≤ 0x03 then (true, true, false)
  else if op = 0x04 then (true, true, true)
  else if op ≤ 0x08 then (true, true, false)
  else if op = 0x09 then (true, false, false)
  else if op ≤ 0x0E then (true, true, false)
  else if op = 0x0F then (true, true, true)
  else if op ≤ 0x13 then (true, true, false)
  else if op ≤ 0x16 then (true, false, false)
  else if op = 0x17 then (true, true, false)
  else if op = 0x18 then (true, true, true)
  else if op = 0x19 then (true, true, false)
  else if op ≤ 0x1B then (true, true, true)
  else if op ≤ 0x1E then (true, true, false)
  else if op = 0x1F then (true, true, true)
  else if op ≤ 0x22 then (true, true, false)
  else if op ≤ 0x2A then (true, false, false)
  else if op ≤ 0x2C then (true, true, false)
  else if op ≤ 0x2F then (true, false, false)
  else if op ≤ 0x32 then (true, true, false)
  else if op = 0x33 then (true, true, true)
  else if op ≤ 0x35 then (true, true, false)
  else if op ≤ 0x37 then (true, true, true)
  else if op = 0x38 then (true, false, sr)
  else if op ≤ 0x3A then (true, true, sr)
  else if op ≤ 0x3D then (true, false, false)
  else if op ≤ 0x40 then (true, false, sr)
  else if op ≤ 0x42 then (true, false, false)
  else if op ≤ 0x47 then (true, true, false)
  else if op = 0x48 then (false, false, false)
  else if op = 0x49 then (true, false, false)
  else if op = 0x4A then (true, true, true)
  else if op = 0x4B then (false, true, false)
  else if op = 0x4C then (true, true, false)
  else if op = 0x4D then (false, false, false)
  else if op ≤ 0x50 then (true, true, false)
  else if op ≤ 0x52 then (false, false, false)
  else if op = 0x53 then (true, false, false)
  else if op = 0x54 ∨ op = 0x56 ∨ op = 0x58 ∨ op = 0x5A ∨ op = 0x5C ∨ op = 0x5E then (true, true, false)
  else if op ≤ 0x5D then (true, true, true)
  else if op = 0x5F then (false, false, false)
  else if op = 0x60 then (true, true, false)
  else if op = 0x65 ∨ op = 0x66 then (true, false, false)
  else if 0x70 ≤ op then (true, true, true)
  else (false, false, false)

/-- The reserved lane opcodes (R81); 0x64 is BRL, the one LB opcode. -/
def laneReserved (op : Nat) : Bool :=
  (0x61 ≤ op && op ≤ 0x63) || (0x68 ≤ op && op ≤ 0x6F)

/-- Whether an LR instruction carries a literal word (R44). -/
def laneLit (op a b c rnd : Nat) (x : Bool) : Bool :=
  let r := laneReads op rnd
  (r.1 && a == 0x7F) || (r.2.1 && b == 0x7F) || (x && r.2.2 && c == 0x7F)

/-- The four uniform formats, and the reserved opcodes (R80, R81). -/
inductive UForm where
  | ur | ub | ui | ue | reserved
  deriving DecidableEq, Repr

/-- The format of a uniform opcode (R80). -/
def uniForm (op : Nat) : UForm :=
  if op = 0x10 ∨ op = 0x11 then .ui
  else if 0x14 ≤ op ∧ op ≤ 0x16 then .ub
  else if op = 0x25 ∨ (0x2C ≤ op ∧ op ≤ 0x2E) ∨ op = 0x30 then .ue
  else if op = 0x48 ∨ op = 0x49 ∨ op = 0x4A ∨ op = 0x4D ∨ op = 0x4E then .ue
  else if 0x50 ≤ op ∧ op ≤ 0x55 then .ue
  else if op = 0x1F ∨ (0x27 ≤ op ∧ op ≤ 0x2B) ∨ (0x32 ≤ op ∧ op ≤ 0x37)
      ∨ (0x3E ≤ op ∧ op ≤ 0x47) ∨ 0x56 ≤ op then .reserved
  else .ur

/-- Which of A and B a UR opcode reads as uniform source operands (R58 and the entries). TLBI
reads B only for TYPE 1 (R346). -/
def uniReads (op d : Nat) : Bool × Bool :=
  if op ≤ 0x0E then (true, true)
  else if op = 0x0F then (true, false)
  else if op = 0x12 ∨ op = 0x13 then (true, true)
  else if op = 0x17 then (true, false)
  else if op = 0x18 then (true, true)
  else if op = 0x1C then (true, false)
  else if op = 0x1E ∨ op = 0x24 then (true, true)
  else if op = 0x26 ∨ op = 0x31 ∨ op = 0x39 then (true, false)
  else if op = 0x3B ∨ op = 0x3C then (true, true)
  else if op = 0x4B then (true, d == 1)
  else if op = 0x4C ∨ op = 0x4F then (true, true)
  else (false, false)

/-- Whether a UE opcode reads A: MDRAIN and MLOAD do not (R185, R187). -/
def ueReads (op : Nat) : Bool := !(op == 0x2E || op == 0x30)

/-- Whether a UR instruction carries a literal word (R44). -/
def urLit (op d a b : Nat) : Bool :=
  let r := uniReads op d
  (r.1 && a == 0x3F) || (r.2 && b == 0x3F)

/-- The opcodes that require E (R78, R79, R80). -/
def laneNeedsE (op : Nat) : Bool := 0x64 ≤ op && op ≤ 0x67
def uniNeedsE (op : Nat) : Bool :=
  (0x14 ≤ op && op ≤ 0x19) || op == 0x1B || op == 0x1C || (0x20 ≤ op && op ≤ 0x24) || op == 0x26

/-- The privileged opcodes (R82). -/
def uniPriv (op : Nat) : Bool := 0x48 ≤ op && op ≤ 0x55

/-! ### Words -/

/-- A word from a number. -/
abbrev wd (n : Nat) : Word := BitVec.ofNat 32 n

/-- The base word of a format (R43): class, E, opcode and the format bits. -/
def baseWord (cls : Nat) (e : Bool) (op fields : Nat) : Word :=
  wd (cls * 2147483648 + bit e * 1073741824 + op * 8388608 + fields)

/-- The extension word (R46). -/
def extWord (r : LRaw) : Word :=
  wd (r.c * 33554432 + r.g * 262144 + bit r.gn * 131072 + r.rnd * 16384 + r.slot * 2048
    + r.hold * 256 + r.md)

/-- The words of an instruction, in order (R44). -/
def Raw.words : Raw → List Word
  | .lr r =>
      baseWord 0 r.e r.op (r.d * 65536 + r.a * 512 + r.b * 4 + bit r.x * 2 + bit r.m)
        :: (if r.x then [extWord r] else []) ++ r.lit.toList
  | .lb e p pn disp => [baseWord 0 e 0x64 (p * 65536 + bit pn * 32768 + disp)]
  | .ur r =>
      baseWord 1 r.e r.op (r.d * 131072 + r.a * 2048 + r.b * 32 + r.k * 4 + bit r.kn * 2 + bit r.m)
        :: r.lit.toList
  | .ub e op k kn disp => [baseWord 1 e op (k * 1048576 + bit kn * 524288 + disp)]
  | .ui e op d imm => [baseWord 1 e op (d * 131072 + imm)]
  | .ue r =>
      baseWord 1 r.e r.op (r.a * 131072 + r.ops * 16 + r.sub) :: r.lit.toList
        ++ [r.w0, r.w1, r.w2, r.w3]

/-- Bits [lo+width-1:lo] of a number. -/
def fld (n lo width : Nat) : Nat := n / 2 ^ lo % 2 ^ width

/-- The literal word and the rest, when one is present. -/
def takeLit : Bool → List Word → Option (Option Word × List Word)
  | false, ws => some (none, ws)
  | true, w :: ws => some (some w, ws)
  | true, [] => none

/-- The fields of an LR instruction from its base word's fields and the words that follow. -/
def parseLR (n : Nat) (ws : List Word) : Option (Raw × List Word) :=
  let op := fld n 23 7
  let a := fld n 9 7
  let b := fld n 2 7
  let x := bitOf n 1
  match x, ws with
  | true, [] => none
  | true, ew :: ws' =>
      let x := ew.toNat
      (takeLit (laneLit op a b (fld x 25 7) (fld x 14 3) true) ws').map fun (l, rest) =>
        (.lr { e := bitOf n 30, op := op, d := fld n 16 7, a := a, b := b, m := bitOf n 0
               x := true, c := fld x 25 7, g := fld x 18 7, gn := bitOf x 17, rnd := fld x 14 3
               slot := fld x 11 3, hold := fld x 8 3, md := fld x 0 8, lit := l }, rest)
  | false, ws' =>
      (takeLit (laneLit op a b 0 0 false) ws').map fun (l, rest) =>
        (.lr { e := bitOf n 30, op := op, d := fld n 16 7, a := a, b := b, m := bitOf n 0
               x := false, c := 0, g := 0, gn := false, rnd := 0, slot := 0, hold := 0, md := 0
               lit := l }, rest)

/-- The fields of a UE instruction. -/
def parseUE (n : Nat) (ws : List Word) : Option (Raw × List Word) :=
  let op := fld n 23 7
  let a := fld n 17 6
  match takeLit (ueReads op && a == 0x3F) ws with
  | some (l, w0 :: w1 :: w2 :: w3 :: rest) =>
      some (.ue { e := bitOf n 30, op := op, a := a, ops := fld n 4 13, sub := fld n 0 4
                  lit := l, w0 := w0, w1 := w1, w2 := w2, w3 := w3 }, rest)
  | _ => none

/-- The fields of the instruction whose words stand at the head of a list, and the words after
it. `none`: a reserved opcode (R81), or the list is too short. -/
def parse : List Word → Option (Raw × List Word)
  | [] => none
  | w :: ws =>
      let n := w.toNat
      let op := fld n 23 7
      let e := bitOf n 30
      if bitOf n 31 then
        match uniForm op with
        | .reserved => none
        | .ui => some (.ui e op (fld n 17 6) (fld n 0 17), ws)
        | .ub => some (.ub e op (fld n 20 3) (bitOf n 19) (fld n 0 19), ws)
        | .ue => parseUE n ws
        | .ur =>
            (takeLit (urLit op (fld n 17 6) (fld n 11 6) (fld n 5 6)) ws).map fun (l, rest) =>
              (.ur { e := e, op := op, d := fld n 17 6, a := fld n 11 6, b := fld n 5 6
                     k := fld n 2 3, kn := bitOf n 1, m := bitOf n 0, lit := l }, rest)
      else if op = 0x64 then some (.lb e (fld n 16 7) (bitOf n 15) (fld n 0 15), ws)
      else if laneReserved op then none
      else parseLR n ws

/-- The length in words of the instruction that a base word and the word after it begin, legal
or not (R44, R81): R60, R401 and R406 use it. -/
def wordCount (w ext : Word) : Nat :=
  let n := w.toNat
  let op := fld n 23 7
  if bitOf n 31 then
    match uniForm op with
    | .reserved => 1
    | .ui => 1
    | .ub => 1
    | .ue => 5 + bit (ueReads op && fld n 17 6 == 0x3F)
    | .ur => 1 + bit (urLit op (fld n 17 6) (fld n 11 6) (fld n 5 6))
  else if op = 0x64 then 1
  else if laneReserved op then 1
  else if bitOf n 1 then
    2 + bit (laneLit op (fld n 9 7) (fld n 2 7) (fld ext.toNat 25 7) (fld ext.toNat 14 3) true)
  else 1 + bit (laneLit op (fld n 9 7) (fld n 2 7) 0 0 false)

/-! ### From instructions to fields -/

/-- The LR fields of an instruction. -/
def lr (h : LHdr) (op d a b : Nat) (m : Bool) (c rnd slot md : Nat) : Raw :=
  .lr { e := h.e, op := op, d := d, a := a, b := b, m := m, x := h.x, c := c, g := h.g
        gn := h.gn, rnd := rnd, slot := slot, hold := bit h.ha * 4 + bit h.hb * 2 + bit h.hc
        md := md, lit := if laneLit op a b c rnd h.x then some h.lit else none }

/-- The UR fields of an instruction. -/
def ur (h : UHdr) (op d a b : Nat) (m : Bool) : Raw :=
  .ur { e := h.e, op := op, d := d, a := a, b := b, k := h.k, kn := h.kn, m := m
        lit := if urLit op d a b then some h.lit else none }

/-- A parameter word and its SUBMASK bit (R59). -/
def Param.toWord : Param → Word
  | .word w => w
  | .sub u => wd u.code
def Param.isSub : Param → Bool
  | .word _ => false
  | .sub _ => true

/-- The UE fields of an instruction. -/
def ue (h : EHdr) (op a ops : Nat) : Raw :=
  .ue { e := h.e, op := op, a := a, ops := ops
        sub := bit h.p0.isSub + 2 * bit h.p1.isSub + 4 * bit h.p2.isSub + 8 * bit h.p3.isSub
        lit := if ueReads op && a == 0x3F then some h.lit else none
        w0 := h.p0.toWord, w1 := h.p1.toWord, w2 := h.p2.toWord, w3 := h.p3.toWord }

/-- MOD bits of the floating-point modifiers (R145). -/
def FMods.code (f : FMods) : Nat :=
  bit f.na + 2 * bit f.nb + 4 * bit f.nc + 8 * bit f.aa + 16 * bit f.ab
/-- MOD bits of a comparison (R133). -/
def CmpC.code (c : CmpC) : Nat := bit c.cn * 64 + c.comb.code * 16
/-- MOD bits of a memory access (R193). -/
def memMod (o : MOrder) (size : Nat) : Nat :=
  bit o.remote * 128 + o.scope.code * 32 + o.ord.code * 8 + size
/-- C field of an atomic (R215). -/
def atomC (op : AtomOp) (sh : AtomShape) : Nat := sh.vec * 16 + op.code
/-- Code of an optional third source; absent is 0x00. -/
def optCode : Option LSrc → Nat
  | none => 0
  | some s => s.code
/-- MOD bits of FCOPYS (R155). -/
def SignSel.code : SignSel → Nat
  | .copy => 0 | .neg => 1 | .xor => 2
/-- Op-specific bits of TCOPY with its kind (R246). -/
def TcHdr.code (t : TcHdr) (kind : Nat) : Nat := kind * 1024 + t.rlog * 64 + t.qn * 4 + t.res
/-- Op-specific bits of PCFG (R337). -/
def pcfgOps (tgt reg : Nat) (rd : Bool) : Nat := tgt * 2048 + reg * 16 + bit rd * 8

/-- The fields that encode an instruction; an event row has none. -/
def Instr.toRaw : Instr → Option Raw
  | .iadd h d a b => some (lr h 0x00 d.code a.code b.code false 0 0 0 0)
  | .isub h d a b => some (lr h 0x01 d.code a.code b.code false 0 0 0 0)
  | .imul h d a b => some (lr h 0x02 d.code a.code b.code false 0 0 0 0)
  | .imulh h u d a b => some (lr h 0x03 d.code a.code b.code u 0 0 0 0)
  | .imad h d a b c => some (lr h 0x04 d.code a.code b.code false c.code 0 0 0)
  | .iadds h u d a b => some (lr h 0x05 d.code a.code b.code u 0 0 0 0)
  | .isubs h u d a b => some (lr h 0x06 d.code a.code b.code u 0 0 0 0)
  | .imin h u d a b => some (lr h 0x07 d.code a.code b.code u 0 0 0 0)
  | .imax h u d a b => some (lr h 0x08 d.code a.code b.code u 0 0 0 0)
  | .iabs h sat d a => some (lr h 0x09 d.code a.code 0 sat 0 0 0 0)
  | .iabsd h u d a b => some (lr h 0x0A d.code a.code b.code u 0 0 0 0)
  | .and h d a b => some (lr h 0x0B d.code a.code b.code false 0 0 0 0)
  | .or h d a b => some (lr h 0x0C d.code a.code b.code false 0 0 0 0)
  | .xor h d a b => some (lr h 0x0D d.code a.code b.code false 0 0 0 0)
  | .andn h d a b => some (lr h 0x0E d.code a.code b.code false 0 0 0 0)
  | .lop3 h t d a b c => some (lr h 0x0F d.code a.code b.code false c.code 0 0 t)
  | .shl h w d a b => some (lr h 0x10 d.code a.code b.code w 0 0 0 0)
  | .shr h w d a b => some (lr h 0x11 d.code a.code b.code w 0 0 0 0)
  | .sar h w d a b => some (lr h 0x12 d.code a.code b.code w 0 0 0 0)
  | .rol h d a b => some (lr h 0x13 d.code a.code b.code false 0 0 0 0)
  | .popc h d a => some (lr h 0x14 d.code a.code 0 false 0 0 0 0)
  | .clz h d a => some (lr h 0x15 d.code a.code 0 false 0 0 0 0)
  | .brev h d a => some (lr h 0x16 d.code a.code 0 false 0 0 0 0)
  | .bfx h sx d a b => some (lr h 0x17 d.code a.code b.code sx 0 0 0 0)
  | .bfi h d a b c => some (lr h 0x18 d.code a.code b.code false c.code 0 0 0)
  | .lea h n d a b => some (lr h 0x19 d.code a.code b.code false 0 0 0 n)
  | .idot4 h ua ub sat d a b c =>
      some (lr h 0x1A d.code a.code b.code false c.code 0 0 (bit ua + 2 * bit ub + 4 * bit sat))
  | .idot2 h ua ub sat d a b c =>
      some (lr h 0x1B d.code a.code b.code false c.code 0 0 (bit ua + 2 * bit ub + 4 * bit sat))
  | .fadd h f r d a b => some (lr h 0x1C d.code a.code b.code f.ftz 0 r.code 0 f.code)
  | .fsub h f r d a b => some (lr h 0x1D d.code a.code b.code f.ftz 0 r.code 0 f.code)
  | .fmul h f r d a b => some (lr h 0x1E d.code a.code b.code f.ftz 0 r.code 0 f.code)
  | .ffma h f r d a b c => some (lr h 0x1F d.code a.code b.code f.ftz c.code r.code 0 f.code)
  | .fmin h f d a b => some (lr h 0x20 d.code a.code b.code f.ftz 0 0 0 f.code)
  | .fmax h f d a b => some (lr h 0x21 d.code a.code b.code f.ftz 0 0 0 f.code)
  | .fdiv h f r d a b => some (lr h 0x22 d a.code b.code f.ftz 0 r.code 0 f.code)
  | .frcp h f d a => some (lr h 0x23 d a.code 0 f.ftz 0 0 0 f.code)
  | .frsq h f d a => some (lr h 0x24 d a.code 0 f.ftz 0 0 0 f.code)
  | .fsqrt h f r d a => some (lr h 0x25 d a.code 0 f.ftz 0 r.code 0 f.code)
  | .fexp2 h f d a => some (lr h 0x26 d a.code 0 f.ftz 0 0 0 f.code)
  | .flog2 h f d a => some (lr h 0x27 d a.code 0 f.ftz 0 0 0 f.code)
  | .fsin h f d a => some (lr h 0x28 d a.code 0 f.ftz 0 0 0 f.code)
  | .fcos h f d a => some (lr h 0x29 d a.code 0 f.ftz 0 0 0 f.code)
  | .ftanh h f d a => some (lr h 0x2A d a.code 0 f.ftz 0 0 0 f.code)
  | .fexs h f d a b => some (lr h 0x2B d a.code b.code f.ftz 0 0 0 f.code)
  | .fscale h f r d a b => some (lr h 0x2C d.code a.code b.code f.ftz 0 r.code 0 f.code)
  | .ffrac h f d a => some (lr h 0x2D d.code a.code 0 f.ftz 0 0 0 f.code)
  | .frint h f r d a => some (lr h 0x2E d.code a.code 0 f.ftz 0 r.code 0 f.code)
  | .fclass h d a => some (lr h 0x2F d.code a.code 0 false 0 0 0 0)
  | .fcopys h sg d a b => some (lr h 0x30 d.code a.code b.code false 0 0 0 sg.code)
  | .hadd2 h bf f r d a b =>
      some (lr h 0x31 d.code a.code b.code f.ftz 0 r.code 0 (f.code + bit bf * 128))
  | .hmul2 h bf f r d a b =>
      some (lr h 0x32 d.code a.code b.code f.ftz 0 r.code 0 (f.code + bit bf * 128))
  | .hfma2 h bf f r d a b c =>
      some (lr h 0x33 d.code a.code b.code f.ftz c.code r.code 0 (f.code + bit bf * 128))
  | .hmin2 h bf f d a b => some (lr h 0x34 d.code a.code b.code f.ftz 0 0 0 (f.code + bit bf * 128))
  | .hmax2 h bf f d a b => some (lr h 0x35 d.code a.code b.code f.ftz 0 0 0 (f.code + bit bf * 128))
  | .fdot2 h bf f r d a b c =>
      some (lr h 0x36 d.code a.code b.code f.ftz c.code r.code 0 (f.code + bit bf * 128))
  | .fdot4 h fa fb nc r d a b c =>
      some (lr h 0x37 d.code a.code b.code false c.code r.code 0
        (4 * bit nc + 64 * bit fb + 128 * bit fa))
  | .cvt h dst src u r sl d a c =>
      some (lr h 0x38 d.code a.code 0 u (optCode c) r.code sl (src.code * 16 + dst.code))
  | .cvt2 h dst src u r sl d a b c =>
      some (lr h 0x39 d.code a.code b.code u (optCode c) r.code sl (src.code * 16 + dst.code))
  | .cvt4 h dst src u r sl d a b c =>
      some (lr h 0x3A d.code a.code b.code u (optCode c) r.code sl (src.code * 16 + dst.code))
  | .unpk2 h f hi d a => some (lr h 0x3B d.code a.code 0 hi 0 0 0 f.code)
  | .unpk4 h f i d a => some (lr h 0x3C d.code a.code 0 false 0 0 0 (i * 16 + f.code))
  | .xpand h b hi sl d a => some (lr h 0x3D d.code a.code 0 hi 0 0 sl (bit b))
  | .sqz4 h r sl d a c => some (lr h 0x3E d.code a.code 0 false (optCode c) r.code sl 0)
  | .sqz8 h r sl d a c => some (lr h 0x3F d.code a.code 0 false (optCode c) r.code sl 0)
  | .sround h f r sl d a c => some (lr h 0x40 d.code a.code 0 false (optCode c) r.code sl f.code)
  | .scaleof h f4 sl d a => some (lr h 0x41 d.code a.code 0 f4 0 0 sl 0)
  | .mov h d a => some (lr h 0x42 d.code a.code 0 false 0 0 0 0)
  | .sel h n d a b p => some (lr h 0x43 d.code a.code b.code false p 0 0 (bit n))
  | .shfl h w z d a b => some (lr h 0x44 d.code a.code b.code false 0 0 0 (w + 8 * bit z))
  | .shflu h w z d a b => some (lr h 0x45 d.code a.code b.code false 0 0 0 (w + 8 * bit z))
  | .shfld h w z d a b => some (lr h 0x46 d.code a.code b.code false 0 0 0 (w + 8 * bit z))
  | .shflx h w z d a b => some (lr h 0x47 d.code a.code b.code false 0 0 0 (w + 8 * bit z))
  | .vote h mo n d p => some (lr h 0x48 d.code p 0 false 0 0 0 (mo.code + 8 * bit n))
  | .matchv h mo d a => some (lr h 0x49 d.code a.code 0 false 0 0 0 mo.code)
  | .prmt h d a b c => some (lr h 0x4A d.code a.code b.code false c.code 0 0 0)
  | .rdx h l d n b => some (lr h 0x4B d.code n b.code false 0 0 0 (l - 1))
  | .wrx h l n a b => some (lr h 0x4C n a.code b.code false 0 0 0 (l - 1))
  | .elect h p => some (lr h 0x4D p 0 0 false 0 0 0 0)
  | .icmp h co cc p a b => some (lr h 0x4E p a.code b.code false cc.c 0 0 (cc.code + co.code))
  | .fcmp h co cc z p a b => some (lr h 0x4F p a.code b.code z cc.c 0 0 (cc.code + co.code))
  | .hcmp2 h bf co cc z p a b =>
      some (lr h 0x50 p a.code b.code z cc.c 0 0 (bit bf * 128 + cc.code + co.code))
  | .plop h t d a b c => some (lr h 0x51 d a b false c 0 0 t)
  | .ppack h d f => some (lr h 0x52 d.code f 0 false 0 0 0 0)
  | .punpk h n f a => some (lr h 0x53 f a.code 0 false 0 0 0 (n - 1))
  | .lds h sz o d a b => some (lr h 0x54 d a.code b.code false 0 0 0 (memMod o sz.code))
  | .sts h sz o a b c => some (lr h 0x55 0 a.code b.code false c.code 0 0 (memMod o sz.code))
  | .ldsm h n st d a b => some (lr h 0x56 d a.code b.code false 0 0 0 (n - 1 + (st - 1) * 8))
  | .stsm h n st a b c => some (lr h 0x57 0 a.code b.code false c 0 0 (n - 1 + (st - 1) * 8))
  | .atoms h op sh o d a b =>
      some (lr h 0x58 d a.code b.code false (atomC op sh) 0 0 (memMod o sh.size))
  | .cass h dbl o d a b c =>
      some (lr h 0x59 d a.code b.code false c.code 0 0 (memMod o (bit dbl)))
  | .ldc h sz o d a b => some (lr h 0x5A d a.code b.code false 0 0 0 (memMod o sz.code))
  | .stc h sz o a b c => some (lr h 0x5B 0 a.code b.code false c.code 0 0 (memMod o sz.code))
  | .atomc h op sh o d a b =>
      some (lr h 0x5C d a.code b.code false (atomC op sh) 0 0 (memMod o sh.size))
  | .casc h dbl o d a b c =>
      some (lr h 0x5D d a.code b.code false c.code 0 0 (memMod o (bit dbl)))
  | .redc h op sh a b =>
      some (lr h 0x5E 0 a.code b.code false (atomC op sh) 0 0 sh.size)
  | .fence h o sc => some (lr h 0x5F 0 0 0 false 0 0 0 (memMod ⟨o, sc, false⟩ 0))
  | .chko h p a b => some (lr h 0x60 p a.code b.code false 0 0 0 0)
  | .brl e p pn disp => some (.lb e p pn disp)
  | .brxl h a => some (lr h 0x65 0 a.code 0 false 0 0 0 0)
  | .join h a => some (lr h 0x66 0 a.code 0 false 0 0 0 0)
  | .lexit h => some (lr h 0x67 0 0 0 false 0 0 0 0)
  | .crook h n sl mx d a b c =>
      some (lr h (0x70 + n) d.code a.code b.code false (if h.x then c.code else 0) 0 sl mx)
  | .sadd h d a b => some (ur h 0x00 d a.code b.code false)
  | .ssub h d a b => some (ur h 0x01 d a.code b.code false)
  | .smul h d a b => some (ur h 0x02 d a.code b.code false)
  | .smulh h u d a b => some (ur h 0x03 d a.code b.code u)
  | .smad h d a b => some (ur h 0x04 d a.code b.code false)
  | .sand h d a b => some (ur h 0x05 d a.code b.code false)
  | .sor h d a b => some (ur h 0x06 d a.code b.code false)
  | .sxor h d a b => some (ur h 0x07 d a.code b.code false)
  | .sshl h d a b => some (ur h 0x08 d a.code b.code false)
  | .sshr h d a b => some (ur h 0x09 d a.code b.code false)
  | .ssar h d a b => some (ur h 0x0A d a.code b.code false)
  | .smin h u d a b => some (ur h 0x0B d a.code b.code u)
  | .smax h u d a b => some (ur h 0x0C d a.code b.code u)
  | .scmp h u d a b => some (ur h 0x0D d a.code b.code u)
  | .ssel h d a b => some (ur h 0x0E d a.code b.code false)
  | .smov h d a => some (ur h 0x0F d a.code 0 false)
  | .sli e d i => some (.ui e 0x10 d i)
  | .slih e d i => some (.ui e 0x11 d i)
  | .slea h x8 d a b => some (ur h 0x12 d a.code b.code x8)
  | .sadd64 h d a b => some (ur h 0x13 d a.code b.code false)
  | .bra e k kn disp => some (.ub e 0x14 k kn disp)
  | .brk e k kn disp => some (.ub e 0x15 k kn disp)
  | .call e k kn disp => some (.ub e 0x16 k kn disp)
  | .ret h a => some (ur h 0x17 0 a.code 0 false)
  | .brx h a b => some (ur h 0x18 0 a.code b.code false)
  | .exit h => some (ur h 0x19 0 0 0 false)
  | .nop h => some (ur h 0x1A 0 0 0 false)
  | .trap h c => some (ur h 0x1B c 0 0 false)
  | .rett h sk a => some (ur h 0x1C 0 a.code 0 sk)
  | .klop h t d ka kb => some (ur h 0x1D d (t / 4 * 16 + ka) (t % 4 * 16 + kb) false)
  | .sget h sp d a b => some (ur h 0x1E d a.code b.code sp)
  | .bar h b => some (ur h 0x20 0 b 0 false)
  | .barSw e b => some (ur ⟨e, 0, false, 0⟩ 0x20 0 b 0 true)
  | .bara h b => some (ur h 0x21 0 b 0 false)
  | .barw h b => some (ur h 0x22 0 b 0 false)
  | .acquire e => some (ur ⟨e, 0, false, 0⟩ 0x23 0 0 0 false)
  | .trywait h any d a b => some (ur h 0x24 d a.code b.code any)
  | .launch h a g => some (ue h 0x25 a.code (g * 512))
  | .cwait h a => some (ur h 0x26 0 a.code 0 false)
  | .tcopyLoad h t a => some (ue h 0x2C a.code (t.code 0))
  | .tcopyStore h t a => some (ue h 0x2C a.code (t.code 1))
  | .tcopyFill h t a => some (ue h 0x2C a.code (t.code 2))
  | .tcopyGather h t a => some (ue h 0x2C a.code (t.code 3))
  | .tcopyScatter h t a => some (ue h 0x2C a.code (t.code 4))
  | .tcopyColl h t a => some (ue h 0x2C a.code (t.code 5))
  | .mma h a t s => some (ue h 0x2D a.code (t * 2048 + s * 256))
  | .mdrain h t s raw z r =>
      some (ue h 0x2E 0 (t * 2048 + s * 256 + bit raw * 64 + bit z * 32 + r.code * 4))
  | .mzero h m => some (ur h 0x2F m 0 0 false)
  | .mloadLoad h t => some (ue h 0x30 0 (t * 2048))
  | .mloadAdd h t => some (ue h 0x30 0 (t * 2048 + 64))
  | .mloadAddv h t s => some (ue h 0x30 0 (t * 2048 + s * 256 + 128))
  | .tstat h d a => some (ur h 0x31 d a.code 0 false)
  | .rdsr h d r => some (ur h 0x38 d r 0 false)
  | .wrsr h r a => some (ur h 0x39 r a.code 0 false)
  | .rdclk h cyc d => some (ur h 0x3A d 0 0 cyc)
  | .rdperf h hi d a b => some (ur h 0x3B d a.code b.code hi)
  | .trace h t a b => some (ur h 0x3C t a.code b.code false)
  | .flushh h => some (ur h 0x3D 0 0 0 false)
  | .pcfgPctl h a => some (ue h 0x48 a.code (pcfgOps 0 0x00 false))
  | .pcfgCores h a => some (ue h 0x48 a.code (pcfgOps 0 0x01 false))
  | .pcfgChans h a => some (ue h 0x48 a.code (pcfgOps 0 0x02 false))
  | .pcfgCommons h a => some (ue h 0x48 a.code (pcfgOps 0 0x03 false))
  | .pcfgStreams h a => some (ue h 0x48 a.code (pcfgOps 0 0x04 false))
  | .pcfgKeys h a => some (ue h 0x48 a.code (pcfgOps 0 0x05 false))
  | .pcfgCrook h a => some (ue h 0x48 a.code (pcfgOps 0 0x06 false))
  | .pcfgTracebuf h a => some (ue h 0x48 a.code (pcfgOps 0 0x07 false))
  | .pcfgDrover h a => some (ue h 0x48 a.code (pcfgOps 0 0x08 false))
  | .pcfgFaultq h a => some (ue h 0x48 a.code (pcfgOps 0 0x09 false))
  | .pcfgStopHold h a => some (ue h 0x48 a.code (pcfgOps 0 0x0A false))
  | .pcfgStopReset h a => some (ue h 0x48 a.code (pcfgOps 0 0x0A false))
  | .pcfgStopRelease h a => some (ue h 0x48 a.code (pcfgOps 0 0x0A false))
  | .pcfgEvq h a => some (ue h 0x48 a.code (pcfgOps 0 0x0B false))
  | .pcfgDeadline h a => some (ue h 0x48 a.code (pcfgOps 0 0x0C false))
  | .pcfgNetred h a => some (ue h 0x48 a.code (pcfgOps 0 0x0D false))
  | .pcfgCode h a => some (ue h 0x48 a.code (pcfgOps 0 0x0E false))
  | .pcfgGrouptab h a => some (ue h 0x48 a.code (pcfgOps 0 0x0F false))
  | .pcfgSavearea h a => some (ue h 0x48 a.code (pcfgOps 0 0x10 false))
  | .pcfgVctl h a => some (ue h 0x48 a.code (pcfgOps 1 0x00 false))
  | .pcfgS2root h a => some (ue h 0x48 a.code (pcfgOps 1 0x01 false))
  | .pcfgS1root h a => some (ue h 0x48 a.code (pcfgOps 1 0x02 false))
  | .pcfgHwin h a => some (ue h 0x48 a.code (pcfgOps 1 0x03 false))
  | .pcfgVdn h a => some (ue h 0x48 a.code (pcfgOps 1 0x04 false))
  | .pcfgTracectl h a => some (ue h 0x48 a.code (pcfgOps 1 0x05 false))
  | .pcfgHot h a => some (ue h 0x48 a.code (pcfgOps 2 0x00 false))
  | .pcfgQwin h a => some (ue h 0x48 a.code (pcfgOps 2 0x01 false))
  | .pcfgRd h a t r => some (ue h 0x48 a.code (pcfgOps t r true))
  | .pkeyGen h a => some (ue h 0x49 a.code 0)
  | .pkeyLoad h a => some (ue h 0x49 a.code 2048)
  | .pkeyErase h a => some (ue h 0x49 a.code 4096)
  | .pmap h a l => some (ue h 0x4A a.code (l * 2048))
  | .tlbiVd h a => some (ur h 0x4B 0 a.code 0 false)
  | .tlbiPage h a b => some (ur h 0x4B 1 a.code b.code false)
  | .tlbiPad h a => some (ur h 0x4B 2 a.code 0 false)
  | .tlbiAll h a => some (ur h 0x4B 3 a.code 0 false)
  | .vdnset h a b => some (ur h 0x4C 0 a.code b.code false)
  | .slice h a n => some (ue h 0x4D a.code (n * 1024))
  | .qossetBw h a => some (ue h 0x4E a.code 0)
  | .qossetWays h a => some (ue h 0x4E a.code 2048)
  | .clearp h a b => some (ur h 0x4F 0 a.code b.code false)
  | .crkloadLoad h a n => some (ue h 0x50 a.code (n * 128))
  | .crkloadUnbind h a n => some (ue h 0x50 a.code (2048 + n * 128))
  | .crkloadEvict h a n => some (ue h 0x50 a.code (4096 + n * 128))
  | .shepBegin h a => some (ue h 0x51 a.code 0)
  | .shepRound h a => some (ue h 0x51 a.code 512)
  | .shepStop h a => some (ue h 0x51 a.code 1024)
  | .shepAbort h a => some (ue h 0x51 a.code 1536)
  | .shepAccept h a => some (ue h 0x51 a.code 2048)
  | .savexSave h a => some (ue h 0x52 a.code 0)
  | .savexThaw h a => some (ue h 0x52 a.code 2048)
  | .savexDiscard h a => some (ue h 0x52 a.code 4096)
  | .loadx h a => some (ue h 0x53 a.code 0)
  | .msg h a d => some (ue h 0x54 a.code (d * 2048))
  | .codemv h a => some (ue h 0x55 a.code 0)
  | _ => none

/-! ### From fields to instructions -/

/-- The header of an LR instruction. -/
def LRaw.hdr (r : LRaw) : LHdr :=
  { e := r.e, x := r.x, g := r.g, gn := r.gn, ha := bitOf r.hold 2, hb := bitOf r.hold 1
    hc := bitOf r.hold 0, lit := r.lit.getD 0 }
/-- The header of a UR instruction. -/
def URaw.hdr (r : URaw) : UHdr := { e := r.e, k := r.k, kn := r.kn, lit := r.lit.getD 0 }
/-- A parameter word by its SUBMASK bit: nonzero high bits and codes above 0x26 are DECODE (R59). -/
def Param.ofWord (w : Word) : Bool → Option Param
  | false => some (.word w)
  | true => if w.toNat ≤ 0x26 then (USrc.ofCode w.toNat).map .sub else none
/-- The header of a UE instruction. -/
def ERaw.hdr (r : ERaw) : Option EHdr :=
  match Param.ofWord r.w0 (bitOf r.sub 0), Param.ofWord r.w1 (bitOf r.sub 1),
      Param.ofWord r.w2 (bitOf r.sub 2), Param.ofWord r.w3 (bitOf r.sub 3) with
  | some p0, some p1, some p2, some p3 =>
      some { e := r.e, lit := r.lit.getD 0, p0 := p0, p1 := p1, p2 := p2, p3 := p3 }
  | _, _, _, _ => none

/-- The floating-point modifiers of a word (R145). -/
def LRaw.fm (r : LRaw) : FMods :=
  { na := bitOf r.md 0, nb := bitOf r.md 1, nc := bitOf r.md 2, aa := bitOf r.md 3
    ab := bitOf r.md 4, ftz := r.m }
/-- The combining fields of a comparison (R133). -/
def LRaw.cc (r : LRaw) : Option CmpC :=
  (Comb.ofCode (fld r.md 4 2)).map fun c => { comb := c, cn := bitOf r.md 6, c := r.c }
/-- The ordering fields and size of a memory access (R193). -/
def LRaw.order (r : LRaw) : Option MOrder :=
  match MOrd.ofCode (fld r.md 3 2), MScope.ofCode (fld r.md 5 2) with
  | some o, some s => some { ord := o, scope := s, remote := bitOf r.md 7 }
  | _, _ => none

/-- D, A as kind Q. -/
def LRaw.qa (r : LRaw) (k : LHdr → LDst → LSrc → Instr) : Option Instr :=
  match LDst.ofCode r.d, LSrc.ofCode r.a with
  | some d, some a => some (k r.hdr d a)
  | _, _ => none
/-- D, A, B as kind Q. -/
def LRaw.qab (r : LRaw) (k : LHdr → LDst → LSrc → LSrc → Instr) : Option Instr :=
  match LDst.ofCode r.d, LSrc.ofCode r.a, LSrc.ofCode r.b with
  | some d, some a, some b => some (k r.hdr d a b)
  | _, _, _ => none
/-- D, A, B, C as kind Q. -/
def LRaw.qabc (r : LRaw) (k : LHdr → LDst → LSrc → LSrc → LSrc → Instr) : Option Instr :=
  match LDst.ofCode r.d, LSrc.ofCode r.a, LSrc.ofCode r.b, LSrc.ofCode r.c with
  | some d, some a, some b, some c => some (k r.hdr d a b c)
  | _, _, _, _ => none
/-- D, A as kind D. -/
def LRaw.da (r : LRaw) (k : LHdr → Nat → LSrc → Instr) : Option Instr :=
  match vreg r.d, LSrc.ofCode r.a with
  | some d, some a => some (k r.hdr d a)
  | _, _ => none
/-- D, A, B as kind D. -/
def LRaw.dab (r : LRaw) (k : LHdr → Nat → LSrc → LSrc → Instr) : Option Instr :=
  match vreg r.d, LSrc.ofCode r.a, LSrc.ofCode r.b with
  | some d, some a, some b => some (k r.hdr d a b)
  | _, _, _ => none
/-- A, B, C of an instruction without a destination. -/
def LRaw.abc (r : LRaw) (k : LHdr → LSrc → LSrc → LSrc → Instr) : Option Instr :=
  match LSrc.ofCode r.a, LSrc.ofCode r.b, LSrc.ofCode r.c with
  | some a, some b, some c => some (k r.hdr a b c)
  | _, _, _ => none
/-- A predicate destination with A and B. -/
def LRaw.pab (r : LRaw) (k : LHdr → Nat → LSrc → LSrc → Instr) : Option Instr :=
  match preg r.d, LSrc.ofCode r.a, LSrc.ofCode r.b with
  | some d, some a, some b => some (k r.hdr d a b)
  | _, _, _ => none
/-- The third source of a conversion, read under stochastic rounding only (R160). -/
def LRaw.srC (r : LRaw) : Option (Option LSrc) :=
  if r.rnd = 6 then (LSrc.ofCode r.c).map some else some none
/-- Operation and shape of an atomic (R215). -/
def LRaw.atom (r : LRaw) : Option (AtomOp × AtomShape) :=
  match AtomOp.ofCode (fld r.c 0 4), AtomShape.ofCodes (fld r.c 4 3) (fld r.md 0 3) with
  | some o, some s => some (o, s)
  | _, _ => none

/-- The instruction that an LR word's fields name; fields that the instruction does not read are
compared afterwards (`decode`). -/
def buildLR (r : LRaw) : Option Instr :=
  let f := r.fm
  let bf := bitOf r.md 7
  let rnd := Rnd.ofCode r.rnd
  let w := fld r.md 0 3
  let z := bitOf r.md 3
  match r.op with
  | 0x00 => r.qab .iadd
  | 0x01 => r.qab .isub
  | 0x02 => r.qab .imul
  | 0x03 => r.qab fun h => .imulh h r.m
  | 0x04 => r.qabc .imad
  | 0x05 => r.qab fun h => .iadds h r.m
  | 0x06 => r.qab fun h => .isubs h r.m
  | 0x07 => r.qab fun h => .imin h r.m
  | 0x08 => r.qab fun h => .imax h r.m
  | 0x09 => r.qa fun h => .iabs h r.m
  | 0x0A => r.qab fun h => .iabsd h r.m
  | 0x0B => r.qab .and
  | 0x0C => r.qab .or
  | 0x0D => r.qab .xor
  | 0x0E => r.qab .andn
  | 0x0F => r.qabc fun h => .lop3 h r.md
  | 0x10 => r.qab fun h => .shl h r.m
  | 0x11 => r.qab fun h => .shr h r.m
  | 0x12 => r.qab fun h => .sar h r.m
  | 0x13 => r.qab .rol
  | 0x14 => r.qa .popc
  | 0x15 => r.qa .clz
  | 0x16 => r.qa .brev
  | 0x17 => r.qab fun h => .bfx h r.m
  | 0x18 => r.qabc .bfi
  | 0x19 => r.qab fun h => .lea h w
  | 0x1A => r.qabc fun h => .idot4 h (bitOf r.md 0) (bitOf r.md 1) (bitOf r.md 2)
  | 0x1B => r.qabc fun h => .idot2 h (bitOf r.md 0) (bitOf r.md 1) (bitOf r.md 2)
  | 0x1C => rnd.bind fun n => r.qab fun h => .fadd h f n
  | 0x1D => rnd.bind fun n => r.qab fun h => .fsub h f n
  | 0x1E => rnd.bind fun n => r.qab fun h => .fmul h f n
  | 0x1F => rnd.bind fun n => r.qabc fun h => .ffma h f n
  | 0x20 => r.qab fun h => .fmin h f
  | 0x21 => r.qab fun h => .fmax h f
  | 0x22 => rnd.bind fun n => r.dab fun h => .fdiv h f n
  | 0x23 => r.da fun h => .frcp h f
  | 0x24 => r.da fun h => .frsq h f
  | 0x25 => rnd.bind fun n => r.da fun h => .fsqrt h f n
  | 0x26 => r.da fun h => .fexp2 h f
  | 0x27 => r.da fun h => .flog2 h f
  | 0x28 => r.da fun h => .fsin h f
  | 0x29 => r.da fun h => .fcos h f
  | 0x2A => r.da fun h => .ftanh h f
  | 0x2B => r.dab fun h => .fexs h f
  | 0x2C => rnd.bind fun n => r.qab fun h => .fscale h f n
  | 0x2D => r.qa fun h => .ffrac h f
  | 0x2E => rnd.bind fun n => r.qa fun h => .frint h f n
  | 0x2F => r.qa .fclass
  | 0x30 =>
      match fld r.md 0 2 with
      | 0 => r.qab fun h => .fcopys h .copy
      | 1 => r.qab fun h => .fcopys h .neg
      | 2 => r.qab fun h => .fcopys h .xor
      | _ => none
  | 0x31 => rnd.bind fun n => r.qab fun h => .hadd2 h bf f n
  | 0x32 => rnd.bind fun n => r.qab fun h => .hmul2 h bf f n
  | 0x33 => rnd.bind fun n => r.qabc fun h => .hfma2 h bf f n
  | 0x34 => r.qab fun h => .hmin2 h bf f
  | 0x35 => r.qab fun h => .hmax2 h bf f
  | 0x36 => rnd.bind fun n => r.qabc fun h => .fdot2 h bf f n
  | 0x37 => rnd.bind fun n => r.qabc fun h => .fdot4 h bf (bitOf r.md 6) (bitOf r.md 2) n
  | 0x38 =>
      match Fmt.ofCode (fld r.md 0 4), Fmt.ofCode (fld r.md 4 4), rnd, r.srC with
      | some dst, some src, some n, some c => r.qa fun h d a => .cvt h dst src r.m n r.slot d a c
      | _, _, _, _ => none
  | 0x39 =>
      match Fmt.ofCode (fld r.md 0 4), Fmt.ofCode (fld r.md 4 4), rnd, r.srC with
      | some dst, some src, some n, some c =>
          r.qab fun h d a b => .cvt2 h dst src r.m n r.slot d a b c
      | _, _, _, _ => none
  | 0x3A =>
      match Fmt.ofCode (fld r.md 0 4), Fmt.ofCode (fld r.md 4 4), rnd, r.srC with
      | some dst, some src, some n, some c =>
          r.qab fun h d a b => .cvt4 h dst src r.m n r.slot d a b c
      | _, _, _, _ => none
  | 0x3B => (Fmt.ofCode (fld r.md 0 4)).bind fun t => r.qa fun h => .unpk2 h t r.m
  | 0x3C => (Fmt.ofCode (fld r.md 0 4)).bind fun t => r.qa fun h => .unpk4 h t (fld r.md 4 3)
  | 0x3D => r.qa fun h => .xpand h (bitOf r.md 0) r.m r.slot
  | 0x3E =>
      match rnd, r.srC with
      | some n, some c => r.qa fun h d a => .sqz4 h n r.slot d a c
      | _, _ => none
  | 0x3F =>
      match rnd, r.srC with
      | some n, some c => r.qa fun h d a => .sqz8 h n r.slot d a c
      | _, _ => none
  | 0x40 =>
      match Fmt.ofCode (fld r.md 0 4), rnd, r.srC with
      | some t, some n, some c => r.qa fun h d a => .sround h t n r.slot d a c
      | _, _, _ => none
  | 0x41 => r.qa fun h => .scaleof h r.m r.slot
  | 0x42 => r.qa .mov
  | 0x43 => (preg r.c).bind fun p => r.qab fun h d a b => .sel h (bitOf r.md 0) d a b p
  | 0x44 => r.qab fun h => .shfl h w z
  | 0x45 => r.qab fun h => .shflu h w z
  | 0x46 => r.qab fun h => .shfld h w z
  | 0x47 => r.qab fun h => .shflx h w z
  | 0x48 =>
      match VoteMode.ofCode w, LDst.ofCode r.d, preg r.a with
      | some m, some d, some p => some (.vote r.hdr m z d p)
      | _, _, _ => none
  | 0x49 => (MatchMode.ofCode (fld r.md 0 2)).bind fun m => r.qa fun h => .matchv h m
  | 0x4A => r.qabc .prmt
  | 0x4B =>
      match LDst.ofCode r.d, vreg r.a, LSrc.ofCode r.b with
      | some d, some n, some b => some (.rdx r.hdr (fld r.md 0 6 + 1) d n b)
      | _, _, _ => none
  | 0x4C => r.dab fun h => .wrx h (fld r.md 0 6 + 1)
  | 0x4D => (preg r.d).map fun p => .elect r.hdr p
  | 0x4E =>
      match ICond.ofCode (fld r.md 0 4), r.cc with
      | some co, some cc => r.pab fun h => .icmp h co cc
      | _, _ => none
  | 0x4F =>
      match FCond.ofCode (fld r.md 0 4), r.cc with
      | some co, some cc => r.pab fun h => .fcmp h co cc r.m
      | _, _ => none
  | 0x50 =>
      match FCond.ofCode (fld r.md 0 4), r.cc with
      | some co, some cc => r.pab fun h => .hcmp2 h bf co cc r.m
      | _, _ => none
  | 0x51 => some (.plop r.hdr r.md r.d r.a r.b r.c)
  | 0x52 => (LDst.ofCode r.d).map fun d => .ppack r.hdr d r.a
  | 0x53 => (LSrc.ofCode r.a).map fun a => .punpk r.hdr (fld r.md 0 5 + 1) r.d a
  | 0x54 =>
      match MSize.ofCode w, r.order with
      | some sz, some o => r.dab fun h => .lds h sz o
      | _, _ => none
  | 0x55 =>
      match MSize.ofCode w, r.order with
      | some sz, some o => r.abc fun h => .sts h sz o
      | _, _ => none
  | 0x56 => r.dab fun h => .ldsm h (fld r.md 0 3 + 1) (fld r.md 3 5 + 1)
  | 0x57 =>
      match LSrc.ofCode r.a, LSrc.ofCode r.b, vreg r.c with
      | some a, some b, some c => some (.stsm r.hdr (fld r.md 0 3 + 1) (fld r.md 3 5 + 1) a b c)
      | _, _, _ => none
  | 0x58 =>
      match r.atom, r.order with
      | some (op, sh), some o => r.dab fun h => .atoms h op sh o
      | _, _ => none
  | 0x59 =>
      match r.order, vreg r.d with
      | some o, some d => r.abc fun h => .cass h (bitOf r.md 0) o d
      | _, _ => none
  | 0x5A =>
      match MSize.ofCode w, r.order with
      | some sz, some o => r.dab fun h => .ldc h sz o
      | _, _ => none
  | 0x5B =>
      match MSize.ofCode w, r.order with
      | some sz, some o => r.abc fun h => .stc h sz o
      | _, _ => none
  | 0x5C =>
      match r.atom, r.order with
      | some (op, sh), some o => r.dab fun h => .atomc h op sh o
      | _, _ => none
  | 0x5D =>
      match r.order, vreg r.d with
      | some o, some d => r.abc fun h => .casc h (bitOf r.md 0) o d
      | _, _ => none
  | 0x5E =>
      match r.atom, LSrc.ofCode r.a, LSrc.ofCode r.b with
      | some (op, sh), some a, some b => some (.redc r.hdr op sh a b)
      | _, _, _ => none
  | 0x5F => r.order.map fun o => .fence r.hdr o.ord o.scope
  | 0x60 => r.pab .chko
  | 0x65 => (LSrc.ofCode r.a).map fun a => .brxl r.hdr a
  | 0x66 => (LSrc.ofCode r.a).map fun a => .join r.hdr a
  | 0x67 => some (.lexit r.hdr)
  | n =>
      if 0x70 ≤ n then
        match LDst.ofCode r.d, LSrc.ofCode r.a, LSrc.ofCode r.b,
            (if r.x then LSrc.ofCode r.c else some (.const .zero)) with
        | some d, some a, some b, some c => some (.crook r.hdr (n - 0x70) r.slot r.md d a b c)
        | _, _, _, _ => none
      else none

/-- D as a uniform register, with A and B. -/
def URaw.dab (r : URaw) (k : UHdr → Nat → USrc → USrc → Instr) : Option Instr :=
  match sreg r.d, USrc.ofCode r.a, USrc.ofCode r.b with
  | some d, some a, some b => some (k r.hdr d a b)
  | _, _, _ => none
/-- A and B. -/
def URaw.ab (r : URaw) (k : UHdr → USrc → USrc → Instr) : Option Instr :=
  match USrc.ofCode r.a, USrc.ofCode r.b with
  | some a, some b => some (k r.hdr a b)
  | _, _ => none
/-- A. -/
def URaw.a1 (r : URaw) (k : UHdr → USrc → Instr) : Option Instr :=
  (USrc.ofCode r.a).map fun a => k r.hdr a

/-- The instruction that a UR word's fields name. -/
def buildUR (r : URaw) : Option Instr :=
  match r.op with
  | 0x00 => r.dab .sadd
  | 0x01 => r.dab .ssub
  | 0x02 => r.dab .smul
  | 0x03 => r.dab fun h => .smulh h r.m
  | 0x04 => r.dab .smad
  | 0x05 => r.dab .sand
  | 0x06 => r.dab .sor
  | 0x07 => r.dab .sxor
  | 0x08 => r.dab .sshl
  | 0x09 => r.dab .sshr
  | 0x0A => r.dab .ssar
  | 0x0B => r.dab fun h => .smin h r.m
  | 0x0C => r.dab fun h => .smax h r.m
  | 0x0D => r.ab fun h => .scmp h r.m r.d
  | 0x0E => r.dab .ssel
  | 0x0F => (sreg r.d).bind fun d => r.a1 fun h => .smov h d
  | 0x12 => r.dab fun h => .slea h r.m
  | 0x13 => r.dab .sadd64
  | 0x17 => r.a1 .ret
  | 0x18 => r.ab .brx
  | 0x19 => some (.exit r.hdr)
  | 0x1A => some (.nop r.hdr)
  | 0x1B => some (.trap r.hdr r.d)
  | 0x1C => r.a1 fun h => .rett h r.m
  | 0x1D => some (.klop r.hdr (fld r.a 4 2 * 4 + fld r.b 4 2) r.d (fld r.a 0 3) (fld r.b 0 3))
  | 0x1E => r.dab fun h => .sget h r.m
  | 0x20 => some (if r.m then .barSw r.e r.a else .bar r.hdr r.a)
  | 0x21 => some (.bara r.hdr r.a)
  | 0x22 => some (.barw r.hdr r.a)
  | 0x23 => some (.acquire r.e)
  | 0x24 => r.ab fun h => .trywait h r.m r.d
  | 0x26 => r.a1 .cwait
  | 0x2F => some (.mzero r.hdr r.d)
  | 0x31 => (sreg r.d).bind fun d => r.a1 fun h => .tstat h d
  | 0x38 => (sreg r.d).map fun d => .rdsr r.hdr d r.a
  | 0x39 => r.a1 fun h => .wrsr h r.d
  | 0x3A => (sreg r.d).map fun d => .rdclk r.hdr r.m d
  | 0x3B => r.dab fun h => .rdperf h r.m
  | 0x3C => r.ab fun h => .trace h r.d
  | 0x3D => some (.flushh r.hdr)
  | 0x4B =>
      match r.d with
      | 0 => r.a1 .tlbiVd
      | 1 => r.ab .tlbiPage
      | 2 => r.a1 .tlbiPad
      | 3 => r.a1 .tlbiAll
      | _ => none
  | 0x4C => r.ab .vdnset
  | 0x4F => r.ab .clearp
  | _ => none

/-- The configuration-register write that TGT and REG name (R334); STOP is told apart by the
value its parameter word holds. -/
def buildPcfg (h : EHdr) (a : USrc) (tgt reg : Nat) : Option Instr :=
  match tgt, reg with
  | 0, 0x00 => some (.pcfgPctl h a)
  | 0, 0x01 => some (.pcfgCores h a)
  | 0, 0x02 => some (.pcfgChans h a)
  | 0, 0x03 => some (.pcfgCommons h a)
  | 0, 0x04 => some (.pcfgStreams h a)
  | 0, 0x05 => some (.pcfgKeys h a)
  | 0, 0x06 => some (.pcfgCrook h a)
  | 0, 0x07 => some (.pcfgTracebuf h a)
  | 0, 0x08 => some (.pcfgDrover h a)
  | 0, 0x09 => some (.pcfgFaultq h a)
  | 0, 0x0A =>
      match h.p0 with
      | .word w => some (if w = 2 then .pcfgStopReset h a
          else if w = 3 then .pcfgStopRelease h a else .pcfgStopHold h a)
      | .sub _ => some (.pcfgStopHold h a)
  | 0, 0x0B => some (.pcfgEvq h a)
  | 0, 0x0C => some (.pcfgDeadline h a)
  | 0, 0x0D => some (.pcfgNetred h a)
  | 0, 0x0E => some (.pcfgCode h a)
  | 0, 0x0F => some (.pcfgGrouptab h a)
  | 0, 0x10 => some (.pcfgSavearea h a)
  | 1, 0x00 => some (.pcfgVctl h a)
  | 1, 0x01 => some (.pcfgS2root h a)
  | 1, 0x02 => some (.pcfgS1root h a)
  | 1, 0x03 => some (.pcfgHwin h a)
  | 1, 0x04 => some (.pcfgVdn h a)
  | 1, 0x05 => some (.pcfgTracectl h a)
  | 2, 0x00 => some (.pcfgHot h a)
  | 2, 0x01 => some (.pcfgQwin h a)
  | _, _ => none

/-- The instruction that a UE word's fields name. -/
def buildUE (r : ERaw) : Option Instr :=
  match r.hdr, USrc.ofCode r.a with
  | some h, some a =>
      let o := fld r.ops 11 2
      let t : TcHdr := { rlog := fld r.ops 6 4, qn := fld r.ops 2 4, res := fld r.ops 0 2 }
      match r.op with
      | 0x25 => some (.launch h a (fld r.ops 9 4))
      | 0x2C =>
          match fld r.ops 10 3 with
          | 0 => some (.tcopyLoad h t a)
          | 1 => some (.tcopyStore h t a)
          | 2 => some (.tcopyFill h t a)
          | 3 => some (.tcopyGather h t a)
          | 4 => some (.tcopyScatter h t a)
          | 5 => some (.tcopyColl h t a)
          | _ => none
      | 0x2D => some (.mma h a o (fld r.ops 8 3))
      | 0x2E =>
          (Rnd.ofCode (fld r.ops 2 3)).map fun n =>
            .mdrain h o (fld r.ops 8 3) (bitOf r.ops 6) (bitOf r.ops 5) n
      | 0x30 =>
          match fld r.ops 6 2 with
          | 0 => some (.mloadLoad h o)
          | 1 => some (.mloadAdd h o)
          | 2 => some (.mloadAddv h o (fld r.ops 8 3))
          | _ => none
      | 0x48 =>
          if bitOf r.ops 3 then
            (buildPcfg h a o (fld r.ops 4 7)).map fun _ => .pcfgRd h a o (fld r.ops 4 7)
          else buildPcfg h a o (fld r.ops 4 7)
      | 0x49 =>
          match o with
          | 0 => some (.pkeyGen h a)
          | 1 => some (.pkeyLoad h a)
          | 2 => some (.pkeyErase h a)
          | _ => none
      | 0x4A => some (.pmap h a o)
      | 0x4D => some (.slice h a (fld r.ops 10 3))
      | 0x4E =>
          match o with
          | 0 => some (.qossetBw h a)
          | 1 => some (.qossetWays h a)
          | _ => none
      | 0x50 =>
          match o with
          | 0 => some (.crkloadLoad h a (fld r.ops 7 4))
          | 1 => some (.crkloadUnbind h a (fld r.ops 7 4))
          | 2 => some (.crkloadEvict h a (fld r.ops 7 4))
          | _ => none
      | 0x51 =>
          match fld r.ops 9 4 with
          | 0 => some (.shepBegin h a)
          | 1 => some (.shepRound h a)
          | 2 => some (.shepStop h a)
          | 3 => some (.shepAbort h a)
          | 4 => some (.shepAccept h a)
          | _ => none
      | 0x52 =>
          match o with
          | 0 => some (.savexSave h a)
          | 1 => some (.savexThaw h a)
          | 2 => some (.savexDiscard h a)
          | _ => none
      | 0x53 => some (.loadx h a)
      | 0x54 => some (.msg h a o)
      | 0x55 => some (.codemv h a)
      | _ => none
  | _, _ => none

/-- The instruction that a word's fields name. -/
def build : Raw → Option Instr
  | .lr r => buildLR r
  | .lb e p pn disp => some (.brl e p pn disp)
  | .ur r => buildUR r
  | .ub e op k kn disp =>
      match op with
      | 0x14 => some (.bra e k kn disp)
      | 0x15 => some (.brk e k kn disp)
      | _ => some (.call e k kn disp)
  | .ui e op d imm => (sreg d).map fun d => if op = 0x10 then .sli e d imm else .slih e d imm
  | .ue r => buildUE r

/-! ### Legal instructions (R47, R54 to R56, and each opcode's entry) -/

/-- A hold bit stands only on a position read as v0 to v63 (R55); an absent extension word
leaves every extension field 0 (R47); an unread literal word is absent. -/
def LRaw.ok (r : LRaw) : Bool :=
  let u := laneReads r.op r.rnd
  (!(bitOf r.hold 2) || (u.1 && r.a < 64)) && (!(bitOf r.hold 1) || (u.2.1 && r.b < 64))
    && (!(bitOf r.hold 0) || (u.2.2 && r.c < 64))
    && (r.x || (r.c == 0 && r.g == 0 && !r.gn && r.rnd == 0 && r.slot == 0 && r.hold == 0
        && r.md == 0 && (!u.2.2 || 0x70 ≤ r.op)))

/-- The header's literal word is 0 where no operand reads one. -/
def Raw.litOk (h : Word) : Raw → Bool
  | .lr r => r.lit.isSome || h == 0
  | .ur r => r.lit.isSome || h == 0
  | .ue r => r.lit.isSome || h == 0
  | _ => true

/-- Whether a source is a named register. -/
def LSrc.isV : LSrc → Bool
  | .v _ => true
  | _ => false

/-- The data range of a multi-word access lies in v0 to v63 (R196). -/
def rangeOk (s : LSrc) (k : Nat) : Bool :=
  k ≤ 1 || match s with
    | .v n => n + k ≤ 64
    | _ => false

/-- Words moved by one lane of a load or store (R194). -/
def MSize.words : MSize → Nat
  | .d => 2 | .q => 4 | _ => 1

/-- The ordering fields a load accepts (R195). -/
def MOrder.loadOk (o : MOrder) : Bool :=
  (o.ord == .none && o.scope == .fold) || o.ord == .acq
/-- The ordering fields a store accepts (R195). -/
def MOrder.storeOk (o : MOrder) : Bool :=
  !o.remote && ((o.ord == .none && o.scope == .fold) || o.ord == .rel)
/-- The ordering fields an atomic accepts (R195). -/
def MOrder.atomOk (o : MOrder) : Bool := o.ord != .none || o.scope == .fold
/-- REMOTE stands only on an acquire at DIE scope or wider (R195). -/
def MOrder.remoteOk (o : MOrder) : Bool :=
  !o.remote || ((o.ord == .acq || o.ord == .ar) && o.scope != .fold)

/-- The 64-bit and vector forms an atomic operation has (R205, R215). -/
def atomShapeOk (op : AtomOp) (sh : AtomShape) (b : LSrc) : Bool :=
  (sh != .d64 || (op != .fadd && op != .badd2 && op != .fmax)) && rangeOk b sh.words

/-- An integer format (R94). -/
def Fmt.isInt : Fmt → Bool
  | .int8 | .int4 | .int32 | .int16 => true
  | _ => false
/-- Width of a format in bits (R89, R94). -/
def Fmt.width : Fmt → Nat
  | .e4m3 | .e5m2 | .int8 => 8
  | .e2m1 | .int4 | .lut4 => 4
  | .e3m2 | .e2m3 => 6
  | .bf16 | .f16 | .int16 => 16
  | .f32 | .int32 => 32

/-- C is named exactly under stochastic rounding (R160). -/
def srOk (r : Rnd) (c : Option LSrc) : Bool := (r == .sr) == c.isSome

/-- Floating-point modifiers limited to those the opcode defines (R145). -/
def FMods.ab2 (f : FMods) : Bool := !f.nc
def FMods.a1 (f : FMods) : Bool := !f.nb && !f.nc && !f.ab
def FMods.dot (f : FMods) : Bool := !f.aa && !f.ab

/-- Without COMB, C and CN are 0 (R133). -/
def CmpC.ok (c : CmpC) : Bool := c.comb != .none || (c.c == 0 && !c.cn)

/-- A pair operand of SADD64 names an even register (R139). -/
def evenU : USrc → Bool
  | .s n => n % 2 == 0
  | _ => true

/-- What each opcode's entry requires beyond the field ranges. -/
def Instr.entryOk : Instr → Bool
  | .fadd _ f r .. | .fsub _ f r .. | .fmul _ f r .. => f.ab2 && r != .sr
  | .fdiv _ f r .. => f.ab2 && r != .sr
  | .ffma _ _ r .. => r != .sr
  | .fmin _ f .. | .fmax _ f .. => f.ab2
  | .fexs _ f .. => f.ab2
  | .frcp _ f .. | .frsq _ f .. | .fexp2 _ f .. | .flog2 _ f .. | .fsin _ f .. | .fcos _ f ..
  | .ftanh _ f .. => f.a1
  | .fsqrt _ f r .. => f.a1 && r != .sr
  | .fscale _ f r .. => f.a1 && r != .sr
  | .ffrac _ f .. => f.a1
  | .frint _ f r .. => f.a1 && r != .sr
  | .hadd2 _ _ f r .. | .hmul2 _ _ f r .. => f.ab2 && r != .sr
  | .hfma2 _ _ _ r .. => r != .sr
  | .hmin2 _ _ f .. | .hmax2 _ _ f .. => f.ab2
  | .fdot2 _ _ f r .. => f.dot && r != .sr
  | .fdot4 _ _ _ _ r .. => r != .sr
  | .cvt _ dst src u r _ _ _ c =>
      dst != .lut4 && src != .lut4 && (!u || dst.isInt || src.isInt) && srOk r c
  | .cvt2 _ dst src u r _ _ _ _ c =>
      dst != .lut4 && src != .lut4 && dst.width ≤ 16 && (!u || dst.isInt || src.isInt) && srOk r c
  | .cvt4 _ dst src u r _ _ _ _ c =>
      dst != .lut4 && (src == .f16 || src == .bf16 || src == .int16) && dst.width ≤ 8
        && (!u || dst.isInt || src.isInt) && srOk r c
  | .unpk2 _ t .. => t == .f16 || t == .bf16 || t == .int16
  | .unpk4 _ t i .. => t != .lut4 && t.width ≤ 8 && (i < 4 || t.width == 4)
  | .sqz4 _ r _ _ _ c | .sqz8 _ r _ _ _ c => srOk r c
  | .sround _ t r _ _ _ c =>
      (t == .f16 || t == .bf16 || t == .e4m3 || t == .e5m2 || t == .e3m2 || t == .e2m3
        || t == .e2m1) && srOk r c
  | .icmp _ _ cc .. => cc.ok
  | .fcmp _ _ cc .. => cc.ok
  | .hcmp2 _ _ _ cc .. => cc.ok
  | .sel h .. => h.x
  | .lop3 h .. | .idot4 h .. | .idot2 h .. => h.x
  | .plop h .. => h.x
  | .lds _ sz o d .. => o.loadOk && !o.remote && rangeOk (.v d) sz.words
  | .ldc _ sz o d .. => o.loadOk && o.remoteOk && rangeOk (.v d) sz.words
  | .sts _ sz o _ _ c | .stc _ sz o _ _ c =>
      o.storeOk && sz != .s8 && sz != .s16 && rangeOk c sz.words
  | .ldsm h n _ d .. => h.x && d + n ≤ 64
  | .stsm h n _ _ _ c => h.x && c + n ≤ 64
  | .atoms h op sh o d _ b =>
      h.x && o.atomOk && !o.remote && atomShapeOk op sh b && rangeOk (.v d) sh.words
  | .atomc h op sh o d _ b =>
      h.x && o.atomOk && o.remoteOk && atomShapeOk op sh b && rangeOk (.v d) sh.words
  | .redc h op sh _ b => h.x && op != .xchg && atomShapeOk op sh b
  | .cass _ dbl o d _ b c =>
      o.atomOk && !o.remote && (!dbl || (rangeOk b 2 && rangeOk c 2 && rangeOk (.v d) 2))
  | .casc _ dbl o d _ b c =>
      o.atomOk && o.remoteOk && (!dbl || (rangeOk b 2 && rangeOk c 2 && rangeOk (.v d) 2))
  | .crook h _ _ _ _ _ _ c => h.x || c == .const .zero
  | .sadd64 _ d a b => d % 2 == 0 && evenU a && evenU b
  | .rdclk _ _ d => d % 2 == 0
  | .tcopyFill _ t _ | .tcopyColl _ t _ => t.rlog == 0
  | .mdrain _ _ s raw _ r => r != .sr && (!raw || (s == 0 && r == .dflt))
  | _ => true

/-- The literal word in the header of an instruction. -/
def Instr.hdrLit : Instr → Word
  | .iadd h .. | .isub h .. | .imul h .. | .imulh h .. | .imad h .. | .iadds h .. | .isubs h ..
  | .imin h .. | .imax h .. | .iabs h .. | .iabsd h .. | .and h .. | .or h .. | .xor h ..
  | .andn h .. | .lop3 h .. | .shl h .. | .shr h .. | .sar h .. | .rol h .. | .popc h ..
  | .clz h .. | .brev h .. | .bfx h .. | .bfi h .. | .lea h .. | .idot4 h .. | .idot2 h ..
  | .fadd h .. | .fsub h .. | .fmul h .. | .ffma h .. | .fmin h .. | .fmax h .. | .fdiv h ..
  | .frcp h .. | .frsq h .. | .fsqrt h .. | .fexp2 h .. | .flog2 h .. | .fsin h .. | .fcos h ..
  | .ftanh h .. | .fexs h .. | .fscale h .. | .ffrac h .. | .frint h .. | .fclass h ..
  | .fcopys h .. | .hadd2 h .. | .hmul2 h .. | .hfma2 h .. | .hmin2 h .. | .hmax2 h ..
  | .fdot2 h .. | .fdot4 h .. | .cvt h .. | .cvt2 h .. | .cvt4 h .. | .unpk2 h .. | .unpk4 h ..
  | .xpand h .. | .sqz4 h .. | .sqz8 h .. | .sround h .. | .scaleof h .. | .mov h .. | .sel h ..
  | .shfl h .. | .shflu h .. | .shfld h .. | .shflx h .. | .vote h .. | .matchv h .. | .prmt h ..
  | .rdx h .. | .wrx h .. | .elect h .. | .icmp h .. | .fcmp h .. | .hcmp2 h .. | .plop h ..
  | .ppack h .. | .punpk h .. | .lds h .. | .sts h .. | .ldsm h .. | .stsm h .. | .atoms h ..
  | .cass h .. | .ldc h .. | .stc h .. | .atomc h .. | .casc h .. | .redc h .. | .fence h ..
  | .chko h .. | .brxl h .. | .join h .. | .lexit h | .crook h .. => h.lit
  | .sadd h .. | .ssub h .. | .smul h .. | .smulh h .. | .smad h .. | .sand h .. | .sor h ..
  | .sxor h .. | .sshl h .. | .sshr h .. | .ssar h .. | .smin h .. | .smax h .. | .scmp h ..
  | .ssel h .. | .smov h .. | .slea h .. | .sadd64 h .. | .ret h .. | .brx h .. | .exit h | .nop h
  | .trap h .. | .rett h .. | .klop h .. | .sget h .. | .bar h .. | .bara h .. | .barw h ..
  | .trywait h .. | .cwait h .. | .mzero h .. | .tstat h .. | .rdsr h .. | .wrsr h ..
  | .rdclk h .. | .rdperf h .. | .trace h .. | .flushh h | .tlbiVd h .. | .tlbiPage h ..
  | .tlbiPad h .. | .tlbiAll h .. | .vdnset h .. | .clearp h .. => h.lit
  | .launch h .. | .tcopyLoad h .. | .tcopyStore h .. | .tcopyFill h .. | .tcopyGather h ..
  | .tcopyScatter h .. | .tcopyColl h .. | .mma h .. | .mdrain h .. | .mloadLoad h ..
  | .mloadAdd h .. | .mloadAddv h .. | .pcfgPctl h .. | .pcfgCores h .. | .pcfgChans h ..
  | .pcfgCommons h .. | .pcfgStreams h .. | .pcfgKeys h .. | .pcfgCrook h .. | .pcfgTracebuf h ..
  | .pcfgDrover h .. | .pcfgFaultq h .. | .pcfgEvq h .. | .pcfgStopHold h .. | .pcfgStopReset h ..
  | .pcfgStopRelease h .. | .pcfgDeadline h .. | .pcfgNetred h .. | .pcfgCode h ..
  | .pcfgGrouptab h .. | .pcfgSavearea h .. | .pcfgVctl h .. | .pcfgS2root h .. | .pcfgS1root h ..
  | .pcfgHwin h .. | .pcfgVdn h .. | .pcfgTracectl h .. | .pcfgHot h .. | .pcfgQwin h ..
  | .pcfgRd h .. | .pkeyGen h .. | .pkeyLoad h .. | .pkeyErase h .. | .pmap h .. | .slice h ..
  | .qossetBw h .. | .qossetWays h .. | .crkloadLoad h .. | .crkloadUnbind h ..
  | .crkloadEvict h .. | .shepBegin h .. | .shepRound h .. | .shepStop h .. | .shepAbort h ..
  | .shepAccept h .. | .savexSave h .. | .savexThaw h .. | .savexDiscard h .. | .loadx h ..
  | .msg h .. | .codemv h .. => h.lit
  | _ => 0

/-- A PCFG.RD names a register of R334, and STOP is told apart by the value of its parameter word
(R337). -/
def Instr.cfgOk : Instr → Bool
  | .pcfgRd _ _ t r => (t == 0 && r ≤ 0x10) || (t == 1 && r ≤ 5) || (t == 2 && r ≤ 1)
  | .pcfgStopReset h _ => h.p0 == .word 2
  | .pcfgStopRelease h _ => h.p0 == .word 3
  | .pcfgStopHold h _ => h.p0 != .word 2 && h.p0 != .word 3
  | _ => true

/-- An encoded instruction that words can hold: an LR word's fields are legal (R47, R55), and the
header's literal word is 0 where no operand reads one. -/
def Instr.formOk (i : Instr) : Bool :=
  match i.toRaw with
  | some (.lr r) => r.ok && Raw.litOk i.hdrLit (.lr r)
  | some r => Raw.litOk i.hdrLit r
  | none => false

/-- A legal instruction: its numbers fit, and its entry, its format and R334 accept it. -/
def Instr.legal (i : Instr) : Bool := i.wf && i.entryOk && i.cfgOk && i.formOk

/-! ### The encoder and the decoder -/

/-- The words of an instruction (R44); an event has none. -/
def encode (i : Instr) : List Word := (i.toRaw.map Raw.words).getD []

/-- The instruction at the head of a list of words, with the words after it: the one legal
instruction that has exactly these fields. `none` is DECODE at check 2 of R61. -/
def decode (ws : List Word) : Option (Instr × List Word) :=
  match parse ws with
  | some (r, rest) =>
      match build r with
      | some i => if i.legal && i.toRaw == some r then some (i, rest) else none
      | none => none
  | none => none

/-- Whether a row of the table is an encoded instruction; the others are events. -/
def Instr.encoded (i : Instr) : Bool := i.toRaw.isSome

/-- The opcode of an instruction with its class bit above: class × 128 + opcode. -/
def Instr.opc (i : Instr) : Nat :=
  match i.toRaw with
  | some (.lr r) => r.op
  | some (.lb ..) => 0x64
  | some (.ur r) => 128 + r.op
  | some (.ub _ op ..) => 128 + op
  | some (.ui _ op ..) => 128 + op
  | some (.ue r) => 128 + r.op
  | none => 256

/-- The E bit of an instruction (R43). -/
def Instr.ebit (i : Instr) : Bool :=
  match i.toRaw with
  | some (.lr r) => r.e
  | some (.lb e ..) => e
  | some (.ur r) => r.e
  | some (.ub e ..) => e
  | some (.ui e ..) => e
  | some (.ue r) => r.e
  | none => false

/-- The words of a table row's number (bit 0 of the first word is bit 0), as many as the
longest instruction has; bits above `nbits` are 0. -/
def tableWords (nbits w : Nat) : List Word :=
  [wd (w % 2 ^ nbits), wd (w % 2 ^ nbits / 2 ^ 32), wd (w % 2 ^ nbits / 2 ^ 64),
   wd (w % 2 ^ nbits / 2 ^ 96), wd (w % 2 ^ nbits / 2 ^ 128), wd (w % 2 ^ nbits / 2 ^ 160)]

/-- What the decoder reads from a row's number. -/
def decodeTableWord (nbits w : Nat) : Option Instr := (decode (tableWords nbits w)).map Prod.fst

end Sys2Proof
end

