-- ==== Sys2Proof/Machine/Bits.lean ====
section
/-! DEFINITION. Plain helpers: bit fields of numbers and words, per-lane vectors, maps with
numbered entries, and memories as canonical lists of cells. -/
namespace Sys2Proof.Machine

/-! ### Bits -/

/-- Bits [hi:lo] of a number. -/
def bits (n hi lo : Nat) : Nat := n / 2 ^ lo % 2 ^ (hi + 1 - lo)
/-- Bits [hi:lo] of a word, as a number. -/
def wbits (w : Word) (hi lo : Nat) : Nat := bits w.toNat hi lo
/-- Bit `i` of a word. -/
def wbit (w : Word) (i : Nat) : Bool := w.getLsbD i
/-- A signed number as a word, modulo 2^32. -/
def iword (i : Int) : Word := BitVec.ofInt 32 i
/-- Sign extension of the low `n` bits of a number. -/
def sext (x n : Nat) : Int :=
  let y := x % 2 ^ n
  if n = 0 then 0 else if y < 2 ^ (n - 1) then (y : Int) else (y : Int) - 2 ^ n
/-- A number as a mask with bits [k-1:0] set. -/
def lowMask (k : Nat) : Mask := BitVec.ofNat 32 (2 ^ k - 1)
/-- Number of 1 bits of a word (R120). -/
def popcount (w : Word) : Nat := ((List.range 32).filter fun i => w.getLsbD i).length
/-- Integer clamped to a range. -/
def clampI (lo hi x : Int) : Int := if x < lo then lo else if hi < x then hi else x

/-! ### Lanes -/

/-- The lanes of a set, in ascending order. -/
def lanesOf (m : Mask) : List Nat := (List.range 32).filter fun l => m.getLsbD l
/-- The set of lanes for which a test holds. -/
def maskOf (f : Nat → Bool) : Mask :=
  (List.range 32).foldl (fun m l => if f l then m ||| BitVec.ofNat 32 (2 ^ l) else m) 0
/-- Value of a lane; a missing lane reads 0. -/
def lane (v : LVec) (l : Nat) : Word := v.getD l 0
/-- The vector whose lane `l` holds `f l`. -/
def tab (f : Nat → Word) : LVec := (List.range 32).map f
/-- `new` in the lanes of a set, `old` elsewhere. -/
def blend (m : Mask) (new old : Nat → Word) : LVec :=
  tab fun l => if m.getLsbD l then new l else old l

/-! ### Numbered entries -/

/-- Entries by number, numbers strictly rising. -/
abbrev SMap (α : Type) := List (Nat × α)

/-- The entry of a number. -/
def kget {α : Type} : SMap α → Nat → Option α
  | [], _ => none
  | (k, v) :: m, n => if k = n then some v else kget m n
/-- The map with an entry set. -/
def kset {α : Type} : SMap α → Nat → α → SMap α
  | [], n, x => [(n, x)]
  | (k, v) :: m, n, x =>
      if n < k then (n, x) :: (k, v) :: m
      else if n = k then (n, x) :: m
      else (k, v) :: kset m n x
/-- The map without an entry. -/
def kdel {α : Type} (m : SMap α) (n : Nat) : SMap α := m.filter fun p => p.1 != n
/-- The entry of a number, or a default. -/
def kgetD {α : Type} (m : SMap α) (n : Nat) (d : α) : α := (kget m n).getD d
/-- An entry changed where it is present. -/
def kmod {α : Type} (m : SMap α) (n : Nat) (f : α → α) : SMap α :=
  match kget m n with
  | some x => kset m n (f x)
  | none => m
/-- A number above every entry's. -/
def kfresh {α : Type} (m : SMap α) : Nat := m.foldl (fun n p => Nat.max n (p.1 + 1)) 0
/-- The numbers strictly rise. -/
def kwf {α : Type} : SMap α → Bool
  | [] => true
  | [_] => true
  | (a, _) :: (b, y) :: m => a < b && kwf ((b, y) :: m)

/-! ### Memory -/

/-- Memory as the bytes that differ from 0, addresses strictly rising. -/
abbrev Memory := List Host.Cell

/-- What an unlisted byte reads as. DESIGN CHOICE (log 2): 0. -/
def memDefault : Byte := 0

/-- One byte of memory. -/
def memGet : Memory → Nat → Byte
  | [], _ => memDefault
  | (k, v) :: m, a => if k = a then v else memGet m a

/-- Memory with one byte written, in canonical form: a byte equal to the default is not listed. -/
def memSet : Memory → Nat → Byte → Memory
  | [], a, b => if b = memDefault then [] else [(a, b)]
  | (k, v) :: m, a, b =>
      if a < k then (if b = memDefault then (k, v) :: m else (a, b) :: (k, v) :: m)
      else if a = k then (if b = memDefault then m else (a, b) :: m)
      else (k, v) :: memSet m a b

/-- Addresses strictly rise and no listed byte is the default. -/
def Memory.wf : Memory → Bool
  | [] => true
  | [(_, v)] => v != memDefault
  | (a, v) :: (b, w) :: m => v != memDefault && a < b && Memory.wf ((b, w) :: m)

/-- `n` bytes from an address, lowest first. -/
def memRead (m : Memory) (a n : Nat) : List Byte := (List.range n).map fun i => memGet m (a + i)
/-- Bytes written from an address. -/
def memWrite (m : Memory) (a : Nat) : List Byte → Memory
  | [] => m
  | b :: bs => memWrite (memSet m a b) (a + 1) bs

/-- The number that bytes form, little-endian (R6). -/
def leNat : List Byte → Nat
  | [] => 0
  | b :: bs => b.toNat + 256 * leNat bs
/-- The `n` bytes of a number, little-endian (R6). -/
def leBytes (x : Nat) : Nat → List Byte
  | 0 => []
  | n + 1 => BitVec.ofNat 8 x :: leBytes (x / 256) n

/-- Updates of a list element. -/
def lset {α : Type} (l : List α) (i : Nat) (x : α) : List α := l.set i x
def lmod {α : Type} (l : List α) (i : Nat) (f : α → α) : List α :=
  match l[i]? with
  | some x => l.set i (f x)
  | none => l

end Sys2Proof.Machine
end

