-- ==== Sys2Proof/Machine/Flags.lean ====
section
/-! DEFINITION. Number formats (R89 to R94), the one rounding function and every flag it sets
(R97 to R101), and the flags register's bits (R102). Exact values are sign, integer, and power of
two; nothing is rounded before `roundFP`, `roundInt` or `roundE8`. -/
namespace Sys2Proof.Machine

/-! ### FFLAGS bits (R102) -/
abbrev Flg := BitVec 32
def fNX : Flg := 1
def fUF : Flg := 2
def fOF : Flg := 4
def fDZ : Flg := 8
def fNV : Flg := 16
def fSAT : Flg := 32
def fWIN : Flg := 64

/-! ### Formats (R89, R90) -/

/-- What a format's top exponent means (R89). -/
inductive FPKind where
  | ieee | e4m3 | finite
  deriving DecidableEq, Repr

/-- Layout of a floating-point format (R89). -/
structure FP where
  eb : Nat
  mb : Nat
  bias : Int
  kind : FPKind
  deriving DecidableEq, Repr

def fp32 : FP := ⟨8, 23, 127, .ieee⟩
def fp16 : FP := ⟨5, 10, 15, .ieee⟩
def bf16 : FP := ⟨8, 7, 127, .ieee⟩
def e5m2 : FP := ⟨5, 2, 15, .ieee⟩
def e4m3 : FP := ⟨4, 3, 7, .e4m3⟩
def e3m2 : FP := ⟨3, 2, 3, .finite⟩
def e2m3 : FP := ⟨2, 3, 1, .finite⟩
def e2m1 : FP := ⟨2, 1, 1, .finite⟩

/-- The layout of a floating-point format code (R106). -/
def fpOf : Fmt → Option FP
  | .f32 => some fp32 | .f16 => some fp16 | .bf16 => some bf16 | .e5m2 => some e5m2
  | .e4m3 => some e4m3 | .e3m2 => some e3m2 | .e2m3 => some e2m3 | .e2m1 => some e2m1
  | .int8 | .int4 | .lut4 | .int32 | .int16 => none

/-- Total width of a layout. -/
def FP.width (f : FP) : Nat := f.eb + f.mb + 1
/-- Exponent of the least significant bit of a subnormal. -/
def FP.minLsb (f : FP) : Int := 1 - f.bias - f.mb
/-- Magnitude bits of the largest finite value (R90). -/
def FP.maxBits (f : FP) : Nat :=
  match f.kind with
  | .ieee => (2 ^ f.eb - 1) * 2 ^ f.mb - 1
  | .e4m3 => 0x7E
  | .finite => 2 ^ (f.eb + f.mb) - 1
/-- Magnitude bits of infinity, for the formats that have one. -/
def FP.infBits (f : FP) : Nat := (2 ^ f.eb - 1) * 2 ^ f.mb
/-- The canonical NaN (R90); for a format without NaN this is never delivered. -/
def FP.nanBits (f : FP) : Nat :=
  match f.kind with
  | .ieee => (2 ^ f.eb - 1) * 2 ^ f.mb + 2 ^ (f.mb - 1)
  | .e4m3 => 0x7F
  | .finite => 0
/-- The sign bit's weight. -/
def FP.signBit (f : FP) : Nat := 2 ^ (f.eb + f.mb)

/-- A value: NaN (signalling or quiet), infinity, or sign and magnitude `m × 2^e`. -/
inductive FV where
  | nan (sig : Bool)
  | inf (neg : Bool)
  | fin (neg : Bool) (m : Nat) (e : Int)
  deriving DecidableEq, Repr

/-- The value of a pattern of a format (R89). -/
def FP.decode (f : FP) (b : Nat) : FV :=
  let neg := bitOf b (f.eb + f.mb)
  let ex := b / 2 ^ f.mb % 2 ^ f.eb
  let m := b % 2 ^ f.mb
  let mag := b % f.signBit
  let num : FV :=
    if ex = 0 then .fin neg m f.minLsb else .fin neg (m + 2 ^ f.mb) (f.minLsb + ex - 1)
  match f.kind with
  | .ieee =>
      if ex = 2 ^ f.eb - 1 then
        if m = 0 then .inf neg
        else .nan (f.eb + f.mb > 8 && m / 2 ^ (f.mb - 1) == 0)
      else num
  | .e4m3 => if mag = 0x7F then .nan false else num
  | .finite => num

/-- A pattern is subnormal. -/
def FP.isSub (f : FP) (b : Nat) : Bool :=
  b / 2 ^ f.mb % 2 ^ f.eb == 0 && b % 2 ^ f.mb != 0
/-- Zero of the sign of a pattern. -/
def FP.signedZero (f : FP) (b : Nat) : Nat := if bitOf b (f.eb + f.mb) then f.signBit else 0

/-! ### Rounding (R97, R98) -/

/-- Rounding modes; stochastic carries its width and random bits (R98). -/
inductive RMode where
  | rne | rtz | rup | rdn | rna
  | sr (w r : Nat)
  deriving DecidableEq, Repr

/-- The mode a RND code selects where no slot is read (R54). -/
def modeOf (r : Rnd) (sr : RMode) : RMode :=
  match r with
  | .dflt => .rne | .rne => .rne | .rtz => .rtz | .rup => .rup | .rdn => .rdn | .rna => .rna
  | .sr => sr

/-- Whether a magnitude is rounded up, from its floor `t`, and the fraction `rem / 2^sh` above it. -/
def roundUp (mode : RMode) (neg : Bool) (t rem sh : Nat) : Bool :=
  if rem = 0 then false else
  match mode with
  | .rne => 2 * rem > 2 ^ sh || (2 * rem == 2 ^ sh && t % 2 == 1)
  | .rna => 2 * rem ≥ 2 ^ sh
  | .rtz => false
  | .rup => !neg
  | .rdn => neg
  | .sr w r => rem * 2 ^ w / 2 ^ sh + r ≥ 2 ^ w

/-- Magnitude `m × 2^e` rounded to a multiple of 2^q: the multiple, and whether it is inexact.
A shift far below the least bit is shortened; the fraction stays below every comparison. -/
def roundAt (mode : RMode) (neg : Bool) (m : Nat) (e q : Int) : Nat × Bool :=
  if q ≤ e then (m * 2 ^ (e - q).toNat, false)
  else
    let sh := Nat.min (q - e).toNat (Nat.log2 m + 40)
    let t := m / 2 ^ sh
    let rem := m % 2 ^ sh
    (if roundUp mode neg t rem sh then t + 1 else t, rem != 0)

/-- A magnitude whose exponent is beyond every format keeps only that it is. -/
def capExp (m : Nat) (e : Int) : Int :=
  if (Nat.log2 m : Int) + e > 400 then 400 - (Nat.log2 m : Int) else e

/-- Overflow of a floating-point destination (R99): magnitude bits delivered. -/
def overflowBits (f : FP) (ieeeSat neg : Bool) (mode : RMode) : Nat :=
  let inf := match mode with
    | .rtz => false
    | .rup => !neg
    | .rdn => neg
    | _ => true
  if !ieeeSat then f.maxBits
  else match f.kind with
    | .ieee => if inf then f.infBits else f.maxBits
    | .e4m3 => if inf then 0x7F else f.maxBits
    | .finite => f.maxBits

/-- Round of R13 and R99 for a finite value, into a floating-point format: pattern and flags. -/
def roundFin (f : FP) (ieeeSat : Bool) (mode : RMode) (neg : Bool) (m : Nat) (e : Int) :
    Nat × Flg :=
  let sg := if neg then f.signBit else 0
  if m = 0 then (sg, 0) else
  let e := capExp m e
  let top := (Nat.log2 m : Int) + e
  let qu := top - f.mb
  let q := if qu < f.minLsb then f.minLsb else qu
  let r := roundAt mode neg m e q
  let b := (q - f.minLsb).toNat * 2 ^ f.mb + r.1
  if b > f.maxBits then
    let o := overflowBits f ieeeSat neg mode
    -- E4M3 writes 0x7F for either sign (R91, R99)
    (if f.kind = .e4m3 ∧ o = 0x7F then 0x7F else sg + o, fOF ||| fNX)
  else
    let u := roundAt mode neg m e qu
    let tiny := top < f.minLsb + f.mb && (u.1 < 2 ^ (f.mb + 1) || top + 1 < f.minLsb + f.mb)
    (sg + b, if r.2 then (if tiny then fUF ||| fNX else fNX) else 0)

/-- Round of R13 and R99 for any value, into a floating-point format. A signalling NaN sets NV also where R101 calls
the pair exact (log 68). -/
def roundFP (f : FP) (ieeeSat : Bool) (mode : RMode) : FV → Nat × Flg
  | .nan sig =>
      match f.kind with
      | .finite => (0, fNV)
      | _ => (f.nanBits, if sig then fNV else 0)
  | .inf neg =>
      let sg := if neg then f.signBit else 0
      match f.kind, ieeeSat with
      | .ieee, true => (sg + f.infBits, 0)
      | .e4m3, true => (0x7F, fNV)
      | _, _ => (sg + f.maxBits, fNV)
  | .fin neg m e => roundFin f ieeeSat mode neg m e

/-- Round to an integer range (R99): the integer and the flags. -/
def roundInt (lo hi : Int) (mode : RMode) : FV → Int × Flg
  | .nan _ => (0, fNV)
  | .inf neg => (if neg then lo else hi, fNV)
  | .fin neg m e =>
      let r := roundAt mode neg m (capExp m e) 0
      let x : Int := if neg then -(r.1 : Int) else r.1
      if x < lo then (lo, fNV) else if hi < x then (hi, fNV)
      else (x, if r.2 then fNX else 0)

/-- Round to E8M0 (R99): the code and the flags. -/
def roundE8 (ieeeSat : Bool) (mode : RMode) : FV → Nat × Flg
  | .nan sig => (0xFF, if sig then fNV else 0)
  | .inf true => (0xFF, fNV)
  | .inf false => (if ieeeSat then 0xFF else 0xFE, fNV)
  | .fin _ 0 _ => (0x00, fUF ||| fNX)
  | .fin true _ _ => (0xFF, fNV)
  | .fin false m e =>
      let e := capExp m e
      let k := Nat.log2 m
      let top : Int := (k : Int) + e
      let exact := m == 2 ^ k
      let up : Bool := match mode with
        | .rup => !exact
        | .rne => 2 * m > 3 * 2 ^ k || (2 * m == 3 * 2 ^ k && (top + 127) % 2 != 0)
        | .rna => 2 * m ≥ 3 * 2 ^ k
        | _ => false
      let code := if up then top + 128 else top + 127
      if code > 254 then
        (if ieeeSat then match mode with
          | .rtz => 0xFE
          | .rdn => 0xFE
          | _ => 0xFF
         else 0xFE, fOF ||| fNX)
      else if code < 0 then (0, fUF ||| fNX)
      else (code.toNat, if exact then 0 else if top < -127 then fUF ||| fNX else fNX)

/-! ### Exact sums, products and comparisons -/

/-- An exact signed integer in units of 2^q, for values at or above that unit. -/
def scaled (q : Int) (neg : Bool) (m : Nat) (e : Int) : Int :=
  let x : Int := (m * 2 ^ (e - q).toNat : Nat)
  if neg then -x else x

/-- The least exponent of a list of terms. -/
def minExp (ts : List (Bool × Nat × Int)) : Int :=
  ts.foldl (fun q t => if t.2.2 < q then t.2.2 else q) 0

/-- Exact sum of terms: the sum in units of 2^q, and q. -/
def sumTerms (ts : List (Bool × Nat × Int)) : Int × Int :=
  let q := minExp ts
  (ts.foldl (fun s t => s + scaled q t.1 t.2.1 t.2.2) 0, q)

/-- The sign of an exact zero sum (R148): the common sign, else + except under RDN. -/
def zeroNeg (mode : RMode) (signs : List Bool) : Bool :=
  if signs.all id then true
  else if signs.all not then false
  else mode == .rdn

/-- An exact sum rounded once, special values aside. -/
def sumFin (f : FP) (mode : RMode) (zneg : Bool) (ts : List (Bool × Nat × Int)) : Nat × Flg :=
  let s := sumTerms ts
  if s.1 = 0 then (if zneg then f.signBit else 0, 0)
  else roundFin f true mode (s.1 < 0) s.1.natAbs s.2

/-- NaN of a format as a result, with NV where a flag is raised. -/
def nanRes (f : FP) (nv : Bool) : Nat × Flg := (f.nanBits, if nv then fNV else 0)

/-- x + y, rounded once (R148). -/
def addF (f : FP) (mode : RMode) : FV → FV → Nat × Flg
  | .nan a, .nan b => nanRes f (a || b)
  | .nan a, _ => nanRes f a
  | _, .nan b => nanRes f b
  | .inf a, .inf b => if a = b then roundFP f true mode (.inf a) else nanRes f true
  | .inf a, .fin .. => roundFP f true mode (.inf a)
  | .fin .., .inf b => roundFP f true mode (.inf b)
  | .fin sa ma ea, .fin sb mb eb =>
      sumFin f mode (zeroNeg mode [sa, sb]) [(sa, ma, ea), (sb, mb, eb)]

/-- Sign inversion of a value. -/
def FV.neg : FV → FV
  | .nan s => .nan s
  | .inf n => .inf (!n)
  | .fin n m e => .fin (!n) m e

/-- The exact product of two values; `nan true` where it is invalid or signalling. -/
def mulX : FV → FV → FV
  | .nan a, .nan b => .nan (a || b)
  | .nan a, _ => .nan a
  | _, .nan b => .nan b
  | .inf a, .inf b => .inf (a != b)
  | .inf a, .fin b m _ => if m = 0 then .nan true else .inf (a != b)
  | .fin a m _, .inf b => if m = 0 then .nan true else .inf (a != b)
  | .fin a ma ea, .fin b mb eb => .fin (a != b) (ma * mb) (ea + eb)

/-- x × y, rounded once (R148). -/
def mulF (f : FP) (mode : RMode) (x y : FV) : Nat × Flg := roundFP f true mode (mulX x y)

/-- x × y + z, rounded once (R148); 0 × ∞ raises NV even with a quiet NaN z. -/
def fmaF (f : FP) (mode : RMode) (x y z : FV) : Nat × Flg :=
  match mulX x y, z with
  | .nan a, .nan b => nanRes f (a || b)
  | .nan a, _ => nanRes f a
  | p, z => addF f mode p z

/-- Comparison of two values that are not NaN: −1, 0 or 1, with −0 equal to +0. -/
def cmpV : FV → FV → Int
  | .inf a, .inf b => if a = b then 0 else if a then -1 else 1
  | .inf a, _ => if a then -1 else 1
  | _, .inf b => if b then 1 else -1
  | .fin sa ma ea, .fin sb mb eb =>
      let q := if ea < eb then ea else eb
      let x := scaled q sa ma ea
      let y := scaled q sb mb eb
      if x < y then -1 else if y < x then 1 else 0
  | _, _ => 0

def FV.isNan : FV → Bool
  | .nan _ => true
  | _ => false
def FV.isSig : FV → Bool
  | .nan s => s
  | _ => false
def FV.isNeg : FV → Bool
  | .inf n => n
  | .fin n _ _ => n
  | _ => false
def FV.isZero : FV → Bool
  | .fin _ 0 _ => true
  | _ => false
def FV.isInf : FV → Bool
  | .inf _ => true
  | _ => false

/-- minimumNumber or maximumNumber of two patterns as read (R149). -/
def minMaxF (f : FP) (max : Bool) (a b : Nat) : Nat × Flg :=
  let x := f.decode a
  let y := f.decode b
  let nv : Flg := if x.isSig || y.isSig then fNV else 0
  match x.isNan, y.isNan with
  | true, true => (f.nanBits, nv)
  | true, false => (b, nv)
  | false, true => (a, nv)
  | false, false =>
      let c := cmpV x y
      let less := c < 0 || (c == 0 && x.isNeg && !y.isNeg)
      (if max then (if less then b else a) else (if less then a else if c = 0 ∧ x.isNeg = y.isNeg then a else b), 0)

/-- Quotient of two finite magnitudes, as a magnitude with its lost bits held by one low bit. -/
def divMag (ma : Nat) (ea : Int) (mb : Nat) (eb : Int) : Nat × Int :=
  let k := Nat.log2 mb + 40
  let n := ma * 2 ^ k
  (2 * (n / mb) + (if n % mb = 0 then 0 else 1), ea - eb - k - 1)

/-- x / y, rounded once (R150). -/
def divF (f : FP) (mode : RMode) : FV → FV → Nat × Flg
  | .nan a, .nan b => nanRes f (a || b)
  | .nan a, _ => nanRes f a
  | _, .nan b => nanRes f b
  | .inf _, .inf _ => nanRes f true
  | .inf a, .fin b _ _ => roundFP f true mode (.inf (a != b))
  | .fin a _ _, .inf b => roundFP f true mode (.fin (a != b) 0 0)
  | .fin a ma ea, .fin b mb eb =>
      if mb = 0 then
        if ma = 0 then nanRes f true
        else ((roundFP f true mode (.inf (a != b))).1, fDZ)
      else
        let q := divMag ma ea mb eb
        roundFin f true mode (a != b) q.1 q.2

/-- Integer square root by bits, from bit `k` down. -/
def isqrtAux (n : Nat) : Nat → Nat → Nat
  | 0, r => r
  | k + 1, r => isqrtAux n k (if (r + 2 ^ k) * (r + 2 ^ k) ≤ n then r + 2 ^ k else r)
def isqrt (n : Nat) : Nat := isqrtAux n (Nat.log2 n / 2 + 1) 0

/-- Square root of a magnitude, its lost bits held by one low bit. -/
def sqrtMag (m : Nat) (e : Int) : Nat × Int :=
  let k : Nat := if (e - 64) % 2 = 0 then 64 else 65
  let n := m * 2 ^ k
  let r := isqrt n
  (2 * r + (if r * r = n then 0 else 1), (e - k) / 2 - 1)

/-- √x, rounded once (R150). -/
def sqrtF (f : FP) (mode : RMode) : FV → Nat × Flg
  | .nan a => nanRes f a
  | .inf false => (f.infBits, 0)
  | .inf true => nanRes f true
  | .fin n m e =>
      if m = 0 then (if n then f.signBit else 0, 0)
      else if n then nanRes f true
      else
        let r := sqrtMag m e
        roundFin f true mode false r.1 r.2

/-- `.FTZ` on a result (R100): a subnormal becomes zero of its sign, with UF and NX. -/
def ftzRes (f : FP) (ftz : Bool) (r : Nat × Flg) : Nat × Flg :=
  if ftz && f.isSub r.1 then (f.signedZero r.1, r.2 ||| fUF ||| fNX) else r

/-- One source element read with its modifiers (R146), as a pattern. -/
def readMods (f : FP) (ftz ab neg : Bool) (b : Nat) : Nat :=
  let b := if ftz && f.isSub b then f.signedZero b else b
  let b := if ab then b % f.signBit else b
  if neg then (if bitOf b (f.eb + f.mb) then b - f.signBit else b + f.signBit) else b

end Sys2Proof.Machine
end

