-- ==== Sys2Proof/Machine/IntOps.lean ====
section
/-! DEFINITION. Integer, logic, shift, bit-field and byte functions of one lane (R117 to R123,
R128, R134, R136), also used by the uniform group (R138). -/
namespace Sys2Proof.Machine

/-- IADD (R117). -/
def addW (a b : Word) : Word := a + b
/-- ISUB (R117). -/
def subW (a b : Word) : Word := a - b
/-- IMUL: bits [31:0] of the product (R117). -/
def mulW (a b : Word) : Word := a * b
/-- IMULH: bits [63:32] of the exact product (R117). -/
def mulhW (u : Bool) (a b : Word) : Word :=
  if u then wd (a.toNat * b.toNat / 2 ^ 32) else iword (a.toInt * b.toInt / 2 ^ 32)
/-- IMAD (R117). -/
def madW (a b c : Word) : Word := a * b + c
/-- IADDS (R117). -/
def addsW (u : Bool) (a b : Word) : Word :=
  if u then wd (Nat.min (a.toNat + b.toNat) (2 ^ 32 - 1))
  else iword (clampI (-2 ^ 31) (2 ^ 31 - 1) (a.toInt + b.toInt))
/-- ISUBS (R117). -/
def subsW (u : Bool) (a b : Word) : Word :=
  if u then wd (a.toNat - b.toNat)
  else iword (clampI (-2 ^ 31) (2 ^ 31 - 1) (a.toInt - b.toInt))
/-- Less-than, signed or unsigned. -/
def ltW (u : Bool) (a b : Word) : Bool := if u then a.toNat < b.toNat else a.toInt < b.toInt
/-- IMIN and IMAX (R117). -/
def minW (u : Bool) (a b : Word) : Word := if ltW u b a then b else a
def maxW (u : Bool) (a b : Word) : Word := if ltW u a b then b else a
/-- IABS (R117). -/
def absW (sat : Bool) (a : Word) : Word :=
  if sat && a == 0x80000000 then 0x7FFFFFFF else wd a.toInt.natAbs
/-- IABSD (R117). -/
def absdW (u : Bool) (a b : Word) : Word :=
  if u then wd ((a.toNat : Int) - b.toNat).natAbs else wd (a.toInt - b.toInt).natAbs

/-- One bit of a three-input table (R118). -/
def tableBit (t : Nat) (a b c : Bool) : Bool := bitOf t (bit a + 2 * bit b + 4 * bit c)
/-- LOP3 (R118). -/
def lop3W (t : Nat) (a b c : Word) : Word :=
  maskOf fun i => tableBit t (a.getLsbD i) (b.getLsbD i) (c.getLsbD i)

/-- The shift count: the whole operand, or its low five bits under `.W` (R119). -/
def shCount (w : Bool) (b : Word) : Nat := if w then b.toNat % 32 else b.toNat
/-- SHL (R119). -/
def shlW (w : Bool) (a b : Word) : Word := if shCount w b < 32 then a <<< shCount w b else 0
/-- SHR (R119). -/
def shrW (w : Bool) (a b : Word) : Word := if shCount w b < 32 then a >>> shCount w b else 0
/-- SAR (R119). -/
def sarW (w : Bool) (a b : Word) : Word :=
  a.sshiftRight (Nat.min (shCount w b) 31)
/-- ROL (R119). -/
def rolW (a b : Word) : Word := a.rotateLeft (b.toNat % 32)

/-- CLZ (R120). -/
def clzW (a : Word) : Word := wd (if a = 0 then 32 else 31 - Nat.log2 a.toNat)
/-- BREV (R120). -/
def brevW (a : Word) : Word := maskOf fun i => a.getLsbD (31 - i)
/-- POPC (R120). -/
def popcW (a : Word) : Word := wd (popcount a)

/-- BFX (R121). -/
def bfxW (sx : Bool) (a ctl : Word) : Word :=
  let lo := wbits ctl 4 0
  let hi := wbits ctl 12 8
  if hi < lo then 0
  else if sx then iword (sext (wbits a hi lo) (hi - lo + 1)) else wd (wbits a hi lo)
/-- BFI (R121). -/
def bfiW (a b ctl : Word) : Word :=
  let lo := wbits ctl 4 0
  let hi := wbits ctl 12 8
  if hi < lo then a
  else maskOf fun i => if lo ≤ i && i ≤ hi then b.getLsbD (i - lo) else a.getLsbD i

/-- LEA (R122). -/
def leaW (n : Nat) (a b : Word) : Word := wd (a.toNat + b.toNat * 2 ^ n)

/-- Element `i` of width `w` of a word, by its signedness (R123). -/
def intElem (w : Nat) (u : Bool) (x : Word) (i : Nat) : Int :=
  let y := x.toNat / 2 ^ (w * i) % 2 ^ w
  if u then y else sext y w
/-- IDOT4 and IDOT2: `n` elements of width `w` (R123). -/
def idotW (n w : Nat) (ua ub sat : Bool) (a b c : Word) : Word :=
  let sum := (List.range n).foldl
    (fun (s : Int) i => s + intElem w ua a i * intElem w ub b i) c.toInt
  iword (if sat then clampI (-2 ^ 31) (2 ^ 31 - 1) sum else sum)

/-- Byte `i` of a word. -/
def byteOf (w : Word) (i : Nat) : Nat := w.toNat / 2 ^ (8 * i) % 256
/-- A word from four bytes. -/
def wordOfBytes (f : Nat → Nat) : Word :=
  wd (f 0 % 256 + f 1 % 256 * 256 + f 2 % 256 * 65536 + f 3 % 256 * 16777216)
/-- The bits of a byte in reverse order. -/
def revByte (b : Nat) : Nat :=
  (List.range 8).foldl (fun r k => r + bit (bitOf b k) * 2 ^ (7 - k)) 0
/-- PRMT (R128). -/
def prmtW (a b c : Word) : Word :=
  wordOfBytes fun i =>
    let ctl := byteOf c i
    if bitOf ctl 3 then 0
    else
      let s := ctl % 8
      let x := if s < 4 then byteOf a s else byteOf b (s - 4)
      let x := if bitOf ctl 5 then revByte x else x
      if bitOf ctl 4 then 255 - x else x

/-- The outcome of an ICMP condition (R134). -/
def icondW (c : ICond) (a b : Word) : Bool :=
  match c with
  | .eq => a == b
  | .ne => a != b
  | .lt => ltW false a b
  | .le => !ltW false b a
  | .gt => ltW false b a
  | .ge => !ltW false a b
  | .ltu => ltW true a b
  | .leu => !ltW true b a
  | .gtu => ltW true b a
  | .geu => !ltW true a b

/-- A comparison outcome combined with a predicate (R133). -/
def combine (c : Comb) (x p : Bool) : Bool :=
  match c with
  | .none => x
  | .and => x && p
  | .or => x || p
  | .xor => x != p

/-- New value of an atomic operation of width `n` bits, integer operations (R205). -/
def atomInt (op : AtomOp) (n : Nat) (m x : Nat) : Nat :=
  match op with
  | .add => (m + x) % 2 ^ n
  | .smin => if sext x n < sext m n then x else m
  | .smax => if sext m n < sext x n then x else m
  | .umin => Nat.min m x
  | .umax => Nat.max m x
  | .and => m &&& x
  | .or => m ||| x
  | .xor => m ^^^ x
  | _ => x

end Sys2Proof.Machine
end

