-- ==== Sys2Proof/Machine/FloatOps.lean ====
section
/-! DEFINITION. The F32 and packed 16-bit functions of one lane (R148 to R157), comparisons
(R135), and the floating-point atomics (R205): each gives a word and the flags it raises. -/
namespace Sys2Proof.Machine

/-- A result word with the flags it raises. -/
abbrev WF := Word × Flg

/-- An F32 operand read with its modifiers (R146). -/
def in32 (ftz ab neg : Bool) (w : Word) : Nat := readMods fp32 ftz ab neg w.toNat
/-- Operand A, B and C of an F32 instruction. -/
def inA (f : FMods) (w : Word) : Nat := in32 f.ftz f.aa f.na w
def inB (f : FMods) (w : Word) : Nat := in32 f.ftz f.ab f.nb w
def inC (f : FMods) (w : Word) : Nat := in32 f.ftz false f.nc w

/-- A pattern and flags as a word, after `.FTZ`. -/
def fin32 (ftz : Bool) (r : Nat × Flg) : WF :=
  let r := ftzRes fp32 ftz r
  (wd r.1, r.2)

/-- The value of an F32 pattern. -/
def v32 (b : Nat) : FV := fp32.decode b

/-- FADD, FSUB, FMUL, FFMA (R148). -/
def faddW (f : FMods) (r : Rnd) (a b : Word) : WF :=
  fin32 f.ftz (addF fp32 (modeOf r .rne) (v32 (inA f a)) (v32 (inB f b)))
def fsubW (f : FMods) (r : Rnd) (a b : Word) : WF :=
  fin32 f.ftz (addF fp32 (modeOf r .rne) (v32 (inA f a)) (v32 (inB f b)).neg)
def fmulW (f : FMods) (r : Rnd) (a b : Word) : WF :=
  fin32 f.ftz (mulF fp32 (modeOf r .rne) (v32 (inA f a)) (v32 (inB f b)))
def ffmaW (f : FMods) (r : Rnd) (a b c : Word) : WF :=
  fin32 f.ftz (fmaF fp32 (modeOf r .rne) (v32 (inA f a)) (v32 (inB f b)) (v32 (inC f c)))

/-- FMIN, FMAX (R149). -/
def fminW (f : FMods) (a b : Word) : WF :=
  let r := minMaxF fp32 false (inA f a) (inB f b)
  (wd r.1, r.2)
def fmaxW (f : FMods) (a b : Word) : WF :=
  let r := minMaxF fp32 true (inA f a) (inB f b)
  (wd r.1, r.2)

/-- FDIV, FSQRT (R150). -/
def fdivW (f : FMods) (r : Rnd) (a b : Word) : WF :=
  fin32 f.ftz (divF fp32 (modeOf r .rne) (v32 (inA f a)) (v32 (inB f b)))
def fsqrtW (f : FMods) (r : Rnd) (a : Word) : WF :=
  fin32 f.ftz (sqrtF fp32 (modeOf r .rne) (v32 (inA f a)))

/-- FSCALE (R153): a NaN, infinity or zero is kept. -/
def fscaleW (f : FMods) (r : Rnd) (a b : Word) : WF :=
  fin32 f.ftz (match v32 (inA f a) with
    | .fin n m e => roundFin fp32 true (modeOf r .rne) n m (if m = 0 then 0 else e + b.toInt)
    | v => roundFP fp32 true .rne v)

/-- FFRAC (R153): x − trunc(x), exact, with the sign of x. -/
def ffracW (f : FMods) (a : Word) : WF :=
  fin32 f.ftz (match v32 (inA f a) with
    | .nan s => nanRes fp32 s
    | .inf _ => nanRes fp32 true
    | .fin n m e =>
        let r : Nat := if 0 ≤ e then 0 else m % 2 ^ (-e).toNat
        if r = 0 then (if n then fp32.signBit else 0, 0) else roundFin fp32 true .rne n r e)

/-- FRINT (R153): rounds to an integral value; only NV is ever set. -/
def frintW (f : FMods) (r : Rnd) (a : Word) : WF :=
  let b := inA f a
  match v32 b with
  | .nan s => (wd fp32.nanBits, if s then fNV else 0)
  | .inf _ => (wd b, 0)
  | .fin n m e =>
      if m = 0 ∨ 0 ≤ e then (wd b, 0)
      else
        let k := roundAt (modeOf r .rne) n m e 0
        (wd (roundFin fp32 true .rne n k.1 0).1, 0)

/-- FCLASS (R154). -/
def fclassW (a : Word) : Word :=
  let n := wbit a 31
  let k : Nat := match v32 a.toNat with
    | .nan s => if s then 8 else 9
    | .inf _ => if n then 0 else 7
    | .fin _ m _ =>
        if m = 0 then (if n then 3 else 4)
        else if fp32.isSub a.toNat then (if n then 2 else 5)
        else (if n then 1 else 6)
  wd (2 ^ k)

/-- FCOPYS (R155). -/
def fcopysW (sg : SignSel) (a b : Word) : Word :=
  let g := match sg with
    | .copy => wbit b 31
    | .neg => !wbit b 31
    | .xor => wbit a 31 != wbit b 31
  (a &&& 0x7FFFFFFF) ||| (if g then 0x80000000 else 0)

/-! ### Packed halves (R156) -/

/-- The half format (R133, R156). -/
def halfFP (bf : Bool) : FP := if bf then bf16 else fp16
/-- Half `i` of a word. -/
def half (w : Word) (i : Nat) : Nat := w.toNat / 2 ^ (16 * i) % 65536
/-- Two halves as a word; the flags are ORed. -/
def pack2 (h : Nat → Nat × Flg) : WF := (wd ((h 0).1 + (h 1).1 * 65536), (h 0).2 ||| (h 1).2)

def hadd2W (bf : Bool) (f : FMods) (r : Rnd) (a b : Word) : WF :=
  let h := halfFP bf
  pack2 fun i => ftzRes h f.ftz (addF h (modeOf r .rne)
    (h.decode (readMods h f.ftz f.aa f.na (half a i)))
    (h.decode (readMods h f.ftz f.ab f.nb (half b i))))
def hmul2W (bf : Bool) (f : FMods) (r : Rnd) (a b : Word) : WF :=
  let h := halfFP bf
  pack2 fun i => ftzRes h f.ftz (mulF h (modeOf r .rne)
    (h.decode (readMods h f.ftz f.aa f.na (half a i)))
    (h.decode (readMods h f.ftz f.ab f.nb (half b i))))
def hfma2W (bf : Bool) (f : FMods) (r : Rnd) (a b c : Word) : WF :=
  let h := halfFP bf
  pack2 fun i => ftzRes h f.ftz (fmaF h (modeOf r .rne)
    (h.decode (readMods h f.ftz f.aa f.na (half a i)))
    (h.decode (readMods h f.ftz f.ab f.nb (half b i)))
    (h.decode (readMods h f.ftz false f.nc (half c i))))
def hminmax2W (bf max : Bool) (f : FMods) (a b : Word) : WF :=
  let h := halfFP bf
  pack2 fun i => minMaxF h max (readMods h f.ftz f.aa f.na (half a i))
    (readMods h f.ftz f.ab f.nb (half b i))

/-! ### Short dot products (R157) -/

/-- The terms of a dot product that are finite. -/
def finTerms (vs : List FV) : List (Bool × Nat × Int) :=
  vs.filterMap fun v => match v with
    | .fin n m e => some (n, m, e)
    | _ => none

/-- The sum of exact products and an accumulator, one rounding (R157). -/
def dotF (mode : RMode) (xs ys : List FV) (z : FV) : Nat × Flg :=
  let ops := xs ++ ys ++ [z]
  let ts := List.zipWith mulX xs ys ++ [z]
  if ops.any FV.isNan then nanRes fp32 (ops.any FV.isSig)
  else if ts.any FV.isNan then nanRes fp32 true
  else
    let infs := ts.filter FV.isInf
    if infs.any FV.isNeg && infs.any (fun v => !v.isNeg) then nanRes fp32 true
    else match infs with
      | v :: _ => roundFP fp32 true mode v
      | [] =>
          let zneg := (ts.all fun v => v.isZero && v.isNeg) || mode == .rdn
          sumFin fp32 mode zneg (finTerms ts)

def fdot2W (bf : Bool) (f : FMods) (r : Rnd) (a b c : Word) : WF :=
  let h := halfFP bf
  let xs := (List.range 2).map fun i => h.decode (readMods h f.ftz false f.na (half a i))
  let ys := (List.range 2).map fun i => h.decode (readMods h f.ftz false f.nb (half b i))
  fin32 f.ftz (dotF (modeOf r .rne) xs ys (v32 (inC f c)))
def fdot4W (fa fb nc : Bool) (r : Rnd) (a b c : Word) : WF :=
  let pa := if fa then e5m2 else e4m3
  let pb := if fb then e5m2 else e4m3
  let xs := (List.range 4).map fun i => pa.decode (byteOf a i)
  let ys := (List.range 4).map fun i => pb.decode (byteOf b i)
  fin32 false (dotF (modeOf r .rne) xs ys (v32 (in32 false false nc c)))

/-! ### Comparisons (R135) -/

/-- The outcome of a condition and whether it raises NV. -/
def fcondV (c : FCond) (x y : FV) : Bool × Bool :=
  let un := x.isNan || y.isNan
  let sig := x.isSig || y.isSig
  let k := cmpV x y
  let ord := fun (b : Bool) => !un && b
  let uno := fun (b : Bool) => un || b
  match c with
  | .eq => (ord (k == 0), sig)
  | .ne => (ord (k != 0), sig)
  | .lt => (ord (k < 0), un)
  | .le => (ord (k ≤ 0), un)
  | .gt => (ord (k > 0), un)
  | .ge => (ord (k ≥ 0), un)
  | .num => (!un, sig)
  | .nan => (un, sig)
  | .equ => (uno (k == 0), sig)
  | .neu => (uno (k != 0), sig)
  | .ltu => (uno (k < 0), sig)
  | .leu => (uno (k ≤ 0), sig)
  | .gtu => (uno (k > 0), sig)
  | .geu => (uno (k ≥ 0), sig)

/-- FCMP's outcome and flags. -/
def fcmpW (c : FCond) (ftz : Bool) (a b : Word) : Bool × Flg :=
  let r := fcondV c (v32 (in32 ftz false false a)) (v32 (in32 ftz false false b))
  (r.1, if r.2 then fNV else 0)
/-- One half of HCMP2. -/
def hcmpW (bf : Bool) (c : FCond) (ftz : Bool) (i : Nat) (a b : Word) : Bool × Flg :=
  let h := halfFP bf
  let r := fcondV c (h.decode (readMods h ftz false false (half a i)))
    (h.decode (readMods h ftz false false (half b i)))
  (r.1, if r.2 then fNV else 0)

/-! ### Atomics (R205) -/

/-- New value of one 32-bit word under an atomic operation; no flag is kept. -/
def atomWord (op : AtomOp) (m x : Word) : Word :=
  match op with
  | .fadd => wd (addF fp32 .rne (v32 m.toNat) (v32 x.toNat)).1
  | .badd2 => (pack2 fun i => addF bf16 .rne (bf16.decode (half m i)) (bf16.decode (half x i))).1
  | .fmax => wd (minMaxF fp32 true m.toNat x.toNat).1
  | op => wd (atomInt op 32 m.toNat x.toNat)

/-- New words of an atomic by its shape (R205, R216). -/
def atomNew (op : AtomOp) (sh : AtomShape) (m x : List Word) : List Word :=
  match sh with
  | .d64 =>
      let f := fun (l : List Word) => (l.getD 0 0).toNat + (l.getD 1 0).toNat * 2 ^ 32
      let n := atomInt op 64 (f m) (f x)
      [wd n, wd (n / 2 ^ 32)]
  | _ => List.zipWith (atomWord op) m x

end Sys2Proof.Machine
end

