-- ==== Sys2Proof/Machine/Convert.lean ====
section
/-! DEFINITION. Conversions between element formats (R101, R158 to R167), the format slot's
fields (R105), and block scales (R164). -/
namespace Sys2Proof.Machine

/-! ### Format slots (R105) -/

/-- Bits [hi:lo] of a format slot. -/
def slotBits (s : DWord) (hi lo : Nat) : Nat := bits s.toNat hi lo
def slotBexp (s : DWord) : Int := sext (slotBits s 63 56) 8
def slotAfmt (s : DWord) : Option Fmt := Fmt.ofCode (slotBits s 55 52)
def slotBfmt (s : DWord) : Option Fmt := Fmt.ofCode (slotBits s 51 48)
def slotDfmt (s : DWord) : Option Fmt := Fmt.ofCode (slotBits s 47 44)
def slotAsck (s : DWord) : Nat := slotBits s 43 42
def slotBsck (s : DWord) : Nat := slotBits s 41 40
def slotAsloc (s : DWord) : Nat := slotBits s 39 29
def slotBsloc (s : DWord) : Nat := slotBits s 28 18
def slotLutloc (s : DWord) : Nat := slotBits s 17 7
/-- SAT: true for IEEE, false for finite (R99). -/
def slotSat (s : DWord) : Bool := slotBits s 6 5 == 1
/-- DRND, with 0b000 read as RNE (R108). -/
def slotMode (s : DWord) : RMode :=
  match slotBits s 4 2 with
  | 2 => .rtz | 3 => .rup | 4 => .rdn | 5 => .rna | _ => .rne
/-- A slot that R108 lets a launch bind: no reserved value in any field. -/
def slotOk (s : DWord) : Bool :=
  slotBits s 55 52 < 12 && slotBits s 51 48 < 12 && slotBits s 47 44 < 12
    && slotAsck s < 3 && slotBsck s < 3 && slotBits s 6 5 < 2 && slotBits s 4 2 < 6
    && slotBits s 1 0 == 0

/-- The mode of an instruction that reads a slot (R54, R108). -/
def slotRnd (s : DWord) (r : Rnd) (sr : RMode) : RMode :=
  if r = .dflt then slotMode s else modeOf r sr

/-! ### One element -/

/-- A source element's value: sign or zero extension for integers (R159). -/
def elemVal (t : Fmt) (u : Bool) (b : Nat) : FV :=
  match fpOf t with
  | some f => f.decode (b % 2 ^ f.width)
  | none =>
      let x := if u then ((b % 2 ^ t.width : Nat) : Int) else sext b t.width
      .fin (x < 0) x.natAbs 0

/-- The range of an integer destination (R160). -/
def intLo (t : Fmt) (u : Bool) : Int := if u then 0 else -(2 ^ (t.width - 1) : Nat)
def intHi (t : Fmt) (u : Bool) : Int :=
  if u then (2 ^ t.width - 1 : Nat) else (2 ^ (t.width - 1) - 1 : Nat)

/-- The destination holds every value of a floating-point source, infinities too: the conversion is
exact, whatever SAT is (R101). -/
def exactPair (f : FP) (src : Fmt) : Bool :=
  match fpOf src with
  | some g => f.kind == .ieee && decide (g.eb ≤ f.eb) && decide (g.mb ≤ f.mb)
  | none => false
/-- One element converted: its pattern in the destination's width, and the flags (R101). -/
def convElem (dst src : Fmt) (u ieeeSat : Bool) (mode : RMode) (b : Nat) : Nat × Flg :=
  match fpOf dst with
  | some f => roundFP f (ieeeSat || exactPair f src) mode (elemVal src u b)
  | none =>
      if src.isInt then
        let x := if u then ((b % 2 ^ src.width : Nat) : Int) else sext b src.width
        -- integer to integer: clamped, or its low bits kept; no flag
        let y := if src.width ≤ dst.width ∨ ieeeSat then x else clampI (intLo dst u) (intHi dst u) x
        ((y % (2 ^ dst.width : Nat)).toNat, 0)
      else
        let r := roundInt (intLo dst u) (intHi dst u) mode (elemVal src u b)
        ((r.1 % (2 ^ dst.width : Nat)).toNat, r.2)

/-- Random bits of an element under `.SR` (R160): `w` bits at bit `w × i` of C. -/
def srMode (w : Nat) (c : Word) (i : Nat) : RMode := .sr w (c.toNat / 2 ^ (w * i) % 2 ^ w)

/-- CVT (R159, R160). -/
def cvtW (dst src : Fmt) (u : Bool) (s : DWord) (r : Rnd) (a c : Word) : WF :=
  let x := convElem dst src u (slotSat s) (slotRnd s r (srMode 16 c 0)) a.toNat
  (if dst.isInt && !u then iword (sext x.1 dst.width) else wd x.1, x.2)

/-- Where element `i` of a packed result stands (R160). -/
def elemPos (dst : Fmt) (i : Nat) : Nat :=
  if dst.width = 16 then 16 * i else if dst.width = 4 then 4 * i else 8 * i

/-- Elements packed into a word, flags ORed (R160). -/
def packElems (dst : Fmt) (xs : List (Nat × Flg)) : WF :=
  let go := xs.foldl (fun (acc : Nat × Nat × Flg) x =>
    (acc.1 + 1, acc.2.1 + x.1 * 2 ^ elemPos dst acc.1, acc.2.2 ||| x.2)) (0, 0, 0)
  (wd go.2.1, go.2.2)

/-- CVT2 (R159, R160). -/
def cvt2W (dst src : Fmt) (u : Bool) (s : DWord) (r : Rnd) (a b c : Word) : WF :=
  packElems dst ((List.range 2).map fun i =>
    convElem dst src u (slotSat s) (slotRnd s r (srMode 16 c i)) (if i = 0 then a else b).toNat)
/-- CVT4 (R159, R160). -/
def cvt4W (dst src : Fmt) (u : Bool) (s : DWord) (r : Rnd) (a b c : Word) : WF :=
  packElems dst ((List.range 4).map fun i =>
    convElem dst src u (slotSat s) (slotRnd s r (srMode 8 c i))
      (half (if i < 2 then a else b) (i % 2)))

/-- An element widened exactly to F32, or to INT32 (R161). -/
def widenElem (t : Fmt) (b : Nat) : WF :=
  match fpOf t with
  | some f =>
      let r := roundFP fp32 true .rne (f.decode (b % 2 ^ f.width))
      (wd r.1, r.2)
  | none => (iword (sext b t.width), 0)
/-- UNPK2 (R161). -/
def unpk2W (t : Fmt) (hi : Bool) (a : Word) : WF := widenElem t (half a (bit hi))
/-- UNPK4 (R161). -/
def unpk4W (t : Fmt) (i : Nat) (a : Word) : WF :=
  widenElem t (a.toNat / 2 ^ (if t.width = 4 then 4 * i else 8 * i))

/-! ### Expansion (R96, R162) -/

/-- The formats XPAND expands (R162). -/
def xpandFmt (t : Fmt) : Bool :=
  t == .e2m1 || t == .e3m2 || t == .e2m3 || t == .int4 || t == .lut4
/-- The E4M3 pattern of a code (R96); `lut` is the 16-byte table. -/
def expandCode (t : Fmt) (lut : List Byte) (code : Nat) : Nat :=
  match t with
  | .lut4 => (lut.getD code 0).toNat
  | _ => (roundFP e4m3 false .rne (elemVal t false code)).1
/-- XPAND's word (R162). -/
def xpandW (t : Fmt) (hi : Bool) (lut : List Byte) (a : Word) : Word :=
  wordOfBytes fun i => expandCode t lut
    (if t.width = 4 then a.toNat / 2 ^ (4 * (i + 4 * bit hi)) % 16 else byteOf a i % 64)

/-- SROUND (R163). -/
def sroundW (t : Fmt) (s : DWord) (r : Rnd) (a c : Word) : WF :=
  match fpOf t with
  | some f =>
      let x := roundFP f (slotSat s) (slotRnd s r (srMode 16 c 0)) (v32 a.toNat)
      (wd (roundFP fp32 true .rne (f.decode x.1)).1, x.2)
  | none => (a, 0)

/-! ### Block quantisation (R164 to R166) -/

/-- Exponent of the largest finite value of a block format (R164). -/
def emax : Fmt → Int
  | .e4m3 => 8 | .e5m2 => 15 | .e3m2 => 4 | _ => 2

/-- The formats SQZ8 and SCALEOF take from DFMT (R165, R166). -/
def blockFmt (t : Fmt) : Bool := t == .e4m3 || t == .e5m2 || t == .e3m2 || t == .e2m3

/-- ⌊log2 |x|⌋ of a finite nonzero F32 value. -/
def floorLog2 : FV → Option Int
  | .fin _ m e => if m = 0 then none else some ((Nat.log2 m : Int) + e)
  | _ => none

/-- The shared scale code of a set of values (R164). -/
def scaleOf (t : Fmt) (vs : List FV) : Nat :=
  if vs.any (fun v => v.isNan || v.isInf) then 0xFF
  else
    let top := vs.foldl (fun (b : Option Int) v => match b, floorLog2 v with
      | none, y => y
      | some x, some y => some (if x < y then y else x)
      | some x, none => some x) none
    match top with
    | none => 0
    | some k => (clampI (-127) 127 (k - emax t) + 127).toNat

/-- One element rounded against the shared scale (R166). -/
def sqzElem (t : Fmt) (s : DWord) (r : Rnd) (scale : Nat) (a c : Word) : Nat × Flg :=
  match fpOf t with
  | some f =>
      match v32 a.toNat with
      | .fin n m e => roundFin f (slotSat s) (slotRnd s r (srMode 16 c 0)) n m (e + 127 - scale)
      | v => roundFP f (slotSat s) .rne v
  | none => (0, 0)

end Sys2Proof.Machine
end

