-- ==== Sys2Proof/Config.lean ====
section
/-! DEFINITION. What one implementation of Troldisk revision 1 fixes: the values that the spec
leaves open, as opaque constants, and the sizes of the Narbin 16. -/
namespace Sys2Proof.Config

/-- Dies of the device (R16). -/
def dies : Nat := 16
/-- Cores of one die (R16). -/
def coresPerDie : Nat := 40
/-- Cores of the device (R16). -/
def cores : Nat := 640

/-- The value an implementation of an approximated function aims at (R151): `fn` is the opcode
of the function, `x` and `y` are the operand bits after R146. Only a value within the bound of
R151 is ever returned (Machine/Approx.lean). -/
opaque approx : Nat → Word → Word → Word

/-- Free values of the machine: a value that the spec leaves open is this constant at the
counter `State.free`. -/
opaque freeWord : Nat → BitVec 64

/-- What an instruction fetch finds at an address whose block does not verify, at a count of the free values
(log 61). -/
opaque badCode : Nat → Nat → Word

/-- The set of a memory-side cache that serves a 256-byte line of memory (R26). -/
opaque cacheSet : Nat → Nat

/-- Word `n` of the SHA-384 measurement of an image (R451). -/
opaque sha384 : List Word → Nat → Word

/-- Word `n` of the signature of a report under the device identity key (R451): 0 Ed25519, 1 ML-DSA-65. -/
opaque signature : Nat → List Word → Nat → Word

end Sys2Proof.Config
end

