-- ==== Sys2Proof/Machine/Accum.lean ====
section
/-! DEFINITION. Long accumulators and their tiles (R109 to R112), what each matrix command
computes (R176 to R188), and the reductions of the drover (R264). -/
namespace Sys2Proof.Machine

/-! ### One accumulator (R109) -/

/-- The special patterns and the largest finite integer of a long accumulator. -/
def accNaN : Int := -2 ^ 191
def accNegInf : Int := -2 ^ 191 + 1
def accPosInf : Int := 2 ^ 191 - 1
def accMax : Int := 2 ^ 191 - 2

/-- An addend: an exact value, or a raw pattern in LSB units. -/
inductive Addend where
  | val (v : FV)
  | raw (n : Int)
  deriving DecidableEq, Repr

/-- A pattern after an addition, with the WINEXACT and SATURATE it raises. -/
abbrev AccRes := Int × Bool × Bool

/-- AccAdd's special cases and finite sum, from an addend already in LSB units. -/
def accSum (acc m : Int) (win : Bool) : AccRes :=
  if acc = accPosInf ∨ acc = accNegInf then (acc, false, false)
  else
    let t := acc + m
    if accMax < t then (accMax, win, true)
    else if t < -accMax then (-accMax, win, true)
    else (t, win, false)

/-- AccAdd with an infinite addend. -/
def accInf (acc : Int) (neg : Bool) : AccRes :=
  let inf := if neg then accNegInf else accPosInf
  let opp := if neg then accPosInf else accNegInf
  if acc = opp then (accNaN, false, false) else (inf, false, false)

/-- AccAdd (R109) under base exponent `B`. An infinite or NaN element returns before WINEXACT is tested, as R109 writes
it, against what R111 says of WINEXACT (log 66). -/
def accAdd (B : Int) (acc : Int) (x : Addend) : AccRes :=
  if acc = accNaN then (accNaN, false, false) else
  match x with
  | .val (.nan _) => (accNaN, false, false)
  | .val (.inf n) => accInf acc n
  | .val (.fin n m e) =>
      let r := roundAt .rne n m (e - (B - 120)) 0
      -- an infinity returns before the addend is classified as inexact
      accSum acc (if n then -(r.1 : Int) else r.1) r.2
  | .raw p =>
      if p = accNaN then (accNaN, false, false)
      else if p = accPosInf then accInf acc false
      else if p = accNegInf then accInf acc true
      else accSum acc p false

/-- The exact product of two elements and their scales (R109). -/
def prodVal (a b : FV) (sa sb : Nat) : FV :=
  if a.isNan || b.isNan || sa == 0xFF || sb == 0xFF then .nan false
  else match mulX a b with
    | .fin n m e => .fin n m (e + (sa : Int) + (sb : Int) - 254)
    | v => v

/-! ### Tiles -/

/-- An accumulator tile: element (i, j) is entry 32i + j, absent is 0; sticky flags (R110). -/
structure Tile where
  cells : SMap Int
  win : Bool
  sat : Bool
  deriving DecidableEq, Repr

def Tile.zero : Tile := ⟨[], false, false⟩
def Tile.get (t : Tile) (k : Nat) : Int := kgetD t.cells k 0

/-- Every element of a tile given a new pattern; zero patterns are not listed. -/
def Tile.build (f : Nat → AccRes) (win sat : Bool) : Tile :=
  (List.range 1024).foldl (fun t k =>
    let r := f k
    { cells := if r.1 = 0 then t.cells else t.cells ++ [(k, r.1)]
      win := t.win || r.2.1, sat := t.sat || r.2.2 }) ⟨[], win, sat⟩

/-! ### MMA (R168, R176, R177, R182) -/

/-- Reads of the fold's scratchpad by fold-relative byte. -/
abbrev SpRead := Nat → Byte

/-- Whether a format is a native matrix operand (R106). -/
def nativeFmt (t : Fmt) : Bool := t == .e4m3 || t == .e5m2 || t == .e2m1 || t == .int8
/-- Whether two formats form a pair of R168. -/
def pairOk (a b : Fmt) : Bool :=
  nativeFmt a && nativeFmt b && ((a == .int8) == (b == .int8))

/-- Chunks of an operand extent for K (R176). -/
def operandChunks (t : Fmt) (K : Nat) : Nat := if t = .e2m1 then K / 32 else K / 16
/-- Chunks that a run of bytes spans. -/
def byteChunks (start n : Nat) : List Nat :=
  if n = 0 then [] else
    (List.range ((start + n - 1) / 512 - start / 512 + 1)).map fun i => start / 512 + i
/-- Bytes of scales for a scale kind (R177). -/
def scaleBytes (kind K : Nat) : Nat := if kind = 0 then 0 else if kind = 1 then K else 1

/-- The element of an operand at row or column `i` and step `k` (R176). -/
def operandElem (rd : SpRead) (t : Fmt) (first i k : Nat) : FV :=
  let p := k / 32
  let kk := k % 32
  if t = .e2m1 then
    let b := (rd (512 * first + 512 * p + 16 * i + kk / 2)).toNat
    elemVal t false (if kk % 2 = 0 then b % 16 else b / 16)
  else elemVal t false (rd (512 * first + 1024 * p + 32 * i + kk)).toNat

/-- The scale code of an element (R177). -/
def scaleCode (rd : SpRead) (kind base i k : Nat) : Nat :=
  if kind = 0 then 127
  else if kind = 1 then (rd (base + 32 * (k / 32) + i)).toNat
  else (rd base).toNat

/-- What MMA adds into one element, term by term (R182): in ascending `k`, where a sum that saturates makes the order
count (log 81). -/
def mmaElem (rd : SpRead) (s : DWord) (af bf : Fmt) (K afirst bfirst aoff boff i j : Nat)
    (acc : Int) : AccRes :=
  (List.range K).foldl (fun (r : AccRes) k =>
    let x := prodVal (operandElem rd af afirst i k) (operandElem rd bf bfirst j k)
      (scaleCode rd (slotAsck s) (512 * slotAsloc s + 32 * aoff) i k)
      (scaleCode rd (slotBsck s) (512 * slotBsloc s + 32 * boff) j k)
    let y := accAdd (slotBexp s) r.1 (.val x)
    (y.1, r.2.1 || y.2.1, r.2.2 || y.2.2)) (acc, false, false)

/-- MMA's effect on its tile (R182). -/
def mmaTile (rd : SpRead) (s : DWord) (K afirst bfirst aoff boff : Nat) (t : Tile) : Tile :=
  match slotAfmt s, slotBfmt s with
  | some af, some bf =>
      Tile.build (fun k => mmaElem rd s af bf K afirst bfirst aoff boff (k / 32) (k % 32) (t.get k))
        t.win t.sat
  | _, _ => t

/-! ### MDRAIN and MLOAD (R178, R186, R188) -/

/-- The value a pattern stands for under base exponent `B` (R109, R112). -/
def accVal (B : Int) (n : Int) : FV :=
  if n = accNaN then .nan false
  else if n = accPosInf then .inf false
  else if n = accNegInf then .inf true
  else .fin (n < 0) n.natAbs (B - 120)

/-- Result formats of a rounded drain (R185), and their element widths in bytes (R178). -/
def drainFmt (t : Fmt) : Bool :=
  t == .e4m3 || t == .e5m2 || t == .int8 || t == .bf16 || t == .f16 || t == .f32 || t == .int32
def fmtBytes (t : Fmt) : Nat := (t.width + 7) / 8
/-- Formats of MLOAD.ADDV (R187). -/
def addvFmt (t : Fmt) : Bool := t == .bf16 || t == .f16 || t == .f32 || t == .int32

/-- One drained element: its pattern and flags (R112). -/
def drainElem (t : Fmt) (s : DWord) (mode : RMode) (n : Int) : Nat × Flg :=
  match fpOf t with
  | some f => roundFP f (slotSat s) mode (accVal (slotBexp s) n)
  | none =>
      let r := roundInt (intLo t false) (intHi t false) mode (accVal (slotBexp s) n)
      ((r.1 % (2 ^ t.width : Nat)).toNat, r.2)

/-- The bytes of a rounded drain, row-major, and the flags of every element. -/
def drainBytes (t : Fmt) (s : DWord) (mode : RMode) (tl : Tile) : List Byte × Flg :=
  (List.range 1024).foldl (fun (acc : List Byte × Flg) k =>
    let r := drainElem t s mode (tl.get k)
    (acc.1 ++ leBytes r.1 (fmtBytes t), acc.2 ||| r.2)) ([], 0)
/-- The bytes of a raw drain: 24 bytes an element (R112). -/
def drainRaw (tl : Tile) : List Byte :=
  (List.range 1024).flatMap fun k => leBytes (tl.get k % (2 ^ 192 : Nat)).toNat 24
/-- The tile's flags as FFLAGS bits (R110). -/
def tileFlags (t : Tile) : Flg := (if t.win then fWIN else 0) ||| (if t.sat then fSAT else 0)

/-- The source element of an MLOAD of width `w` (R178). -/
def loadElem (rd : SpRead) (w sfirst k : Nat) : Nat :=
  leNat ((List.range w).map fun i => rd (512 * sfirst + w * k + i))
/-- MLOAD.LOAD (R188): any pattern, flags cleared. -/
def mloadLoadTile (rd : SpRead) (sfirst : Nat) : Tile :=
  Tile.build (fun k => (sext (loadElem rd 24 sfirst k) 192, false, false)) false false
/-- MLOAD.ADD (R188): a raw addend. -/
def mloadAddTile (rd : SpRead) (sfirst : Nat) (t : Tile) : Tile :=
  Tile.build (fun k => accAdd 0 (t.get k) (.raw (sext (loadElem rd 24 sfirst k) 192))) t.win t.sat
/-- MLOAD.ADDV (R188): a value of DFMT, as a product scaled by 2^0. -/
def mloadAddvTile (rd : SpRead) (s : DWord) (sfirst : Nat) (t : Tile) : Tile :=
  match slotDfmt s with
  | some d =>
      Tile.build (fun k => accAdd (slotBexp s) (t.get k)
        (.val (elemVal d false (loadElem rd (fmtBytes d) sfirst k)))) t.win t.sat
  | none => t

/-! ### Reductions of collectives (R264) -/

/-- Element formats of a collective (R261). -/
inductive RedFmt where
  | f32 | bf16 | f16 | int32 | e4m3
  deriving DecidableEq, Repr
def RedFmt.ofCode : Nat → Option RedFmt
  | 0 => some .f32 | 1 => some .bf16 | 2 => some .f16 | 3 => some .int32 | 4 => some .e4m3
  | _ => none
def RedFmt.bytes : RedFmt → Nat
  | .f32 => 4 | .int32 => 4 | .bf16 => 2 | .f16 => 2 | .e4m3 => 1
/-- The layout of a reducing float format. -/
def RedFmt.fp : RedFmt → FP
  | .bf16 => Machine.bf16 | .f16 => fp16 | .e4m3 => Machine.e4m3 | _ => fp32

/-- One level of the canonical tree: neighbours added, an odd last entry passed up. -/
def treeLevel : List Nat → List Nat
  | a :: b :: r => (addF fp32 .rne (v32 a) (v32 b)).1 :: treeLevel r
  | l => l
/-- The canonical tree, at most 16 levels (32,768 members). -/
def treeSum : Nat → List Nat → Nat
  | 0, l => l.headD 0
  | n + 1, l => if l.length ≤ 1 then l.headD 0 else treeSum n (treeLevel l)

/-- The exact sum (R264): rounded once. -/
def exactSum (f : FP) (vs : List FV) : Nat :=
  if vs.any FV.isNan then f.nanBits
  else
    let infs := vs.filter FV.isInf
    if infs.any FV.isNeg && infs.any (fun v => !v.isNeg) then f.nanBits
    else match infs with
      | v :: _ => (roundFP f true .rne v).1
      | [] => (sumFin f .rne (vs.all fun v => v.isZero && v.isNeg) (finTerms vs)).1

/-- Reduce (R264): 0 SUM, 1 EXACT, 2 MAX, 3 MIN, on patterns in position order. MAX or MIN of one operand is that of it
with itself, so a NaN gives the canonical NaN (R91). -/
def reduce (t : RedFmt) (rop : Nat) (xs : List Nat) : Nat :=
  match t, rop with
  | .int32, 0 => xs.foldl (· + ·) 0 % 2 ^ 32
  | .int32, 2 => (xs.tail.foldl (fun m x => atomInt .smax 32 m x) (xs.headD 0))
  | .int32, _ => (xs.tail.foldl (fun m x => atomInt .smin 32 m x) (xs.headD 0))
  | t, 0 =>
      let r := treeSum 16 (xs.map fun x => (roundFP fp32 true .rne (t.fp.decode x)).1)
      (roundFP t.fp true .rne (v32 r)).1
  | t, 1 => exactSum t.fp (xs.map t.fp.decode)
  | t, 2 => xs.foldl (fun m x => (minMaxF t.fp true m x).1) (xs.headD 0)
  | t, _ => xs.foldl (fun m x => (minMaxF t.fp false m x).1) (xs.headD 0)

end Sys2Proof.Machine
end

