-- ==== Sys2Proof/Machine/State.lean ====
section
/-! DEFINITION. The state of the device as plain data: flocks, folds, droves, cores with their
scratchpad ownership, matrix unit and crook store, the pools of accesses and engine operations
under way, the paddocks and virtual devices with every configuration register, tables of the lea
dies and controllers, and memory. Reset as R335 and the entries' own reset values give it. -/
namespace Sys2Proof.Machine

/-- Why the machine stops with a fault. -/
inductive Fault where
  /-- Raised by `issue`: an encoded instruction is executed while no band of the selected issue
  stage has a turn. The spec has no such event: instructions issue only from turns (R271). Safe. -/
  | noIssuer
  deriving DecidableEq, Repr

/-- Why an instruction is refused. -/
inductive Refusal where
  /-- Raised by `exec` for a row without a meaning. Safe. -/
  | notModelled (mnemonic : String)
  deriving DecidableEq, Repr

/-! ### Code objects (R69 to R76) -/

/-- A live map (R73): masks by register number, and chunk ranges (first, count). -/
structure LiveMap where
  v : Nat
  p : Nat
  s : Nat
  k : Nat
  acc : Nat
  chunks : List (Nat × Nat)
  deriving DecidableEq, Repr

/-- A variant (R71), and the prologue: offset and length in bytes. -/
structure Variant where
  regs : Nat
  flocks : Nat
  segs : Nat
  off : Nat
  len : Nat
  deriving DecidableEq, Repr

/-- A switch-point entry (R72): `sect` 4 is the prologue. -/
structure Point where
  sect : Nat
  kind : Nat
  sw : Nat
  off : Nat
  live : LiveMap
  deriving DecidableEq, Repr

/-- A region template (R74). -/
structure Region where
  first : Nat
  count : Nat
  src : Nat
  arg : Nat
  deriving DecidableEq, Repr

/-- A resident code object: its id, the code-space address of its code section, the section's
length in words, and its tables. `starts` is the instruction-start map, bit per word (R60, R70); `acc`: the loader has
marked it as an accumulator user (R170). -/
structure CodeObj where
  id : Nat
  base : Nat
  words : Nat
  starts : Nat
  prologue : Variant
  variants : List Variant
  points : List Point
  regions : List Region
  acc : Bool := false
  deriving DecidableEq, Repr

/-! ### Flocks and folds -/

/-- What a lane waits for (R285, R290, R313, R294, R256, R406, R383). `next` is where it goes on. -/
inductive Wait where
  | join (pc : Nat) (mask : Mask) (next : Nat)
  | bar (b : Nat) (pc : Nat) (next : Nat)
  | acquire (pc : Nat) (next : Nat)
  | cwait (droves : List Nat) (pc : Nat) (next : Nat)
  | trywait (band : Nat) (k : Nat) (first : Nat) (mask : Mask) (any : Bool) (since : Nat) (next : Nat)
  | rett
  | crook (bind : Nat) (pc : Nat)
  deriving DecidableEq, Repr

/-- The state of one flock (R12, R407). Absent entries of `v`, `p`, `s` and absent lanes of `q`
(newest entry first) read 0; absent lanes of `pcs` are at 0, of `waits` do not wait. `rettA` and
`rettSkip` are the A value and M of the last RETT to execute (R406). `bad`: the register words that an error
the code cannot repair has struck, lanes by lane source operand code (R446, R447; an s register in lane 0);
`born`: the number given when a grant added the flock, 0 before (R311). -/
structure Flock where
  ix : Nat
  stage : Nat
  slot : Nat
  v : SMap LVec
  q : List (List Word)
  p : SMap Mask
  s : SMap Word
  k : BitVec 8
  pendV : BitVec 64
  pendS : BitVec 32
  pcs : List Nat
  exited : Mask
  waits : List (Option Wait)
  handler : Bool
  trapParked : Mask
  cause : Word
  tpc : Word
  tlanes : Mask
  rettA : Word
  rettSkip : Bool
  fflags : Word
  ftrapen : Word
  watch : Word
  parked : Bool
  deliver : Word
  perf : DWord
  fenced : SMap Nat
  saved : Nat
  bad : SMap Mask
  born : Nat
  deriving DecidableEq, Repr

/-- A barrier (R290), or the acquire point (R313): phase, lanes arrived by flock, and whether
every arrival of the phase came by BAR.SW of one index (R314): `none` no arrival yet,
`some none` mixed, `some (some i)` all by index `i`; `marks`: each arrival's flock, next number and lanes (R229). -/
structure Barrier where
  phase : Nat
  arrived : SMap Mask
  sw : Option (Option Nat)
  marks : List (Nat × Nat × Mask)
  deriving DecidableEq, Repr

/-- How a fold stands: its staging copies run (R302), its lanes may issue, stopped for its children
(R295), or stopped by a request. -/
inductive FoldStatus where
  | staging | resident | stoppedChild | stopped
  deriving DecidableEq, Repr

/-- A fold. `sect` is 0 to 3 for variants A to D and 4 for the prologue; `segs` the segment map,
fold-relative segment g to physical segment (R197); `order` its place in the order of admission.
`stopWanted`: 0 none, 1 a stop request stands (R413), 2 its T1 has passed (R416); `stopT1` and
`stopT2` are those deadlines on the die's reference count. A stopped fold holds `stopSeq` (the order
of stops), whether it is an instruction-point fold (R418), its saved tiles, chunk contents and
engine-owned chunks with the operation that holds each, and by die the cycle since when it waits there to come
back (R310). `badTiles` (tile and word) and `badWords` (chunk and byte): words of what it holds saved that an error the
code cannot repair has struck (R446). -/
structure Fold where
  drove : Nat
  paddock : Nat
  vd : Nat
  index : Nat
  obj : Nat
  core : Nat
  sect : Nat
  segs : List Nat
  flocks : List Flock
  barriers : SMap Barrier
  queues : SMap Nat
  order : Nat
  shrink : Bool
  status : FoldStatus
  stopWanted : Nat
  stopT1 : Nat
  stopT2 : Nat
  stopSeq : Nat
  ipoint : Bool
  savedTiles : SMap Tile
  savedChunks : SMap (List Byte)
  savedOwn : SMap Nat
  waitFrom : SMap Nat
  failed : Bool
  badTiles : List (Nat × Nat) := []
  badWords : List (Nat × Nat) := []
  deriving DecidableEq, Repr

/-- A drove (R297 to R299): its record's fields, grid, pending indexes, and what is left of it.
`rgrid` is bytes 8 to 15 of its launch record; `since` holds the dies' cycle counts at its launch, and `aged` the dies
on which its pending folds count as PRIO 3, as a mask (R301); `after` is the die of the most recent fold of an earlier
host-launched drove of its paddock (R300). -/
structure Drove where
  id : Nat
  paddock : Nat
  vd : Nat
  depth : Nat
  parentDrove : Nat
  parentFold : Nat
  group : Nat
  host : Bool
  port : Nat
  queue : Nat
  obj : Nat
  gx : Nat
  gy : Nat
  gz : Nat
  rgrid : Nat
  prio : Nat
  chain : Nat
  flags : Nat
  tag : Word
  slots : List DWord
  sinit : List Word
  args : List Nat
  nextFold : Nat
  ended : Nat
  lastDie : Nat
  cq : Nat
  prev : Option Nat
  aged : Nat
  faulted : Bool
  refused : Bool
  retired : Bool
  order : Nat
  since : List Nat
  after : Option Nat
  deriving DecidableEq, Repr

/-! ### Turns and cores -/

/-- An operand latch (R281): the register it holds and its held flag. -/
abbrev Latch := Option (Nat × Bool)

/-- A band of a turn (R271): its lanes, instructions issued in its run, its latches, and the lanes whose word in each
latch an error the code cannot repair has struck (R444, R446). -/
structure Band where
  lanes : Mask
  count : Nat
  ended : Bool
  la : Latch
  lb : Latch
  lc : Latch
  bad : SMap Mask := []
  deriving DecidableEq, Repr

/-- A trap raised in a turn, to be taken when the turn ends (R398): cause bit, TPC, TLANES, and the
address of the trapping instruction, which differs from TPC for WATCH (R395, R402). -/
structure TrapRec where
  cause : Nat
  pc : Nat
  lanes : Mask
  at_ : Nat
  deriving DecidableEq, Repr

/-- The lanes' temporaries and flags of a crook, its waves, and the lanes whose LDS touched the watched block (R378,
R397). -/
structure CrkRun where
  h : List (List Word)
  fl : List Flg
  waves : Nat
  watch : Mask
  deriving DecidableEq, Repr
/-- A crook that runs wave by wave (R380): its instruction, its band with the lanes, PC and count at its issue, its Active
lanes and their operands, how far its sequence has run, the words of the micro-operations left, COMMIT last, and of
the first of them the waves left once it has begun. `bad`: the sequence stops before a word that cannot be read (R381). -/
structure CrookRun where
  i : Instr
  bandB : Bool
  lanes : Mask
  pc : Nat
  count : Nat
  act : Mask
  ops : List (List Word)
  run : CrkRun
  left : List DWord
  parts : Option (List Mask)
  bad : Bool
  deriving DecidableEq, Repr

/-- A turn of an issue stage (R271). `nextB`: band B issues next in the current cycle. `flags`:
flags that band A raised in this cycle (R104). `reads`: registers read from banks in this cycle
(R280). `waves`: scratchpad waves of this cycle (R199). `base`: the next number as this cycle began, and `from_` as the
turn began. `alu`: the lanes in which
a scratchpad bank's ALU fails twice under the instruction that issues now (R445). `just`: lanes released from a JOIN in
this cycle, each set with the JOIN's PC (R285). `run`: the crook that a band runs wave by wave; beside one of band A,
band B issues in the crook's first cycle, and `ahead` says that it has (R271, R380). -/
structure Turn where
  fold : Nat
  flock : Nat
  a : Option Band
  b : Option Band
  nextB : Bool
  flags : Flg
  trapA : Option TrapRec
  trapB : Option TrapRec
  reads : List Nat
  waves : Nat
  base : Nat
  from_ : Nat := 0
  alu : Mask := 0
  just : List (Nat × Mask) := []
  run : Option CrookRun := none
  ahead : Bool := false
  deriving DecidableEq, Repr

/-- An issue stage (R273): its slots by number, the slot of the last turn, and the current turn. -/
structure Stage where
  slots : SMap (Nat × Nat)
  last : Nat
  turn : Option Turn
  deriving DecidableEq, Repr

/-- A matrix command (R173, R181 to R187). `op`: 0 MMA, 1 MZERO, 2 MDRAIN, 3 MLOAD.LOAD,
4 MLOAD.ADD, 5 MLOAD.ADDV; `segs` the segment map at issue, `pc` the instruction's address (R402), `born` that of the issuing flock
(R186); `since` and `lanes`: the next number at issue and the issuing band (R229). -/
structure MatCmd where
  op : Nat
  fold : Nat
  flock : Nat
  born : Nat
  pc : Nat
  tile : Nat
  slot : DWord
  k : Nat
  a : Nat
  b : Nat
  aoff : Nat
  boff : Nat
  raw : Bool
  z : Bool
  rnd : Rnd
  segs : List Nat
  chunks : List Nat
  since : Nat := 0
  lanes : Mask := 0
  deriving DecidableEq, Repr

/-- Who holds an engine-owned chunk: the matrix unit, or a copy operation. -/
inductive Holder where
  | matrix
  | copy (op : Nat)
  deriving DecidableEq, Repr

/-- A core. `own` lists the engine-owned chunks, `hold` the matrix unit's hold counts (R179);
`dirty` are released segments, flock slots (24 × stage + slot) and register bytes by stage not yet
cleared (R303); `misses` the die's reference counts at its second residue mismatches (R448). `tileBad` (tile and word)
and `storeBad` (slot): words of the accumulator and of the crook store that an error the code cannot repair has struck
(R444, R446). -/
structure Core where
  st0 : Stage
  st1 : Stage
  tiles : SMap Tile
  accFold : Option Nat
  mq : List MatCmd
  hold : SMap Nat
  own : SMap Holder
  dirtySegs : List Nat
  dirtySlots : List Nat
  dirty0 : Nat
  dirty1 : Nat
  temp : Nat
  droop : Nat
  hot : Bool
  store : SMap DWord
  retired : Bool
  misses : List Nat
  tileBad : List (Nat × Nat) := []
  storeBad : List Nat := []
  deriving DecidableEq, Repr

/-! ### Accesses and engine operations under way -/

/-- What a pooled access does (R192), or what else stands in a lane's order. `flushed`: a FLUSHH that has completed
orders what its lanes issued before number `below`, as a release fence at SYSTEM scope, before their stores of later
runs (R240). -/
inductive OpKind where
  | arith
  | load
  | store
  | atom (op : AtomOp) (sh : AtomShape)
  | cas (dbl : Bool)
  | fence (ord : MOrd) (scope : MScope)
  | flushed (below : Nat)
  | launch
  | flushh
  | priv
  deriving DecidableEq, Repr

/-- An access of one instruction that has issued and whose result has not returned, or which has
lanes that are not yet performed. `bytes`: the width of one element; `todo`: per lane, the byte
addresses of its elements and its data. `res`: per performed lane, the words it found. A uniform
access stands in the program order of the lanes of `whose`. `cyc`: the first number given in its
issue cycle. `covered`: lanes whose access a completed phase or JOIN of the fold covers, each with the next number at
that moment (R229); `owed`: lanes whose access a FOLD-scope release was performed before, likewise (R225, R234);
`held`: lanes that its order held when the access issued, and whether it still does (R202); `frel`: lanes with an earlier
FOLD-scope release fence, with its number (R227); `promo`:
lanes that wait for a promotion: the promoted core and the next number at the request (R234). `pc`: the
address of the instruction; `failed`: some lane's access met an uncorrectable error (R404, R447). `drove`, `did` (its DROVEID), `pad`, `vd`,
`ix` and `born` are of the issuing fold and flock as they stood at issue (R402, R403); `alu`: the lanes in which the bank's
ALU fails twice (R445). -/
structure MemOp where
  drove : Nat
  fold : Nat
  flock : Nat
  core : Nat
  pc : Nat
  failed : Bool
  kind : OpKind
  sp : Bool
  size : MSize
  bytes : Nat
  dst : Nat
  nreg : Nat
  uni : Bool
  whose : Mask
  counts : Bool
  order : MOrder
  cyc : Nat
  todo : SMap (List Nat × List Word)
  res : SMap (List Word)
  covered : SMap Nat
  owed : SMap Nat
  held : SMap Bool
  frel : SMap Nat
  promo : SMap (Nat × Nat)
  did : Nat := 0
  pad : Nat := 0
  vd : Nat := 0
  ix : Nat := 0
  born : Nat := 0
  alu : Mask := 0
  deriving DecidableEq, Repr

/-- The state of a copy operation (R246 to R258). `phase`: 0 unstarted, 1 running, 2 stalled on a
translation fault, 3 a remnant of a stopped fold (R421). `kind` 0 to 5 as R246, 7 a staging copy (R302). `naddr` is the place of the notification, and `p3` parameter word 3. `idx` holds the indices once read, `data` the bytes of chunks
read and not yet written (for a collective the result, at 0), `dst` a collective's destination.
`fault`: the translation fault that it stalls on (SUB, stage, address, page), and `fwr` that the access writes; `posted`:
the index of its guest fault record; `moved`: the lea die's count at a moved refusal (R440); `fail`: the SUB with which it is to fail.
`assist`: its stall was taken in the host-assisted mode (R329); `seq`: which collective on its group it is (R262); `wrote`: its
writes are performed; `part`: the first and number of the chunks of its extent that one range of a
remnant covers, and `rem` the number of that remnant, 0 for none (R421); `slot`: the partition of the in-network
reduction slot that it holds (R265); `lanes`, `ix` and `born`: the issuing band, and its fold's index and flock as they
stood at issue (R229, R403); `group`: the group's list as the collective read it when it started (R260), and `readBy`: the
members on other devices that have read its source (R266); `owed`: its write packets that peers have not yet
acknowledged (R441), and `backs`: those that were refused as moved and are to be sent again (R440), each by virtual device
number, guest physical address and bytes. -/
structure CopyOp where
  paddock : Nat
  vd : Nat
  fold : Nat
  flock : Nat
  core : Nat
  drove : Nat
  pc : Nat
  kind : Nat
  addr : Nat
  pitch : Nat
  rowlen : Nat
  first : Nat
  count : Nat
  ichunk : Nat
  qn : Nat
  stream : Nat
  res : Nat
  chain : Nat
  naddr : Nat
  note : Nat
  p3 : Nat
  segs : List Nat
  phase : Nat
  idx : List Nat
  data : SMap (List Byte)
  dst : Nat
  fault : Option (Nat × Nat × Nat × Nat)
  moved : Option Nat
  posted : Option Nat
  fwr : Bool := false
  fail : Option Nat
  assist : Bool
  seq : Nat
  wrote : Bool
  part : Option (Nat × Nat)
  rem : Nat
  slot : Option Nat := none
  lanes : Mask := 0
  ix : Nat := 0
  born : Nat := 0
  group : List Nat := []
  readBy : List Nat := []
  owed : List (Nat × Nat × List Byte) := []
  backs : List (Nat × Nat × List Byte) := []
  deriving DecidableEq, Repr

/-- A LAUNCH that has issued and whose record has not been read (R293); `ix` is its fold's index and `did` the DROVEID
of its drove, as they stood at issue (R402). -/
structure LaunchOp where
  fold : Nat
  drove : Nat
  paddock : Nat
  vd : Nat
  die : Nat
  core : Nat
  flock : Nat
  pc : Nat
  addr : Nat
  group : Nat
  gx : Nat
  gy : Nat
  gz : Nat
  pool : Nat
  ix : Nat := 0
  did : Nat := 0
  deriving DecidableEq, Repr

/-- A configuration or privileged operation under way (R338, R345 to R365, R384, R423, R426,
R433): what it is, its element and arguments, its notification, and the flock it holds, if any; `pc`, `drove`, `did`, `fix`
and `born`: its address, and its drove, DROVEID, fold index and flock as they stood at issue (R402, R403). -/
structure PrivOp where
  what : Nat
  elem : Nat
  reg : Nat
  ix : Nat
  val : Nat
  args : List Nat
  naddr : Nat
  note : Nat
  fold : Nat
  flock : Nat
  core : Nat
  pool : Nat
  pc : Nat := 0
  drove : Nat := 0
  did : Nat := 0
  fix : Nat := 0
  born : Nat := 0
  waiting : List Nat
  deriving DecidableEq, Repr

/-! ### Memory controllers and lea dies -/

/-- A page record (R343, R429), and which key generation wrote each block is held beside it. -/
structure PageRec where
  owner : Nat
  count : Nat
  key : Nat
  table : Bool
  cleared : Bool
  track : Bool
  dirty : Nat
  slot : Nat
  gen : Nat
  bad : SMap Nat
  deriving DecidableEq, Repr

/-- A key slot (R350): 0 EMPTY, 1 LIVE, 2 ERASING, and how many keys it has held. -/
structure KeySlot where
  st : Nat
  gen : Nat
  deriving DecidableEq, Repr

/-- An entry of the virtual-device-number map (R347): `moved` is each lea die's count when forwarding
began, `expired` the lea dies on which it has ended, as a mask (R440). -/
structure VdnEnt where
  st : Nat
  tag : Nat
  group : Nat
  vd : Nat
  device : Nat
  moved : Nat × Nat
  expired : Nat
  deriving DecidableEq, Repr

/-- A forwarding entry of moved code (R426 to R428), with its set of folds. -/
structure FwdEnt where
  old : Nat
  new : Nat
  len : Nat
  set : List Nat
  deriving DecidableEq, Repr

/-- A binding of a crook number (R369): first store slot in the region, length (0 for EVICTED),
source tag. EMPTY bindings are not listed. -/
structure CrkBind where
  first : Nat
  len : Nat
  tag : Nat
  deriving DecidableEq, Repr

/-- An entry of a slice table (R361, R363). -/
structure SliceEnt where
  valid : Bool
  vd : Nat
  len : Nat
  deriving DecidableEq, Repr

/-- A paddock beside its configuration registers. `idle`: the running entry had nothing to run when its slice
began (R362). `binds` lists bindings by 16 × set + crook number,
the same on every core (R370); `crkMet` the dies that have met an evicted binding since it was
evicted (R383), as 128 × die + binding. -/
structure Paddock where
  held : Bool
  tbase : Word
  objs : SMap CodeObj
  fwd : SMap FwdEnt
  faultNew : List (List Word)
  faultBuf : List (List Word)
  binds : SMap CrkBind
  crkMet : List Nat
  slices : SMap SliceEnt
  running : Nat
  runEnt : Option SliceEnt
  idle : Bool
  delivered : Nat
  switching : Bool
  startDie : Option Nat
  ways : SMap Nat
  bw : SMap (Nat × Nat)
  saves : Nat
  deriving DecidableEq, Repr

/-- A collective that has ended: its number on its group, the group's list and its shape record (R262). -/
structure CollRec where
  seq : Nat
  group : List Nat
  shape : List Nat
  deriving DecidableEq, Repr

/-- A virtual device (0 to 127) beside its configuration registers, or the physical function of a
port (128 and 129): BAR0 registers by offset (R331, R333), withheld completion entries by queue, each with a number that orders retirements and its drove,
host-assist records that wait for room and configuration requests outstanding (physical functions),
outstanding guest fault records (R332: index, the operation that stalled), the last drove of each
launch queue (R299), whether it is frozen (R424), and its migration state (R437): the state code,
the arguments of BEGIN or ACCEPT, rounds, granules to be sent (guest and device physical), the dirty words that the command under way
has read by page, bytes written to a host buffer, granules sent by the command, dropped host writes, whether the stream has arrived, launch queues that wait
for their next notify (R438, step 6), the launch queues' tails that were notified outside the host-assisted mode
(R329), the number before which completions were withheld (R38), how many collectives it has issued on each group, by the
group's list, and those that have ended (R262). -/
structure VDev where
  tbase : Word
  bar0 : SMap DWord
  withheld : SMap (List (Nat × Nat × List Word))
  assist : List (List Word)
  reqs : List (Nat × Nat × List Word)
  gfOut : SMap Nat
  lastDrove : SMap Nat
  frozen : Bool
  shep : Nat
  shepArgs : List Nat
  round : Nat
  granules : List (Nat × Nat)
  snapped : SMap Nat
  pos : Nat
  sent : Nat
  drops : Nat
  got : Bool
  mute : List Nat
  plainTail : SMap Nat
  heldTo : Nat
  colls : List (List Nat × Nat)
  pastColls : List CollRec := []
  deriving DecidableEq, Repr

/-- A logical line of a memory-side cache (R356): its number among the 256-byte lines of memory, the key slot
that it is tagged with, the 16-byte units of each sector present, the sectors that memory does not yet hold, its
chain id, 0 for none, and when it was last used. -/
structure CacheLine where
  line : Nat
  slot : Nat
  units : SMap Nat
  dirty : Nat
  chain : Nat
  used : Nat
  deriving DecidableEq, Repr

/-- A compute die, or for dies 16 and 17 a lea die's own counts: its reference count and its cycle
count (R411), whether it and which channels of its stack are retired (R448), the release records of its
commons banks (R233), its arithmetic clock in MHz and when that last stepped, the hundredths of a cycle
that are over, the power it draws in watts (R452), when the bandwidth window began, with the minimum and cap of
each paddock in force in it (R354, R360), whether its stack runs the slow profile (R450), and the blocks of its
stack that yielded uncorrectable errors, each with the last reference count when (R448). `cache`: the one or two
logical lines of each physical line in use, by 16 × set + way, with a count of uses (R356); `charged`: the 64-byte
transfers charged to each paddock in the window (R353). `past`: its cycles before its last thermal reset, so that waits
are measured across one (R301, R310). -/
structure Die where
  refs : Nat
  cycles : Nat
  retired : Bool
  retiredChans : Nat
  records : SMap (List (Nat × Nat))
  clock : Nat
  clockAt : Nat
  part : Nat
  power : Nat
  winAt : Nat
  bwNow : SMap (Nat × Nat)
  slow : Bool
  badBlocks : SMap Nat
  cache : SMap (List CacheLine)
  uses : Nat
  charged : SMap Nat
  past : Nat := 0
  deriving DecidableEq, Repr

/-- A firmware image or loadable table in the module's flash (R449): its words, and whether its Ed25519 and
its ML-DSA-65 signature verify under the device's immutable root. -/
structure Image where
  words : List Word
  ed : Bool
  ml : Bool
  deriving DecidableEq, Repr

/-- What happens next: the machine's schedule and its inputs, oldest first (log 1). `crook` is the issue of a crook
that runs wave by wave, and `wave` the next of its waves (R380). The `ecc` moves are
uncorrectable errors that the next instruction of a stage, the bank ALU under it, a deferred result, or the next matrix
command meets: a second residue mismatch (R445), or a tile word (R447). The `upset` moves strike words of a
register file, of a memory, of a memory-side cache, of a tile, of an operand latch (0 to 2 for A to C) or of a crook
store, which fail when they are next consumed (R446). `power` is what a die draws, 16 and 17 the lea dies and 18 the HBM4
stacks together (R452), `flash` a new image in the
module's flash (R449), `bootFault` a part of a start's step that fails, with the channels or cores at fault
(R450). `peerAnswer` is another device's answer to a packet of a copy operation (R347, R441), `peerRead` its read of a
rank's source (R266), `regRead` and
`journalRead` a host's reads (R331, R450). -/
inductive Move where
  | issue (core stage : Nat)
  | crook (core stage : Nat)
  | wave (core stage : Nat)
  | event (i : Instr)
  | elapse (die refs : Nat)
  | hostStore (addr : Nat) (bytes : List Byte)
  | load (paddock : Nat) (obj : CodeObj) (code : List Word)
  | eccIssue (core stage : Nat) (lanes : Mask)
  | eccBank (core stage : Nat) (lanes : Mask)
  | eccResult (op lane : Nat)
  | eccMatrix (core : Nat)
  | eccReduce (op : Nat)
  | upsetReg (fold flock code : Nat) (lanes : Mask)
  | upsetMem (addr : Nat)
  | upsetCache (addr : Nat)
  | upsetTile (core tile word : Nat)
  | upsetLatch (core stage band latch : Nat) (lanes : Mask)
  | upsetStore (core slot : Nat)
  | power (die watts : Nat)
  | flash (ix : Nat) (img : Image)
  | bootFault (step part mask : Nat)
  | peerAnswer (op : Nat) (refused : Bool)
  | peerRead (op vdn : Nat)
  | regRead (port vf offset : Nat)
  | journalRead (port ix : Nat)
  deriving DecidableEq, Repr

/-- The device. `upsets`: the words of scratchpads, commons and host windows, by their place in `mem`, that
an error the code cannot repair has struck (R444, R446), and the words of memory-side caches so struck by their HBM4
address. `loaded`: the image that a start's step 1, 5 or 6 has loaded (R451). `images`: 0 and 1 the two copies of the lea die
firmware, 2 and 3 that of the hypervisor complex and of its standby, 4 the tables of step 6; one not listed is
the image delivered with the device (R449, R450, log 57). `portsDown`: host ports in bits 0 and 1, fabric ports
in bits 2 to 19. -/
structure State where
  started : Bool
  agenda : List Move
  focus : Option (Nat × Nat)
  nextId : Nat
  free : Nat
  mem : Memory
  cfg : SMap DWord
  cores : SMap Core
  folds : SMap Fold
  droves : SMap Drove
  ops : SMap MemOp
  copies : SMap CopyOp
  launches : SMap LaunchOp
  privs : SMap PrivOp
  pads : SMap Paddock
  vds : SMap VDev
  dies : SMap Die
  pages : SMap PageRec
  keys : SMap KeySlot
  vdns : SMap VdnEnt
  counters : SMap DWord
  stage : SMap (List (List Word))
  traceDrop : SMap Nat
  evBuf : List (List Word)
  evNew : List (List Word)
  hvMail : List (List Word)
  msix : List (Nat × Nat)
  outbox : List (Nat × List Word)
  journal : List (List Nat)
  upsets : SMap Nat
  images : SMap Image
  bootFaults : List (Nat × Nat × Nat)
  portsDown : Nat
  powerLimit : Nat
  holdReset : Bool
  standby : Nat
  loaded : SMap Image := []
  deriving DecidableEq, Repr

/-! ### Empty pieces -/

def Stage.empty : Stage := { slots := [], last := 23, turn := none }
def Core.empty : Core :=
  { st0 := Stage.empty, st1 := Stage.empty, tiles := [], accFold := none, mq := [], hold := []
    own := [], dirtySegs := [], dirtySlots := [], dirty0 := 0, dirty1 := 0, temp := 0, droop := 0
    hot := false, store := [], retired := false, misses := [] }
def Paddock.empty : Paddock :=
  { held := false, tbase := 0, objs := [], fwd := [], faultNew := [], faultBuf := [], binds := [], crkMet := []
    slices := [], running := 0, runEnt := none, idle := false, delivered := 0, switching := false, startDie := none
    ways := [], bw := [], saves := 0 }
def VDev.empty : VDev :=
  { tbase := 0, bar0 := [], withheld := [], assist := [], reqs := [], gfOut := [], lastDrove := []
    frozen := false, shep := 0, shepArgs := [], round := 0, granules := [], snapped := [], pos := 0, sent := 0, drops := 0
    got := false, mute := [], plainTail := [], heldTo := 0, colls := [], pastColls := [] }
def Die.empty : Die :=
  { refs := 0, cycles := 0, retired := false, retiredChans := 0, records := [], clock := 850, clockAt := 0
    part := 0, power := 0, winAt := 0, bwNow := [], slow := false, badBlocks := [], cache := [], uses := 0, charged := [] }
def PageRec.empty : PageRec :=
  { owner := 0, count := 0, key := 0, table := false, cleared := true, track := false, dirty := 0
    slot := 0, gen := 0, bad := [] }
def Flock.empty : Flock :=
  { ix := 0, stage := 0, slot := 0, v := [], q := [], p := [], s := [], k := 0, pendV := 0
    pendS := 0, pcs := [], exited := 0, waits := [], handler := false, trapParked := 0, cause := 0
    tpc := 0, tlanes := 0, rettA := 0, rettSkip := false, fflags := 0, ftrapen := 0, watch := 0
    parked := false, deliver := 0, perf := 0, fenced := [], saved := 0, bad := [], born := 0 }

/-- The machine right after reset (R335): nothing resident, no turn, every register at its reset
value (configuration registers read their reset values through `cfgGet`). -/
def State.reset : State :=
  { started := false, agenda := [], focus := none, nextId := 0, free := 0, mem := [], cfg := []
    cores := [], folds := [], droves := [], ops := [], copies := [], launches := [], privs := []
    pads := [], vds := [], dies := [], pages := [], keys := [(0, ⟨1, 0⟩)], vdns := []
    counters := [], stage := [], traceDrop := []
    evBuf := [], evNew := [], hvMail := [], msix := [], outbox := []
    journal := [], upsets := [], images := [], bootFaults := [], portsDown := 0, powerLimit := 3800, holdReset := false, standby := 0 }

end Sys2Proof.Machine
end

