-- ==== Sys2Proof/Machine/Access.lean ====
section
/-! DEFINITION. Reading and updating the pieces of the state: cores, stages, folds, flocks and
their registers, paddocks and configuration registers, code, budgets, counters, fault records. -/
namespace Sys2Proof.Machine

/-! ### Pieces by number -/

/-- The die of a core id (R21). -/
def dieOf (core : Nat) : Nat := core / 40

def State.core (s : State) (c : Nat) : Core := kgetD s.cores c Core.empty
def State.modCore (s : State) (c : Nat) (g : Core → Core) : State :=
  { s with cores := kset s.cores c (g (s.core c)) }
/-- One of the two issue stages of a core (R23). -/
def Core.stage (c : Core) (st : Nat) : Stage := if st = 0 then c.st0 else c.st1
def Core.modStage (c : Core) (st : Nat) (g : Stage → Stage) : Core :=
  if st = 0 then { c with st0 := g c.st0 } else { c with st1 := g c.st1 }
def State.stageOf (s : State) (c st : Nat) : Stage := (s.core c).stage st
def State.modStage (s : State) (c st : Nat) (g : Stage → Stage) : State :=
  s.modCore c fun k => k.modStage st g
def State.modFold (s : State) (f : Nat) (g : Fold → Fold) : State :=
  { s with folds := kmod s.folds f g }
/-- A flock of a fold. -/
def State.flock? (s : State) (f k : Nat) : Option Flock :=
  match kget s.folds f with
  | some fo => fo.flocks[k]?
  | none => none
def State.flock (s : State) (f k : Nat) : Flock := (s.flock? f k).getD Flock.empty
def State.modFlock (s : State) (f k : Nat) (g : Flock → Flock) : State :=
  s.modFold f fun fo => { fo with flocks := lmod fo.flocks k g }
def State.pad (s : State) (p : Nat) : Paddock := kgetD s.pads p Paddock.empty
def State.modPad (s : State) (p : Nat) (g : Paddock → Paddock) : State :=
  { s with pads := kset s.pads p (g (s.pad p)) }
def State.vd (s : State) (v : Nat) : VDev := kgetD s.vds v VDev.empty
def State.modVd (s : State) (v : Nat) (g : VDev → VDev) : State :=
  { s with vds := kset s.vds v (g (s.vd v)) }
def State.die (s : State) (d : Nat) : Die := kgetD s.dies d Die.empty
def State.modDie (s : State) (d : Nat) (g : Die → Die) : State :=
  { s with dies := kset s.dies d (g (s.die d)) }
def State.modDrove (s : State) (d : Nat) (g : Drove → Drove) : State :=
  { s with droves := kmod s.droves d g }
/-- A number that no access, copy, launch or privileged operation has had. -/
def State.fresh (s : State) : Nat × State := (s.nextId, { s with nextId := s.nextId + 1 })
/-- A free value: the next of the machine's open values. -/
def State.freeVal (s : State) : BitVec 64 × State :=
  (Config.freeWord s.free, { s with free := s.free + 1 })

/-! ### Configuration registers (R334, R335) -/

/-- Where a configuration register is held. -/
def cfgKey (tgt elem reg ix : Nat) : Nat := ((tgt * 128 + elem) * 32 + reg) * 16 + ix

/-- The value of a configuration register after reset (R334, R335, R415). -/
def cfgReset (tgt elem reg : Nat) : Nat :=
  match tgt, elem, reg with
  | 0, 0, 0x00 => 1
  | 0, 0, 0x01 => 2 ^ 40 - 1
  | 0, 0, 0x02 => 2 ^ 32 - 1
  | 0, 0, 0x03 => 1024 * 2 ^ 16
  | 0, 0, 0x04 => 256 * 2 ^ 8
  | 0, 0, 0x05 => 4096 * 2 ^ 16
  | 0, 0, 0x06 => 2048 * 2 ^ 16
  | 0, 0, 0x08 => 32
  | 0, _, 0x0C => 50 * 2 ^ 16 + 100
  | 2, _, 0x00 => 95
  | 2, _, 0x01 => 65536
  | _, _, _ => 0

/-- A configuration register's value. -/
def State.reg (s : State) (tgt elem reg ix : Nat) : Nat :=
  match kget s.cfg (cfgKey tgt elem reg ix) with
  | some v => v.toNat
  | none => cfgReset tgt elem reg
def State.setReg (s : State) (tgt elem reg ix v : Nat) : State :=
  { s with cfg := kset s.cfg (cfgKey tgt elem reg ix) (BitVec.ofNat 64 v) }

/-- PCTL.KIND of a paddock: 0 off, 1 fixed, 2 shared. -/
def State.kind (s : State) (p : Nat) : Nat := bits (s.reg 0 p 0x00 0) 1 0
/-- Whether a paddock holds a core (R336). -/
def State.holdsCore (s : State) (p c : Nat) : Bool := bitOf (s.reg 0 p 0x01 (dieOf c)) (c % 40)
/-- A virtual device is valid, and its paddock. -/
def State.vdValid (s : State) (v : Nat) : Bool := v < 128 && bitOf (s.reg 1 v 0x00 0) 8
def State.vdPad (s : State) (v : Nat) : Nat := bits (s.reg 1 v 0x00 0) 4 0
/-- The virtual devices of a paddock. -/
def State.vdsOf (s : State) (p : Nat) : List Nat :=
  (List.range 128).filter fun v => s.vdValid v && s.vdPad v == p
/-- The paddock's range of a die's commons: base and size in bytes (R203). -/
def State.commonsBase (s : State) (p d : Nat) : Nat := bits (s.reg 0 p 0x03 d) 9 0 * 65536
def State.commonsSize (s : State) (p d : Nat) : Nat := bits (s.reg 0 p 0x03 d) 26 16 * 65536
/-- The paddock's copy streams on a die: the first and how many. -/
def State.streamFirst (s : State) (p d : Nat) : Nat := bits (s.reg 0 p 0x04 d) 7 0
def State.streamCount (s : State) (p d : Nat) : Nat := bits (s.reg 0 p 0x04 d) 16 8
/-- The streams of a paddock on a die: a tenant's range, and for paddock 0 whatever no tenant range names (R335). -/
def State.streams (s : State) (p d : Nat) : List Nat :=
  let range := fun p => (List.range (s.streamCount p d)).map fun i => s.streamFirst p d + i
  if p ≠ 0 then range p
  else
    let taken := ((List.range 32).filter fun p => decide (p ≠ 0) && decide (s.streamCount p d ≠ 0)).flatMap range
    (List.range 256).filter fun x => !taken.contains x
/-- CODE.BASE and CODE.SIZE in bytes (R76). -/
def State.codeBase (s : State) (p : Nat) : Nat := bits (s.reg 0 p 0x0E 0) 43 20 * 2 ^ 20
def State.codeSize (s : State) (p : Nat) : Nat := bits (s.reg 0 p 0x0E 0) 63 52 * 2 ^ 20

/-- The virtual device that a paddock runs (R361): its only virtual device in a fixed paddock, that
of the running slice in a shared one; 128 where there is none. -/
def State.runningVd (s : State) (p : Nat) : Nat :=
  if p = 0 then 128
  else if s.kind p = 2 then
    match (s.pad p).runEnt with
    | some e => e.vd
    | none => 128
  else (s.vdsOf p).headD 128

/-! ### Regions of the one memory -/

/-- Where the model holds a die's commons, a host window and a core's scratchpad; device physical
addresses stand for themselves. -/
def commonsAt (d off : Nat) : Nat := 2 ^ 45 + d * 2 ^ 26 + off
def windowAt (lea off : Nat) : Nat := 2 ^ 46 + lea * 2 ^ 21 + off
def scratchAt (core off : Nat) : Nat := 2 ^ 47 + core * 2 ^ 20 + off

/-- Host memory of either port, as device physical addresses (R339). -/
def isHostAddr (a : Nat) : Bool := 4 ≤ bits a 43 40 && bits a 43 40 < 12 && a < 2 ^ 44

def State.rd (s : State) (a n : Nat) : Nat := leNat (memRead s.mem a n)
/-- The bytes that one code word protects at a place (R444): host windows and the memory-side cache are checked by
64-bit words. -/
def codeUnit (a : Nat) : Nat := if a < 2 ^ 40 ∨ (2 ^ 46 ≤ a ∧ a < 2 ^ 47) then 8 else 4
/-- A write of whole words removes the errors in them (R447). -/
def healWords (m : SMap Nat) (a n : Nat) : SMap Nat :=
  m.filter fun e => !(decide (a ≤ e.1) && decide (e.1 + codeUnit e.1 ≤ a + n))
/-- An access of `n` bytes touches a word that holds an uncorrectable error. -/
def State.struck (s : State) (a n : Nat) : Bool :=
  s.upsets.any fun e => decide (e.1 < a + n) && decide (a < e.1 + codeUnit e.1)
def State.wr (s : State) (a n v : Nat) : State :=
  { s with mem := memWrite s.mem a (leBytes v n), upsets := healWords s.upsets a n }
/-- Memory with the bytes of a range made 0. -/
def memClear (m : Memory) (a n : Nat) : Memory := m.filter fun c => c.1 < a || a + n ≤ c.1
/-- The bytes of a word list, little-endian (R6). -/
def wordsBytes (ws : List Word) : List Byte := ws.flatMap fun w => leBytes w.toNat 4
def bytesWords : List Byte → List Word
  | a :: b :: c :: d :: r => wd (leNat [a, b, c, d]) :: bytesWords r
  | _ => []

/-! ### Registers of a flock -/

/-- V[l][n] (R12). -/
def Flock.getV (fl : Flock) (n l : Nat) : Word := lane (kgetD fl.v n []) l
/-- Register words written in the lanes of a set: errors in them are gone (R447). -/
def healRegs (b : SMap Mask) (n : Nat) (m : Mask) : SMap Mask :=
  (b.map fun e => if e.1 = n then (e.1, e.2 &&& ~~~m) else e).filter fun e => e.2 != 0
/-- V[l][n] written in the lanes of a set. -/
def Flock.setV (fl : Flock) (n : Nat) (m : Mask) (x : Nat → Word) : Flock :=
  { fl with v := kset fl.v n (blend m x (fl.getV n)), bad := healRegs fl.bad n m }
/-- P[l][n]; P[l][0] reads true (R12). -/
def Flock.getP (fl : Flock) (n l : Nat) : Bool := n == 0 || (kgetD fl.p n 0).getLsbD l
/-- P[l][n] written in the lanes of a set; a write of number 0 is discarded (R115). -/
def Flock.setP (fl : Flock) (n : Nat) (m : Mask) (x : Nat → Bool) : Flock :=
  if n = 0 then fl
  else { fl with p := kset fl.p n (maskOf fun l => if m.getLsbD l then x l else fl.getP n l) }
/-- Q[l][a] (R12). -/
def Flock.getQ (fl : Flock) (a l : Nat) : Word := (fl.q.getD l []).getD a 0
/-- Errors in queue storage move with the entries of the lanes that push. -/
def pushBad (b : SMap Mask) (m : Mask) : SMap Mask :=
  (List.range 16).foldl (fun r a =>
    let x := (if a = 0 then 0 else kgetD b (63 + a) 0 &&& m) ||| (kgetD b (64 + a) 0 &&& ~~~m)
    if x = 0 then r else kset r (64 + a) x) (b.filter fun e => decide (e.1 < 64) || decide (80 ≤ e.1))
/-- One entry pushed onto the queue of every lane of a set (R116). -/
def Flock.pushQ (fl : Flock) (m : Mask) (x : Nat → Word) : Flock :=
  { fl with
    q := (List.range 32).map fun l =>
      if m.getLsbD l then (x l :: fl.q.getD l []).take 16 else fl.q.getD l []
    bad := if fl.bad.isEmpty then [] else pushBad fl.bad m }
/-- The queues of a set of lanes emptied (R68). -/
def Flock.emptyQ (fl : Flock) (m : Mask) : Flock :=
  { fl with
    q := (List.range 32).map fun l => if m.getLsbD l then [] else fl.q.getD l []
    bad := (fl.bad.map fun e => if 64 ≤ e.1 ∧ e.1 < 80 then (e.1, e.2 &&& ~~~m) else e).filter fun e =>
      e.2 != 0 }
/-- S[n]. -/
def Flock.getS (fl : Flock) (n : Nat) : Word := kgetD fl.s n 0
def Flock.setS (fl : Flock) (n : Nat) (w : Word) : Flock :=
  { fl with s := kset fl.s n w, bad := kdel fl.bad (80 + n) }
/-- K[n]; K[0] reads true (R12). -/
def Flock.getK (fl : Flock) (n : Nat) : Bool := n == 0 || fl.k.getLsbD n
/-- K[n] written; a write of k0 is discarded (R58, R141). -/
def Flock.setK (fl : Flock) (n : Nat) (b : Bool) : Flock :=
  if n = 0 then fl
  else { fl with k := (fl.k &&& ~~~(BitVec.ofNat 8 (2 ^ n))) ||| (if b then BitVec.ofNat 8 (2 ^ n) else 0) }
/-- The PC of a lane. -/
def Flock.pc (fl : Flock) (l : Nat) : Nat := fl.pcs.getD l 0
/-- The lanes of a set moved, each to its own PC. -/
def Flock.movePc (fl : Flock) (m : Mask) (x : Nat → Nat) : Flock :=
  { fl with pcs := (List.range 32).map fun l => if m.getLsbD l then x l else fl.pc l }
/-- What a lane waits for. -/
def Flock.wait (fl : Flock) (l : Nat) : Option Wait := fl.waits.getD l none
def Flock.setWait (fl : Flock) (m : Mask) (x : Nat → Option Wait) : Flock :=
  { fl with waits := (List.range 32).map fun l => if m.getLsbD l then x l else fl.wait l }
/-- The lanes that have not exited. -/
def Flock.live (fl : Flock) : Mask := ~~~fl.exited
/-- Whether the lane is ready (R270): not exited, not waiting, not parked by a trap. -/
def Flock.laneReady (fl : Flock) (l : Nat) : Bool :=
  fl.live.getLsbD l && (fl.wait l).isNone && !fl.trapParked.getLsbD l
/-- A pending bit set, and cleared. -/
def pendSet {w : Nat} (x : BitVec w) (n : Nat) : BitVec w := x ||| BitVec.ofNat w (2 ^ n)
def pendClr {w : Nat} (x : BitVec w) (n : Nat) : BitVec w := x &&& ~~~(BitVec.ofNat w (2 ^ n))

/-! ### Code (R60, R76, R428) -/

/-- The code object that holds a PC, if one is resident for the paddock. -/
def State.objAt (s : State) (p pc : Nat) : Option CodeObj :=
  ((s.pad p).objs.map Prod.snd).find? fun o => o.base ≤ pc && pc < o.base + 4 * o.words
/-- The channel of an HBM4 address is retired (R448, R450). -/
def State.chanRetired (s : State) (a : Nat) : Bool :=
  (s.die (a / 2 ^ 36)).retired || bitOf (s.die (a / 2 ^ 36)).retiredChans (a / 2 ^ 31 % 32)
/-- A block of HBM4 verifies under key slot 0, or its page reads zeros (R349, R352); its channel serves accesses, and no
word of it in the cache is bad. -/
def State.codeOk (s : State) (a : Nat) : Bool :=
  !s.chanRetired a && !s.struck a 4 &&
  match kget s.pages (a / 2 ^ 17) with
  | none => true
  | some g =>
      let gen := (kgetD s.keys 0 ⟨0, 0⟩).gen
      g.cleared || match kget g.bad (a % 2 ^ 17 / 64) with
        | some t => t == 1 + 4096 * gen
        | none => g.slot == 0 && g.gen == gen
/-- A word of a paddock's code space, read under key slot 0 (R76): a free word where its block cannot be read, which
gives no more than the length of an instruction that traps (log 61). -/
def State.codeWord (s : State) (p pc : Nat) : Word :=
  let a := s.codeBase p + pc
  if s.codeOk a then wd (s.rd a 4) else Config.badCode a s.free
/-- Some word of the instruction at a PC holds an error that the code cannot repair (R349, R447), the instruction being
marked as one (R60). -/
def State.fetchStruck (s : State) (p pc : Nat) : Bool :=
  let bad := fun i => !s.codeOk (s.codeBase p + pc + 4 * i)
  match s.objAt p pc with
  | none => false
  | some o =>
      let n := wordCount (s.codeWord p pc) (s.codeWord p (pc + 4))
      let lost := fun i => bitOf o.starts ((pc - o.base) / 4 + i) || decide (o.words ≤ (pc - o.base) / 4 + i)
        || decide (s.codeSize p < pc + 4 * i + 4)
      pc % 4 == 0 && bitOf o.starts ((pc - o.base) / 4) && decide (pc + 4 ≤ s.codeSize p)
        && (bad 0 || ((List.range (n - 1)).find? fun i => lost (i + 1) || bad (i + 1)).any fun i => !lost (i + 1))
/-- A PC in the old range of a live forwarding entry is taken at the new place (R428). -/
def forwardOnce (es : List FwdEnt) (pc : Nat) : Nat :=
  match es.find? fun e => e.old ≤ pc && pc < e.old + e.len with
  | some e => pc - e.old + e.new
  | none => pc
/-- An object moved again: the new place may lie in the old range of another live entry (R428). -/
def forwardN (es : List FwdEnt) : Nat → Nat → Nat
  | 0, pc => pc
  | n + 1, pc => forwardN es n (forwardOnce es pc)
/-- Where the code at a PC stands now (R428). -/
def State.forward (s : State) (p pc : Nat) : Nat :=
  forwardN ((s.pad p).fwd.map Prod.snd) (s.pad p).fwd.length pc
/-- The words of the instruction at a PC; `none` is the fetch DECODE of R60. -/
def State.fetch (s : State) (p pc : Nat) : Option (List Word) :=
  match s.objAt p pc with
  | none => none
  | some o =>
      let w := (pc - o.base) / 4
      let n := wordCount (s.codeWord p pc) (s.codeWord p (pc + 4))
      if pc % 4 = 0 ∧ bitOf o.starts w ∧ w + n ≤ o.words ∧ pc + 4 * n ≤ s.codeSize p
          ∧ (List.range (n - 1)).all (fun i => !bitOf o.starts (w + i + 1)) then
        some ((List.range n).map fun i => s.codeWord p (pc + 4 * i))
      else none
/-- The length in bytes of the instruction at a PC; 4 where no instruction starts (R44, R406). -/
def State.lenAt (s : State) (p pc : Nat) : Nat :=
  match s.objAt p pc with
  | none => 4
  | some o =>
      if bitOf o.starts ((pc - o.base) / 4) then
        4 * wordCount (s.codeWord p pc) (s.codeWord p (pc + 4))
      else 4

/-! ### Budgets (R303) -/

/-- The code object of a fold. -/
def State.objOf (s : State) (fo : Fold) : CodeObj :=
  (kget (s.pad fo.paddock).objs fo.obj).getD
    { id := 0, base := 0, words := 0, starts := 0, prologue := ⟨64, 1, 0, 0, 0⟩, variants := []
      points := [], regions := [] }
/-- The budget of a section: 4 is the prologue (R72). -/
def CodeObj.section (o : CodeObj) (sect : Nat) : Variant :=
  if sect = 4 then o.prologue else o.variants.getD sect o.prologue
/-- The floor: the last variant (R71). -/
def CodeObj.floor (o : CodeObj) : Variant := o.variants.getLastD o.prologue
/-- The budget that a fold holds. -/
def State.budget (s : State) (fo : Fold) : Variant := (s.objOf fo).section fo.sect
/-- The five quantities of R303 that a budget uses. -/
def Variant.uses (v : Variant) : List Nat :=
  [(v.flocks + 1) / 2, v.flocks / 2, (v.flocks + 1) / 2 * v.regs * 128, v.flocks / 2 * v.regs * 128,
   64 * v.segs]
/-- The switch-point entry of an instruction (R72). -/
def CodeObj.pointAt (o : CodeObj) (pc : Nat) : Option Point :=
  o.points.find? fun p => p.off + o.base == pc

/-- The registers of the flocks on one stage, in bytes (R24). -/
def State.stageRegs (s : State) (st : Stage) : Nat :=
  st.slots.foldl (fun n e => n + (match kget s.folds e.2.1 with
    | some fo => (s.budget fo).regs * 128
    | none => 0)) 0
/-- Folds resident on a core. -/
def State.residents (s : State) (c : Nat) : List (Nat × Fold) :=
  s.folds.filter fun e => e.2.core == c && (e.2.status == .resident || e.2.status == .staging)
/-- Physical segments in use on a core. -/
def State.usedSegs (s : State) (c : Nat) : List Nat := (s.residents c).flatMap fun e => e.2.segs
/-- Free amounts of the five quantities of a core: neither held nor waiting to be cleared (R303). -/
def State.freeOf (s : State) (c : Nat) : List Nat :=
  let k := s.core c
  [24 - k.st0.slots.length - (k.dirtySlots.filter (· < 24)).length,
   24 - k.st1.slots.length - (k.dirtySlots.filter (24 ≤ ·)).length,
   131072 - s.stageRegs k.st0 - k.dirty0, 131072 - s.stageRegs k.st1 - k.dirty1,
   64 * (32 - (s.usedSegs c).length - k.dirtySegs.length)]
/-- Owed(F, q) of a fold (R304). -/
def State.owed (s : State) (fo : Fold) : List Nat :=
  List.zipWith (· - ·) (s.objOf fo).floor.uses (s.budget fo).uses
/-- The sum of lists of quantities. -/
def sumQ (l : List (List Nat)) : List Nat := l.foldl (List.zipWith (· + ·)) [0, 0, 0, 0, 0]
/-- Avail(q) for a fold, or for a new fold (R304, R309). -/
def State.avail (s : State) (c : Nat) (except : Option Nat) : List Nat :=
  List.zipWith (· - ·) (s.freeOf c)
    (sumQ (((s.residents c).filter fun e => some e.1 != except).map fun e => s.owed e.2))
/-- The lowest free slot of a stage (R303). -/
def State.freeSlot (s : State) (c st : Nat) : Option Nat :=
  (List.range 24).find? fun i =>
    (kget (s.stageOf c st).slots i).isNone && !(s.core c).dirtySlots.contains (24 * st + i)
/-- The lowest free physical segments. -/
def State.freeSegs (s : State) (c : Nat) : List Nat :=
  (List.range 32).filter fun g => !(s.usedSegs c).contains g && !(s.core c).dirtySegs.contains g

/-! ### Scratchpad and owner bits (R197, R201) -/

/-- The place of a fold-relative scratchpad byte, or `none` at or beyond the allocation. -/
def Fold.place (fo : Fold) (a : Nat) : Option Nat :=
  (fo.segs[a / 32768]?).map fun g => scratchAt fo.core (g * 32768 + a % 32768)
/-- The physical chunk of a fold-relative chunk. -/
def Fold.physChunk (fo : Fold) (ch : Nat) : Nat := (fo.segs.getD (ch / 64) 0) * 64 + ch % 64
/-- Whether a fold-relative chunk is engine-owned. -/
def State.engineOwned (s : State) (fo : Fold) (ch : Nat) : Bool :=
  (kget (s.core fo.core).own (fo.physChunk ch)).isSome
/-- Bytes of the fold's scratchpad; a byte beyond the allocation reads 0. -/
def State.spByte (s : State) (fo : Fold) (a : Nat) : Byte :=
  match fo.place a with
  | some x => memGet s.mem x
  | none => 0

/-! ### Counters (R368) and trace records (R366) -/

/-- Where a paddock's counters are held: by virtual device in a shared paddock. -/
def State.counterKey (s : State) (p d num : Nat) : Nat :=
  (((p * 256 + (if s.kind p = 2 then s.runningVd p else 128)) * 16) + d) * 16 + num
def State.counter (s : State) (p d num : Nat) : DWord := kgetD s.counters (s.counterKey p d num) 0
/-- A counter advanced. -/
def State.count (s : State) (p d num n : Nat) : State :=
  if n = 0 then s
  else
    { s with
      counters := kset s.counters (s.counterKey p d num) (s.counter p d num + BitVec.ofNat 64 n) }

/-- A class of records of a virtual device is staged: it runs, and its TRACECTL enables the class. Those of a
descheduled one are not, as no part of the buffer is its own then (log 88). -/
def State.traceClass (s : State) (p v c : Nat) : Bool :=
  decide (v < 128) && s.runningVd p == v && bitOf (s.reg 1 v 0x05 0) c
/-- The 64-byte transfers that the channels of a stack could perform in one window (R353): 384 in each count of
10 ns at 76.8 GB/s a channel, and 320 in the slow profile (R450). -/
def State.windowT (s : State) (d : Nat) : Nat := (if (s.die d).slow then 320 else 384) * s.reg 2 d 0x01 0
/-- A paddock has had as many transfers in the window of a stack as its cap gives it (R354). -/
def State.atCap (s : State) (p d : Nat) : Bool :=
  decide (((kgetD (s.die d).bwNow p (0, 1024)).2 * s.windowT d + 1023) / 1024 ≤ kgetD (s.die d).charged p 0)
/-- A trace record staged (R366): 64 places for each die and paddock; a record that finds them
full, or the paddock at its cap on the buffer's stack, is dropped and counted. -/
def State.trace (s : State) (p d cls : Nat) (rec : List Word) : State :=
  if s.traceClass p (wbits (rec.headD 0) 22 16) cls && bitOf (s.reg 0 p 0x07 0) 0 then
    let q := kgetD s.stage (p * 16 + d) []
    if q.length < 64 ∧ !s.atCap p (bits (s.reg 0 p 0x07 0) 39 36) then { s with stage := kset s.stage (p * 16 + d) (q ++ [rec]) }
    else
      { s with
        traceDrop := kset s.traceDrop (p * 16 + d) (kgetD s.traceDrop (p * 16 + d) 0 + 1) }.count p d 10 1
  else s
/-- A trace record's words. -/
def traceRec (vd tag type core flock drove pc : Nat) (a b : Word) (refs : Nat) : List Word :=
  [wd (vd * 65536 + tag * 256 + type), wd (core * 4096 + flock * 256), wd drove, wd pc, a, b
   , wd refs, wd (refs / 2 ^ 32)]

/-! ### Fault records (R402) -/

/-- The words of a fault record. -/
def faultRec (kind cause sub pad vd drove fold core queue tkind flock pc va time : Nat) : List Word :=
  [wd (vd * 2 ^ 25 + pad * 2 ^ 20 + sub * 2 ^ 16 + cause * 2 ^ 8 + kind), wd drove, wd fold,
   wd (core * 2 ^ 16 + queue * 2 ^ 12 + tkind * 2 ^ 8 + flock), wd pc, wd va,
   wd (va / 2 ^ 32 % 2 ^ 20), wd time]
/-- The VD field of a record: 0x7F in the control paddock. -/
def vdField (pad vd : Nat) : Nat := if pad = 0 then 127 else vd
/-- The drove and its ancestors have a fault record (R299). -/
def State.markFaulted (s : State) : Nat → Nat → State
  | 0, _ => s
  | n + 1, d =>
      match kget s.droves d with
      | some dr =>
          let s := s.modDrove d fun x => { x with faulted := true }
          if dr.host then s else State.markFaulted s n dr.parentDrove
      | none => s
/-- A fault record that a die is to write (R402); none while FAULTQ.SIZE is 0. -/
def State.fault (s : State) (p drove : Nat) (rec : List Word) : State :=
  let s := s.markFaulted 12 drove
  if bits (s.reg 0 p 0x09 0) 59 48 = 0 then s
  else s.modPad p fun x => { x with faultNew := x.faultNew ++ [rec] }

end Sys2Proof.Machine
end

