-- ==== Sys2Proof/Machine/Settle.lean ====
section
/-! DEFINITION. What the arrival or the exit of lanes brings about in the same cycle: joins and
barrier phases that complete (R285, R290), the acquire point and variant grants (R309 to R314), and
the end of handler mode when its last lane exits (R406). -/
namespace Sys2Proof.Machine

/-! ### Synchronisation at FOLD scope (R225, R229) -/

/-- The unperformed accesses of an entry in the lanes of a set are covered; `n` is the next number. -/
def MemOp.coverIn (o : MemOp) (m : Mask) (n : Nat) : MemOp :=
  { o with covered := o.todo.foldl (fun c e =>
      if (if o.uni then o.whose &&& m != 0 else m.getLsbD e.1) && (kget c e.1).isNone then kset c e.1 n else c) o.covered }
/-- Entries of a flock before number `below` become covered in the lanes of a set, by a phase or a JOIN that
completes. -/
def State.cover (s : State) (fold flock below : Nat) (m : Mask) : State :=
  { s with
    ops := s.ops.map fun e =>
      if e.1 < below && e.2.fold == fold && e.2.flock == flock then (e.1, e.2.coverIn m s.nextId) else e }
/-- The arrivals of a completed phase cover what their lanes had issued (R229). -/
def State.coverMarks (s : State) (fid : Nat) (marks : List (Nat × Nat × Mask)) : State :=
  marks.foldl (fun s e => s.cover fid e.1 e.2.1 e.2.2) s

/-! ### Joins (R285) -/

/-- A lane that a JOIN mask names has come: it has exited, or waits in this cycle at a JOIN at the same PC, of which it
may have been released in the cycle already (`just`). -/
def Flock.joined (fl : Flock) (just : List (Nat × Mask)) (w j : Nat) : Bool :=
  fl.exited.getLsbD j || (just.any fun e => e.1 == w && e.2.getLsbD j) || match fl.wait j with
    | some (.join pc _ _) => pc == w
    | _ => false
/-- The lanes whose JOIN is complete. -/
def Flock.joinDone (fl : Flock) (just : List (Nat × Mask)) : Mask :=
  maskOf fun l => match fl.wait l with
    | some (.join w m _) => (lanesOf m).all fun j => fl.joined just w j
    | _ => false
/-- The lanes of the cycle's waits that the masks of the lanes now released name: they synchronise with them (R285). -/
def Flock.joinNamed (fl : Flock) (just : List (Nat × Mask)) : Mask :=
  maskOf fun j => ((just.any fun e => e.2.getLsbD j) || match fl.wait j with
    | some (.join ..) => true
    | _ => false) && (lanesOf (fl.joinDone just)).any fun l => match fl.wait l with
      | some (.join _ m _) => m.getLsbD j
      | _ => false
/-- The lanes of a flock that were released from a JOIN earlier in its cycle. -/
def State.justJoined (s : State) (fid k : Nat) : List (Nat × Mask) :=
  match kget s.folds fid with
  | none => []
  | some fo => match (s.stageOf fo.core (s.flock fid k).stage).turn with
    | some t => if t.fold = fid ∧ t.flock = k then t.just else []
    | none => []
/-- Lanes and the JOINs at which they wait. -/
def Flock.joinsOf (fl : Flock) (m : Mask) : List (Nat × Mask) :=
  (lanesOf m).filterMap fun l => match fl.wait l with
    | some (.join w _ _) => some (w, BitVec.ofNat 32 (2 ^ l))
    | _ => none
/-- The turn of a flock keeps the lanes released from JOINs until its cycle ends. -/
def State.keepJust (s : State) (fid k : Nat) (js : List (Nat × Mask)) : State :=
  match kget s.folds fid with
  | none => s
  | some fo => s.modStage fo.core (s.flock fid k).stage fun st =>
      { st with turn := st.turn.map fun t =>
          if t.fold = fid ∧ t.flock = k then { t with just := t.just ++ js } else t }
/-- Where a released lane goes on. -/
def Wait.next : Wait → Nat
  | .join _ _ n | .bar _ _ n | .acquire _ n | .cwait _ _ n | .trywait _ _ _ _ _ _ n => n
  | .rett => 0
  | .crook _ pc => pc
/-- A set of waiting lanes released, each to where its wait says. -/
def Flock.release (fl : Flock) (m : Mask) : Flock :=
  (fl.movePc m fun l => match fl.wait l with
    | some w => w.next
    | none => fl.pc l).setWait m fun _ => none
/-- Every lane whose JOIN is complete moves on. -/
def Flock.settleJoins (fl : Flock) (just : List (Nat × Mask)) : Flock := fl.release (fl.joinDone just)
/-- The JOINs that complete in a flock: what they order, and the release of their lanes (R285). A condition that holds in
the cycle of two bands holds for both of them. -/
def State.settleJoins (s : State) (fid k : Nat) : State :=
  let fl := s.flock fid k
  let just := s.justJoined fid k
  if fl.joinDone just = 0 then s
  else
    ((s.cover fid k s.nextId (fl.joinNamed just)).keepJust fid k (fl.joinsOf (fl.joinDone just))).modFlock fid k
      fun fl => fl.settleJoins just

/-! ### Barriers (R290) -/

def Barrier.empty : Barrier := { phase := 0, arrived := [], sw := none, marks := [] }
def Fold.barrier (fo : Fold) (b : Nat) : Barrier := kgetD fo.barriers b Barrier.empty
/-- The acquire point stands beside barriers 0 to 15 (R313). -/
def acquirePoint : Nat := 16

/-- The lanes of a set arrive. `sw` is the switch index of a BAR.SW; a lane that has arrived in the
phase arrives once (R290, R314). `n` is the next number: the arrival orders what the lanes issued before it (R229). -/
def Fold.arrive (fo : Fold) (b k n : Nat) (m : Mask) (sw : Option Nat) : Fold :=
  let x := fo.barrier b
  let old := kgetD x.arrived k 0
  let kind := if m &&& ~~~old = 0 then x.sw else
    match x.sw with
    | none => some sw
    | some t => if t = sw then some t else some none
  { fo with
    barriers := kset fo.barriers b
      { x with arrived := kset x.arrived k (old ||| m), sw := kind, marks := x.marks ++ [(k, n, m &&& ~~~old)] } }

/-- Every non-exited lane of every flock has arrived, and some lane has (R290). -/
def Fold.phaseDone (fo : Fold) (b : Nat) : Bool :=
  let x := fo.barrier b
  x.arrived.any (fun e => e.2 != 0)
    && (List.range fo.flocks.length).all fun k =>
      match fo.flocks[k]? with
      | some fl => fl.live &&& ~~~(kgetD x.arrived k 0) == 0
      | none => true

/-- The lanes that wait at a barrier. -/
def Flock.atBar (fl : Flock) (b : Nat) : Mask :=
  maskOf fun l => match fl.wait l with
    | some (.bar c _ _) => c == b
    | some (.acquire _ _) => b == acquirePoint
    | _ => false

/-- The phase flips, arrivals clear, and every waiting lane moves on after its own instruction. -/
def Fold.flip (fo : Fold) (b : Nat) : Fold :=
  let x := fo.barrier b
  { fo with
    barriers := kset fo.barriers b { phase := 1 - x.phase, arrived := [], sw := none, marks := [] }
    flocks := fo.flocks.map fun fl => fl.release (fl.atBar b) }

/-! ### Grants (R308 to R311) -/

/-- The variant is eligible at a point with this live map (R308). -/
def State.eligible (s : State) (fo : Fold) (lm : LiveMap) (v : Variant) : Bool :=
  (v.flocks == fo.flocks.length || (lm.v == 0 && lm.p == 0))
    && (List.range (64 * fo.segs.length)).all fun ch => !s.engineOwned fo ch || ch < 64 * v.segs

/-- The variant fits now: what it needs beyond what the fold holds is available (R309). -/
def State.fits (s : State) (fid : Nat) (fo : Fold) (v : Variant) : Bool :=
  (List.zipWith (fun need av => decide (need ≤ av))
    (List.zipWith (· - ·) v.uses (s.budget fo).uses) (s.avail fo.core (some fid))).all id

/-- The section that a grant gives (R309). -/
def State.grantOf (s : State) (fid : Nat) (fo : Fold) (lm : LiveMap) : Nat :=
  let vs := (s.objOf fo).variants
  let ok := (List.range vs.length).filter fun i => match vs[i]? with
    | some v => s.eligible fo lm v
    | none => false
  let small := ok.getLastD (vs.length - 1)
  if fo.shrink then small
  else match ok.find? (fun i => match vs[i]? with
      | some v => s.fits fid fo v
      | none => false) with
    | some i => i
    | none => if fo.sect = 4 then small else fo.sect

/-- The registers that a live map does not list become 0, and the queue is empty (R311, R315, R316). -/
def Flock.keepLive (fl : Flock) (lm : LiveMap) : Flock :=
  { fl with
    q := []
    bad := fl.bad.filter fun e => bitOf lm.v e.1 || (decide (80 ≤ e.1) && bitOf lm.s (e.1 - 80))
    v := fl.v.filter fun e => bitOf lm.v e.1
    p := fl.p.filter fun e => bitOf lm.p e.1
    s := fl.s.filter fun e => bitOf lm.s e.1
    k := fl.k &&& BitVec.ofNat 8 lm.k }

/-- A flock placed in the lowest free slot of its stage (R303, R311). -/
def State.placeFlock (s : State) (fid k : Nat) : State :=
  match kget s.folds fid with
  | none => s
  | some fo =>
      match s.freeSlot fo.core (k % 2) with
      | none => s
      | some i =>
          (s.modStage fo.core (k % 2) fun st => { st with slots := kset st.slots i (fid, k) }).modFlock
            fid k fun fl => { fl with stage := k % 2, slot := i }
/-- The slot that a flock holds. -/
def State.slotOf (s : State) (fid k : Nat) (fo : Fold) : Option Nat :=
  ((s.stageOf fo.core (k % 2)).slots.find? fun e => e.2 == (fid, k)).map Prod.fst
/-- A flock stands in the slot that its fold already holds for it, or in the lowest free one (R311, R317). A flock
that had ended and that a grant brings back, whose slot R268 freed, has none while no slot is free (log 94). -/
def State.seatFlock (s : State) (fid k : Nat) : State :=
  match kget s.folds fid with
  | none => s
  | some fo => match s.slotOf fid k fo with
      | some i => s.modFlock fid k fun fl => { fl with stage := k % 2, slot := i }
      | none => if (s.flock fid k).live = 0 then s else s.placeFlock fid k
/-- A flock's slot and registers released, to be cleared in the background (R303). -/
def State.dropFlock (s : State) (core stage slot regs : Nat) : State :=
  s.modCore core fun c =>
    let c := c.modStage stage fun st => { st with slots := kdel st.slots slot }
    if stage = 0 then
      { c with dirtySlots := c.dirtySlots ++ [slot], dirty0 := c.dirty0 + regs * 128 }
    else { c with dirtySlots := c.dirtySlots ++ [24 + slot], dirty1 := c.dirty1 + regs * 128 }
/-- A flock still holds a slot. -/
def State.hasSlot (s : State) (fid k : Nat) (fo : Fold) : Bool :=
  (s.stageOf fo.core (k % 2)).slots.any fun e => e.2 == (fid, k)

/-- A flock that a grant adds: the live uniform registers and predicates of flock 0 (R311). -/
def Flock.added (f0 : Flock) (k born : Nat) (lm : LiveMap) : Flock :=
  { Flock.empty with
    ix := k, born := born, s := f0.s.filter fun e => bitOf lm.s e.1, k := f0.k &&& BitVec.ofNat 8 lm.k }

/-- The grant of section `v` takes effect (R311); `pc` is where the lanes go on. A fold in the prologue
holds no variant, so the one that it takes at ACQUIRE is no change of variant (R457, log 54). A count has grown or
shrunk against the flocks that the fold has, which for a restored fold are those that its save holds; those beyond
them are added (log 85). -/
def State.grantTo (s : State) (fid : Nat) (fo : Fold) (lm : LiveMap) (v pc : Nat) : State :=
  let o := s.objOf fo
  let old := o.section fo.sect
  let new := o.section v
  let n := fo.flocks.length
  let change := v != fo.sect && fo.sect != 4
  let recount := new.flocks != n
  -- flocks at or above the new count give up their slots; the others drop their old registers
  let held := Nat.max n old.flocks
  let s := (List.range held).foldl (fun s k =>
    if new.flocks ≤ k then match s.slotOf fid k fo with
      | some i => s.dropFlock fo.core (k % 2) i old.regs
      | none => s
    else s) s
  -- the registers that the other flocks give up are cleared in the background
  let gone := fun st => ((List.range (Nat.min held new.flocks)).filter fun k =>
    k % 2 == st && s.hasSlot fid k fo).length * ((old.regs - new.regs) * 128)
  let s := s.modCore fo.core fun c => { c with dirty0 := c.dirty0 + gone 0, dirty1 := c.dirty1 + gone 1 }
  let segs := if fo.segs.length < new.segs
    then fo.segs ++ (s.freeSegs fo.core).take (new.segs - fo.segs.length) else fo.segs.take new.segs
  let s := s.modCore fo.core fun c => { c with dirtySegs := c.dirtySegs ++ fo.segs.drop new.segs }
  let kept := (fo.flocks.take new.flocks).map fun fl =>
    let fl := if change || recount then fl.keepLive lm else fl
    let fl := if recount then { fl with exited := 0 } else fl
    (fl.movePc fl.live fun _ => pc).setWait fl.live fun _ => none
  let fresh := (List.range (new.flocks - n)).map fun i =>
    ((fo.flocks.headD Flock.empty).added (n + i) (s.nextId + 1 + i) lm).movePc (~~~0) fun _ => pc
  let bars := if recount then fo.barriers.map fun e => (e.1, { e.2 with arrived := [], sw := none, marks := [] })
    else fo.barriers
  let s := { s with
    nextId := s.nextId + fresh.length
    folds := kset s.folds fid { fo with
      sect := v, segs := segs, flocks := kept ++ fresh, barriers := bars, shrink := false } }
  (List.range new.flocks).foldl (fun s k => s.seatFlock fid k) s

/-- The first instruction after the switch point of an index in a section (R311, R314). A section without that index
goes on at its offset 0, for which the spec names nothing (log 94). -/
def CodeObj.switchPc (o : CodeObj) (sect ix : Nat) : Nat :=
  match o.points.find? fun p => p.sect == sect && p.kind == 2 && p.sw == ix with
  | some p => o.base + p.off + 4
  | none => o.base + (o.section sect).off

/-- The live map of the ACQUIRE, or of the switch point of an index in the section held. -/
def CodeObj.switchMap (o : CodeObj) (sect kind ix : Nat) : LiveMap :=
  match o.points.find? fun p => p.sect == sect && p.kind == kind && p.sw == ix with
  | some p => p.live
  | none => { v := 0, p := 0, s := 0, k := 0, acc := 0, chunks := [] }

/-- Some lane of the fold has not exited. -/
def Fold.anyLive (fo : Fold) : Bool := fo.flocks.any fun fl => fl.live != 0
/-- One barrier, or the acquire point, settled: its phase completes if it can (R290, R313, R314);
nothing completes once a stop is wanted (R413), and a fold whose every lane has exited in the prologue
ends without a grant (R313). -/
def State.settleBar (s : State) (fid b : Nat) : State :=
  match kget s.folds fid with
  | none => s
  | some fo =>
      if fo.stopWanted = 0 ∧ fo.phaseDone b ∧ (b ≠ acquirePoint ∨ fo.anyLive) then
        let s := s.coverMarks fid (fo.barrier b).marks
        let o := s.objOf fo
        if b = acquirePoint then
          let lm := o.switchMap 4 0 0
          let v := s.grantOf fid fo lm
          (s.modFold fid fun f => f.flip b).grantTo fid (fo.flip b) lm v (o.base + (o.section v).off)
        else match (fo.barrier b).sw with
          | some (some ix) =>
              let lm := o.switchMap fo.sect 2 ix
              let v := s.grantOf fid fo lm
              (s.modFold fid fun f => f.flip b).grantTo fid (fo.flip b) lm v (o.switchPc v ix)
          | _ => s.modFold fid fun f => f.flip b
      else s

/-! ### Exits -/

/-- Handler mode ends when every lane of TLANES has exited: its causes are discarded and the parked
lanes become ready (R406). -/
def Flock.settleHandler (fl : Flock) : Flock :=
  if fl.handler && (fl.tlanes &&& fl.live == 0) then
    { fl with handler := false, trapParked := 0, cause := 0 }
  else fl

/-- Everything that the arrivals and exits of this cycle complete, on every flock of a fold. -/
def State.settle (s : State) (fid : Nat) : State :=
  let n := ((kget s.folds fid).map fun fo => fo.flocks.length).getD 0
  let s := ((List.range n).foldl (fun s k => s.settleJoins fid k) s).modFold fid fun fo =>
    { fo with flocks := fo.flocks.map Flock.settleHandler }
  (List.range 17).foldl (fun s b => s.settleBar fid b) s

/-- Lanes exit (R268, R286): they wait for nothing and never issue again. -/
def Flock.exitLanes (fl : Flock) (m : Mask) : Flock :=
  { (fl.setWait m fun _ => none) with exited := fl.exited ||| m }

end Sys2Proof.Machine
end

