-- ==== Sys2Proof/Machine/Operands.lean ====
section
/-! DEFINITION. Who issues, the values that operand codes name (R50, R52, R53, R58, R59), guards,
and the registers that an instruction names statically (R51, R61, R86). -/
namespace Sys2Proof.Machine

/-! ### The issuing band -/

/-- The band that issues: its core, stage, fold and flock, whether it is band B, its lanes that have
not exited, their PC, and the instructions it has issued in its run. -/
structure Iss where
  core : Nat
  stage : Nat
  fold : Nat
  flock : Nat
  bandB : Bool
  lanes : Mask
  pc : Nat
  count : Nat
  deriving DecidableEq, Repr

/-- The band of a stage's turn that issues next. -/
def Turn.band (t : Turn) : Option Band := if t.nextB then t.b else t.a

/-- Beside a crook that runs wave by wave, the turn issues nothing but what band B issues in its first cycle (R271). -/
def Turn.held (t : Turn) : Bool := t.run.isSome && !t.nextB
/-- The issuing band of the stage that the machine attends to. -/
def State.issuer (s : State) : Option Iss :=
  match s.focus with
  | none => none
  | some (c, st) =>
      match (s.stageOf c st).turn with
      | none => none
      | some t =>
          match t.band with
          | none => none
          | some b =>
              if b.ended || t.held then none
              else
                let fl := s.flock t.fold t.flock
                match lanesOf (b.lanes &&& fl.live) with
                | [] => none
                | l :: _ =>
                    some { core := c, stage := st, fold := t.fold, flock := t.flock
                           bandB := t.nextB, lanes := b.lanes &&& fl.live, pc := fl.pc l
                           count := b.count }

/-- The flock and the fold of the issuing band. -/
def State.fl (s : State) (q : Iss) : Flock := s.flock q.fold q.flock
def Fold.blank : Fold :=
  { drove := 0, paddock := 0, vd := 0, index := 0, obj := 0, core := 0, sect := 0, segs := []
    flocks := [], barriers := [], queues := [], order := 0, shrink := false, status := .stopped
    stopWanted := 0, stopT1 := 0, stopT2 := 0, stopSeq := 0, ipoint := false, waitFrom := []
    savedTiles := [], savedChunks := [], savedOwn := [], failed := false }
def State.fo (s : State) (q : Iss) : Fold := (kget s.folds q.fold).getD Fold.blank
def State.setFl (s : State) (q : Iss) (g : Flock → Flock) : State := s.modFlock q.fold q.flock g

/-! ### Lane operands -/

/-- A constant's 32-bit pattern in a lane (R52). -/
def constW (c : LConst) (flock l : Nat) : Word :=
  match c with
  | .zero => 0 | .one => 1 | .ones => 0xFFFFFFFF | .fone => 0x3F800000 | .fmone => 0xBF800000
  | .fhalf => 0x3F000000 | .ftwo => 0x40000000 | .laneid => wd l | .flockid => wd flock
  | .foldlane => wd (32 * flock + l) | .inf => 0x7F800000 | .log2e => 0x3FB8AA3B

/-- A constant's half pattern, F16 or BF16 (R52). -/
def constH (bf : Bool) (c : LConst) (flock l : Nat) : Nat :=
  match c with
  | .zero => 0 | .one => 1 | .ones => 0xFFFF
  | .fone => if bf then 0x3F80 else 0x3C00
  | .fmone => if bf then 0xBF80 else 0xBC00
  | .fhalf => if bf then 0x3F00 else 0x3800
  | .ftwo => if bf then 0x4000 else 0x4000
  | .laneid => l | .flockid => flock | .foldlane => 32 * flock + l
  | .inf => if bf then 0x7F80 else 0x7C00
  | .log2e => if bf then 0x3FB9 else 0x3DC5

/-- The value of a lane source operand (R50, R53). -/
def Flock.src (fl : Flock) (lit : Word) (x : LSrc) (l : Nat) : Word :=
  match x with
  | .v n => fl.getV n l
  | .q n => fl.getQ n l
  | .s n => fl.getS n
  | .const c => constW c fl.ix l
  | .lit => lit

/-- The value of a source operand in a packed 16-bit position: a constant is read in the half
format, in both halves (R52). -/
def Flock.srcH (fl : Flock) (bf : Bool) (lit : Word) (x : LSrc) (l : Nat) : Word :=
  match x with
  | .const c => wd (constH bf c fl.ix l * 65537)
  | _ => fl.src lit x l

/-- Active (R11, R48): the band's lanes whose guard holds. -/
def Flock.active (fl : Flock) (h : LHdr) (lanes : Mask) : Mask :=
  maskOf fun l => lanes.getLsbD l && (fl.getP h.g l != h.gn)

/-! ### Uniform operands -/

/-- The value of a uniform source operand (R58). -/
def State.uni (s : State) (q : Iss) (lit : Word) : USrc → Word
  | .s n => (s.fl q).getS n
  | .zero => 0
  | .one => 1
  | .ones => 0xFFFFFFFF
  | .foldidx => wd (s.fo q).index
  | .flockidx => wd q.flock
  | .flocks => wd (s.fo q).flocks.length
  | .depth => wd (match kget s.droves (s.fo q).drove with
      | some d => d.depth
      | none => 0)
  | .lit => lit

/-- The guard of a uniform instruction holds (R57). -/
def Flock.guardK (fl : Flock) (k : Nat) (kn : Bool) : Bool := fl.getK k != kn

/-- A parameter word, as written or substituted at issue (R59). -/
def State.param (s : State) (q : Iss) : Param → Word
  | .word w => w
  | .sub u => s.uni q 0 u

/-! ### Registers named statically -/

/-- Whether the D field of a lane opcode is a destination operand code: not a predicate, an unread
field, or the window base of WRX. -/
def laneDst (op : Nat) : Bool :=
  op ≤ 0x4B || op == 0x52 || op == 0x54 || op == 0x56 || op == 0x58 || op == 0x59 || op == 0x5A || op == 0x5C
    || op == 0x5D || 0x70 ≤ op

/-- The named registers of an LR instruction's fields. -/
def rawNamed (r : LRaw) : List Nat :=
  let u := laneReads r.op r.rnd
  (if laneDst r.op && r.d < 64 then [r.d] else []) ++ (if u.1 && r.a < 64 then [r.a] else [])
    ++ (if u.2.1 && r.b < 64 then [r.b] else [])
    ++ (if u.2.2 && (r.x || r.op < 0x70) && r.c < 64 then [r.c] else [])

/-- The registers from a number onward. -/
def regRange (n k : Nat) : List Nat := (List.range k).map fun i => n + i
def srcRange (x : LSrc) (k : Nat) : List Nat :=
  match x with
  | .v n => regRange n k
  | _ => []

/-- The rest of the register ranges that a memory instruction names (R196). -/
def instrRanges : Instr → List Nat
  | .lds _ sz _ d .. | .ldc _ sz _ d .. => regRange d sz.words
  | .sts _ sz _ _ _ c | .stc _ sz _ _ _ c => srcRange c sz.words
  | .ldsm _ n _ d .. => regRange d n
  | .stsm _ n _ _ _ c => regRange c n
  | .atoms _ _ sh _ d _ b | .atomc _ _ sh _ d _ b => regRange d sh.words ++ srcRange b sh.words
  | .redc _ _ sh _ b => srcRange b sh.words
  | .cass _ dbl _ d _ b c | .casc _ dbl _ d _ b c =>
      regRange d (if dbl then 2 else 1) ++ srcRange b (if dbl then 2 else 1)
        ++ srcRange c (if dbl then 2 else 1)
  | _ => []

/-- The window of RDX and WRX (R131). -/
def instrWindow : Instr → List Nat
  | .rdx _ len _ n _ => regRange n len
  | .wrx _ len n .. => regRange n len
  | _ => []

/-- The named registers of an instruction, its window apart. -/
def instrVregs (i : Instr) : List Nat :=
  (match i.toRaw with
    | some (.lr r) => rawNamed r
    | _ => []) ++ instrRanges i

/-- The named registers that an instruction reads from a bank, by position (R280, R281). -/
def bankReads (i : Instr) : List (Nat × Nat × Bool) :=
  match i.toRaw with
  | some (.lr r) =>
      let u := laneReads r.op r.rnd
      (if u.1 && r.a < 64 then [(0, r.a, bitOf r.hold 2)] else [])
        ++ (if u.2.1 && r.b < 64 then [(1, r.b, bitOf r.hold 1)] else [])
        ++ (if u.2.2 && (r.x || r.op < 0x70) && r.c < 64 then [(2, r.c, bitOf r.hold 0)] else [])
  | _ => []

/-- The data registers that a memory instruction reads after the base of a range: each is a bank read of
its own that no latch serves (R196, R280). -/
def dataTail : Instr → List Nat
  | .sts _ sz _ _ _ c | .stc _ sz _ _ _ c => (srcRange c sz.words).tail
  | .stsm _ n _ _ _ c => (regRange c n).tail
  | .atoms _ _ sh _ _ _ b | .atomc _ _ sh _ _ _ b | .redc _ _ sh _ b => (srcRange b sh.words).tail
  | .cass _ dbl _ _ _ b c | .casc _ dbl _ _ _ b c =>
      (srcRange b (if dbl then 2 else 1)).tail ++ (srcRange c (if dbl then 2 else 1)).tail
  | _ => []

/-- A source operand code that names a register word or a queue age, as a key of `Flock.bad`. -/
def srcKey (reads : Bool) (c : Nat) : List Nat := if reads && c < 0x70 then [c] else []
/-- A uniform operand code's register word as a key of `Flock.bad`. -/
def uniKey (reads : Bool) (c : Nat) : List Nat := if reads && c < 32 then [80 + c] else []
/-- Uniform opcodes that read their old D: SMAD, SSEL, SLIH (R138, R142). -/
def uniReadsD (op : Nat) : Bool := op == 0x04 || op == 0x0E || op == 0x11
/-- The register words that an instruction reads at issue (R447): by source position, 3 for a read that no operand
latch serves, and key of `Flock.bad`. -/
def readKeys (i : Instr) : List (Nat × Nat) :=
  match i.toRaw with
  | some (.lr r) =>
      let u := laneReads r.op r.rnd
      (srcKey u.1 r.a).map (Prod.mk 0) ++ (srcKey u.2.1 r.b).map (Prod.mk 1)
        ++ (srcKey (u.2.2 && (r.x || r.op < 0x70)) r.c).map (Prod.mk 2) ++ (dataTail i).map (Prod.mk 3)
  | some (.ur r) =>
      let u := uniReads r.op r.d
      (uniKey (uniReadsD r.op) r.d ++ uniKey u.1 r.a ++ uniKey u.2 r.b
        ++ (if r.op = 0x13 then uniKey u.1 (r.a + 1) ++ uniKey u.2 (r.b + 1) else [])).map (Prod.mk 3)
  | some (.ui _ op d _) => (uniKey (uniReadsD op) d).map (Prod.mk 3)
  | some (.ue r) =>
      (uniKey (ueReads r.op) r.a ++ uniKey (bitOf r.sub 0) r.w0.toNat ++ uniKey (bitOf r.sub 1) r.w1.toNat
        ++ uniKey (bitOf r.sub 2) r.w2.toNat ++ uniKey (bitOf r.sub 3) r.w3.toNat).map (Prod.mk 3)
  | _ => []
/-- The lanes of a band for which an instruction issues: its guard holds. -/
def Flock.guarded (fl : Flock) (i : Instr) (m : Mask) : Mask :=
  match i.toRaw with
  | some (.lr r) => maskOf fun l => m.getLsbD l && (!r.x || fl.getP r.g l != r.gn)
  | some (.ur r) => if fl.guardK r.k r.kn then m else 0
  | _ => m
def Band.latch (b : Band) (pos : Nat) : Latch := if pos = 0 then b.la else if pos = 1 then b.lb else b.lc
/-- The lanes whose word of one read is bad: of the operand latch where a held one serves it (R281), of the register
otherwise. -/
def Flock.badAt (fl : Flock) (b : Band) (act : Mask) (pos n : Nat) : Mask :=
  if pos < 3 ∧ b.latch pos = some (n, true) then kgetD b.bad pos 0
  else if 80 ≤ n then (if kgetD fl.bad n 0 = 0 then 0 else act)
  else kgetD fl.bad n 0
/-- The consuming lanes whose register word holds an uncorrectable error (R447). RDX reads the register of
its window that the lane's index selects. -/
def Flock.struckLanes (fl : Flock) (b : Band) (i : Instr) (m : Mask) : Mask :=
  if fl.bad.isEmpty && b.bad.isEmpty then 0
  else
    let act := fl.guarded i m
    let one := (readKeys i).foldl (fun x e => x ||| fl.badAt b act e.1 e.2) 0
    act &&& match i with
      | .rdx h len _ n b => one ||| maskOf fun l =>
          decide ((fl.src h.lit b l).toNat < len) && (kgetD fl.bad (n + (fl.src h.lit b l).toNat) 0).getLsbD l
      | _ => one

/-- The consuming lanes whose word is found bad before the opcode's own checks: a crook reads its operands after its
binding check and UNSETTLED (R378), and RDX and WRX read all but the index after theirs (R131). -/
def Flock.struckFirst (fl : Flock) (b : Band) (i : Instr) (m : Mask) : Mask :=
  match i with
  | .crook .. => 0
  | .rdx .. | .wrx .. =>
      if fl.bad.isEmpty && b.bad.isEmpty then 0
      else
        let act := fl.guarded i m
        act &&& ((readKeys i).filter fun e => e.1 == 1).foldl (fun x e => x ||| fl.badAt b act e.1 e.2) 0
  | _ => fl.struckLanes b i m
/-- The lanes in which an instruction of the band writes a named register (R281). -/
def Flock.wroteLanes (fl : Flock) (i : Instr) (m : Mask) (n : Nat) : Mask :=
  fl.guarded i m &&& match i with
    | .wrx h _ w _ b => maskOf fun l => decide (w + (fl.src h.lit b l).toNat = n)
    | _ => match i.toRaw with
      | some (.lr r) => if laneDst r.op && r.d == n then ~~~0 else 0
      | _ => 0
/-- The bad words of the latches after an instruction: those of registers that it read from their banks, and none that it
wrote (R281, R447). `fl` is the flock after the instruction. -/
def Band.badAfter (b : Band) (fl : Flock) (i : Instr) (m : Mask) : SMap Mask :=
  if fl.bad.isEmpty && b.bad.isEmpty then []
  else
    let rs := bankReads i
    [0, 1, 2].filterMap fun pos =>
      let read := rs.find? fun e => e.1 == pos
      let x := match read with
        | some (_, n, _) => if b.latch pos = some (n, true) then kgetD b.bad pos 0 else kgetD fl.bad n 0
        | none => kgetD b.bad pos 0
      let n := match read with
        | some (_, n, _) => some n
        | none => (b.latch pos).map Prod.fst
      let x := match n with
        | some n => x &&& ~~~fl.wroteLanes i m n
        | none => 0
      if x = 0 then none else some (pos, x)

/-- Whether the D field of a UR opcode is a destination s register. -/
def uniDst (op : Nat) : Bool :=
  op ≤ 0x0C || op == 0x0E || op == 0x0F || op == 0x12 || op == 0x13 || op == 0x1E || op == 0x31
    || op == 0x38 || op == 0x3A || op == 0x3B

/-- A uniform operand code's register. -/
def sOf (c : Nat) : List Nat := if c < 32 then [c] else []
/-- An s register with its pair (R139, R412). -/
def sPair (pair : Bool) (c : Nat) : List Nat :=
  if c < 32 then (if pair then [c, c + 1] else [c]) else []

/-- The s register that a lane source code names. -/
def laneS (c : Nat) : List Nat := if 0x50 ≤ c && c < 0x70 then [c - 0x50] else []

/-- The uniform registers that an instruction names statically (R61, R86, R276). -/
def instrSregs (i : Instr) : List Nat :=
  match i.toRaw with
  | some (.lr r) =>
      let u := laneReads r.op r.rnd
      (if u.1 then laneS r.a else []) ++ (if u.2.1 then laneS r.b else [])
        ++ (if u.2.2 then laneS r.c else [])
  | some (.ur r) =>
      let u := uniReads r.op r.d
      let pair := r.op == 0x13
      (if uniDst r.op then sPair (pair || r.op == 0x3A) r.d else [])
        ++ (if u.1 then sPair pair r.a else []) ++ (if u.2 then sPair pair r.b else [])
  | some (.ui _ _ d _) => sOf d
  | some (.ue r) =>
      (if ueReads r.op then sOf r.a else [])
        ++ (if bitOf r.sub 0 then sOf r.w0.toNat else [])
        ++ (if bitOf r.sub 1 then sOf r.w1.toNat else [])
        ++ (if bitOf r.sub 2 then sOf r.w2.toNat else [])
        ++ (if bitOf r.sub 3 then sOf r.w3.toNat else [])
  | _ => []

end Sys2Proof.Machine
end

