-- ==== Sys2Proof/Machine/Ops.lean ====
section
/-! DEFINITION. Taking a trap and returning from one (R398 to R401, R406), and the issue of one
instruction: the checks of R61, its effect or its trap, and what its issue does to the turn. -/
namespace Sys2Proof.Machine

/-! ### Causes (R395) -/
def cDecode : Nat := 0
def cPriv : Nat := 1
def cRegbudget : Nat := 2
def cUnsettled : Nat := 3
def cRunlen : Nat := 4
def cSpbounds : Nat := 5
def cSpowner : Nat := 6
def cAlign : Nat := 7
def cCommons : Nat := 8
def cIndex : Nat := 9
def cNestdepth : Nat := 10
def cArith : Nat := 11
def cSoft : Nat := 12
def cCopyfault : Nat := 13
def cEngparam : Nat := 14
def cCrook : Nat := 15
def cEcc : Nat := 16
def cBreak : Nat := 17
def cWatch : Nat := 18
def cHostwin : Nat := 19

/-- A cause's bit in CAUSE. -/
def causeBit (c : Nat) : Word := wd (2 ^ c)

/-- What an instruction's own part does: a trap with its cause and TLANES, or the next state with
the lanes whose access touched the watched block (R397). -/
abbrev Eff := Except (Nat × Mask) (State × Mask)

/-! ### Taking a trap -/

/-- TBASE of the fold's virtual device, or of the control paddock (R409). -/
def State.tbaseOf (s : State) (fo : Fold) : Nat :=
  (if fo.paddock = 0 then (s.pad 0).tbase else (s.vd fo.vd).tbase).toNat
/-- A handler exists: TBASE is not 0 and lies in resident code (R399). -/
def State.handled (s : State) (fo : Fold) : Bool :=
  s.tbaseOf fo != 0 && (s.objAt fo.paddock (s.forward fo.paddock (s.tbaseOf fo))).isSome

/-- The DROVEID of a fold's drove (R407). -/
def State.droveIdOf (s : State) (fo : Fold) : Nat :=
  match kget s.droves fo.drove with
  | some d => d.id
  | none => fo.drove
/-- A trace record of a flock (R366). -/
def State.traceFl (s : State) (fo : Fold) (k cls type tag pc : Nat) (a b : Word) : State :=
  s.trace fo.paddock (dieOf fo.core) cls
    (traceRec fo.vd tag type fo.core k (s.droveIdOf fo) pc a b (s.die (dieOf fo.core)).refs)

/-- An unhandled trap or a double fault (R399, R401): every lane of the flock exits, and a fault
record of kind 3 is written. -/
def State.unhandled (s : State) (fid k cause pc : Nat) : State :=
  match kget s.folds fid with
  | none => s
  | some fo =>
      let s := s.fault fo.paddock fo.drove
        (faultRec 3 cause 0 fo.paddock (vdField fo.paddock fo.vd) (s.droveIdOf fo) fo.index fo.core 0 0 k pc 0
          (s.die (dieOf fo.core)).refs)
      (s.modFlock fid k fun fl => fl.exitLanes fl.live).settle fid

/-- A cause delivered to the flock that issued (R403): kept for band A of its next turn, or set in CAUSE in handler
mode; nothing where that flock is gone, `born` telling it from a later one of its index, or every lane has exited. -/
def State.deliver (s : State) (fold flock born cause : Nat) : State :=
  s.modFlock fold flock fun fl =>
    if fl.live = 0 ∨ fl.born ≠ born then fl
    else if fl.handler then { fl with cause := fl.cause ||| causeBit cause }
    else { fl with deliver := fl.deliver ||| causeBit cause }
/-- A record of kind 5, of the die that observes the error (R402, R447): the issuing paddock, virtual device and drove
with its DROVEID, the fold's index, core and flock at issue, and the address. -/
def State.errorRecord (s : State) (d p vd drove did ix core flock pc : Nat) : State :=
  s.fault p drove (faultRec 5 16 0 p (vdField p vd) did ix core 0 0 flock pc 0 (s.die d).refs)

/-- A precise trap outside handler mode is taken (R398): CAUSE, TPC and TLANES are written, the
lanes of TLANES enter handler mode at TBASE, and every other lane is parked by the trap. A cause
delivered in the turn that the trap ends is met in handler mode: only its bit is set (R401, R403). The payloads of
its trace record are the cause's number and TLANES (log 88). One recorded in handler mode is a double fault (R401). -/
def State.takeTrap (s : State) (fid k : Nat) (tr : TrapRec) : State :=
  match kget s.folds fid with
  | none => s
  | some fo =>
      if (s.flock fid k).handler then s.unhandled fid k tr.cause tr.at_ else
      let s := s.count fo.paddock (dieOf fo.core) 11 1
      let s := s.traceFl fo k 2 3 0 tr.pc (wd tr.cause) tr.lanes
      if s.handled fo then
        s.modFlock fid k fun fl =>
          { ((fl.movePc tr.lanes fun _ => s.tbaseOf fo).setWait tr.lanes fun _ => none) with
            cause := fl.cause ||| causeBit tr.cause ||| fl.deliver
            deliver := 0
            tpc := wd tr.pc
            tlanes := tr.lanes
            handler := true
            trapParked := fl.live &&& ~~~tr.lanes }
      else s.unhandled fid k tr.cause tr.at_

/-- The return from a trap, when every lane of TLANES waits at RETT (R406): `a` clears causes, and
`skip` moves past the instruction at TPC. -/
def State.returnTrap (s : State) (fid k : Nat) (a : Word) (skip : Bool) : State :=
  match kget s.folds fid with
  | none => s
  | some fo =>
      s.modFlock fid k fun fl =>
        let left := fl.cause &&& ~~~a
        let m := fl.tlanes &&& fl.live
        let go := fun (pc : Nat) => (fl.movePc m fun _ => pc).setWait m fun _ => none
        if left ≠ 0 then { go (s.tbaseOf fo) with cause := left }
        else
          { go ((fl.tpc.toNat + if skip then s.lenAt fo.paddock (s.forward fo.paddock fl.tpc.toNat)
                else 0) % 2 ^ 32) with
            cause := 0, handler := false, trapParked := 0 }

/-- Every lane of TLANES that has not exited waits at a RETT. -/
def Flock.allRett (fl : Flock) : Bool :=
  (lanesOf (fl.tlanes &&& fl.live)).all fun l => fl.wait l == some .rett
/-- The return from a trap is made in the cycle where the last non-exited lane of TLANES that did not wait
at a RETT comes to one or exits, with the values of the last RETT (R406). -/
def State.settleRett (s : State) (fid k : Nat) : State :=
  let fl := s.flock fid k
  if fl.handler && fl.tlanes &&& fl.live != 0 && fl.allRett then s.returnTrap fid k fl.rettA fl.rettSkip
  else s

/-! ### The turn around an instruction -/

def State.modTurn (s : State) (q : Iss) (g : Turn → Turn) : State :=
  s.modStage q.core q.stage fun st => { st with turn := st.turn.map g }
def State.modBand (s : State) (q : Iss) (g : Band → Band) : State :=
  s.modTurn q fun t => if q.bandB then { t with b := t.b.map g } else { t with a := t.a.map g }

/-- A band has ended its run, or has no lane left. -/
def bandDone (fl : Flock) : Option Band → Bool
  | none => true
  | some b => b.ended || (b.lanes &&& fl.live == 0)

/-- Stall cycles for the distinct registers read from banks in one cycle (R280). -/
def bankStalls (reads : List Nat) : Nat :=
  ((List.range 6).map fun b => (reads.filter fun n => n % 6 == b).length).foldl Nat.max 0 - 1

/-- The cycle's stalls are counted (R199, R280, R368). -/
def State.closeCycle (s : State) (core : Nat) (t : Turn) : State :=
  match kget s.folds t.fold with
  | none => s
  | some fo => (s.count fo.paddock (dieOf core) 2 (bankStalls t.reads)).count fo.paddock
      (dieOf core) 3 (t.waves - 1)

/-- The turn ends (R271): its flock is parked (R274) and a trap raised in it is taken, band A's
where both bands raised one (R398). -/
def State.endTurn (s : State) (core stage : Nat) (t : Turn) : State :=
  let s := s.modStage core stage fun st => { st with turn := none }
  let s := s.modFlock t.fold t.flock fun fl => { fl with parked := true }
  match t.trapA, t.trapB with
  | some tr, _ => s.takeTrap t.fold t.flock tr
  | none, some tr => s.takeTrap t.fold t.flock tr
  | none, none => s

/-- What follows an instruction in its cycle: band B's instruction, unless it issued beside a crook of band A already,
the next cycle, or the end of the turn (R271). -/
def State.endInstr (s : State) (q : Iss) : State :=
  match (s.stageOf q.core q.stage).turn with
  | none => s
  | some t =>
      let fl := s.flock t.fold t.flock
      if t.run.isSome then s.modTurn q fun t => { t with nextB := false, ahead := true }
      else if !q.bandB && !t.ahead && !bandDone fl t.b then s.modTurn q fun t => { t with nextB := true }
      else
        let s := s.closeCycle q.core t
        if bandDone fl t.a && bandDone fl t.b then s.endTurn q.core q.stage t
        else s.modTurn q fun t =>
          { t with
            nextB := bandDone fl t.a, flags := 0, reads := [], waves := 0, base := s.nextId, just := []
            ahead := false }

/-- A trap is recorded in the turn, to be taken at its end (R278, R398); in handler mode it is masked at once (R401),
its bit set and the band's lanes going on at `next`, unless it is a double fault. -/
def State.raise (s : State) (q : Iss) (cause pc : Nat) (m : Mask) (next : Nat) : State :=
  let fl := s.fl q
  let s := s.modBand q fun b => { b with ended := true }
  if fl.handler && fl.cause &&& causeBit cause == 0 then
    s.setFl q fun fl => { (fl.movePc q.lanes fun _ => next) with cause := fl.cause ||| causeBit cause }
  else s.modTurn q fun t =>
    if q.bandB then { t with trapB := some ⟨cause, pc, m, q.pc⟩ }
    else { t with trapA := some ⟨cause, pc, m, q.pc⟩ }

/-- The instruction at the band's PC traps: it leaves no effect and ends its run (R14, R278), its bank reads in the
cycle among them (log 84). -/
def State.trapAt (s : State) (q : Iss) (cause : Nat) (m : Mask) (toBase : Bool) : State :=
  let fo := s.fo q
  (s.raise q cause q.pc m
    (if toBase then s.tbaseOf fo else (q.pc + s.lenAt fo.paddock q.pc) % 2 ^ 32)).endInstr q

/-! ### Latches (R281) -/

def Band.setLatch (b : Band) (pos : Nat) (x : Latch) : Band :=
  if pos = 0 then { b with la := x } else if pos = 1 then { b with lb := x } else { b with lc := x }
/-- The bank reads of an instruction's positions: a held latch that holds the register serves it. -/
def bandReads (b : Band) : List (Nat × Nat × Bool) → List Nat
  | [] => []
  | (pos, n, _) :: r => (if b.latch pos = some (n, true) then [] else [n]) ++ bandReads b r
/-- The latches after an instruction. -/
def bandLatch (b : Band) : List (Nat × Nat × Bool) → Band
  | [] => b
  | (pos, n, hold) :: r => bandLatch (b.setLatch pos (some (n, hold))) r
/-- Registers read from banks in the cycle, each once. -/
def addReads (old new : List Nat) : List Nat :=
  new.foldl (fun l n => if l.contains n then l else l ++ [n]) old
def State.bankRead (s : State) (q : Iss) (ns : List Nat) : State :=
  s.modTurn q fun t => { t with reads := addReads t.reads ns }
/-- Scratchpad waves of the cycle (R199). -/
def State.addWaves (s : State) (q : Iss) (n : Nat) : State :=
  s.modTurn q fun t => { t with waves := t.waves + n }

/-- The issuing band as its turn holds it. -/
def State.bandOf (s : State) (q : Iss) : Band :=
  (((s.stageOf q.core q.stage).turn.bind fun t => if q.bandB then t.b else t.a)).getD ⟨0, 0, true, none, none, none, []⟩
/-- The lanes whose operands hold an uncorrectable error, of all that an instruction reads (R447). -/
def State.struckOf (s : State) (q : Iss) (i : Instr) : Mask := (s.fl q).struckLanes (s.bandOf q) i q.lanes
/-- Those that are found before the opcode's own checks. -/
def State.struckEarly (s : State) (q : Iss) (i : Instr) : Mask := (s.fl q).struckFirst (s.bandOf q) i q.lanes

/-- The instruction has issued without a trap: it is counted, its run ends with E, its latches and
bank reads are settled, and WATCH is raised after it (R275, R281, R397). An instruction that traps adds nothing to the
bank reads of its cycle (log 84). -/
def State.retire (s : State) (q : Iss) (i : Instr) (watch : Mask) : State :=
  let fo := s.fo q
  let s := s.count fo.paddock (dieOf q.core) 1 1
  let b := s.bandOf q
  let s := s.bankRead q (bandReads b (bankReads i) ++ dataTail i)
  let s := s.modBand q fun b =>
    { bandLatch b (bankReads i) with
      count := b.count + 1, ended := b.ended || i.ebit, bad := b.badAfter (s.fl q) i q.lanes }
  let s := if watch = 0 then s else
    s.raise q cWatch ((q.pc + 4 * (encode i).length) % 2 ^ 32) watch
      ((q.pc + 4 * (encode i).length) % 2 ^ 32)
  s.endInstr q

/-! ### The checks of R61 -/

/-- Format slot `n` of the drove (R105). -/
def State.slotVal (s : State) (q : Iss) (n : Nat) : DWord :=
  match kget s.droves (s.fo q).drove with
  | some d => d.slots.getD n 0
  | none => 0

/-- The DECODE of check 2 that depends on more than the words: a slot whose format does not suit
(R162, R165, R166), a handler-illegal instruction in handler mode (R400), RETT outside it (R406). -/
def decodeBad (s : State) (q : Iss) (i : Instr) : Bool :=
  let blockBad := fun (f : Option Fmt) => match f with
    | some t => !blockFmt t
    | none => true
  match i with
  | .xpand _ b hi sl .. =>
      match (if b then slotBfmt (s.slotVal q sl) else slotAfmt (s.slotVal q sl)) with
      | some t => !xpandFmt t || (hi && t.width == 6)
      | none => true
  | .sqz8 _ _ sl .. => blockBad (slotDfmt (s.slotVal q sl))
  | .scaleof _ f4 sl .. => !f4 && blockBad (slotDfmt (s.slotVal q sl))
  | .bar .. | .barSw .. | .bara .. | .barw .. | .acquire .. | .cwait .. => (s.fl q).handler
  | .rett .. => !(s.fl q).handler
  | _ => false

/-- Whether an opcode requires E (R78). -/
def needsE (i : Instr) : Bool :=
  if i.opc < 128 then laneNeedsE i.opc else uniNeedsE (i.opc - 128)
/-- Whether an opcode is privileged (R82). -/
def privileged (i : Instr) : Bool := 128 ≤ i.opc && uniPriv (i.opc - 128)
/-- An s register is pending by loads of the other band alone, which reached this same SGET in this turn (R144). -/
def State.otherLoads (s : State) (q : Iss) (d : Nat) : Bool :=
  let es := s.ops.filter fun e =>
    e.2.fold == q.fold && e.2.flock == q.flock && e.2.uni && e.2.nreg != 0 && e.2.dst == d
  !es.isEmpty && es.all fun e => e.2.pc == q.pc && e.2.whose &&& q.lanes == 0
/-- The uniform registers whose pending bits UNSETTLED tests: an SGET that both bands reach issues two loads, so the
pending bit that the first one set does not stop the second (R144, log 67). -/
def settledSregs (s : State) (q : Iss) (i : Instr) : List Nat :=
  match i with
  | .sget _ _ d .. => if s.otherLoads q d then (instrSregs i).drop 1 else instrSregs i
  | _ => instrSregs i
/-- UNSETTLED on the registers named statically (R61, check 6). -/
def unsettled (s : State) (q : Iss) (i : Instr) : Bool :=
  (instrVregs i).any (fun n => (s.fl q).pendV.getLsbD n)
    || (settledSregs s q i).any (fun n => (s.fl q).pendS.getLsbD n)
/-- A crook makes its binding check before UNSETTLED (R378). -/
def isCrook (i : Instr) : Bool := 0x70 ≤ i.opc && i.opc < 0x80

/-- The first check of R61 that fails, from 2 to UNSETTLED in 6; then the operands are read, and a word with
an uncorrectable error traps ECC (R447, log 55). -/
def precheck (s : State) (q : Iss) (i : Instr) : Option Nat :=
  if decodeBad s q i then some cDecode
  else if privileged i && (s.fo q).paddock != 0 then some cPriv
  else if (needsE i || 23 ≤ q.count) && !i.ebit then some cRunlen
  else if (instrVregs i ++ instrWindow i).any (fun n => (s.budget (s.fo q)).regs ≤ n) then
    some cRegbudget
  else if !isCrook i && unsettled s q i then some cUnsettled
  else if s.struckEarly q i != 0 then some cEcc
  else none

/-- The PC of the instruction after the one at the band's PC. -/
def nextPc (q : Iss) (i : Instr) : Nat := (q.pc + 4 * (encode i).length) % 2 ^ 32
/-- The band's lanes moved on to the next instruction (R272). -/
def State.advance (s : State) (q : Iss) (i : Instr) : State :=
  s.setFl q fun fl => fl.movePc q.lanes fun _ => nextPc q i

/-- A masked RETT goes on at TBASE (R401). -/
def isRett : Instr → Bool
  | .rett .. => true
  | _ => false

/-- TLANES of a check's trap: the band, or the lanes whose word failed (R395). -/
def checkLanes (s : State) (q : Iss) (i : Instr) (c : Nat) : Mask :=
  if c = cEcc then s.struckEarly q i else q.lanes
/-- The issue of one instruction by the band whose turn it is. -/
def issue (i : Instr) (body : Iss → State → Eff) (s : State) : Host.Outcome State Fault Refusal :=
  match s.issuer with
  | none => .fault .noIssuer
  | some q =>
      match precheck s q i with
      | some c => .next (s.trapAt q c (checkLanes s q i c) (isRett i))
      | none =>
          match body q (s.advance q i) with
          | .ok (t, w) => .next (t.retire q i w)
          | .error (c, m) => .next (s.trapAt q c m (isRett i))

/-! ### Results (R77) -/

/-- A result of kind Q: pushed in every Active lane, and written to a named destination (R116). -/
def Flock.writeQ (fl : Flock) (d : LDst) (act : Mask) (x : Nat → Word) : Flock :=
  match d with
  | .v n => (fl.pushQ act x).setV n act x
  | .q0 => fl.pushQ act x

/-- A lane instruction of kind Q without flags. -/
def qOp (h : LHdr) (d : LDst) (f : State → Iss → Mask → Nat → Word) (q : Iss) (s : State) : Eff :=
  let act := (s.fl q).active h q.lanes
  let r := tab fun l => if act.getLsbD l then f s q act l else 0
  .ok (s.setFl q fun fl => fl.writeQ d act (lane r), 0)

/-- Flags raised by lanes join FFLAGS; band A's are kept for the cycle (R102, R104). -/
def State.flags (s : State) (q : Iss) (g : Flg) : State :=
  let s := s.setFl q fun fl => { fl with fflags := fl.fflags ||| g }
  if q.bandB then s else s.modTurn q fun t => { t with flags := t.flags ||| g }
/-- The Active lanes that raise a flag enabled in FTRAPEN (R103). -/
def trapLanes (fl : Flock) (act : Mask) (g : Nat → Flg) : Mask :=
  maskOf fun l => act.getLsbD l && (g l &&& fl.ftrapen &&& 31 != 0)
/-- The flags of all Active lanes together. -/
def orFlags (act : Mask) (g : Nat → Flg) : Flg := (lanesOf act).foldl (fun x l => x ||| g l) 0

/-- The results of the Active lanes with their flags. -/
def laneRes (act : Mask) (f : Nat → WF) : List WF :=
  (List.range 32).map fun l => if act.getLsbD l then f l else (0, 0)
def resW (r : List WF) (l : Nat) : Word := (r.getD l (0, 0)).1
def resF (r : List WF) (l : Nat) : Flg := (r.getD l (0, 0)).2

/-- A lane instruction of kind Q that sets flags or raises ARITH (R147). -/
def fOp (h : LHdr) (d : LDst) (f : State → Iss → Mask → Nat → WF) (q : Iss) (s : State) : Eff :=
  let fl := s.fl q
  let act := fl.active h q.lanes
  let r := laneRes act (f s q act)
  if trapLanes fl act (resF r) ≠ 0 then .error (cArith, trapLanes fl act (resF r))
  else .ok ((s.flags q (orFlags act (resF r))).setFl q fun fl => fl.writeQ d act (resW r), 0)

/-- An operation with what it keeps of its issuer: its fold, drove, paddock and virtual device and the state of its
flock as they stand, for a failure that it meets after they end (R402, R404). -/
def MemOp.issuedIn (o : MemOp) (s : State) : MemOp :=
  let f := (kget s.folds o.fold).getD Fold.blank
  { o with
    drove := f.drove, did := s.droveIdOf f, pad := f.paddock, vd := f.vd, ix := f.index
    born := (s.flock o.fold o.flock).born }
/-- An operation that has issued, under a number of its own. -/
def State.addOp (s : State) (o : MemOp) : State :=
  { s with ops := kset s.ops s.nextId (o.issuedIn s), nextId := s.nextId + 1 }
/-- An access or deferred result with nothing in it. -/
def memOpOf (q : Iss) (k : OpKind) : MemOp :=
  { drove := 0, fold := q.fold, flock := q.flock, core := q.core, pc := q.pc, failed := false, kind := k, sp := false, size := .w, bytes := 4
    dst := 0, nreg := 0, uni := false, whose := q.lanes, counts := false
    order := ⟨.none, .fold, false⟩, cyc := 0, todo := [], res := [], covered := [], owed := [], held := []
    frel := [], promo := [] }

/-- A deferred arithmetic instruction (R147): flags or ARITH at issue, the value on return. -/
def dOp (h : LHdr) (d : Nat) (f : State → Iss → Nat → WF) (q : Iss) (s : State) : Eff :=
  let fl := s.fl q
  let act := fl.active h q.lanes
  let r := laneRes act (f s q)
  if trapLanes fl act (resF r) ≠ 0 then .error (cArith, trapLanes fl act (resF r))
  else if act = 0 then .ok (s, 0)
  else
    .ok (((s.flags q (orFlags act (resF r))).setFl q fun fl => { fl with pendV := pendSet fl.pendV d }).addOp
      { memOpOf q .arith with
        dst := d, nreg := 1, counts := true, res := (lanesOf act).map fun l => (l, [resW r l]) }, 0)

/-- A lane instruction of kind P without flags. -/
def pOp (h : LHdr) (p : Nat) (f : State → Iss → Mask → Nat → Bool) (q : Iss) (s : State) : Eff :=
  let act := (s.fl q).active h q.lanes
  .ok (s.setFl q fun fl => fl.setP p act (f s q act), 0)

/-- A uniform instruction: nothing happens when its guard fails (R57). -/
def uOp (h : UHdr) (f : Iss → State → Eff) (q : Iss) (s : State) : Eff :=
  if (s.fl q).guardK h.k h.kn then f q s else .ok (s, 0)

/-- A uniform instruction of kind S that writes one register. -/
def sOp (h : UHdr) (d : Nat) (f : State → Iss → Word) (q : Iss) (s : State) : Eff :=
  uOp h (fun q s => .ok (s.setFl q fun fl => fl.setS d (f s q), 0)) q s

end Sys2Proof.Machine
end

