-- ==== Sys2Proof/Machine/Alu.lean ====
section
/-! DEFINITION. The integer, logic, shift, bit-field, address and dot-product instructions
(R117 to R123): one meaning each over the lane functions of Machine/IntOps.lean. -/
namespace Sys2Proof.Machine

/-- A result from the values of A, of A and B, and of A, B and C in a lane. -/
def on1 (h : LHdr) (a : LSrc) (f : Word → Word) (s : State) (q : Iss) (_ : Mask) (l : Nat) : Word :=
  f ((s.fl q).src h.lit a l)
def on2 (h : LHdr) (a b : LSrc) (f : Word → Word → Word) (s : State) (q : Iss) (_ : Mask) (l : Nat) :
    Word :=
  f ((s.fl q).src h.lit a l) ((s.fl q).src h.lit b l)
def on3 (h : LHdr) (a b c : LSrc) (f : Word → Word → Word → Word) (s : State) (q : Iss) (_ : Mask)
    (l : Nat) : Word :=
  f ((s.fl q).src h.lit a l) ((s.fl q).src h.lit b l) ((s.fl q).src h.lit c l)

/-- IADD (R117). -/
def execIadd (h : LHdr) (d : LDst) (a b : LSrc) (s : State) :
    Host.Outcome State Fault Refusal :=
  issue (.iadd h d a b) (qOp h d (on2 h a b addW)) s
/-- ISUB (R117). -/
def execIsub (h : LHdr) (d : LDst) (a b : LSrc) (s : State) :
    Host.Outcome State Fault Refusal :=
  issue (.isub h d a b) (qOp h d (on2 h a b subW)) s
/-- IMUL (R117). -/
def execImul (h : LHdr) (d : LDst) (a b : LSrc) (s : State) :
    Host.Outcome State Fault Refusal :=
  issue (.imul h d a b) (qOp h d (on2 h a b mulW)) s
/-- IMULH (R117). -/
def execImulh (h : LHdr) (u : Bool) (d : LDst) (a b : LSrc) (s : State) :
    Host.Outcome State Fault Refusal :=
  issue (.imulh h u d a b) (qOp h d (on2 h a b (mulhW u))) s
/-- IMAD (R117). -/
def execImad (h : LHdr) (d : LDst) (a b c : LSrc) (s : State) :
    Host.Outcome State Fault Refusal :=
  issue (.imad h d a b c) (qOp h d (on3 h a b c madW)) s
/-- IADDS (R117). -/
def execIadds (h : LHdr) (u : Bool) (d : LDst) (a b : LSrc) (s : State) :
    Host.Outcome State Fault Refusal :=
  issue (.iadds h u d a b) (qOp h d (on2 h a b (addsW u))) s
/-- ISUBS (R117). -/
def execIsubs (h : LHdr) (u : Bool) (d : LDst) (a b : LSrc) (s : State) :
    Host.Outcome State Fault Refusal :=
  issue (.isubs h u d a b) (qOp h d (on2 h a b (subsW u))) s
/-- IMIN (R117). -/
def execImin (h : LHdr) (u : Bool) (d : LDst) (a b : LSrc) (s : State) :
    Host.Outcome State Fault Refusal :=
  issue (.imin h u d a b) (qOp h d (on2 h a b (minW u))) s
/-- IMAX (R117). -/
def execImax (h : LHdr) (u : Bool) (d : LDst) (a b : LSrc) (s : State) :
    Host.Outcome State Fault Refusal :=
  issue (.imax h u d a b) (qOp h d (on2 h a b (maxW u))) s
/-- IABS (R117). -/
def execIabs (h : LHdr) (sat : Bool) (d : LDst) (a : LSrc) (s : State) :
    Host.Outcome State Fault Refusal :=
  issue (.iabs h sat d a) (qOp h d (on1 h a (absW sat))) s
/-- IABSD (R117). -/
def execIabsd (h : LHdr) (u : Bool) (d : LDst) (a b : LSrc) (s : State) :
    Host.Outcome State Fault Refusal :=
  issue (.iabsd h u d a b) (qOp h d (on2 h a b (absdW u))) s
/-- AND (R118). -/
def execAnd (h : LHdr) (d : LDst) (a b : LSrc) (s : State) :
    Host.Outcome State Fault Refusal :=
  issue (.and h d a b) (qOp h d (on2 h a b (· &&& ·))) s
/-- OR (R118). -/
def execOr (h : LHdr) (d : LDst) (a b : LSrc) (s : State) :
    Host.Outcome State Fault Refusal :=
  issue (.or h d a b) (qOp h d (on2 h a b (· ||| ·))) s
/-- XOR (R118). -/
def execXor (h : LHdr) (d : LDst) (a b : LSrc) (s : State) :
    Host.Outcome State Fault Refusal :=
  issue (.xor h d a b) (qOp h d (on2 h a b (· ^^^ ·))) s
/-- ANDN (R118). -/
def execAndn (h : LHdr) (d : LDst) (a b : LSrc) (s : State) :
    Host.Outcome State Fault Refusal :=
  issue (.andn h d a b) (qOp h d (on2 h a b (fun x y => x &&& ~~~y))) s
/-- LOP3 (R118). -/
def execLop3 (h : LHdr) (tab : Nat) (d : LDst) (a b c : LSrc) (s : State) :
    Host.Outcome State Fault Refusal :=
  issue (.lop3 h tab d a b c) (qOp h d (on3 h a b c (lop3W tab))) s
/-- SHL (R119). -/
def execShl (h : LHdr) (w : Bool) (d : LDst) (a b : LSrc) (s : State) :
    Host.Outcome State Fault Refusal :=
  issue (.shl h w d a b) (qOp h d (on2 h a b (shlW w))) s
/-- SHR (R119). -/
def execShr (h : LHdr) (w : Bool) (d : LDst) (a b : LSrc) (s : State) :
    Host.Outcome State Fault Refusal :=
  issue (.shr h w d a b) (qOp h d (on2 h a b (shrW w))) s
/-- SAR (R119). -/
def execSar (h : LHdr) (w : Bool) (d : LDst) (a b : LSrc) (s : State) :
    Host.Outcome State Fault Refusal :=
  issue (.sar h w d a b) (qOp h d (on2 h a b (sarW w))) s
/-- ROL (R119). -/
def execRol (h : LHdr) (d : LDst) (a b : LSrc) (s : State) :
    Host.Outcome State Fault Refusal :=
  issue (.rol h d a b) (qOp h d (on2 h a b rolW)) s
/-- POPC (R120). -/
def execPopc (h : LHdr) (d : LDst) (a : LSrc) (s : State) :
    Host.Outcome State Fault Refusal :=
  issue (.popc h d a) (qOp h d (on1 h a popcW)) s
/-- CLZ (R120). -/
def execClz (h : LHdr) (d : LDst) (a : LSrc) (s : State) :
    Host.Outcome State Fault Refusal :=
  issue (.clz h d a) (qOp h d (on1 h a clzW)) s
/-- BREV (R120). -/
def execBrev (h : LHdr) (d : LDst) (a : LSrc) (s : State) :
    Host.Outcome State Fault Refusal :=
  issue (.brev h d a) (qOp h d (on1 h a brevW)) s
/-- BFX (R121). -/
def execBfx (h : LHdr) (sx : Bool) (d : LDst) (a b : LSrc) (s : State) :
    Host.Outcome State Fault Refusal :=
  issue (.bfx h sx d a b) (qOp h d (on2 h a b (bfxW sx))) s
/-- BFI (R121). -/
def execBfi (h : LHdr) (d : LDst) (a b c : LSrc) (s : State) :
    Host.Outcome State Fault Refusal :=
  issue (.bfi h d a b c) (qOp h d (on3 h a b c bfiW)) s
/-- LEA (R122). -/
def execLea (h : LHdr) (sh : Nat) (d : LDst) (a b : LSrc) (s : State) :
    Host.Outcome State Fault Refusal :=
  issue (.lea h sh d a b) (qOp h d (on2 h a b (leaW sh))) s
/-- IDOT4 (R123). -/
def execIdot4 (h : LHdr) (ua : Bool) (ub : Bool) (sat : Bool) (d : LDst) (a b c : LSrc) (s : State) :
    Host.Outcome State Fault Refusal :=
  issue (.idot4 h ua ub sat d a b c) (qOp h d (on3 h a b c (idotW 4 8 ua ub sat))) s
/-- IDOT2 (R123). -/
def execIdot2 (h : LHdr) (ua : Bool) (ub : Bool) (sat : Bool) (d : LDst) (a b c : LSrc) (s : State) :
    Host.Outcome State Fault Refusal :=
  issue (.idot2 h ua ub sat d a b c) (qOp h d (on3 h a b c (idotW 2 16 ua ub sat))) s

end Sys2Proof.Machine
end

