-- ==== Sys2Proof/Machine/Pool.lean ====
section
/-! DEFINITION. Accesses under way: when an access of the pool may be performed (R206, R223 to R227,
R229, R234), what performing it does (R205, R212 to R217), the release records of the commons banks
(R233), and the scratchpad accesses that follow at once (R202). -/
namespace Sys2Proof.Machine

/-! ### What stands in a lane's program order -/

/-- The entry still stands in the lane's program order: its access there is not performed. -/
def MemOp.stands (o : MemOp) (l : Nat) : Bool :=
  if o.uni then o.whose.getLsbD l && !o.todo.isEmpty else (kget o.todo l).isSome
/-- The lanes in whose program order the access of lane `l` stands (R222). -/
def MemOp.order4 (o : MemOp) (l : Nat) : List Nat := if o.uni then lanesOf o.whose else [l]
/-- Kinds of the entry. -/
def MemOp.reads (o : MemOp) : Bool :=
  match o.kind with
  | .load | .atom .. | .cas _ => true
  | _ => false
def MemOp.writes (o : MemOp) : Bool :=
  match o.kind with
  | .store | .atom .. | .cas _ => true
  | _ => false
def MemOp.isAcq (o : MemOp) : Bool := o.reads && (o.order.ord == .acq || o.order.ord == .ar)
def MemOp.isRel (o : MemOp) : Bool := o.writes && (o.order.ord == .rel || o.order.ord == .ar)
/-- A release at a scope wider than FOLD. -/
def MemOp.wideRel (o : MemOp) : Bool := o.isRel && o.order.scope != .fold
/-- Two accesses touch a common byte. -/
def touch (xs : List Nat) (n : Nat) (ys : List Nat) (k : Nat) : Bool :=
  xs.any fun a => ys.any fun b => decide (a < b + k) && decide (b < a + n)
/-- The addresses of the access in a lane. -/
def MemOp.addrs (o : MemOp) (l : Nat) : List Nat := ((kget o.todo l).map Prod.fst).getD []
/-- The data of the access in a lane. -/
def MemOp.dataOf (o : MemOp) (l : Nat) : List Word := ((kget o.todo l).map Prod.snd).getD []
/-- Every address of the entry's unperformed accesses that some lane of a set makes. -/
def MemOp.addrsIn (o : MemOp) (m : Mask) : List Nat :=
  o.todo.flatMap fun e => if m.getLsbD e.1 then e.2.1 else []

/-! ### Performing an access -/

/-- A word extended as the width says (R194). -/
def extendWord (sz : MSize) (n : Nat) : Word :=
  match sz with
  | .s8 => iword (sext n 8)
  | .s16 => iword (sext n 16)
  | _ => wd n
/-- The words at the addresses of an access. -/
def State.readWords (s : State) (o : MemOp) (as : List Nat) : List Word :=
  as.map fun a => extendWord o.size (s.rd a o.bytes)
def State.writeWords (s : State) (o : MemOp) : List Nat → List Word → State
  | a :: as, w :: ws => State.writeWords (s.wr a o.bytes w.toNat) o as ws
  | _, _ => s
/-- A compare-and-swap that swaps (R217): the data are the compare words and then the swap words. -/
def casHit (old data : List Word) : Bool := old == data.take old.length

/-- The effect on memory of one lane's access. -/
def State.access (s : State) (o : MemOp) (as : List Nat) (data : List Word) : State :=
  let old := s.readWords o as
  match o.kind with
  | .store => s.writeWords o as data
  | .atom op sh => s.writeWords o as (atomNew op sh old data)
  | .cas _ => if casHit old data then s.writeWords o as (data.drop old.length) else s
  | _ => s
/-- The access acts as a release: a failed compare-and-swap does not (R217). -/
def State.releases (s : State) (o : MemOp) (as : List Nat) (data : List Word) : Bool :=
  match o.kind with
  | .cas _ => casHit (s.readWords o as) data
  | _ => true

/-! ### When an access may be performed (R202, R206, R222 to R227, R229, R234) -/

/-- Later accesses of the entry's lanes wait behind it wherever they go: an acquire, a fence, or a launch whose
record is unread. `w`: for accesses that write (R225, R227, R240, R293). -/
def MemOp.holds (e : MemOp) (w : Bool) : Bool :=
  match e.kind with
  | .launch => true
  | .fence ord _ => ord != .rel || w
  | .flushed _ => w
  | _ => e.isAcq
/-- An entry that an access later in a lane waits for by its kind alone. `rel`: the access is a release wider than
FOLD, `w`: it writes, `ord`: it is an ordered access that comes after an earlier release (R226). A compare-and-swap that
stands counts as the release that it may prove to be (log 73). -/
def MemOp.ahead (e : MemOp) (rel w ord : Bool) : Bool := e.holds w || rel || (e.isRel && ord)
/-- What the access of a lane is: a release wider than FOLD, a write, an ordered access that stays behind releases, a
release at FOLD scope. -/
structure Role where
  wide : Bool
  write : Bool
  ord : Bool
  foldRel : Bool
  deriving DecidableEq, Repr
/-- A release at any scope. -/
def Role.rel (r : Role) : Bool := r.wide || r.foldRel
/-- An earlier entry of the same lane stands before an access of it by its kind. -/
def blocks (e : MemOp) (r : Role) (m : Nat) : Bool := e.stands m && e.ahead r.wide r.write r.ord
/-- An earlier entry of the same lane stands before an access of it by its place: both are in the scratchpad, or they
touch a common byte (R202, R206). -/
def meets (e y : MemOp) (l m : Nat) : Bool :=
  e.stands m && ((e.sp && y.sp)
    || touch (if e.uni then e.addrsIn (~~~0) else e.addrs m) e.bytes (y.addrs l) y.bytes)

/-- The commons byte address as die × 256 + bank; host windows count as one place each (R204). -/
def bankOf (a : Nat) : Nat :=
  if a < 2 ^ 46 then (a - 2 ^ 45) / 2 ^ 26 * 256 + a % 65536 / 256 else 2 ^ 46 + (a - 2 ^ 46) / 2 ^ 21
/-- A commons address, as against a host window's or a scratchpad's. -/
def isCommons (a : Nat) : Bool := decide (2 ^ 45 ≤ a) && decide (a < 2 ^ 46)
/-- The access of lane `m` in entry `e` goes to the bank, or to the host window, of that of lane `l` in entry `y`. -/
def sameBank (e : MemOp) (m : Nat) (y : MemOp) (l : Nat) : Bool :=
  !e.sp && !y.sp && !(e.addrs m).isEmpty && bankOf ((e.addrs m).headD 0) == bankOf ((y.addrs l).headD 0)
/-- Lanes of one load whose addresses lie in one 16-byte block of the commons: one operation serves them (R204). -/
def MemOp.mates (y : MemOp) (l m : Nat) : Bool :=
  y.kind == .load && isCommons ((y.addrs l).headD 0) && m != l && !(y.addrs m).isEmpty
    && (y.addrs m).headD 0 / 16 == (y.addrs l).headD 0 / 16
/-- The lanes that one operation of the bank serves with lane `l` (R204). -/
def MemOp.served (y : MemOp) (l : Nat) : List Nat := (y.todo.map Prod.fst).filter fun m => m == l || y.mates l m
/-- Earlier accesses that arrive first at the bank of lane `l` of entry `id`: the lower lanes of its instruction, and
those of band A in the same cycle (R206). -/
def State.arriveFirst (s : State) (id : Nat) (y : MemOp) (l : Nat) : List (Nat × MemOp × Nat) :=
  (s.ops.filter fun e => decide (e.1 ≤ id) && e.2.fold == y.fold && e.2.flock == y.flock
      && (e.1 == id || decide (y.cyc ≤ e.1))).flatMap fun e =>
    (e.2.todo.filter fun c => (e.1 != id || decide (c.1 < l)) && sameBank e.2 c.1 y l).map fun c => (e.1, e.2, c.1)

/-- What is covered at number `n` comes before the access of lane `l` in entry `id`: the access issued since then, and
is not itself covered so early. -/
def MemOp.after (y : MemOp) (id l n : Nat) : Bool :=
  decide (n ≤ id) && match kget y.covered l with
    | some x => decide (n < x)
    | none => true
/-- An access of the fold that a completed phase or JOIN covers stands before the access of lane `l` in entry `id`
(R229): one that touches its bytes (`near`), and by the order that passes on (R230) an acquire or a fence, a release
before an ordered access, and anything before a release. -/
def State.coverWaits (s : State) (id : Nat) (y : MemOp) (l : Nat) (r : Role) (near : Bool) : Bool :=
  s.ops.any fun e => e.2.fold == y.fold && e.1 != id && e.2.covered.any fun c =>
    (kget e.2.todo c.1).isSome && y.after id l c.2
      && (e.2.holds false || r.rel || (e.2.isRel && r.ord)
        || (near && touch (e.2.addrs c.1) e.2.bytes (y.addrs l) y.bytes))
/-- An ordered access waits for what the releases at FOLD scope of its fold still owe (R225, R226), but for what
its own flock issued with it or after it. -/
def State.owedWaits (s : State) (id : Nat) (y : MemOp) (r : Role) : Bool :=
  (r.rel || r.ord) && s.ops.any fun e => e.2.fold == y.fold && (e.2.flock != y.flock || decide (e.1 < id))
    && e.2.owed.any fun c => (kget e.2.todo c.1).isSome
/-- No promotion holds the access: none is under way at its address, and none of its core that its store or release
issued after (R206, R235). -/
def State.promoFree (s : State) (id : Nat) (y : MemOp) (l : Nat) : Bool :=
  let ad := y.addrs l
  s.ops.all fun e => e.2.promo.all fun p =>
    (e.1 == id && (p.1 == l || y.mates l p.1))
      || (!touch (e.2.addrs p.1) e.2.bytes ad y.bytes
        && (y.core != p.2.1 || decide (id < p.2.2) || !((y.kind == .store && isCommons (ad.headD 0)) || y.isRel)))

/-! ### Releases at FOLD scope (R225, R227, R234) -/

/-- The access is a release at FOLD scope, by its own modifier or after a fence (R227). -/
def foldRelease (o : MemOp) (l : Nat) : Bool :=
  (o.isRel && o.order.scope == .fold) || (o.writes && (kget o.frel l).isSome && !o.wideRel)
/-- The number before which a release at FOLD scope covers what its lane issued: its own, or that of the fence that
makes it one (R227). -/
def MemOp.coversTo (o : MemOp) (id l : Nat) : Nat :=
  if o.isRel && o.order.scope == .fold then id else Nat.min id ((kget o.frel l).getD 0)
/-- The accesses that a release at FOLD scope of lane `l` owes where it is performed before them: those of its lane with
a number below `below`, and those of its flock that share their banks' queues with them. -/
def State.dueOf (s : State) (fold flock below l : Nat) : List (Nat × MemOp × Nat) :=
  let es := (s.ops.filter fun e => decide (e.1 < below) && e.2.fold == fold && e.2.flock == flock).flatMap fun e =>
    e.2.todo.map fun c => (e.1, e.2, c.1)
  es.filter fun x => x.2.2 == l || es.any fun z => z.2.2 == l && sameBank x.2.1 x.2.2 z.2.1 z.2.2
/-- An unordered access of a lane to the commons or a host window that nothing but its bank's queue holds. -/
def State.onItsWay (s : State) (id : Nat) (o : MemOp) (l : Nat) : Bool :=
  (o.reads || o.writes) && !o.uni && !o.sp && o.order.ord == .none && !foldRelease o l && kget o.held l != some true
    && s.promoFree id o l && !s.coverWaits id o l ⟨false, o.writes, false, false⟩ true
/-- A release at FOLD scope of lane `l` may be performed: what its lane issued before number `below` has been performed,
or is on its way, so that the fold's ordered accesses can wait for it (R225, R234, log 73). -/
def State.mayOwe (s : State) (fold flock below l : Nat) : Bool :=
  (s.ops.all fun e => below ≤ e.1 || e.2.fold != fold || e.2.flock != flock || !e.2.stands l || (kget e.2.todo l).isSome)
    && (s.dueOf fold flock below l).all fun x => s.onItsWay x.1 x.2.1 x.2.2
/-- What a release at FOLD scope owes when it is performed. -/
def State.owe (s : State) (fold flock below l : Nat) : State :=
  let due := (s.dueOf fold flock below l).map fun x => (x.1, x.2.2)
  { s with
    ops := s.ops.map fun e => (e.1, { e.2 with
      owed := e.2.todo.foldl (fun o c =>
        if due.contains (e.1, c.1) && (kget o c.1).isNone then kset o c.1 s.nextId else o) e.2.owed }) }
/-- A promotion of `core` asked for at number `req` waits for the access: a release at FOLD scope that the core had
performed by then owes it (R234). -/
def awaited (y : MemOp) (l core req : Nat) : Bool :=
  y.core == core && (kget y.todo l).isSome && match kget y.owed l with
    | some n => decide (n ≤ req)
    | none => false
/-- The promotion of a core asked for at a number is over (R234). -/
def State.promoted (s : State) (core req : Nat) : Bool :=
  s.ops.all fun e => e.2.owed.all fun m => !awaited e.2 m.1 core req
/-- A release still owes an access at bytes of an operation: it arrives before the operation. -/
def State.owedAt (s : State) (as : List Nat) (n : Nat) : Bool :=
  s.ops.any fun e => e.2.owed.any fun c => touch (e.2.addrs c.1) e.2.bytes as n

/-! ### The place of an access -/

/-- The order of an access as its instruction gives it. -/
def MemOp.role (y : MemOp) (l : Nat) : Role :=
  { wide := y.wideRel, write := y.writes, ord := y.isAcq, foldRel := foldRelease y l }
/-- What the access of lane `l` is now: a compare-and-swap that would fail is a load (R217). -/
def State.roleNow (s : State) (y : MemOp) (l : Nat) : Role :=
  let hit := s.releases y (y.addrs l) (y.dataOf l)
  { wide := y.wideRel && hit, write := y.writes && hit, ord := y.isAcq || (y.isRel && hit)
    foldRel := foldRelease y l && hit }
/-- Everything that its order puts before the access of lane `l` in entry `id` has been performed, or is on its way
before a release at FOLD scope (R202, R225 to R230). -/
def State.orderDone (s : State) (id : Nat) (y : MemOp) (l : Nat) (r : Role) : Bool :=
  (s.ops.all fun e => id ≤ e.1 || e.2.fold != y.fold || e.2.flock != y.flock
    || (y.order4 l).all fun m => !blocks e.2 r m)
  && (!r.foldRel || s.mayOwe y.fold y.flock (y.coversTo id l) l)
  && !s.coverWaits id y l r false && !s.owedWaits id y r
/-- Whether its order holds the access of lane `l` in the core's memory pipeline (R202). -/
def State.heldLane (s : State) (id : Nat) (y : MemOp) (l : Nat) : Bool := !s.orderDone id y l (y.role l)
/-- The lane itself and its fold have done what stands before the access (R202, R223 to R230). -/
def State.firstDone (s : State) (id : Nat) (y : MemOp) (l : Nat) (r : Role) : Bool :=
  (s.ops.all fun e => id ≤ e.1 || e.2.fold != y.fold || e.2.flock != y.flock
    || (y.order4 l).all fun m => !meets e.2 y l m)
  && s.orderDone id y l r && !s.coverWaits id y l r true
/-- The access of lane `l` in entry `id` stands outside its bank's queue, for a promotion. -/
def State.offBank (s : State) (id : Nat) (y : MemOp) (l : Nat) : Bool :=
  (kget y.promo l).isSome || !s.promoFree id y l
/-- The accesses that arrive first at its bank, and those that the fold performs first at its bytes of the scratchpad,
have been performed; one off the queue lets accesses of other addresses pass (R206). -/
def State.inTurnAt (s : State) (id : Nat) (y : MemOp) (l : Nat) : Bool :=
  if y.sp then
    s.ops.all fun e => id ≤ e.1 || e.2.fold != y.fold || e.2.flock != y.flock || decide (e.1 < y.cyc)
      || e.2.todo.all fun c => (kget e.2.held c.1).isSome || !touch c.2.1 e.2.bytes (y.addrs l) y.bytes
  else
    (s.arriveFirst id y l).all fun e => s.offBank e.1 e.2.1 e.2.2
      && !touch (e.2.1.addrs e.2.2) e.2.1.bytes (y.addrs l) y.bytes
/-- The access of lane `l` in entry `id` has reached its place. -/
def State.reached (s : State) (id : Nat) (y : MemOp) (l : Nat) : Bool :=
  (kget y.todo l).isSome && s.firstDone id y l (s.roleNow y l) && s.promoFree id y l
/-- Whether the access of lane `l` in entry `id` may be performed now: those that one operation serves have all reached
their place, and nothing arrives before it at its bank (R204, R206). -/
def State.mayPerform (s : State) (id : Nat) (y : MemOp) (l : Nat) : Bool :=
  s.reached id y l && s.inTurnAt id y l && (y.served l).all fun m => m == l || s.reached id y m

/-! ### Release records and promotion (R233, R234) -/

/-- The record of a commons address's bank: the oldest entry first. -/
def State.record (s : State) (a : Nat) : List (Nat × Nat) :=
  kgetD (s.die ((a - 2 ^ 45) / 2 ^ 26)).records (a % 65536 / 256) []
def State.setRecord (s : State) (a : Nat) (r : List (Nat × Nat)) : State :=
  s.modDie ((a - 2 ^ 45) / 2 ^ 26) fun d => { d with records := kset d.records (a % 65536 / 256) r }
/-- The core that must be promoted before the access is performed, if any (R206, R233, R234). An access reaches a
recorded address where it starts at it (log 82). -/
def State.promoFor (s : State) (o : MemOp) (l : Nat) : Option Nat :=
  let a := (o.addrs l).headD 0
  if !isCommons a then none
  else
    let r := s.record a
    let here := r.find? fun e => e.1 == a
    let acq := if o.isAcq && o.order.remote then here.map Prod.snd else none
    let rel := if foldRelease o l && s.releases o (o.addrs l) (o.dataOf l)
      then match here with
        | some e => if e.2 = o.core then none else some e.2
        | none => if 16 ≤ r.length then (r.head?).map Prod.snd else none
      else none
    acq.or rel
/-- What the bank records when a release is performed (R233): an entry names the address at which it starts (log 82).
A store that only a FENCE makes a release counts for the record after FENCE.REL.FOLD, and after a wider fence removes
none: the rule does not say whether such a store counts, as R225 defines a release by ORD (log 82). -/
def State.recordRelease (s : State) (o : MemOp) (l a : Nat) : State :=
  if !isCommons a then s
  else
    let r := (s.record a).filter fun e => e.1 != a
    if foldRelease o l then s.setRecord a ((if 16 ≤ r.length then r.tail else r) ++ [(a, o.core)])
    else if o.isRel then s.setRecord a r
    else s

/-! ### One lane performed, and what follows at once -/

/-- An access that consumes a word with an uncorrectable error (R447): it reads, or it writes part of a
word. -/
def State.meetsError (s : State) (o : MemOp) (as : List Nat) : Bool :=
  as.any fun a => s.struck a o.bytes && (o.reads || o.bytes % codeUnit a != 0 || a % codeUnit a != 0)
/-- The access of lane `l` of entry `id` ends without effect; its instruction returns an error (R404). -/
def State.failLane (s : State) (id l : Nat) : State :=
  { s with ops := kmod s.ops id fun x =>
      { x with todo := kdel x.todo l, promo := kdel x.promo l, failed := true } }
/-- A core's second residue mismatch is counted (R448). -/
def State.mismatch (s : State) (c : Nat) : State :=
  s.modCore c fun k => { k with misses := k.misses ++ [(s.die (dieOf c)).refs] }
/-- The bank ALU fails twice under the access of a lane: its instruction returns an error, which its core counts once
(R445, R448). -/
def State.failAlu (s : State) (id l : Nat) (o : MemOp) : State :=
  let t := s.failLane id l
  if o.failed then t else t.mismatch o.core
/-- The access of lane `l` of entry `id` is performed. -/
def State.perform (s : State) (id l : Nat) : State :=
  match kget s.ops id with
  | none => s
  | some o =>
      match kget o.todo l with
      | none => s
      | some (as, data) =>
          if s.meetsError o as then s.failLane id l
          else if o.alu.getLsbD l then s.failAlu id l o
          else
          let old := s.readWords o as
          let rel := s.releases o as data
          let t := s.access o as data
          let t := if rel then t.recordRelease o l (as.headD 0) else t
          let t := if rel && foldRelease o l then t.owe o.fold o.flock (o.coversTo id l) l else t
          { t with
            ops := kmod t.ops id fun x =>
              { x with todo := kdel x.todo l, promo := kdel x.promo l
                       res := if x.nreg = 0 then x.res else kset x.res l old } }

/-- Entries with nothing left to do, and that return nothing, leave the pool. -/
def State.sweep (s : State) : State :=
  { s with ops := s.ops.filter fun e => !(e.2.todo.isEmpty && !e.2.counts && !e.2.failed) }

/-- A fence that orders nothing more in a lane: nothing earlier of the kinds that it orders stands, and for a release
wider than FOLD nothing that the fold orders before it (R230). -/
def State.fenceDone (s : State) (id below : Nat) (o : MemOp) (ord : MOrd) (scope : MScope) (l : Nat) : Bool :=
  (ord == .acq || scope == .fold || !s.coverWaits id o l ⟨true, false, false, false⟩ false)
  && !s.owedWaits id o ⟨false, false, true, false⟩
  && s.ops.all fun e => below ≤ e.1 || e.2.fold != o.fold || e.2.flock != o.flock || !e.2.stands l
    || (match e.2.kind with
      | .load | .store | .atom .. | .cas _ => ord == .acq && !e.2.reads
      | .launch => false
      | .fence .. | .flushed _ => ord == .acq
      | _ => true)
/-- The lanes of an entry that are held no more. -/
def State.unhold (s : State) (id : Nat) : State :=
  match kget s.ops id with
  | none => s
  | some o =>
      { s with
        ops := kset s.ops id
          { o with held := o.held.map fun e => (e.1, e.2 && s.heldLane id o e.1) } }
/-- What one entry does without further delay: a fence leaves the lanes it no longer orders, and a
held scratchpad access is performed in every lane in which nothing holds it (R202). -/
def State.drainOne (s : State) (id : Nat) : State :=
  match kget s.ops id with
  | none => s
  | some o =>
      match o.kind with
      | .fence ord scope =>
          { s with
            ops := kset s.ops id
              { o with todo := o.todo.filter fun e => !s.fenceDone id id o ord scope e.1 } }
      | .flushed below =>
          { s with
            ops := kset s.ops id
              { o with todo := o.todo.filter fun e => !s.fenceDone id below o .rel .system e.1 } }
      | _ =>
          if o.sp then
            ((o.todo.map Prod.fst).filter fun l => s.mayPerform id o l).foldl
              (fun s l => s.perform id l) s
          else s
/-- What every entry does without further delay, in the order of issue, again and again until nothing changes. -/
def State.drainN : Nat → State → State
  | 0, s => s
  | n + 1, s =>
      let t := (s.ops.map Prod.fst).foldl (fun s id => (s.unhold id).drainOne id) s
      if t.ops = s.ops then t else State.drainN n t
/-- Everything that can happen without further delay. -/
def State.drain (s : State) : State := (s.drainN (s.ops.length + 1)).sweep

/-- A scratchpad access that lanes of a flock make now would be held (R202): behind an earlier access,
acquire, fence or launch of theirs, or behind an access that an event at FOLD scope orders before it. `w`: it
writes. -/
def State.spHeld (s : State) (fold flock : Nat) (m : Mask) (w : Bool) : Bool :=
  s.ops.any fun e => e.2.fold == fold && (e.2.sp || e.2.holds w)
    && ((e.2.flock == flock && (lanesOf m).any fun l => e.2.stands l)
      || e.2.covered.any fun c => (kget e.2.todo c.1).isSome)

/-! ### Waits of engines and completions on earlier accesses -/

/-- No access that a flock issued before number `below`, and none of its fold that is covered,
remains to be performed. -/
def State.performedBefore (s : State) (fold flock below : Nat) : Bool :=
  s.ops.all fun e => e.2.fold != fold || e.2.todo.isEmpty
    || (if e.2.flock = flock then decide (below ≤ e.1)
        else e.2.covered.all (fun c => (kget e.2.todo c.1).isNone) && e.2.owed.all fun c => (kget e.2.todo c.1).isNone)
/-- The acquires, fences and launches that came before the issue of an engine operation, at number `below` by lanes `m`
of a flock, in their order or in the fold's, have been performed: its accesses come after them (R229, R230). -/
def State.engineFree (s : State) (fold flock below : Nat) (m : Mask) : Bool :=
  s.ops.all fun e => e.2.fold != fold || decide (below ≤ e.1) || !e.2.holds false
    || !((e.2.flock == flock && (lanesOf m).any fun l => e.2.stands l)
      || e.2.covered.any fun c => decide (c.2 ≤ below) && (kget e.2.todo c.1).isSome)
/-- No held scratchpad access of a core touches the bytes of a chunk (R201). -/
def State.chunkQuiet (s : State) (core chunk : Nat) : Bool :=
  s.ops.all fun e => !e.2.sp || e.2.core != core || e.2.todo.all fun t =>
    t.2.1.all fun a => (a - scratchAt core 0) / 512 != chunk

end Sys2Proof.Machine
end

