-- ==== Sys2Proof/Machine/Memory.lean ====
section
/-! DEFINITION. The memory instructions of lanes (R192 to R219), SGET (R143), FLUSHH (R239 to R241)
and the events that perform and return what they issue (R206, R234, R276). -/
namespace Sys2Proof.Machine

/-! ### Places and checks -/

/-- An access as its instruction gives it: the alignment, the width of an element, the addresses in
each lane (space-relative) and the data; `wide`: a form that a host window refuses (R209). -/
structure Acc where
  align : Nat
  bytes : Nat
  at_ : Nat → List Nat
  data : Nat → List Word
  wide : Bool

/-- The Active lanes that fail a test of one of their addresses. -/
def badLanes (act : Mask) (x : Acc) (bad : Nat → Bool) : Mask :=
  maskOf fun l => act.getLsbD l && (x.at_ l).any bad
/-- The Active lanes whose address is not aligned (R210, check 2). -/
def misaligned (act : Mask) (x : Acc) : Mask :=
  maskOf fun l => act.getLsbD l && (x.at_ l).headD 0 % x.align != 0
/-- The first of two checks that some lane fails. -/
def orElse (c : Nat × Mask) (r : Option (Nat × Mask)) : Option (Nat × Mask) :=
  if c.2 ≠ 0 then some c else r

/-- Checks 2 to 4 of R210 on a scratchpad access. -/
def State.spTrap (s : State) (fo : Fold) (act : Mask) (x : Acc) : Option (Nat × Mask) :=
  orElse (cAlign, misaligned act x)
    (orElse (cSpbounds, badLanes act x fun a => decide (32768 * fo.segs.length < a + x.bytes))
      (orElse (cSpowner, badLanes act x fun a => s.engineOwned fo (a / 512)) none))

/-- The fields of a commons-space address (R33). -/
def selOf (a : Nat) : Nat := a / 2 ^ 30
def offOf (a : Nat) : Nat := if selOf a = 0 then a % 2 ^ 26 else a % 2 ^ 30
def dieSel (a : Nat) : Nat := a / 2 ^ 26 % 16
/-- The byte is outside the commons allocation of its die, or names no space (R203, R210). -/
def State.commonsBad (s : State) (fo : Fold) (a : Nat) : Bool :=
  selOf a == 3 || (selOf a == 0 &&
    ((s.die (dieSel a)).retired || decide (s.commonsSize fo.paddock (dieSel a) ≤ offOf a)))
/-- HWIN of a virtual device: first unit and count (R208). -/
def State.hwinFirst (s : State) (v : Nat) : Nat := bits (s.reg 1 v 0x03 0) 8 0
def State.hwinCount (s : State) (v : Nat) : Nat := bits (s.reg 1 v 0x03 0) 19 10
/-- The host port of a virtual device (R328): 0 for A, 1 for B. -/
def portOf (v : Nat) : Nat := v / 64
/-- The byte is not within the share of its host window (R208, R210). -/
def State.windowBad (s : State) (fo : Fold) (a : Nat) : Bool :=
  if selOf a = 1 || selOf a = 2 then
    if fo.paddock = 0 then decide (2 ^ 21 ≤ offOf a)
    else portOf fo.vd != selOf a - 1 || decide (s.hwinCount fo.vd ≤ offOf a / 4096)
  else false
/-- Checks 2 and 3 of R210 on a commons-space access. -/
def State.cmTrap (s : State) (fo : Fold) (act : Mask) (x : Acc) : Option (Nat × Mask) :=
  orElse (cAlign, misaligned act x)
    (orElse (cCommons, badLanes act x fun a => s.commonsBad fo a)
      (orElse (cHostwin, badLanes act x fun a => s.windowBad fo a || (x.wide && selOf a != 0)) none))
/-- Where a commons-space byte lies. -/
def State.cmPlace (s : State) (fo : Fold) (a : Nat) : Nat :=
  if selOf a = 0 then commonsAt (dieSel a) (s.commonsBase fo.paddock (dieSel a) + offOf a)
  else windowAt (selOf a - 1)
    (if fo.paddock = 0 then offOf a else s.hwinFirst fo.vd * 4096 + offOf a)

/-! ### Waves and WATCH -/

/-- The words that an access touches in a lane. -/
def wordsOf (x : Acc) (l : Nat) : List Nat := (x.at_ l).map (· / 4)
/-- Waves of a set of word accesses: the most in one bank (R199). -/
def wavesOf (ws : List Nat) : Nat :=
  ((List.range 32).map fun b => (ws.filter fun w => w % 32 == b).length).foldl Nat.max 0
/-- Waves of an instruction: loads and stores share a word, atomics count each lane (R199). -/
def accWaves (act : Mask) (x : Acc) (atom : Bool) : Nat :=
  let ws := (lanesOf act).flatMap (wordsOf x)
  wavesOf (if atom then ws else ws.eraseDups)

/-- The Active lanes whose access touches the watched block with a kind that the mode selects
(R397, R407): `space` 0 scratchpad, 1 commons space. -/
def watched (fl : Flock) (act : Mask) (x : Acc) (space : Nat) (write : Bool) : Mask :=
  let w := fl.watch.toNat
  if bitOf w (if write then 0 else 1) && bits w 3 2 == space then
    maskOf fun l => act.getLsbD l && (x.at_ l).any fun a => a / 16 == w / 16
  else 0

/-! ### Issue -/

/-- The first number of the issue cycle. -/
def State.cycleBase (s : State) (q : Iss) : Nat :=
  if q.bandB then
    match (s.stageOf q.core q.stage).turn with
    | some t => t.base
    | none => s.nextId
  else s.nextId
/-- The lanes in which the scratchpad bank's ALU fails twice under an atomic that issues now (R445). -/
def State.bankAlu (s : State) (q : Iss) (o : MemOp) : Mask :=
  match o.kind, (s.stageOf q.core q.stage).turn with
  | .atom .., some t => if o.sp then t.alu else 0
  | .cas _, some t => if o.sp then t.alu else 0
  | _, _ => 0
/-- An entry joins the pool, with the lanes that are held noted, and what can happen without delay happens. -/
def State.putOp (s : State) (q : Iss) (o : MemOp) : State :=
  let id := s.nextId
  let o := { o with cyc := s.cycleBase q, frel := (s.fl q).fenced, alu := s.bankAlu q o }
  let held := (o.todo.map Prod.fst).filter fun l => s.heldLane id o l
  let s := s.addOp { o with held := held.map fun l => (l, true) }
  (s.drainOne id).sweep
/-- The unperformed accesses of an instruction. -/
def todoOf (act : Mask) (x : Acc) (place : Nat → Nat) : SMap (List Nat × List Word) :=
  (lanesOf act).map fun l => (l, ((x.at_ l).map place, x.data l))
/-- Pending bits of a register range. -/
def Flock.pendRange (fl : Flock) (d n : Nat) : Flock :=
  { fl with pendV := (regRange d n).foldl pendSet fl.pendV }

/-- A lane instruction's access under way: `n` destination registers from `d`, none for a store. -/
def State.start (s : State) (q : Iss) (act : Mask) (x : Acc) (sp : Bool) (k : OpKind) (sz : MSize)
    (o : MOrder) (d n : Nat) : State :=
  if act = 0 then s
  else
    let fo := s.fo q
    let place := fun a => if sp then (fo.place a).getD 0 else s.cmPlace fo a
    (if n = 0 then s else s.setFl q fun fl => fl.pendRange d n).putOp q
      { memOpOf q k with
        sp := sp, size := sz, bytes := x.bytes, dst := d, nreg := n, counts := decide (n ≠ 0)
        order := o, todo := todoOf act x place }

/-- A scratchpad instruction. -/
def spInstr (h : LHdr) (x : Flock → Acc) (k : OpKind) (write atom : Bool) (sz : MSize) (o : MOrder)
    (d n : Nat) (q : Iss) (s : State) : Eff :=
  let fl := s.fl q
  let act := fl.active h q.lanes
  let x := x fl
  match s.spTrap (s.fo q) act x with
  | some t => .error t
  | none =>
      .ok ((s.addWaves q (accWaves act x atom)).start q act x true k sz o d n,
        watched fl act x 0 write)
/-- A commons-space instruction. -/
def cmInstr (h : LHdr) (x : Flock → Acc) (k : OpKind) (write : Bool) (sz : MSize) (o : MOrder)
    (d n : Nat) (q : Iss) (s : State) : Eff :=
  let fl := s.fl q
  let act := fl.active h q.lanes
  let x := x fl
  match s.cmTrap (s.fo q) act x with
  | some t => .error t
  | none => .ok (s.start q act x false k sz o d n, watched fl act x 1 write)

/-! ### Operands -/

/-- Bytes of an element and of the whole access (R194). -/
def elemBytes (sz : MSize) : Nat :=
  match sz with
  | .u8 | .s8 => 1
  | .u16 | .s16 => 2
  | _ => 4
/-- The data words of a source and the registers after it (R196). -/
def dataWords (fl : Flock) (h : LHdr) (x : LSrc) (k l : Nat) : List Word :=
  match x with
  | .v n => (regRange n k).map fun r => fl.getV r l
  | _ => [fl.src h.lit x l]
/-- The words of an access from an address on. -/
def wordsAt (a k : Nat) : List Nat := (List.range k).map fun i => a + 4 * i
/-- A load or store of a size at A + B (R192). -/
def sizeAcc (h : LHdr) (sz : MSize) (a b : LSrc) (data : Flock → Nat → List Word) (fl : Flock) : Acc :=
  { align := elemBytes sz * sz.words, bytes := elemBytes sz
    at_ := fun l => wordsAt (fl.src h.lit a l + fl.src h.lit b l).toNat sz.words
    data := data fl, wide := decide (sz.words = 4) }
/-- `n` words `st` words apart from A + B (R214). -/
def strideAcc (h : LHdr) (n st : Nat) (a b : LSrc) (fl : Flock) : Acc :=
  { align := 4, bytes := 4
    at_ := fun l => (List.range n).map fun i =>
      (fl.src h.lit a l + fl.src h.lit b l).toNat + 4 * st * i
    data := fun _ => [], wide := false }
/-- An atomic's access at A (R215, R216). -/
def atomAcc (h : LHdr) (sh : AtomShape) (a b : LSrc) (fl : Flock) : Acc :=
  { align := 4 * sh.words, bytes := 4
    at_ := fun l => wordsAt (fl.src h.lit a l).toNat sh.words
    data := dataWords fl h b sh.words, wide := sh == .v2 || sh == .v4 }
/-- A compare-and-swap's access: the compare words, then the swap words (R217). -/
def casAcc (h : LHdr) (dbl : Bool) (a b c : LSrc) (fl : Flock) : Acc :=
  let k := if dbl then 2 else 1
  { align := 4 * k, bytes := 4
    at_ := fun l => wordsAt (fl.src h.lit a l).toNat k
    data := fun l => dataWords fl h b k l ++ dataWords fl h c k l, wide := false }
/-- No ordering modifier. -/
def plain : MOrder := ⟨.none, .fold, false⟩

/-! ### Loads and stores -/

/-- LDS (R212). -/
def execLds (h : LHdr) (sz : MSize) (o : MOrder) (d : Nat) (a b : LSrc) (s : State) :
    Host.Outcome State Fault Refusal :=
  issue (.lds h sz o d a b)
    (spInstr h (sizeAcc h sz a b fun _ _ => []) .load false false sz o d sz.words) s
/-- STS (R213). -/
def execSts (h : LHdr) (sz : MSize) (o : MOrder) (a b c : LSrc) (s : State) :
    Host.Outcome State Fault Refusal :=
  issue (.sts h sz o a b c)
    (spInstr h (sizeAcc h sz a b fun fl => dataWords fl h c sz.words) .store true false sz o 0 0) s
/-- LDC (R212). -/
def execLdc (h : LHdr) (sz : MSize) (o : MOrder) (d : Nat) (a b : LSrc) (s : State) :
    Host.Outcome State Fault Refusal :=
  issue (.ldc h sz o d a b)
    (cmInstr h (sizeAcc h sz a b fun _ _ => []) .load false sz o d sz.words) s
/-- STC (R213). -/
def execStc (h : LHdr) (sz : MSize) (o : MOrder) (a b c : LSrc) (s : State) :
    Host.Outcome State Fault Refusal :=
  issue (.stc h sz o a b c)
    (cmInstr h (sizeAcc h sz a b fun fl => dataWords fl h c sz.words) .store true sz o 0 0) s

/-- Waves of LDSM and STSM: the sum over their sub-accesses (R199). -/
def strideWaves (act : Mask) (x : Acc) (n : Nat) : Nat :=
  ((List.range n).map fun i =>
    wavesOf ((lanesOf act).map fun l => (x.at_ l).getD i 0 / 4).eraseDups).foldl (· + ·) 0
/-- LDSM (R214). -/
def execLdsm (h : LHdr) (n st d : Nat) (a b : LSrc) (s : State) :
    Host.Outcome State Fault Refusal :=
  issue (.ldsm h n st d a b) (fun q s =>
    let fl := s.fl q
    let act := fl.active h q.lanes
    let x := strideAcc h n st a b fl
    match s.spTrap (s.fo q) act x with
    | some t => .error t
    | none =>
        .ok ((s.addWaves q (strideWaves act x n)).start q act x true .load .w plain d n,
          watched fl act x 0 false)) s
/-- STSM (R214): each sub-access is a store of its own, in the order of the words. -/
def execStsm (h : LHdr) (n st : Nat) (a b : LSrc) (c : Nat) (s : State) :
    Host.Outcome State Fault Refusal :=
  issue (.stsm h n st a b c) (fun q s =>
    let fl := s.fl q
    let act := fl.active h q.lanes
    let x := strideAcc h n st a b fl
    match s.spTrap (s.fo q) act x with
    | some t => .error t
    | none =>
        .ok ((List.range n).foldl (fun s i =>
            s.start q act { x with at_ := fun l => [(x.at_ l).getD i 0]
                                   data := fun l => [fl.getV (c + i) l] } true .store .w plain 0 0)
          (s.addWaves q (strideWaves act x n)), watched fl act x 0 true)) s

/-! ### Atomics -/

/-- ATOMS (R215, R216). -/
def execAtoms (h : LHdr) (op : AtomOp) (sh : AtomShape) (o : MOrder) (d : Nat) (a b : LSrc)
    (s : State) : Host.Outcome State Fault Refusal :=
  issue (.atoms h op sh o d a b) (spInstr h (atomAcc h sh a b) (.atom op sh) true true .w o d sh.words) s
/-- CASS (R217). -/
def execCass (h : LHdr) (dbl : Bool) (o : MOrder) (d : Nat) (a b c : LSrc) (s : State) :
    Host.Outcome State Fault Refusal :=
  issue (.cass h dbl o d a b c)
    (spInstr h (casAcc h dbl a b c) (.cas dbl) true true .w o d (if dbl then 2 else 1)) s
/-- ATOMC (R215, R216). -/
def execAtomc (h : LHdr) (op : AtomOp) (sh : AtomShape) (o : MOrder) (d : Nat) (a b : LSrc)
    (s : State) : Host.Outcome State Fault Refusal :=
  issue (.atomc h op sh o d a b) (cmInstr h (atomAcc h sh a b) (.atom op sh) true .w o d sh.words) s
/-- CASC (R217). -/
def execCasc (h : LHdr) (dbl : Bool) (o : MOrder) (d : Nat) (a b c : LSrc) (s : State) :
    Host.Outcome State Fault Refusal :=
  issue (.casc h dbl o d a b c)
    (cmInstr h (casAcc h dbl a b c) (.cas dbl) true .w o d (if dbl then 2 else 1)) s
/-- REDC (R215, R216): an atomic that returns nothing. -/
def execRedc (h : LHdr) (op : AtomOp) (sh : AtomShape) (a b : LSrc) (s : State) :
    Host.Outcome State Fault Refusal :=
  issue (.redc h op sh a b) (cmInstr h (atomAcc h sh a b) (.atom op sh) true .w plain 0 0) s

/-! ### Order and ownership -/

/-- FENCE (R218, R227): after a release fence at FOLD scope the lanes' later stores cover what they issued before it;
the others stand in the lanes' order until the earlier accesses that they name are performed. -/
def State.fence (s : State) (q : Iss) (act : Mask) (ord : MOrd) (scope : MScope) : State :=
  if act = 0 then s
  else
    let put := fun (s : State) (k : MOrd) =>
      s.putOp q { memOpOf q (.fence k scope) with todo := (lanesOf act).map fun l => (l, ([], [])) }
    let rel := fun (s : State) =>
      if scope = .fold then
        s.setFl q fun fl => { fl with fenced := (lanesOf act).foldl (fun m l => kset m l s.nextId) fl.fenced }
      else put s .rel
    match ord with
    | .none => put (if scope = .fold then rel s else s) .none
    | .acq => put s .acq
    | .rel => rel s
    | .ar => put (rel s) .acq
/-- FENCE (R218). -/
def execFence (h : LHdr) (ord : MOrd) (scope : MScope) (s : State) :
    Host.Outcome State Fault Refusal :=
  issue (.fence h ord scope) (fun q s =>
    .ok (s.fence q ((s.fl q).active h q.lanes) ord scope, 0)) s

/-- The chunks that CHKO names in a lane: the first and the count (R219). -/
def chkoRange (fl : Flock) (h : LHdr) (a b : LSrc) (l : Nat) : Nat × Nat :=
  ((fl.src h.lit a l).toNat / 512, (fl.src h.lit b l).toNat)
/-- The range holds a chunk at or beyond the allocation. -/
def chkoBad (fo : Fold) (r : Nat × Nat) : Bool :=
  r.2 != 0 && decide (64 * fo.segs.length < r.1 + r.2)
/-- CHKO (R219). -/
def execChko (h : LHdr) (p : Nat) (a b : LSrc) (s : State) : Host.Outcome State Fault Refusal :=
  issue (.chko h p a b) (fun q s =>
    let fl := s.fl q
    let fo := s.fo q
    let act := fl.active h q.lanes
    let bad := maskOf fun l => act.getLsbD l && chkoBad fo (chkoRange fl h a b l)
    if bad ≠ 0 then .error (cSpbounds, bad)
    else
      let own := (List.range (64 * fo.segs.length)).filter fun ch => s.engineOwned fo ch
      pOp h p (fun _ _ _ l =>
        let r := chkoRange fl h a b l
        own.all fun ch => decide (ch < r.1) || decide (r.1 + r.2 ≤ ch)) q s) s

/-! ### SGET (R143) -/

/-- SGET's access: one word at A + B, for the executing band as a whole. -/
def sgetAcc (e : Nat) : Acc :=
  { align := 4, bytes := 4, at_ := fun _ => [e], data := fun _ => [], wide := false }
/-- SGET (R143). -/
def execSget (h : UHdr) (sp : Bool) (d : Nat) (a b : USrc) (s : State) :
    Host.Outcome State Fault Refusal :=
  issue (.sget h sp d a b) (uOp h fun q s =>
    let fo := s.fo q
    let x := sgetAcc (s.uni q h.lit a + s.uni q h.lit b).toNat
    let l := (lanesOf q.lanes).headD 0
    let one : Mask := BitVec.ofNat 32 (2 ^ l)
    match (if sp then s.spTrap fo one x else s.cmTrap fo one x) with
    | some t => .error (t.1, q.lanes)
    | none =>
        let place := fun e => if sp then (fo.place e).getD 0 else s.cmPlace fo e
        let s := if sp then s.addWaves q 1 else s
        .ok ((s.setFl q fun fl => { fl with pendS := pendSet fl.pendS d }).putOp q
            { memOpOf q .load with
              sp := sp, dst := d, nreg := 1, uni := true, counts := true
              todo := todoOf one x place },
          if watched (s.fl q) one x (if sp then 0 else 1) false = 0 then 0 else q.lanes)) s

/-! ### Events: performing, promotion and return -/

/-- A lane's access is performed, with those that one operation of its bank serves with it (R204). -/
def State.serve (s : State) (id : Nat) (o : MemOp) (l : Nat) : State :=
  ((o.served l).foldl (fun s m => s.perform id m) s).drain
/-- The promotions that an operation needs before it is performed, and does not have: those of the accesses that it
serves (R204, R233, R234, log 75). -/
def State.promosOf (s : State) (o : MemOp) (l : Nat) : List (Nat × Nat) :=
  (o.served l).filterMap fun m => match s.promoFor o m with
    | some c => if (kget o.promo m).map Prod.fst == some c then none else some (m, c)
    | none => none
/-- An operation asks for promotions, unless an access that a release owes arrives before it at its bytes (R206). -/
def State.askPromos (s : State) (id : Nat) (o : MemOp) (l : Nat) (cs : List (Nat × Nat)) : State :=
  if (o.served l).any fun m => s.owedAt (o.addrs m) o.bytes then s
  else { s with
    ops := kset s.ops id { o with promo := cs.foldl (fun p c => kset p c.1 (c.2, s.nextId)) o.promo } }
/-- COMMONS_OPERATION (R206): one lane's access reaches its bank and is performed, or asks for the
promotions that it needs (R233, R234). -/
def State.commonsOp (s : State) (id l : Nat) : State :=
  match kget s.ops id with
  | none => s
  | some o =>
      if !s.mayPerform id o l || (o.served l).any fun m => (kget o.promo m).isSome then s
      else match s.promosOf o l with
        | [] => s.serve id o l
        | cs => s.askPromos id o l cs
def execCommonsOperation (op lane : Nat) (s : State) : Host.Outcome State Fault Refusal :=
  .next (s.commonsOp op lane)

/-- PROMOTION_END (R234): every access that the FOLD-scope releases of the promoted cores owe has been
performed, and the operation that asked is performed, unless its bank's record now names another core for it (R233). -/
def State.promoEnd (s : State) (id l : Nat) : State :=
  match kget s.ops id with
  | none => s
  | some o =>
      let ps := o.promo.filter fun p => (o.served l).contains p.1
      if ps.isEmpty || !s.mayPerform id o l || ps.any fun p => !s.promoted p.2.1 p.2.2 then s
      else match s.promosOf o l with
        | [] => s.serve id o l
        | cs => s.askPromos id o l cs
def execPromotionEnd (op lane : Nat) (s : State) : Host.Outcome State Fault Refusal :=
  .next (s.promoEnd op lane)

/-- The flock has a turn now. -/
def State.inTurn (s : State) (core fold flock : Nat) : Bool :=
  match (s.stageOf core ((s.flock fold flock).stage)).turn with
  | some t => t.fold == fold && t.flock == flock
  | none => false
/-- A returned value written to its destination; exited lanes discard it (R286). -/
def Flock.takeResult (fl : Flock) (o : MemOp) : Flock :=
  if o.uni then
    let r := (o.res.headD (0, [])).2
    { (List.range o.nreg).foldl (fun g i => g.setS (o.dst + i) (r.getD i 0)) fl with
      pendS := (regRange o.dst o.nreg).foldl pendClr fl.pendS }
  else
    let m := (maskOf fun l => (kget o.res l).isSome) &&& fl.live
    { (List.range o.nreg).foldl (fun g i =>
        g.setV (o.dst + i) m fun l => ((kget o.res l).getD []).getD i 0) fl with
      pendV := (regRange o.dst o.nreg).foldl pendClr fl.pendV }
/-- The pending bits of a result that does not come, cleared (R404). -/
def Flock.dropResult (fl : Flock) (o : MemOp) : Flock :=
  if o.uni then { fl with pendS := (regRange o.dst o.nreg).foldl pendClr fl.pendS }
  else { fl with pendV := (regRange o.dst o.nreg).foldl pendClr fl.pendV }
/-- An operation that ends leaves the pool, and its flock takes `g`, where the one that issued it still stands. An s
register that a load of the other band makes pending too stays so (R144). -/
def State.endOp (s : State) (id : Nat) (o : MemOp) (g : Flock → Flock) : State :=
  let ops := kdel s.ops id
  let more := o.uni && ops.any fun e =>
    e.2.fold == o.fold && e.2.flock == o.flock && e.2.uni && e.2.nreg != 0 && e.2.dst == o.dst
  { s.modFlock o.fold o.flock fun fl =>
      if fl.born ≠ o.born then fl
      else if more then { g fl with pendS := fl.pendS } else g fl with
    ops := ops }
/-- An instruction's access has met an uncorrectable error (R404, R447): its destination keeps its value,
ECC is delivered to the flock, and a record of kind 5 is written, with the fold as it stood at issue. -/
def State.failResult (s : State) (id : Nat) (o : MemOp) : State :=
  let s := s.endOp id o fun fl => fl.dropResult o
  (s.deliver o.fold o.flock o.born cEcc).errorRecord (dieOf o.core) o.pad o.vd o.drove o.did o.ix o.core o.flock o.pc
/-- RESULT_RETURN (R276): every access of the instruction is performed and its turn is over. -/
def State.resultReturn (s : State) (id : Nat) : State :=
  match kget s.ops id with
  | none => s
  | some o =>
      if o.todo.isEmpty && (o.nreg != 0 || o.failed) && !s.inTurn o.core o.fold o.flock then
        if o.failed then s.failResult id o
        else s.endOp id o fun fl => fl.takeResult o
      else s
def execResultReturn (op : Nat) (s : State) : Host.Outcome State Fault Refusal :=
  .next (s.resultReturn op)

/-! ### FLUSHH -/

/-- FLUSHH (R240): outstanding until every write of W is observable by the host. -/
def execFlushh (h : UHdr) (s : State) : Host.Outcome State Fault Refusal :=
  issue (.flushh h) (uOp h fun q s =>
    .ok (s.putOp q { memOpOf q .flushh with counts := true, whose := q.lanes, uni := true }, 0)) s
/-- FLUSHH_COMPLETE (R240): the flock's earlier writes to host windows are performed; the host
memory that copy operations wrote is memory that the host observes at once. For its lanes' later runs it stands as a
release fence at SYSTEM scope over what they issued before it. -/
def State.flushDone (s : State) (id : Nat) : State :=
  match kget s.ops id with
  | some o =>
      if o.kind = .flushh ∧ (s.ops.all fun e => id ≤ e.1 || e.2.fold != o.fold
          || e.2.flock != o.flock || !e.2.writes || (e.2.addrsIn (~~~0)).all fun a => a < 2 ^ 46
          || 2 ^ 47 ≤ a) then
        { s with
          ops := kset (kdel s.ops id) s.nextId
            { o with
              kind := .flushed id, counts := false, uni := false
              todo := (lanesOf o.whose).map fun l => (l, ([], [])) }
          nextId := s.nextId + 1 }.drain
      else s
  | none => s
def execFlushhComplete (op : Nat) (s : State) : Host.Outcome State Fault Refusal :=
  .next (s.flushDone op)

end Sys2Proof.Machine
end

