-- ==== Sys2Proof/Machine/Flow.lean ====
section
/-! DEFINITION. Lane control (R283 to R286), uniform control (R287, R288, R406, R410), barriers,
ACQUIRE (R289, R290, R312, R313), LAUNCH and CWAIT (R292 to R294). -/
namespace Sys2Proof.Machine

/-- The target of a relative branch: w + 4 + 4 × the displacement, sign-extended (R284, R288). -/
def branchTarget (w disp n : Nat) : Nat := (((w : Int) + 4 + 4 * sext disp n) % 2 ^ 32).toNat
/-- Lanes of the issuing flock moved. -/
def State.jump (s : State) (q : Iss) (m : Mask) (x : Nat → Nat) : State :=
  s.setFl q fun fl => fl.movePc m x
/-- Lanes of the issuing flock wait at the instruction. -/
def State.waitAt (s : State) (q : Iss) (m : Mask) (x : Nat → Wait) : State :=
  s.setFl q fun fl => (fl.movePc m fun _ => q.pc).setWait m fun l => some (x l)

/-! ### Lane control -/

/-- BRL (R284). -/
def execBrl (e : Bool) (p : Nat) (pn : Bool) (disp : Nat) (s : State) :
    Host.Outcome State Fault Refusal :=
  issue (.brl e p pn disp) (fun q s =>
    let fl := s.fl q
    .ok (s.jump q (maskOf fun l => q.lanes.getLsbD l && (fl.getP p l != pn)) fun _ =>
      branchTarget q.pc disp 15, 0)) s
/-- BRXL (R284). -/
def execBrxl (h : LHdr) (a : LSrc) (s : State) : Host.Outcome State Fault Refusal :=
  issue (.brxl h a) (fun q s =>
    let fl := s.fl q
    let act := fl.active h q.lanes
    let bad := maskOf fun l => act.getLsbD l && (fl.src h.lit a l).toNat % 4 != 0
    if bad ≠ 0 then .error (cAlign, bad)
    else .ok (s.jump q act fun l => (fl.src h.lit a l).toNat, 0)) s
/-- JOIN (R285). -/
def execJoin (h : LHdr) (a : LSrc) (s : State) : Host.Outcome State Fault Refusal :=
  issue (.join h a) (fun q s =>
    let fl := s.fl q
    let act := fl.active h q.lanes
    let s := s.waitAt q act fun l =>
      .join q.pc (fl.src h.lit a l) (fl.pc l)
    .ok (s.settle q.fold, 0)) s
/-- LEXIT (R286). As at EXIT, its exit covers no access (log 71). -/
def execLexit (h : LHdr) (s : State) : Host.Outcome State Fault Refusal :=
  issue (.lexit h) (fun q s =>
    .ok (((s.setFl q fun fl => fl.exitLanes (fl.active h q.lanes)).settle q.fold).settleRett q.fold q.flock, 0)) s

/-! ### Uniform control -/

/-- A guard of a UB instruction as a header. -/
def ubHdr (e : Bool) (k : Nat) (kn : Bool) : UHdr := { e := e, k := k, kn := kn, lit := 0 }
/-- BRA (R288). -/
def execBra (e : Bool) (k : Nat) (kn : Bool) (disp : Nat) (s : State) :
    Host.Outcome State Fault Refusal :=
  issue (.bra e k kn disp) (uOp (ubHdr e k kn) fun q s =>
    .ok (s.jump q q.lanes fun _ => branchTarget q.pc disp 19, 0)) s
/-- BRK (R288). -/
def execBrk (e : Bool) (k : Nat) (kn : Bool) (disp : Nat) (s : State) :
    Host.Outcome State Fault Refusal :=
  issue (.brk e k kn disp) (uOp (ubHdr e k kn) fun q _ => .error (cBreak, q.lanes)) s
/-- CALL (R288): it writes s31 where its guard holds, so a pending s31 traps then (R86, log 7). -/
def execCall (e : Bool) (k : Nat) (kn : Bool) (disp : Nat) (s : State) :
    Host.Outcome State Fault Refusal :=
  issue (.call e k kn disp) (uOp (ubHdr e k kn) fun q s =>
    if (s.fl q).pendS.getLsbD 31 then .error (cUnsettled, q.lanes)
    else
      let t := branchTarget q.pc disp 19
      .ok (((s.setFl q fun fl => fl.setS 31 (wd (q.pc + 4))).jump q q.lanes fun _ => t).traceFl
        (s.fo q) q.flock 3 4 0 t 0 0, 0)) s
/-- RET (R288). -/
def execRet (h : UHdr) (a : USrc) (s : State) : Host.Outcome State Fault Refusal :=
  issue (.ret h a) (uOp h fun q s =>
    let t := (s.uni q h.lit a).toNat
    if t % 4 ≠ 0 then .error (cAlign, q.lanes)
    else .ok ((s.jump q q.lanes fun _ => t).traceFl (s.fo q) q.flock 3 5 0 t 0 0, 0)) s
/-- BRX (R288). -/
def execBrx (h : UHdr) (a b : USrc) (s : State) : Host.Outcome State Fault Refusal :=
  issue (.brx h a b) (uOp h fun q s =>
    let t := (s.uni q h.lit a + s.uni q h.lit b).toNat
    if t % 4 ≠ 0 then .error (cAlign, q.lanes) else .ok (s.jump q q.lanes fun _ => t, 0)) s
/-- EXIT (R288). A lane's exit counts as arrived and covers no access (R229, R290, log 71). -/
def execExit (h : UHdr) (s : State) : Host.Outcome State Fault Refusal :=
  issue (.exit h) (uOp h fun q s =>
    .ok (((s.setFl q fun fl => fl.exitLanes q.lanes).settle q.fold).settleRett q.fold q.flock, 0)) s
/-- NOP (R288). -/
def execNop (h : UHdr) (s : State) : Host.Outcome State Fault Refusal :=
  issue (.nop h) (fun _ s => .ok (s, 0)) s
/-- TRAP (R410). -/
def execTrap (h : UHdr) (code : Nat) (s : State) : Host.Outcome State Fault Refusal :=
  issue (.trap h code) (uOp h fun q _ => .error (cSoft, q.lanes)) s

/-- RETT (R406). -/
def execRett (h : UHdr) (skip : Bool) (a : USrc) (s : State) : Host.Outcome State Fault Refusal :=
  issue (.rett h skip a) (uOp h fun q s =>
    let x := s.uni q h.lit a
    let s := (s.waitAt q q.lanes fun _ => .rett).setFl q fun fl => { fl with rettA := x, rettSkip := skip }
    .ok (s.settleRett q.fold q.flock, 0)) s

/-! ### Barriers -/

/-- The queues of the band's lanes are emptied at an instruction with a live map (R68). -/
def State.emptyQueues (s : State) (q : Iss) : State := s.setFl q fun fl => fl.emptyQ q.lanes
/-- The band's lanes arrive at a barrier, and wait there unless the instruction is BARA (R290). A phase that they
complete flips at once, before the cycle's other band executes: R290 does not say which (log 46). -/
def State.arriveAt (s : State) (q : Iss) (b : Nat) (sw : Option Nat) (wait : Option Wait) : State :=
  let s := s.modFold q.fold fun fo => fo.arrive b q.flock s.nextId q.lanes sw
  let s := match wait with
    | some w => s.waitAt q q.lanes fun _ => w
    | none => s
  s.settle q.fold
/-- A barrier instruction's effect: nothing arrives when the guard fails. -/
def barEff (h : UHdr) (b : Nat) (sw : State → Iss → Option Nat) (wait : Iss → Nat → Option Wait)
    (q : Iss) (s : State) : Eff :=
  let s := s.emptyQueues q
  uOp h (fun q s => .ok (s.arriveAt q b (sw s q) (wait q ((s.fl q).pc ((lanesOf q.lanes).headD 0))), 0)) q s
/-- BAR (R290). -/
def execBar (h : UHdr) (b : Nat) (s : State) : Host.Outcome State Fault Refusal :=
  issue (.bar h b) (barEff h b (fun _ _ => none) fun q n => some (.bar b q.pc n)) s
/-- BAR.SW (R314): the switch index comes from the table at the instruction's offset. -/
def execBarSw (e : Bool) (b : Nat) (s : State) : Host.Outcome State Fault Refusal :=
  issue (.barSw e b) (barEff (ubHdr e 0 false) b
    (fun s q => some ((((s.objOf (s.fo q)).pointAt q.pc).map fun p => p.sw).getD 0))
    fun q n => some (.bar b q.pc n)) s
/-- BARA (R290). -/
def execBara (h : UHdr) (b : Nat) (s : State) : Host.Outcome State Fault Refusal :=
  issue (.bara h b) (barEff h b (fun _ _ => none) fun _ _ => none) s
/-- BARW (R290). -/
def execBarw (h : UHdr) (b : Nat) (s : State) : Host.Outcome State Fault Refusal :=
  issue (.barw h b) (barEff h b (fun _ _ => none) fun q n => some (.bar b q.pc n)) s
/-- ACQUIRE (R313). -/
def execAcquire (e : Bool) (s : State) : Host.Outcome State Fault Refusal :=
  issue (.acquire e) (barEff (ubHdr e 0 false) acquirePoint (fun _ _ => none) fun q n =>
    some (.acquire q.pc n)) s

/-! ### Children -/

/-- A parameter word's value as a number. -/
def State.pnat (s : State) (q : Iss) (p : Param) : Nat := (s.param q p).toNat
/-- The first check of LAUNCH that fails (R293). -/
def launchTrap (s : State) (q : Iss) (h : EHdr) (a : Nat) : Option Nat :=
  let p0 := s.pnat q h.p0
  let p1 := s.pnat q h.p1
  let gx := p0 % 2 ^ 31
  let gy := p1 % 65536
  let gz := p1 / 65536
  if 2 ^ 31 ≤ p0 || s.pnat q h.p2 != 0 || s.pnat q h.p3 != 0 || gx * gy * gz == 0
      || decide (2 ^ 31 < gx * gy * gz) then some cEngparam
  else if 10 ≤ (s.uni q 0 .depth).toNat then some cNestdepth
  else if a % 256 ≠ 0 then some cAlign
  else if selOf a != 0 || s.commonsBad (s.fo q) a then some cCommons
  else none
/-- LAUNCH (R292, R293): its record is read by LAUNCH_RECORD_READ; the band's later accesses stand
behind it until then. Its trace record is staged as it issues, in the flock's program order, with the launching
drove's DROVEID (R366, log 88). -/
def execLaunch (h : EHdr) (a : USrc) (group : Nat) (s : State) :
    Host.Outcome State Fault Refusal :=
  issue (.launch h a group) (fun q s =>
    let addr := (s.uni q h.lit a).toNat
    match launchTrap s q h addr with
    | some c => .error (c, q.lanes)
    | none =>
        let fo := s.fo q
        let id := s.nextId
        let p1 := s.pnat q h.p1
        .ok (({ s with
              launches := kset s.launches id
                { fold := q.fold, drove := fo.drove, paddock := fo.paddock, vd := fo.vd
                  die := dieOf q.core, core := q.core, flock := q.flock, pc := q.pc
                  addr := s.cmPlace fo addr, group := group, gx := s.pnat q h.p0
                  gy := p1 % 65536, gz := p1 / 65536, pool := id, ix := fo.index, did := s.droveIdOf fo } }.putOp q
            { memOpOf q .launch with
              uni := true, todo := [((lanesOf q.lanes).headD 0, ([], []))] }).traceFl fo q.flock 1 1 0 q.pc 0 0, 0)) s

/-- The unretired children of a fold in the groups of a mask, launches not yet read included. -/
def State.children (s : State) (fold groups : Nat) : List Nat :=
  ((s.launches.filter fun e => e.2.fold == fold && bitOf groups e.2.group).map Prod.fst)
    ++ ((s.droves.filter fun e => !e.2.host && e.2.parentFold == fold && bitOf groups e.2.group
      && !e.2.retired).map Prod.fst)
/-- CWAIT (R294); no CWAIT completes under a stop request (R413). -/
def execCwait (h : UHdr) (a : USrc) (s : State) : Host.Outcome State Fault Refusal :=
  issue (.cwait h a) (fun q s =>
    let s := s.emptyQueues q
    uOp h (fun q s =>
      let kids := s.children q.fold ((s.uni q h.lit a).toNat % 65536)
      let n := (s.fl q).pc ((lanesOf q.lanes).headD 0)
      .ok (if kids.isEmpty && (s.fo q).stopWanted == 0 then s
        else (s.waitAt q q.lanes fun _ => .cwait kids q.pc n).settle q.fold, 0)) q s) s

end Sys2Proof.Machine
end

