-- ==== Sys2Proof/Machine/Rings.lean ====
section
/-! DEFINITION. Rings and registers that hosts see: BAR0 registers, MSI-X messages, mailboxes (R365),
host-assist records (R333), launch-queue notifies (R331), and the events of the control paddock
(R364). -/
namespace Sys2Proof.Machine

/-! ### BAR0 registers and host rings (R331, R333) -/

/-- A BAR0 register of a virtual device, or of the physical function of port `v - 128`. -/
def State.bar (s : State) (v off : Nat) : Nat := (kgetD (s.vd v).bar0 off 0).toNat
def State.setBar (s : State) (v off x : Nat) : State :=
  s.modVd v fun d => { d with bar0 := kset d.bar0 off (BitVec.ofNat 64 x) }
/-- The host port of a function. -/
def portOfFn (v : Nat) : Nat := if 128 ≤ v then v - 128 else portOf v
/-- The host port of a function is up: one that is down delivers nothing to its host, nor takes anything from it
(R241, R450). -/
def State.fnUp (s : State) (v : Nat) : Bool := !bitOf s.portsDown (portOfFn v)
/-- A host bus address of a port as a device physical address (R339). -/
def hostPa (port addr : Nat) : Nat := (if port = 0 then 4 else 8) * 2 ^ 40 + addr % 2 ^ 42
/-- Words written at a byte address, low word first. -/
def State.putWords (s : State) (a : Nat) (ws : List Word) : State :=
  { s with mem := memWrite s.mem a (wordsBytes ws), upsets := healWords s.upsets a (4 * ws.length) }
/-- The place of entry `e` of a ring whose register holds a base and log2 of its entries. -/
def ringAt (v reg size e : Nat) : Nat :=
  hostPa (portOfFn v) (bits reg 63 12 * 4096 + size * (e % 2 ^ bits reg 3 0))
/-- An MSI-X message of a function. -/
def State.msixRaise (s : State) (v vec : Nat) : State := { s with msix := s.msix ++ [(v, vec)] }

/-- The launch queues and completion queues that a function has (R331, R333). -/
def State.lqn (s : State) (v : Nat) : Nat := if 128 ≤ v then 16 else bits (s.reg 1 v 0x00 0) 20 16
def State.cqn (s : State) (v : Nat) : Nat := if 128 ≤ v then 16 else bits (s.reg 1 v 0x00 0) 28 24
/-- The paddock of a function's droves (R328). -/
def State.padOfFn (s : State) (v : Nat) : Nat := if 128 ≤ v then 0 else s.vdPad v

/-! ### Host assistance (R329, R333) -/

/-- PCTL mode bits of a paddock: 4 fault service, 5 queue service, 6 configuration, 7 migration. -/
def State.mode (s : State) (p b : Nat) : Bool := bitOf (s.reg 0 p 0x00 0) b
/-- A record waits for the host-assist ring; a later notify of a queue replaces an earlier unwritten
one of the same queue (R333). -/
def State.assistPut (s : State) (port : Nat) (rec : List Word) : State :=
  s.modVd (128 + port) fun d =>
    let old := if wbits (rec.headD 0) 7 0 = 1 then d.assist.filter (fun r => r.headD 0 != rec.headD 0)
      else d.assist
    { d with assist := old ++ [rec] }
/-- HOST_ASSIST_RECORD (R333): the oldest waiting record is written when the ring has room. -/
def State.assistWrite (s : State) (port : Nat) : State :=
  let v := 128 + port
  let base := s.bar v 0x80
  let prod := s.bar v 0x88
  match (s.vd v).assist with
  | [] => s
  | r :: rest =>
      if !s.fnUp v || base == 0 || decide (2 ^ bits base 3 0 ≤ (prod + 2 ^ 32 - s.bar v 0x90 % 2 ^ 32) % 2 ^ 32) then s
      else
        (((s.putWords (ringAt v base 32 prod) r).modVd v fun d => { d with assist := rest }).setBar v
          0x88 ((prod + 1) % 2 ^ 32)).msixRaise v (bits (s.bar v 0x98) 10 0)

/-! ### Launch-queue notifies (R331) -/

/-- A ring base: ignored when its log2 field is outside 4 to `top` and the value is not 0. -/
def ringBase (top x : Nat) : Option Nat :=
  if x = 0 then some 0
  else if 4 ≤ bits x 3 0 ∧ bits x 3 0 ≤ top then some (bits x 63 12 * 4096 + bits x 3 0) else none
/-- A write of a register of a launch or completion queue. -/
def State.queueReg (s : State) (v off x : Nat) : State :=
  let q := off % 0x1000 / 32
  let r := off % 32 / 8
  if off / 0x1000 = 1 then
    if s.lqn v ≤ q then s
    else match r with
      | 0 => match ringBase 16 x with
        | some b => s.setBar v off b
        | none => s
      | 3 => s.setBar v off (bits x 3 0)
      | _ => s
  else if s.cqn v ≤ q then s
  else match r with
    | 0 => match ringBase 16 x with
      | some b => s.setBar v off b
      | none => s
    | 3 => s.setBar v off (bits x 10 0)
    | _ => s

/-- Offsets of the registers of launch queue `q` and completion queue `q`. -/
def lqReg (q r : Nat) : Nat := 0x1000 + 32 * q + 8 * r
def cqReg (q r : Nat) : Nat := 0x2000 + 32 * q + 8 * r
/-- A host write that a migration drops, counted while the stop runs (R438). -/
def State.dropHost (s : State) (v : Nat) : State :=
  s.modVd v fun d => { d with drops := if d.shep = 2 then d.drops + 1 else d.drops }
/-- A host write of LQNOTIFY: it records the tail, and under QUEUEHA asks the driver of the physical
function. A queue that does not exist ignores it (R331). -/
def State.lqNotify (s : State) (v q x : Nat) : State :=
  if s.lqn v ≤ q then s
  else if (s.vd v).shep = 2 ∨ (s.vd v).shep = 3 then s.dropHost v
  else
    let ha := v < 128 && s.mode (s.vdPad v) 5
    let s := (s.setBar v (lqReg q 2) (x % 2 ^ 32)).modVd v fun d =>
      { d with
        mute := d.mute.filter (· != q), plainTail := if ha then d.plainTail else kset d.plainTail q (x % 2 ^ 32) }
    if ha then
      s.assistPut (portOf v) [wd (q * 2 ^ 16 + v % 64 * 2 ^ 8 + 1), wd x, 0, 0, 0, 0, 0, 0]
    else s
/-- How far a tail lies beyond LQHEAD; nothing for one that entries read have passed. -/
def tailAfter (h x : Nat) : Nat :=
  let n := (x + 2 ^ 32 - h) % 2 ^ 32
  if n < 2 ^ 31 then n else 0
/-- The tail up to which entries are read: the last one that was notified outside QUEUEHA, or one that the driver
has approved since, but no later than the notified one (R329, R333). What the driver approves beyond the notified tail
is kept for a later notify (log 86). -/
def State.lqTail (s : State) (v q : Nat) : Nat :=
  let t := s.bar v (lqReg q 2)
  if 128 ≤ v then t
  else
    let h := s.bar v (lqReg q 1)
    let a := match kget (s.vd (128 + portOf v)).bar0 (0x5000 + 128 * (v % 64) + 8 * q) with
      | some x => tailAfter h x.toNat
      | none => 0
    let p := match kget (s.vd v).plainTail q with
      | some x => tailAfter h x
      | none => 0
    (h + Nat.min (tailAfter h t) (Nat.max a p)) % 2 ^ 32

/-! ### Mailboxes (R365) -/

/-- A mailbox record: written to the ring and counted, then MSI-X vector 0. The spec gives the
mailbox 64 places and no count of records read, so whether one that has had 64 messages is full is a
free value (log 9). A function without a mailbox ring, or whose port is down, drops the message. -/
def State.mailPut (s : State) (v : Nat) (ws : List Word) : State :=
  let base := s.bar v 0x38
  let n := s.bar v 0x40 % 2 ^ 32
  let f := s.freeVal
  let full := base == 0 || !s.fnUp v || (64 ≤ n && f.1.getLsbD 0)
  let s := if base != 0 && 64 ≤ n then f.2 else s
  if full then s.setBar v 0x40 (2 ^ 32 + n)
  else
    ((s.putWords (hostPa (portOfFn v) (bits base 63 12 * 4096 + 32 * (n % 64)))
      (ws ++ [wd n, 0, 0, 0])).setBar v 0x40
        (bits (s.bar v 0x40) 32 32 * 2 ^ 32 + (n + 1) % 2 ^ 32)).msixRaise v 0

/-! ### Events of the control paddock (R364) -/

/-- An event to be recorded: its code, die, virtual device and paddock, its detail and payload, and
lea die A's reference count at the event. -/
def State.event (s : State) (code die vd pad detail : Nat) (pay : List Word) : State :=
  let t := (s.die 16).refs
  { s with
    evNew := s.evNew ++ [[wd (die * 2 ^ 24 + vd * 2 ^ 16 + pad * 2 ^ 8 + code), wd detail]
      ++ (pay ++ [0, 0, 0, 0]).take 4 ++ [wd t, wd (t / 2 ^ 32)]] }
/-- The place of the event queue, and its number of records; 0 while it is absent. -/
def State.evAt (s : State) : Nat :=
  let a := bits (s.reg 0 0 0x0B 0) 31 0
  commonsAt (a / 2 ^ 26 % 16) (a % 2 ^ 26)
def State.evSize (s : State) : Nat :=
  let n := bits (s.reg 0 0 0x0B 0) 35 32
  if n = 0 then 0 else 2 ^ n
/-- The counts of the event queue cannot be read: an uncorrectable error has struck them (R446). -/
def State.evBad (s : State) : Bool := s.evSize != 0 && s.struck s.evAt 8
/-- Their error is reported as they are consumed: a record of kind 5 of paddock 0 (R446, log 93). -/
def State.evReport (s : State) : State :=
  s.errorRecord (bits (s.reg 0 0 0x0B 0) 31 0 / 2 ^ 26 % 16) 0 127 s.nextId 0 0 0 0 0
/-- Waiting events are written, oldest first, while the queue has room; counts that cannot be read show none. -/
def State.evFlush (s : State) : Nat → State
  | 0 => s
  | n + 1 =>
      match s.evBuf with
      | [] => s
      | r :: rest =>
          let prod := s.rd s.evAt 4
          if s.evBad then s.evReport
          else if s.evSize ≤ (prod + 2 ^ 32 - s.rd (s.evAt + 4) 4) % 2 ^ 32 then s
          else
            let t := { s.putWords (s.evAt + 32 + 32 * (prod % s.evSize)) r with evBuf := rest }
            State.evFlush (t.wr t.evAt 4 ((prod + 1) % 2 ^ 32)) n
/-- An event arrives: it joins the buffer of 64, or is dropped and OVF is set, where its word can be read. -/
def State.evArrive (s : State) (r : List Word) : State :=
  let s := s.evFlush 64
  if s.evBuf.length < 64 then { s with evBuf := s.evBuf ++ [r] }.evFlush 64
  else if s.evSize = 0 ∨ s.struck (s.evAt + 8) 4 then s
  else s.wr (s.evAt + 8) 4 (s.rd (s.evAt + 8) 4 / 2 * 2 + 1)

end Sys2Proof.Machine
end

