-- ==== Sys2Proof/Machine/Cache.lean ====
section
/-! DEFINITION. The memory-side cache of each die (R26, R356 to R359): which sectors it holds, what an access
allocates and evicts, the transfers that are charged (R353), and the residency of copies (R253). Memory as the
model holds it is what agents read: residency changes no value (R253). -/
namespace Sys2Proof.Machine

/-- How an access places its lines (R253): under a chain id, 0 for none, untagged, or without allocating. -/
inductive Keep where
  | chain (id : Nat)
  | keep
  | stream
  deriving DecidableEq, Repr
/-- The tag of a paddock's chain id: those of different paddocks never meet (R358). -/
def chainTag (p chain : Nat) : Nat := if chain = 0 then 0 else p * 256 + chain
/-- The residency of a copy operation. -/
def CopyOp.keep (o : CopyOp) : Keep :=
  if o.res = 0 then .chain (chainTag o.paddock o.chain) else if o.res = 1 then .keep else .stream

/-! ### Ways (R356, R359) -/

/-- A paddock's ways on a die, as a mask; after reset paddock 0 has every way (R335). -/
def State.ways (s : State) (p d : Nat) : Nat := kgetD (s.pad p).ways d (if p = 0 then 65535 else 0)
/-- A QOSSET.WAYS that has not completed takes the way from the paddock: it takes no new allocation (R359). -/
def State.wayLeaves (s : State) (p d w : Nat) : Bool :=
  s.privs.any fun e => e.2.what == 17 && e.2.ix == d && bitOf e.2.val w != (e.2.elem == p)
/-- The ways in which a paddock's accesses find lines, and those in which they allocate. -/
def State.ownWays (s : State) (p d : Nat) : List Nat := (List.range 16).filter (bitOf (s.ways p d))
def State.allocWays (s : State) (p d : Nat) : List Nat := (s.ownWays p d).filter fun w => !s.wayLeaves p d w

/-! ### One line -/

/-- The sectors of line `l` that bytes touch, and whether the bytes cover a sector whole. -/
def sectorsIn (l a n : Nat) : List Nat :=
  (List.range 4).filter fun i => decide (256 * l + 64 * i < a + n) && decide (a < 256 * l + 64 * i + 64)
def wholeSector (l i a n : Nat) : Bool := decide (a ≤ 256 * l + 64 * i) && decide (256 * l + 64 * i + 64 ≤ a + n)
/-- The units that a line takes in its physical line of 16. -/
def CacheLine.size (c : CacheLine) : Nat := c.units.foldl (fun n e => n + e.2) 0
def linesSize (cs : List CacheLine) : Nat := cs.foldl (fun n c => n + c.size) 0
/-- The blocks of a line that memory does not hold: what its eviction writes back. -/
def CacheLine.backs (c : CacheLine) : List Nat :=
  ((List.range 4).filter (bitOf c.dirty)).map fun i => 256 * c.line + 64 * i
/-- A line after an access to sectors of it: those filled or enlarged take `units`, and the chain tag is as
R358 says. An access that does not allocate fills no sector. -/
def CacheLine.touched (c : CacheLine) (k : Keep) (wr : Bool) (secs : List Nat) (units : Nat → Nat) (now : Nat) :
    CacheLine :=
  let secs := if k = .stream then secs.filter fun i => (kget c.units i).isSome else secs
  { c with
    units := secs.foldl (fun m i => if wr || (kget m i).isNone then kset m i (units i) else m) c.units
    dirty := if wr then secs.foldl (fun m i => Nat.lor m (2 ^ i)) c.dirty else c.dirty
    chain := match k with
      | .chain n => n
      | .keep => 0
      | .stream => c.chain
    used := now }

/-! ### An access -/

/-- What accesses do to a cache: its lines, sector hits and misses, 64-byte transfers, and blocks written back. -/
structure CacheWork where
  cache : SMap (List CacheLine)
  now : Nat
  hits : Nat
  misses : Nat
  moved : Nat
  backs : List Nat
  deriving DecidableEq, Repr
/-- Transfers of a missing sector: a read or the fill of a partial write, and a write that the cache does not hold. -/
def missCost (wr held whole : Bool) : Nat :=
  if wr then (if whole then 0 else 1) + (if held then 0 else 1) else 1
/-- The replacement order (R358): lines without a chain id before those with one, the least recently used first. -/
def earlierLine (a b : CacheLine) : Bool :=
  if (a.chain == 0) == (b.chain == 0) then decide (a.used < b.used) else a.chain == 0
/-- The way whose physical line is evicted (R357, R358). -/
def victim (lines : Nat → List CacheLine) (ws : List Nat) : Nat :=
  ((ws.flatMap fun w => (lines w).map fun c => (w, c)).foldl
    (fun (b : Option (Nat × CacheLine)) x => match b with
      | some y => if earlierLine x.2 y.2 then some x else b
      | none => some x) none).elim (ws.headD 0) Prod.fst
/-- One line of an access (R356, R357): a present line takes the sectors, evicting its partner where its physical
line has too few units, for a missing sector that a read fills as for one that a write enlarges (log 87); an absent line is allocated where there is room, or in place of a physical line. -/
def CacheWork.line (x : CacheWork) (own alloc : List Nat) (k : Keep) (wr : Bool) (slot set l a n : Nat)
    (units : Nat → Nat) : CacheWork :=
  let secs := sectorsIn l a n
  let lines := fun w => kgetD x.cache (16 * set + w) []
  let isIt := fun (c : CacheLine) => c.line == l && c.slot == slot
  let cost := fun held (is : List Nat) => (is.map fun i => missCost wr held (wholeSector l i a n)).foldl (· + ·) 0
  match own.find? fun w => (lines w).any isIt with
  | some w =>
      let c := ((lines w).find? isIt).getD ⟨l, slot, [], 0, 0, 0⟩
      let rest := (lines w).filter fun c => !isIt c
      let c' := c.touched k wr secs units x.now
      let out := if 16 < c'.size + linesSize rest then rest else []
      let miss := secs.filter fun i => (kget c.units i).isNone
      { x with
        cache := kset x.cache (16 * set + w) (c' :: if out.isEmpty then rest else [])
        now := x.now + 1
        hits := x.hits + (secs.length - miss.length)
        misses := x.misses + miss.length
        moved := x.moved + cost (k != .stream) miss
        backs := x.backs ++ out.flatMap CacheLine.backs }
  | none =>
      if k = .stream ∨ alloc = [] then
        { x with misses := x.misses + secs.length, moved := x.moved + cost false secs }
      else
        let c := (⟨l, slot, [], 0, 0, 0⟩ : CacheLine).touched k wr secs units x.now
        let w := match alloc.find? fun w => decide ((lines w).length < 2)
            && decide (linesSize (lines w) + c.size ≤ 16) with
          | some w => w
          | none => victim lines alloc
        let stay := decide ((lines w).length < 2) && decide (linesSize (lines w) + c.size ≤ 16)
        { x with
          cache := kset x.cache (16 * set + w) (c :: if stay then lines w else [])
          now := x.now + 1
          misses := x.misses + secs.length
          moved := x.moved + cost true secs
          backs := x.backs ++ if stay then [] else (lines w).flatMap CacheLine.backs }
/-- The lines of an access, each with free sizes of its compressed sectors. -/
def CacheWork.lines (x : CacheWork) (own alloc : List Nat) (k : Keep) (wr : Bool) (slot a n free : Nat) :
    List Nat → CacheWork
  | [] => x
  | i :: r =>
      CacheWork.lines (x.line own alloc k wr slot (Config.cacheSet (a / 256 + i) % 12288) (a / 256 + i) a n
        fun j => (Config.freeWord (free + 4 * i + j)).toNat % 4 + 1) own alloc k wr slot a n free r
/-- The virtual device that a paddock runs, for a record that concerns no other: 0x7F for none (log 58). -/
def State.vdNow (s : State) (p : Nat) : Nat := if s.runningVd p < 128 then s.runningVd p else 127
/-- The block addresses that `n` bytes touch. -/
def blocksOf (a n : Nat) : List Nat :=
  (List.range ((a % 64 + n + 63) / 64)).map fun i => a / 64 * 64 + 64 * i
/-- The blocks that bytes touch and that hold an uncorrectable error have yielded it now (R448). -/
def State.yieldErrors (s : State) (a n : Nat) : State :=
  let bad := (blocksOf a n).filter fun b => kget (kgetD s.pages (b / 2 ^ 17) PageRec.empty).bad (b % 2 ^ 17 / 64) == some 0
  if bad.isEmpty then s
  else s.modDie (a / 2 ^ 36) fun x =>
    { x with badBlocks := bad.foldl (fun m b => kset m (b / 64) x.refs) x.badBlocks }
/-- Blocks written back to a stack for a paddock: one that holds an uncorrectable error in the cache has a record in its
fault queue, and memory holds the error from then on (R447). -/
def State.wroteBack (s : State) (p d : Nat) (bs : List Nat) : State :=
  (bs.filter fun b => s.struck b 64).foldl
    (fun s b =>
      let r := kgetD s.pages (b / 2 ^ 17) PageRec.empty
      { s.errorRecord d p (s.vdNow p) s.nextId 0 0 0 0 0 with
        pages := kset s.pages (b / 2 ^ 17) { r with bad := kset r.bad (b % 2 ^ 17 / 64) 0 } }) s
/-- Bad words of the caches whose lines are gone are gone with them (R444). -/
def State.dropStruck (s : State) : State :=
  if s.upsets.all fun e => decide (2 ^ 40 ≤ e.1) then s
  else
    { s with
      upsets := s.upsets.filter fun e => decide (2 ^ 40 ≤ e.1)
        || (s.die (e.1 / 2 ^ 36)).cache.any fun l => l.2.any fun c =>
          c.line == e.1 / 256 && (kget c.units (e.1 % 256 / 64)).isSome }
/-- Transfers charged to a paddock in the window of a die. -/
def Die.charge (x : Die) (p n : Nat) : Die := { x with charged := kset x.charged p (kgetD x.charged p 0 + n) }
/-- An access of a paddock to bytes of HBM4 passes the cache of their die (R26): nothing but the cache, the counters 7
and 8, what is charged, the bad blocks that a read yields (R448), and the errors and error records of lines that leave
changes. A retired channel serves no access. -/
def State.cached (s : State) (p : Nat) (k : Keep) (wr : Bool) (slot a n : Nat) : State :=
  if n = 0 || decide (2 ^ 40 ≤ a) || s.chanRetired a then s
  else
    let s := if wr then s else s.yieldErrors a n
    let d := a / 2 ^ 36
    let m := (a % 256 + n + 255) / 256
    let x := CacheWork.lines ⟨(s.die d).cache, (s.die d).uses, 0, 0, 0, []⟩ (s.ownWays p d) (s.allocWays p d) k wr
      slot a n s.free (List.range m)
    let t := (s.count p d 7 x.hits).count p d 8 x.misses
    let u := s.wroteBack p d x.backs
    { s with
      free := s.free + 4 * m
      counters := t.counters
      pads := u.pads
      pages := u.pages
      dies := (s.modDie d fun y => { y with cache := x.cache, uses := x.now }.charge p (x.moved + x.backs.length)).dies }.dropStruck

/-! ### Lines that leave -/

/-- The lines of a way of a die are written back and invalidated (R359). -/
def State.cleanWay (s : State) (p d w : Nat) : State :=
  let mine := (s.die d).cache.filter fun e => e.1 % 16 == w
  let bs := mine.flatMap fun e => e.2.flatMap CacheLine.backs
  ((s.wroteBack p d bs).modDie d fun x =>
    { x with cache := x.cache.filter fun e => e.1 % 16 != w }.charge p bs.length).dropStruck
/-- Cache lines are invalidated without write-back. -/
def State.loseLines (s : State) (lost : CacheLine → Bool) : State :=
  { s with
    dies := s.dies.map fun (e : Nat × Die) => (e.1, { e.2 with
      cache := (e.2.cache.map fun l => (l.1, l.2.filter fun c => !lost c)).filter fun l => !l.2.isEmpty }) : State }.dropStruck
/-- Every cache line of a range of pages is invalidated without write-back (R352). -/
def State.dropLines (s : State) (first n : Nat) : State :=
  s.loseLines fun c => decide (first ≤ c.line / 512) && decide (c.line / 512 < first + n)
/-- The lines that carry a paddock's chain id lose it and become least recently used, on every die (R358). -/
def State.demote (s : State) (p chain : Nat) : State :=
  if chain = 0 then s
  else
    { s with
      dies := s.dies.map fun e => (e.1, { e.2 with
        cache := e.2.cache.map fun l =>
          (l.1, l.2.map fun c => if c.chain = chainTag p chain then { c with chain := 0, used := 0 } else c) }) }

end Sys2Proof.Machine
end

