-- ==== Sys2Proof/Machine/Translate.lean ====
section
/-! DEFINITION. Device memory and translation: page records, keys and integrity tags (R343, R349 to
R352), the two-stage walk of copy streams (R340, R341), peer and notify leaves (R341, R347), and the
reads and writes of memory by copy operations and by the device itself. -/
namespace Sys2Proof.Machine

/-! ### Device physical memory (R339, R343, R349) -/

/-- The address lies in HBM4 (R339). -/
def isHbm (a : Nat) : Bool := decide (a < 2 ^ 40)
def State.page (s : State) (n : Nat) : PageRec := kgetD s.pages n PageRec.empty
def State.modPage (s : State) (n : Nat) (g : PageRec → PageRec) : State :=
  { s with pages := kset s.pages n (g (s.page n)) }
/-- A key slot (R350); slots not listed are EMPTY. -/
def State.key (s : State) (k : Nat) : KeySlot := kgetD s.keys k ⟨0, 0⟩
def State.keyLive (s : State) (k : Nat) : Bool := (s.key k).st == 1
/-- The tag of a 64-byte block, given by the slot and the generation of its key. -/
def tagOf (slot gen : Nat) : Nat := 1 + slot + 4096 * gen
/-- The block of an HBM4 address verifies under a slot: it was last written whole under the slot's
key, and holds no uncorrectable error. -/
def State.blockOk (s : State) (slot a : Nat) : Bool :=
  let p := s.page (a / 2 ^ 17)
  match kget p.bad (a % 2 ^ 17 / 64) with
  | some t => t == tagOf slot (s.key slot).gen
  | none => p.slot == slot && p.gen == (s.key slot).gen

/-- A host port that is down delivers no access to its host (R241, R450). The spec names no SUB for it: 16
stands for that (log 59). -/
def State.hostErr (s : State) (a : Nat) : Option Nat :=
  if bitOf s.portsDown (if a < 2 ^ 43 then 0 else 1) then some 16 else none
/-- Why a read of bytes of one page fails, by SUB of R402, if it does. -/
def State.readErr (s : State) (slot a n : Nat) : Option Nat :=
  if isHostAddr a then s.hostErr a
  else if !isHbm a then some 10
  else if s.chanRetired a then some 5
  else if (s.page (a / 2 ^ 17)).cleared then none
  else if !s.keyLive slot then some 6
  else if (blocksOf a n).all (s.blockOk slot) && !s.struck a n then none
  else some 5
/-- Why a write of bytes of one page fails (R349, R351). -/
def State.writeErr (s : State) (slot a n : Nat) : Option Nat :=
  if isHostAddr a then s.hostErr a
  else if !isHbm a then some 10
  else if s.chanRetired a then some 5
  else if !s.keyLive slot then some 6
  else if (s.page (a / 2 ^ 17)).cleared then none
  else if ((blocksOf a n).all fun b => decide (a ≤ b ∧ b + 64 ≤ a + n) || s.blockOk slot b)
      && (s.upsets.all fun e => decide (e.1 + codeUnit e.1 ≤ a) || decide (a + n ≤ e.1)
        || (decide (a ≤ e.1) && decide (e.1 + codeUnit e.1 ≤ a + n))) then none
  else some 5
/-- The 2 KiB granules of a page that bytes touch, as a mask (R429). -/
def granuleMask (a n : Nat) : Nat :=
  (List.range ((a % 2048 + n + 2047) / 2048)).foldl
    (fun m i => Nat.lor m (2 ^ (a % 2 ^ 17 / 2048 + i))) 0
/-- The page record after a write: the first write to a CLEARED page writes it whole (R352). -/
def PageRec.written (p : PageRec) (slot gen a n : Nat) : PageRec :=
  if p.cleared then
    { p with cleared := false, slot := slot, gen := gen, bad := []
             dirty := if p.track then 2 ^ 64 - 1 else p.dirty }
  else
    { p with
      bad := (blocksOf a n).foldl (fun m b =>
        if p.slot = slot ∧ p.gen = gen then kdel m (b % 2 ^ 17 / 64)
        else kset m (b % 2 ^ 17 / 64) (tagOf slot gen)) p.bad
      dirty := if p.track then Nat.lor p.dirty (granuleMask a n) else p.dirty }
/-- Bytes of one page written under a slot, or not performed (R349). -/
def State.devWrite (s : State) (slot a : Nat) (bs : List Byte) : State :=
  if bs.isEmpty || (s.writeErr slot a bs.length).isSome then s
  else if isHbm a then
    { s with mem := memWrite s.mem a bs, upsets := healWords s.upsets a bs.length }.modPage (a / 2 ^ 17) fun p =>
      p.written slot (s.key slot).gen a bs.length
  else { s with mem := memWrite s.mem a bs }

/-- The slot of an access that the device makes for itself, or of a control-paddock copy (R343). -/
def State.ownSlot (s : State) (a : Nat) : Nat :=
  if (s.page (a / 2 ^ 17)).count = 0 then 0 else (s.page (a / 2 ^ 17)).key

/-- The pieces of a range that lie each within one page: address and length. -/
def pieces : Nat → Nat → Nat → List (Nat × Nat)
  | 0, _, _ => []
  | f + 1, a, n =>
      if n = 0 then []
      else
        let k := Nat.min n (2 ^ 17 - a % 2 ^ 17)
        (a, k) :: pieces f (a + k) (n - k)
/-- The pieces of a range of any length. -/
def piecesOf (a n : Nat) : List (Nat × Nat) := pieces (n / 2 ^ 17 + 2) a n
/-- Bytes of one page that an access of a paddock writes through the cache (R26); the first write to a CLEARED page
fills it, and its 2,048 transfers are charged to the writer (R352, R353). -/
def State.memPut (s : State) (p : Nat) (k : Keep) (slot a : Nat) (bs : List Byte) : State :=
  if bs.isEmpty || (s.writeErr slot a bs.length).isSome then s
  else
    let t := if isHbm a && (s.page (a / 2 ^ 17)).cleared then s.modDie (a / 2 ^ 36) fun x => x.charge p 2048 else s
    (t.devWrite slot a bs).cached p k true slot a bs.length
/-- Bytes that the device writes for a paddock: into HBM4 under the page's own slot, or into host memory. -/
def State.devPut (s : State) (p a : Nat) (bs : List Byte) : State :=
  (piecesOf a bs.length).foldl
    (fun s x => s.memPut p .keep (s.ownSlot x.1) x.1 ((bs.drop (x.1 - a)).take x.2)) s

/-! ### Page-table walks (R340, R341) -/

/-- Where an access goes: memory under a slot, a peer's guest physical address, a queue notify page,
or a failure: SUB of R402, the stage that faults (0 where it is no translation fault), and
GPA[47:17] for a stage-2 entry fault (R332). -/
inductive Tr where
  | mem (slot pa : Nat)
  | peer (vdn gpa : Nat)
  | notify (vd q off : Nat)
  | fault (sub stage page : Nat)
  deriving DecidableEq, Repr

/-- A valid entry of a type allowed at its level and stage, with no reserved bit set (R341). -/
def entryOk (stage level e : Nat) : Bool :=
  bitOf e 0 && match bits e 2 1 with
    | 0 => decide (level < 3) && bits e 63 48 == 0 && bits e 14 3 == 0
        && (stage == 1 || bits e 47 44 == 0)
    | 1 => decide (2 ≤ level) && bits e 51 48 == 0 && bits e 16 15 == 0 && bits e 14 6 == 0
        && (stage == 2 || bits e 63 52 == 0)
        && (level == 3 || (!bitOf e 5 && bits e 28 17 == 0))
    | 2 => stage == 2 && level == 3 && bits e 16 5 == 0
    | _ => stage == 2 && level == 3 && bits e 63 28 == 0 && bitOf e 23 == false && bits e 15 5 == 0
        && bitOf e 4 && !bitOf e 3
/-- A leaf gives the access its permission. -/
def leafAllows (e : Nat) (wr : Bool) : Bool := bitOf e (if wr then 4 else 3)
/-- The table that a table entry names, and the output of a page leaf at a level. -/
def tableAddr (e : Nat) : Nat := bits e 47 15 * 2 ^ 15
def leafOut (level e a : Nat) : Nat :=
  if level = 2 then bits e 47 29 * 2 ^ 29 + a % 2 ^ 29 else bits e 47 17 * 2 ^ 17 + a % 2 ^ 17
/-- A stage-2 leaf's outcome. -/
def leaf2 (level e gpa : Nat) (wr : Bool) : Tr :=
  match bits e 2 1 with
  | 1 => if leafAllows e wr then .mem (bits e 63 52) (leafOut level e gpa) else .fault 3 2 0
  | 2 => if leafAllows e wr then .peer (bits e 63 48) (bits e 47 17 * 2 ^ 17 + gpa % 2 ^ 17)
      else .fault 3 2 0
  | _ => .notify (bits e 22 16) (bits e 27 24) (gpa % 2 ^ 17)

/-- The stage-2 entry of a guest physical address at a level, and its own address: `none` where the
walk above it does not reach it. Stage-2 tables are read under key slot 0. -/
def State.entry2At (s : State) (vd gpa level : Nat) : Option Nat :=
  let root := s.reg 1 vd 0x01 0
  let a1 := bits root 43 11 * 2 ^ 11 + 8 * bits gpa 47 40
  if level = 1 then some a1
  else
    let e1 := s.rd a1 8
    if !(entryOk 2 1 e1) then none
    else
      let a2 := tableAddr e1 + 8 * bits gpa 39 29
      if level = 2 then some a2
      else
        let e2 := s.rd a2 8
        if !(entryOk 2 2 e2 && bits e2 2 1 == 0) then none
        else some (tableAddr e2 + 8 * bits gpa 28 17)
/-- The places of the stage-2 entries that a walk of a guest physical address reads. -/
def State.places2 (s : State) (vd gpa : Nat) : List Nat :=
  if !bitOf (s.reg 1 vd 0x01 0) 0 then []
  else [1, 2, 3].filterMap fun i => s.entry2At vd gpa i
/-- The stage-2 walk of a guest physical address. An entry that cannot be read is an uncorrectable error (R254, R447,
R448). -/
def State.walk2 (s : State) (vd gpa : Nat) (wr : Bool) : Tr :=
  let bad := Tr.fault 2 2 (bits gpa 47 17)
  if !bitOf (s.reg 1 vd 0x01 0) 0 then bad
  else match (s.places2 vd gpa).findSome? fun a => s.readErr 0 a 8 with
    | some sub => .fault sub 0 0
    | none => match s.entry2At vd gpa 2 with
      | none => bad
      | some a2 =>
          let e2 := s.rd a2 8
          if !entryOk 2 2 e2 then bad
          else if bits e2 2 1 = 1 then leaf2 2 e2 gpa wr
          else
            let e3 := s.rd (tableAddr e2 + 8 * bits gpa 28 17) 8
            if !entryOk 2 3 e3 then bad else leaf2 3 e3 gpa wr
/-- A stage-1 entry read at a guest physical address, through stage 2; a place that is no memory is
a stage-2 entry fault. -/
def State.entry1 (s : State) (vd gpa : Nat) : Except Tr Nat :=
  match s.walk2 vd gpa false with
  | .mem slot pa =>
      match s.readErr slot pa 8 with
      | some sub => .error (.fault sub 0 0)
      | none => .ok (s.rd pa 8)
  | .fault a b c => .error (.fault a b c)
  | _ => .error (.fault 2 2 (bits gpa 47 17))
/-- The stage-1 walk of a guest virtual address: the guest physical address. -/
def State.walk1 (s : State) (vd va : Nat) (wr : Bool) : Except Tr Nat :=
  let bad : Except Tr Nat := .error (.fault 1 1 0)
  let root := s.reg 1 vd 0x02 0
  if !bitOf root 0 then bad
  else do
    let e1 ← s.entry1 vd (bits root 47 15 * 2 ^ 15 + 8 * bits va 51 40)
    if !entryOk 1 1 e1 then bad
    else
      let e2 ← s.entry1 vd (tableAddr e1 + 8 * bits va 39 29)
      if !entryOk 1 2 e2 then bad
      else if bits e2 2 1 = 1 then
        if leafAllows e2 wr then .ok (leafOut 2 e2 va) else .error (.fault 3 1 0)
      else
        let e3 ← s.entry1 vd (tableAddr e2 + 8 * bits va 28 17)
        if !entryOk 1 3 e3 then bad
        else if leafAllows e3 wr then .ok (leafOut 3 e3 va)
        else .error (.fault 3 1 0)

/-- The entries that the stage-1 walk of a guest virtual address reads, each by slot and place: a stage-1 entry after
those of stage 2 that lead to it. -/
def State.places1 (s : State) (vd va : Nat) : List (Nat × Nat) :=
  let root := s.reg 1 vd 0x02 0
  let at1 := fun gpa => (s.places2 vd gpa).map (Prod.mk 0) ++ match s.walk2 vd gpa false with
    | .mem slot pa => [(slot, pa)]
    | _ => []
  let g1 := bits root 47 15 * 2 ^ 15 + 8 * bits va 51 40
  if !bitOf root 0 then []
  else at1 g1 ++ match s.entry1 vd g1 with
    | .error _ => []
    | .ok e1 =>
        if !entryOk 1 1 e1 then []
        else
          let g2 := tableAddr e1 + 8 * bits va 39 29
          at1 g2 ++ match s.entry1 vd g2 with
            | .error _ => []
            | .ok e2 => if !entryOk 1 2 e2 || bits e2 2 1 == 1 then [] else at1 (tableAddr e2 + 8 * bits va 28 17)

/-! ### Peers (R347) -/

/-- The map entry of a virtual device number. -/
def State.vdnEnt (s : State) (v : Nat) : Option VdnEnt :=
  match kget s.vdns (v % 4096) with
  | some e => if e.st ≠ 0 ∧ e.tag = v / 4096 then some e else none
  | none => none
/-- The virtual device number of a virtual device, if it has one. -/
def State.ownVdn (s : State) (vd : Nat) : Option Nat :=
  let r := s.reg 1 vd 0x04 0
  if bitOf r 16 then some (bits r 15 0) else none
/-- Both numbers have entries of one group. -/
def State.sameGroup (s : State) (a b : Nat) : Bool :=
  match s.vdnEnt a, s.vdnEnt b with
  | some x, some y => x.group == y.group
  | _, _ => false
/-- An access to a peer that this device serves itself: through the target's stage 2. What that
refuses is a refusal of the access. -/
def State.peerLocal (s : State) (vd gpa : Nat) (wr : Bool) : Tr :=
  match s.walk2 vd gpa wr with
  | .mem slot pa => .mem slot pa
  | .notify v q o => if ((s.ownVdn v).bind s.vdnEnt).isSome then .notify v q o else .fault 4 0 0
  | _ => .fault 4 0 0
/-- A lea die's forwarding for an entry of STATE 3 has ended: 1,000,000 of its counts have passed, or the
forwarding was ended (R440). -/
def State.moveOver (s : State) (e : VdnEnt) (lea : Nat) : Bool :=
  bitOf e.expired lea
    || decide ((if lea = 0 then e.moved.1 else e.moved.2) + 1000000 ≤ (s.die (16 + lea)).refs)
/-- An access through a peer leaf: performed here, sent to another device, or refused. A moved refusal is
SUB 17, which no record holds: the access waits until the map names the new home (R259, R440). -/
def State.peerRoute (s : State) (vd vdn gpa : Nat) (wr : Bool) : Tr :=
  match s.ownVdn vd with
  | none => .fault 4 0 0
  | some own =>
      if !s.sameGroup own vdn then .fault 4 0 0
      else match s.vdnEnt vdn with
        | some e =>
            if e.st = 1 then s.peerLocal e.vd gpa wr
            else if e.st = 3 ∧ s.moveOver e (portOf vd) then .fault 17 0 0
            else .peer vdn gpa
        | none => .fault 4 0 0
/-- A notify page of a virtual device whose number the map does not hold is refused (R254). -/
def State.notifyRoute (s : State) (v q off : Nat) : Tr :=
  if ((s.ownVdn v).bind s.vdnEnt).isSome then .notify v q off else .fault 4 0 0
/-- Where an access of a copy operation goes (R258, R328): a virtual device's through both stages, the
control paddock's to a device physical address. -/
def State.route (s : State) (pad vd va : Nat) (wr : Bool) : Tr :=
  if pad = 0 then
    if 2 ^ 44 ≤ va then .fault 10 0 0 else .mem (if isHbm va then s.ownSlot va else 0) va
  else
    match s.walk1 vd va wr with
    | .error t => t
    | .ok gpa =>
        match s.walk2 vd gpa wr with
        | .peer vdn g => s.peerRoute vd vdn g wr
        | .notify v q off => s.notifyRoute v q off
        | t => t

/-! ### Reads and writes of copy operations -/

/-- A failure of an access: SUB, stage, address, guest physical page, and the bytes of the piece that failed. -/
structure AccErr where
  sub : Nat
  stage : Nat
  va : Nat
  page : Nat
  len : Nat
  deriving DecidableEq, Repr

/-- What is wrong with one piece of an access, if anything. -/
def State.pieceErr (s : State) (pad vd : Nat) (wr : Bool) (p : Nat × Nat) : Option AccErr :=
  match s.route pad vd p.1 wr with
  | .mem slot pa =>
      ((if wr then s.writeErr slot pa p.2 else s.readErr slot pa p.2)).map fun sub =>
        { sub := sub, stage := 0, va := p.1, page := 0, len := p.2 }
  | .fault sub stage page => some { sub := sub, stage := stage, va := p.1, page := page, len := p.2 }
  | _ => none
/-- The pieces of an access at a guest virtual address, which wraps at 2^52 (R248). -/
def vaPieces (va n : Nat) : List (Nat × Nat) :=
  (piecesOf va n).map fun p => (p.1 % 2 ^ 52, p.2)
/-- The first failure of an access of `n` bytes. -/
def State.accErr (s : State) (pad vd : Nat) (wr : Bool) (va n : Nat) : Option AccErr :=
  ((vaPieces va n).map (s.pieceErr pad vd wr)).findSome? id
/-- Free bytes: what another device answers. -/
def State.freeBytes (s : State) : Nat → List Byte × State
  | 0 => ([], s)
  | n + 1 =>
      let f := s.freeVal
      let r := State.freeBytes f.2 n
      (f.1.setWidth 8 :: r.1, r.2)
/-- The peer's number and guest physical address that the stage-2 leaf of an access names, if it is a peer leaf. -/
def State.peerLeaf (s : State) (pad vd va : Nat) (wr : Bool) : Option (Nat × Nat) :=
  if pad = 0 then none
  else match s.walk1 vd va wr with
    | .error _ => none
    | .ok gpa => match s.walk2 vd gpa wr with
        | .peer vdn g => some (vdn, g)
        | _ => none
/-- An access goes to a peer on this device whose stop runs: it is held (R438). -/
def State.pieceHeld (s : State) (pad vd va : Nat) (wr : Bool) : Bool :=
  match s.peerLeaf pad vd va wr with
  | none => false
  | some (vdn, _) => match s.vdnEnt vdn with
      | some e => e.st == 1 && (s.vd e.vd).shep == 2
      | none => false
/-- Some piece of an access is held. -/
def State.accHeld (s : State) (pad vd : Nat) (wr : Bool) (va n : Nat) : Bool :=
  (vaPieces va n).any fun p => s.pieceHeld pad vd p.1 wr
/-- The paddock in whose ways an access through the cache finds and allocates lines, and that is charged for it:
a tenant's own, or for a peer's page that page's owner (R353, R356). -/
def State.payer (s : State) (pad pa : Nat) : Nat :=
  if pad = 0 || (s.page (pa / 2 ^ 17)).count = 0 then pad else (s.page (pa / 2 ^ 17)).owner
/-- Table entries that a walk reads pass the cache of their stack (R26, log 72). -/
def State.passTables (s : State) (pad : Nat) (es : List (Nat × Nat)) : State :=
  es.foldl (fun s e => s.cached (s.payer pad e.2) .keep false e.1 e.2 8) s
/-- The walks of a stage-2 address. -/
def State.walked2 (s : State) (pad vd gpa : Nat) : State := s.passTables pad ((s.places2 vd gpa).map (Prod.mk 0))
/-- The walks of an access of a copy operation: both stages, and a local peer's stage 2 (R340, R347). -/
def State.walked (s : State) (pad vd va : Nat) (wr : Bool) : State :=
  if pad = 0 then s
  else
    let t := s.passTables pad (s.places1 vd va)
    let u := match s.walk1 vd va wr with
      | .error _ => t
      | .ok gpa => t.walked2 pad vd gpa
    match s.peerLeaf pad vd va wr with
    | some (vdn, g) => match s.vdnEnt vdn with
        | some e => if e.st = 1 then u.walked2 pad e.vd g else u
        | none => u
    | none => u
/-- The fabric device that a virtual device number's entry names (R347). -/
def State.deviceOf (s : State) (vdn : Nat) : Nat :=
  match s.vdnEnt vdn with
  | some e => e.device
  | none => 0
/-- Some fabric port of a mask is up: bits 0 to 8 are those of lea die A, 9 to 17 those of B (R434, R450). -/
def State.fabricUp (s : State) (mask : Nat) : Bool :=
  (List.range 18).any fun i => bitOf mask i && !bitOf s.portsDown (2 + i)
/-- The fabric ports of a lea die. -/
def leaPorts (lea : Nat) : Nat := 511 * 512 ^ (lea % 2)
/-- A packet out of the device goes where a port that is up leads to: to another device by any fabric port, to the
fabric switch of a lea die by its own (R450); a host's answer stands for what its port takes. -/
def State.leaves (s : State) (dest : Nat) : Bool :=
  if dest < 2 ^ 20 then s.fabricUp (2 ^ 18 - 1)
  else if 2 ^ 20 + 16 ≤ dest then s.fabricUp (leaPorts (dest - (2 ^ 20 + 16))) else true
/-- A packet to another device: its kind and words. -/
def State.packet (s : State) (dest kind : Nat) (ws : List Word) : State :=
  if s.leaves dest then { s with outbox := s.outbox ++ [(dest, wd kind :: ws)] } else s
/-- The head of a peer packet: the target's number, the sender's own (R334), the address and the length. -/
def State.peerHead (s : State) (vd vdn gpa n : Nat) : List Word :=
  [wd vdn, wd ((s.ownVdn vd).getD 0), wd gpa, wd (gpa / 2 ^ 32), wd n]
/-- One piece read: from memory, or from a peer of another device, whose answer is free. -/
def State.readPiece (s : State) (k : Keep) (pad vd : Nat) (p : Nat × Nat) : List Byte × State :=
  let t := s.walked pad vd p.1 false
  match s.route pad vd p.1 false with
  | .mem slot pa => (memRead s.mem pa p.2, t.cached (s.payer pad pa) k false slot pa p.2)
  | .peer vdn gpa => (t.packet (s.deviceOf vdn) 13 (s.peerHead vd vdn gpa p.2)).freeBytes p.2
  | _ => (List.replicate p.2 0, t)
/-- Bytes read at a guest virtual address; a failure reads nothing. -/
def State.copyRead (s : State) (k : Keep) (pad vd va n : Nat) : Except AccErr (List Byte × State) :=
  match s.accErr pad vd false va n with
  | some e => .error e
  | none =>
      .ok ((vaPieces va n).foldl (fun r p =>
        let x := r.2.readPiece k pad vd p
        (r.1 ++ x.1, x.2)) ([], s))
/-- One piece written: to memory, sent to a peer, or a notify (R341). -/
def State.writePiece (s : State) (k : Keep) (pad vd : Nat) (p : Nat × Nat) (bs : List Byte) : State :=
  let t := s.walked pad vd p.1 true
  match s.route pad vd p.1 true with
  | .mem slot pa => t.memPut (s.payer pad pa) k slot pa bs
  | .peer vdn gpa =>
      t.packet (s.deviceOf vdn) 1 (s.peerHead vd vdn gpa bs.length ++ bytesWords bs)
  | .notify v q off => if off = 0 ∧ bs.length = 4 then t.lqNotify v q (leNat bs) else t
  | .fault .. => t
/-- Bytes written at a guest virtual address. -/
def State.copyWrite (s : State) (k : Keep) (pad vd va : Nat) (bs : List Byte) : State :=
  ((vaPieces va bs.length).foldl (fun (r : State × List Byte) p =>
    (r.1.writePiece k pad vd p (r.2.take p.2), r.2.drop p.2)) (s, bs)).1
/-- The packets that a write sends to peers of other devices: virtual device number, guest physical address, bytes. -/
def State.peerSends (s : State) (pad vd va : Nat) (bs : List Byte) : List (Nat × Nat × List Byte) :=
  ((vaPieces va bs.length).foldl (fun (r : List (Nat × Nat × List Byte) × List Byte) p =>
    (match s.route pad vd p.1 true with
      | .peer vdn gpa => r.1 ++ [(vdn, gpa, r.2.take p.2)]
      | _ => r.1, r.2.drop p.2)) ([], bs)).1

/-! ### What a failed operation leaves (R254) -/

/-- Each byte earlier or new, as free bits choose; `free` numbers the first 64, and `part` the bytes that go together. -/
def mixed (free : Nat) (part : Nat → Nat) (old new : List Byte) : List Byte :=
  (List.range old.length).map fun i =>
    if (Config.freeWord (free + part i / 64)).getLsbD (part i % 64) then new.getD i 0 else old.getD i 0
/-- The bytes of one 16-byte unit of HBM4 go together (R252); those of host memory each for itself. -/
def unitAt (a i : Nat) : Nat := if isHbm a then (a + i) / 16 - a / 16 else i
/-- The parts of bytes that lie each in one 64-byte block: address and length. -/
def blockParts (a n : Nat) : List (Nat × Nat) :=
  (blocksOf a n).map fun b => (Nat.max a b, Nat.min (a + n) (b + 64) - Nat.max a b)
/-- One piece of a write that fails elsewhere: each memory byte holds its earlier value or the operation's, and
a packet or notify is sent or not, as free values choose. A block whose earlier bytes cannot be read is written whole or
not at all. What it performs goes through the cache and counts as bytes written by a copy of die `d` (R368). -/
def State.partPiece (s : State) (k : Keep) (pad vd d : Nat) (p : Nat × Nat) (bs : List Byte) : State :=
  if s.pieceHeld pad vd p.1 true then s
  else if (s.pieceErr pad vd true p).isSome then s.walked pad vd p.1 true
  else match s.route pad vd p.1 true with
    | .mem slot pa =>
        (blockParts pa p.2).foldl (fun s b =>
          let f := s.freeVal
          if f.1 = 0 then f.2
          else
            let new := (bs.drop (b.1 - pa)).take b.2
            (f.2.memPut (s.payer pad pa) k slot b.1
              (if (s.readErr slot b.1 b.2).isSome then new
                else mixed s.free (unitAt b.1) (memRead s.mem b.1 b.2) new)).count pad d 6 b.2)
          (s.walked pad vd p.1 true)
    | _ =>
        let f := s.freeVal
        if f.1.getLsbD 0 then (f.2.writePiece k pad vd p bs).count pad d 6 bs.length else f.2
/-- A write of a failed operation. -/
def State.partWrite (s : State) (k : Keep) (pad vd d va : Nat) (bs : List Byte) : State :=
  ((vaPieces va bs.length).foldl (fun (r : State × List Byte) p =>
    (r.1.partPiece k pad vd d p (r.2.take p.2), r.2.drop p.2)) (s, bs)).1

end Sys2Proof.Machine
end

