-- ==== Sys2Proof/Machine/Fetch.lean ====
section
/-! DEFINITION. Fetching the instruction of the band whose turn it is (R60, R428), time passing on a
die (R361, R368, R411), bytes stored into host memory, code loaded, and a program placed for the
very next step. -/
namespace Sys2Proof.Machine

/-- The instruction at the issuing band's PC; `none` is the fetch DECODE of R60, or an uncorrectable error in the words
fetched. -/
def fetchInstr (s : State) (q : Iss) : Option Instr :=
  if s.fetchStruck (s.fo q).paddock q.pc then none
  else match s.fetch (s.fo q).paddock q.pc with
  | some ws => (decode ws).map Prod.fst
  | none => none

/-- The words of an instruction pass the memory-side cache as they are fetched, under key slot 0 (R76, log 72). -/
def State.fetchPass (s : State) (q : Iss) : State :=
  let p := (s.fo q).paddock
  match s.fetch p q.pc with
  | some ws => s.cached p .keep false 0 (s.codeBase p + q.pc) (4 * ws.length)
  | none => s

/-- The word's opcode is RETT's (R405), whatever its other fields hold. -/
def rettWord (w : Word) : Bool := bitOf w.toNat 31 && bits w.toNat 29 23 == 0x1C
/-- ECC in every lane of the issuing band, where the words fetched hold an uncorrectable error (R349, R404, log 61); else
DECODE at its PC: at the fetch (R60), or because the words are no legal instruction (R61, check 2). A masked fetch
DECODE, and a masked RETT, go on at TBASE (R401). -/
def State.fetchDecode (s : State) : State :=
  match s.issuer with
  | none => s
  | some q =>
      if (fetchInstr s q).isSome then s
      else if s.fetchStruck (s.fo q).paddock q.pc then (s.fetchPass q).trapAt q cEcc q.lanes false
      else (s.fetchPass q).trapAt q cDecode q.lanes (match s.fetch (s.fo q).paddock q.pc with
        | none => true
        | some ws => rettWord (ws.headD 0))

/-- The stage that the machine attends to, its issuing band moved out of the old range of a
forwarding entry before the fetch (R428). -/
def State.attend (s : State) (core stage : Nat) : State :=
  let s := { s with focus := some (core, stage) }
  match s.issuer with
  | none => s
  | some q =>
      let goal := s.forward (s.fo q).paddock q.pc
      if goal = q.pc then s else s.setFl q fun fl => fl.movePc q.lanes fun _ => goal

/-! ### Time -/

/-- The cores of a paddock on a die. -/
def State.coresOn (s : State) (p d : Nat) : List Nat :=
  ((List.range 40).map fun i => 40 * d + i).filter fun c =>
    s.holdsCore p c && !(kgetD s.cores c Core.empty).retired
/-- The slice master (R361): the lowest die that holds a core of the paddock. -/
def State.sliceMaster (s : State) (p : Nat) : Option Nat :=
  (List.range 16).find? fun d => !(s.coresOn p d).isEmpty
/-- Delivered cycles of one paddock on a die (R361, R368). -/
def State.deliverTo (s : State) (d cycles p : Nat) : State :=
  if s.kind p = 0 then s
  else
    let n := cycles * (s.coresOn p d).length
    let s := s.count p d 0 n
    if s.kind p = 2 ∧ (s.pad p).runEnt.isSome ∧ s.sliceMaster p = some d then
      s.modPad p fun x => { x with delivered := x.delivered + n }
    else s
/-- Time passes on a die: reference counts of 10 ns (R411), and with them the cycles of its arithmetic clock,
which a lowered clock makes fewer (R452). Dies 16 and 17 are the lea dies, which hold no cores. -/
def State.elapse (s : State) (d refs : Nat) : State :=
  let x := s.die d
  let cycles := (x.part + refs * x.clock) / 100
  let s := s.modDie d fun x =>
    { x with
      refs := x.refs + refs, cycles := x.cycles + cycles, part := (x.part + refs * x.clock) % 100 }
  if d < 16 then (List.range 32).foldl (fun s p => s.deliverTo d cycles p) s else s

/-! ### Host memory and code -/

/-- A host stores bytes into its own memory, or its DMA writes pages of paddocks (R353, R429, log 65): under each
page's key and through its owner's cache ways, where the page is mapped and holds no table. -/
def State.hostPut (s : State) (a : Nat) (bs : List Byte) : State :=
  if isHostAddr a && isHostAddr (a + bs.length - 1) then { s with mem := memWrite s.mem a bs }
  else
    (piecesOf a bs.length).foldl (fun s p =>
      let r := s.page (p.1 / 2 ^ 17)
      let b := (bs.drop (p.1 - a)).take p.2
      if !isHbm p.1 || r.count = 0 || r.table then s else s.memPut r.owner .keep r.key p.1 b) s
/-- A budget as the header and the variant table may give it (R69, R71), with its code in the code section. -/
def Variant.ok (v : Variant) (words : Nat) : Bool :=
  decide (16 ≤ v.regs) && decide (v.regs ≤ 64) && v.regs % 8 == 0 && decide (1 ≤ v.flocks) && decide (v.flocks ≤ 16)
    && decide (v.segs ≤ 32) && v.off % 4 == 0 && v.len % 4 == 0 && decide (v.off + v.len ≤ 4 * words)
/-- A live map within a budget (R73). -/
def LiveMap.ok (m : LiveMap) (v : Variant) : Bool :=
  decide (m.v < 2 ^ v.regs) && decide (m.p < 2 ^ 96) && !bitOf m.p 0 && decide (m.s < 2 ^ 32) && decide (m.k < 2 ^ 8)
    && !bitOf m.k 0 && decide (m.acc < 16) && decide (m.chunks.length ≤ 64)
    && m.chunks.all fun r => decide (1 ≤ r.2) && decide (r.1 + r.2 ≤ 64 * v.segs)
/-- The kind of switch-point entry that an instruction needs, by its base word (R72). -/
def pointKind (w : Nat) : Option Nat :=
  if !bitOf w 31 then none
  else match bits w 29 23 with
    | 0x20 => some (if bitOf w 0 then 2 else 1)
    | 0x21 => some 3
    | 0x22 => some 4
    | 0x23 => some 0
    | 0x26 => some 5
    | _ => none
/-- A switch-point entry (R72, R307): its section and index, the place of an instruction of its kind, and its map. -/
def Point.ok (o : CodeObj) (ws : List Word) (t : Point) : Bool :=
  decide (t.sect = 4 ∨ t.sect < o.variants.length)
    && (if t.kind = 0 then t.sw == 0 && t.sect == 4
        else if t.kind = 2 then decide (1 ≤ t.sw) && decide (t.sw < 256) && t.sect != 4 else t.sw == 0xFFFF)
    && t.off % 4 == 0 && decide ((o.section t.sect).off ≤ t.off)
    && decide (t.off < (o.section t.sect).off + (o.section t.sect).len)
    && bitOf o.starts (t.off / 4) && pointKind (ws.getD (t.off / 4) 0).toNat == some t.kind && t.live.ok (o.section t.sect)
/-- The table of switch points is sorted by section, then by offset (R72). -/
def pointsSorted : List Point → Bool
  | a :: b :: r => (decide (a.sect < b.sect) || (a.sect == b.sect && decide (a.off < b.off))) && pointsSorted (b :: r)
  | _ => true
/-- The checks of R69 to R75 and R307 on a code object and its code section. -/
def CodeObj.ok (o : CodeObj) (ws : List Word) : Bool :=
  o.words == ws.length && decide (o.id < 2 ^ 64) && o.prologue.ok o.words && o.prologue.off == 0
    && decide (1 ≤ o.variants.length) && decide (o.variants.length ≤ 4) && (o.variants.all fun v => v.ok o.words)
    && (o.points.all (Point.ok o ws)) && pointsSorted o.points
    && ((List.range o.words).all fun i => !bitOf o.starts i || (pointKind (ws.getD i 0).toNat).isNone
      || o.points.any fun t => t.off == 4 * i)
    && (o.regions.all fun r => decide (1 ≤ r.count) && decide (r.first + r.count ≤ 64 * o.prologue.segs)
      && decide (r.src < 3) && (if r.src = 2 then decide (r.arg < 16) else r.arg == 0))
    && (o.points.all fun a => a.kind != 2 || o.points.all fun b => b.kind != 2 || b.sw != a.sw || b.live == a.live)
    && o.points.all fun a => a.kind != 0 || (a.live.v == 0 && a.live.p == 0)
      || o.floor.flocks == o.prologue.flocks
/-- A range of a paddock's code space that holds no resident object, and no old range of a live forwarding entry
(R76, R426). -/
def State.codeFree (s : State) (p a n : Nat) : Bool :=
  ((s.pad p).objs.all fun e => decide (a + n ≤ e.2.base) || decide (e.2.base + 4 * e.2.words ≤ a))
    && (s.pad p).fwd.all fun e => decide (a + n ≤ e.2.old) || decide (e.2.old + e.2.len ≤ a)
/-- The code holds one of the uniform opcodes 0x2D to 0x30 at an instruction start: the loader marks its object as an
accumulator user (R170). -/
def accMark (starts : Nat) (ws : List Word) : Bool :=
  (List.range ws.length).any fun i =>
    let w := (ws.getD i 0).toNat
    bitOf starts i && bitOf w 31 && decide (0x2D ≤ bits w 29 23) && decide (bits w 29 23 ≤ 0x30)
/-- A code object and its code become resident in a paddock's code space (R75, R76): the checks of the loader pass,
the address is 4 KiB aligned, and the object's id and place are free (R69, R426). -/
def State.loadCode (s : State) (p : Nat) (o : CodeObj) (ws : List Word) : State :=
  let ok := p < 32 && o.base % 4096 == 0 && o.ok ws && decide (o.base + 4 * o.words ≤ s.codeSize p)
    && (kget (s.pad p).objs o.id).isNone && s.codeFree p o.base (4 * o.words)
  if ok then
    (s.devPut p (s.codeBase p + o.base) (wordsBytes ws)).modPad p fun x =>
      { x with objs := kset x.objs o.id { o with acc := accMark o.starts ws } }
  else s

/-! ### A program placed for the next step -/

/-- A code object that holds one instruction at its first word. -/
def oneObj (n : Nat) : CodeObj :=
  { id := 0, base := 0, words := n, starts := 1, prologue := ⟨64, 1, 1, 0, 4 * n⟩
    variants := [⟨64, 1, 1, 0, 4 * n⟩], points := [], regions := [] }
/-- A drove of the control paddock with nothing in its launch record. -/
def oneDrove : Drove :=
  { id := 0, paddock := 0, vd := 127, depth := 0, parentDrove := 0, parentFold := 0, group := 0
    host := true, port := 0, queue := 0, obj := 0, gx := 1, gy := 1, gz := 1, rgrid := 0, prio := 0, chain := 0
    flags := 0, tag := 0, slots := [], sinit := [], args := [], nextFold := 1, ended := 0
    lastDie := 0, cq := 0, prev := none, aged := 0, faulted := false, refused := false
    retired := false, order := 0, since := [], after := none }
/-- A flock whose 32 lanes are ready at code address 0. -/
def oneFlock : Flock := { Flock.empty with pcs := [] }
/-- A fold with one flock, one scratchpad segment and 64 registers on core 0. -/
def oneFold : Fold :=
  { Fold.blank with drove := 0, vd := 127, core := 0, segs := [0], flocks := [oneFlock]
                    status := .resident }
/-- A turn of that flock in which band A holds every lane and has issued nothing. -/
def oneTurn : Turn :=
  { fold := 0, flock := 0, a := some ⟨~~~0, 0, false, none, none, none, []⟩, b := none, nextB := false
    flags := 0, trapA := none, trapB := none, reads := [], waves := 0, base := 0 }

/-- The machine, started, with the words of one instruction in code space of the control paddock, and a turn
of a fresh flock about to issue it (log 6): what a start, loading a program and admitting a fold bring about. -/
def State.placeWords (s : State) (ws : List Word) : State :=
  let s := s.setReg 0 0 0x0E 0 (2 ^ 52)
  let s := s.modPad 0 fun x => { x with objs := kset x.objs 0 { oneObj ws.length with acc := accMark 1 ws } }
  let s := s.devWrite 0 (s.codeBase 0) (wordsBytes ws)
  { { s with
        started := true
        droves := kset s.droves 0 oneDrove
        folds := kset s.folds 0 oneFold
        agenda := [.issue 0 0] }.modStage 0 0
      fun st => { st with slots := kset st.slots 0 (0, 0), turn := some oneTurn } with
    focus := some (0, 0) }

end Sys2Proof.Machine
end

