-- ==== Sys2Proof/Machine/Approx.lean ====
section
/-! DEFINITION. The approximated functions (R151, R152). Each function's result is the device's
own value (`Config.approx`, of which nothing is known) wherever that value lies within the bound
of R151, and otherwise the exact value rounded toward zero; the exact cases and flags are those of
R152. The exact value is computed to about 400 fraction bits (log 5). -/
namespace Sys2Proof.Machine

/-- Fraction bits of the fixed-point numbers here. -/
def fxP : Nat := 400
def fxOne : Int := 2 ^ fxP
/-- Fixed-point product. -/
def fxMul (a b : Int) : Int := a * b / fxOne

/-- A sum of `n` terms, each made from the one before: `term k x`. -/
def series (term : Nat → Int → Int) : Nat → Nat → Int → Int → Int
  | 0, _, _, acc => acc
  | n + 1, k, x, acc => series term n (k + 1) (term k x) (acc + x)

/-- e^r for |r| at most a few units. -/
def fxExp (r : Int) : Int := series (fun k x => fxMul x r / ((k : Int) + 1)) 140 0 fxOne 0
/-- ln 2. -/
def fxLn2 : Int :=
  (List.range 410).foldl (fun (s : Int) k => s + fxOne / ((k + 1) * 2 ^ (k + 1) : Nat)) 0
/-- log2 e. -/
def fxLog2e : Int := fxOne * fxOne / fxLn2
/-- ln of a fixed-point number in [1, 2), as 2 atanh ((x − 1)/(x + 1)). -/
def fxLn (x : Int) : Int :=
  let z := (x - fxOne) * fxOne / (x + fxOne)
  let z2 := fxMul z z
  let go := (List.range 140).foldl
    (fun (s : Int × Int) j => (s.1 + s.2 / (2 * j + 1 : Nat), fxMul s.2 z2)) ((0 : Int), z)
  2 * go.1
/-- arctan (1/k). -/
def fxAtanInv (k : Nat) : Int :=
  let go := (List.range 110).foldl
    (fun (s : Int × Int) j =>
      (if j % 2 = 0 then s.1 + s.2 / (2 * j + 1 : Nat) else s.1 - s.2 / (2 * j + 1 : Nat),
        s.2 / (k * k : Nat))) ((0 : Int), fxOne / (k : Int))
  go.1
/-- π. -/
def fxPi : Int := 4 * (4 * fxAtanInv 5 - fxAtanInv 239)
/-- sin and cos of a fixed-point number, reduced to one turn first. -/
def fxReduce (x : Int) : Int :=
  let t := 2 * fxPi
  x - (x + fxPi) / t * t
def fxSin (x : Int) : Int :=
  let r := fxReduce x
  let r2 := fxMul r r
  series (fun k t => -(fxMul t r2) / (((2 * k + 2) * (2 * k + 3) : Nat) : Int)) 110 0 r 0
def fxCos (x : Int) : Int :=
  let r := fxReduce x
  let r2 := fxMul r r
  series (fun k t => -(fxMul t r2) / (((2 * k + 1) * (2 * k + 2) : Nat) : Int)) 110 0 fxOne 0

/-- A magnitude `m × 2^e` with a sign. -/
structure Mag where
  neg : Bool
  m : Nat
  e : Int
  deriving DecidableEq, Repr

/-- A fixed-point number as a magnitude. -/
def ofFx (x : Int) : Mag := ⟨x < 0, x.natAbs, -(fxP : Int)⟩
/-- 2^t for a fixed-point t: the fraction's power, times two to the integral part. -/
def magExp2 (t : Int) : Mag :=
  let n := t / fxOne
  ⟨false, (fxExp (fxMul (t - n * fxOne) fxLn2)).natAbs, n - (fxP : Int)⟩
/-- A finite F32 value as a fixed-point number (exact: its least bit is 2^−149). -/
def toFx (n : Bool) (m : Nat) (e : Int) : Int :=
  let x : Int := (m * 2 ^ (e + (fxP : Int)).toNat : Nat)
  if n then -x else x

/-- Exponent ⌊log2⌋ of a magnitude. -/
def Mag.top (y : Mag) : Int := (Nat.log2 y.m : Int) + y.e

/-- |c − y| is at most `k` ulp of y (R151), with y's sign. -/
def withinUlp (k : Nat) (y : Mag) (c : Word) : Bool :=
  match v32 c.toNat with
  | .fin n m e =>
      let u := (if y.top < -126 then -126 else y.top) - 23
      let q := if e < y.e then e else y.e
      let d := (m * 2 ^ (e - q).toNat : Int) - (y.m * 2 ^ (y.e - q).toNat : Int)
      n == y.neg && d.natAbs ≤ k * 2 ^ (u - q).toNat
  | _ => false

/-- The device's value where it meets a test, else the exact value rounded toward zero. -/
def pick (fn : Nat) (x y : Word) (ok : Word → Bool) (ex : Mag) : Word :=
  let c := Config.approx fn x y
  if ok c then c else wd (roundFin fp32 true .rtz ex.neg ex.m ex.e).1

/-- A subnormal pattern or zero. -/
def subOrZero (c : Word) : Bool := c.toNat / 2 ^ 23 % 2 ^ 8 == 0

/-- The result of a function whose exact value is finite and nonzero: bound, and underflow. Where the exact value is
at 2^-126 or above and no underflow is set, a subnormal candidate is not taken though the bound admits it (log 5). -/
def approxRes (fn k : Nat) (x y : Word) (ex : Mag) (under : Bool) : WF :=
  if under then (pick fn x y (fun c => withinUlp k ex c && subOrZero c) ex, fUF ||| fNX)
  else (pick fn x y (fun c => withinUlp k ex c && !subOrZero c || ex.top < -126 && withinUlp k ex c) ex, 0)

def wInf (neg : Bool) : Word := if neg then 0xFF800000 else 0x7F800000
def wZero (neg : Bool) : Word := if neg then 0x80000000 else 0
def wNaN : Word := 0x7FC00000
def wOne (neg : Bool) : Word := if neg then 0xBF800000 else 0x3F800000

/-- The value of an integer, exact in F32 here. -/
def intF32 (n : Int) : Word := wd (roundFin fp32 true .rne (n < 0) n.natAbs 0).1
/-- 2^n for n from −149 to 127. -/
def pow2F32 (n : Int) : Word := wd (roundFin fp32 true .rne false 1 n).1

/-- FRCP (R151, R152) of a pattern as read. -/
def frcpV (x : Word) : WF :=
  match v32 x.toNat with
  | .nan s => (wNaN, if s then fNV else 0)
  | .inf n => (wZero n, 0)
  | .fin n m e =>
      if m = 0 then (wInf n, fDZ)
      else if (Nat.log2 m : Int) + e < -128 then (wInf n, fOF ||| fNX)
      else
        let big := (Nat.log2 m : Int) + e ≥ 126 && !(m == 2 ^ Nat.log2 m && (Nat.log2 m : Int) + e == 126)
        approxRes 0x23 1 x 0 ⟨n, 2 ^ fxP / m, -e - (fxP : Int)⟩ big

/-- FRSQ. -/
def frsqV (x : Word) : WF :=
  match v32 x.toNat with
  | .nan s => (wNaN, if s then fNV else 0)
  | .inf n => if n then (wNaN, fNV) else (0, 0)
  | .fin n m e =>
      if m = 0 then (wInf n, fDZ)
      else if n then (wNaN, fNV)
      else
        let m' := if e % 2 = 0 then m else 2 * m
        let e' := if e % 2 = 0 then e else e - 1
        approxRes 0x24 1 x 0 ⟨false, isqrt (2 ^ (2 * fxP) / m'), -(e' / 2) - (fxP : Int)⟩ false

/-- The integer a value is, if it is one. -/
def asInt (n : Bool) (m : Nat) (e : Int) : Option Int :=
  if 0 ≤ e then some (toFx n m e / fxOne)
  else if m % 2 ^ (-e).toNat = 0 then some (toFx n m e / fxOne) else none

/-- FEXP2. -/
def fexp2V (x : Word) : WF :=
  match v32 x.toNat with
  | .nan s => (wNaN, if s then fNV else 0)
  | .inf n => if n then (0, 0) else (wInf false, 0)
  | .fin n m e =>
      let t := toFx n m e
      if t ≥ 128 * fxOne then (wInf false, fOF ||| fNX)
      else if t ≤ -150 * fxOne then (0, fUF ||| fNX)
      else match asInt n m e with
        | some k => (pow2F32 k, 0)
        | none => approxRes 0x26 2 x 0 (magExp2 t) (t < -126 * fxOne)

/-- FLOG2. -/
def flog2V (x : Word) : WF :=
  match v32 x.toNat with
  | .nan s => (wNaN, if s then fNV else 0)
  | .inf n => if n then (wNaN, fNV) else (wInf false, 0)
  | .fin n m e =>
      if m = 0 then (wInf true, fDZ)
      else if n then (wNaN, fNV)
      else
        let k := Nat.log2 m
        if m = 2 ^ k then (intF32 ((k : Int) + e), 0)
        else
          let f := fxLn ((m * 2 ^ (fxP - k) : Nat) : Int)
          approxRes 0x27 2 x 0 (ofFx (((k : Int) + e) * fxOne + fxMul f fxLog2e)) false

/-- |x| ≤ 2^20, the range in which sine and cosine are bounded (R151). -/
def trigIn (m : Nat) (e : Int) : Bool := m * 2 ^ (e + 149).toNat ≤ 2 ^ 169
/-- A value in [−1, 1]. -/
def unitRange (c : Word) : Bool := c.toNat % 2 ^ 31 ≤ 0x3F800000
/-- |x| < 2^−12. -/
def tinyIn (m : Nat) (e : Int) : Bool := (Nat.log2 m : Int) + e < -12

/-- FSIN and FCOS. -/
def fsinV (x : Word) : WF :=
  match v32 x.toNat with
  | .nan s => (wNaN, if s then fNV else 0)
  | .inf _ => (wNaN, fNV)
  | .fin n m e =>
      if m = 0 ∨ tinyIn m e = true then (x, 0)
      else if trigIn m e then
        approxRes 0x28 2 x 0 (ofFx (fxSin (toFx n m e))) false
      else (pick 0x28 x 0 unitRange ⟨false, 0, 0⟩, 0)
def fcosV (x : Word) : WF :=
  match v32 x.toNat with
  | .nan s => (wNaN, if s then fNV else 0)
  | .inf _ => (wNaN, fNV)
  | .fin n m e =>
      if m = 0 then (wOne false, 0)
      else if trigIn m e then
        approxRes 0x29 2 x 0 (ofFx (fxCos (toFx n m e))) false
      else (pick 0x29 x 0 unitRange ⟨false, 0, 0⟩, 0)

/-- FTANH. -/
def ftanhV (x : Word) : WF :=
  match v32 x.toNat with
  | .nan s => (wNaN, if s then fNV else 0)
  | .inf n => (wOne n, 0)
  | .fin n m e =>
      if m = 0 ∨ tinyIn m e = true then (x, 0)
      else
        let t := toFx false m e
        if 8 * t ≥ 73 * fxOne then (wOne n, 0)
        else
          let y := magExp2 (fxMul (2 * t) fxLog2e)
          let v : Int := (y.m * 2 ^ (y.e + (fxP : Int)).toNat : Nat)
          let r := (v - fxOne) * fxOne / (v + fxOne)
          approxRes 0x2A 2 x 0 ⟨n, r.natAbs, -(fxP : Int)⟩ false

/-- FEXS: 2^(x · log2 e − y). -/
def fexsV (x y : Word) : WF :=
  match v32 x.toNat, v32 y.toNat with
  | .nan a, .nan b => (wNaN, if a || b then fNV else 0)
  | .nan a, _ => (wNaN, if a then fNV else 0)
  | _, .nan b => (wNaN, if b then fNV else 0)
  | .inf a, .inf b => if a = b then (wNaN, fNV) else (if a then 0 else wInf false, 0)
  | .inf a, _ => (if a then 0 else wInf false, 0)
  | _, .inf b => (if b then wInf false else 0, 0)
  | .fin nx mx ex, .fin ny my ey =>
      let ty := toFx ny my ey
      let exact := if mx = 0 then (asInt ny my ey).filter (fun k => -127 ≤ k ∧ k ≤ 149) else none
      match exact with
      | some k => (pow2F32 (-k), 0)
      | none =>
          let t := fxMul (toFx nx mx ex) fxLog2e - ty
          if t ≥ 128 * fxOne then (wInf false, fOF ||| fNX)
          else
            let r := magExp2 t
            -- a value above the largest finite number is above the range
            if r.top = 127 ∧ r.m * 2 ^ (fxP + 24 - Nat.log2 r.m) > (2 ^ 24 - 1) * 2 ^ (fxP + 1) then
              (wInf false, fOF ||| fNX)
            else if t < -400 * fxOne then
              (pick 0x2B x y (fun c => c == 0 || c == 1 || c == 2 || c == 3) ⟨false, 0, 0⟩, fUF ||| fNX)
            else approxRes 0x2B 3 x y r (t < -126 * fxOne)

/-- `.FTZ` on a result of these functions (R152). -/
def approxFtz (ftz : Bool) (r : WF) : WF :=
  if ftz && fp32.isSub r.1.toNat then (wd (fp32.signedZero r.1.toNat), r.2 ||| fUF ||| fNX) else r

def frcpW (f : FMods) (a : Word) : WF := approxFtz f.ftz (frcpV (wd (inA f a)))
def frsqW (f : FMods) (a : Word) : WF := approxFtz f.ftz (frsqV (wd (inA f a)))
def fexp2W (f : FMods) (a : Word) : WF := approxFtz f.ftz (fexp2V (wd (inA f a)))
def flog2W (f : FMods) (a : Word) : WF := approxFtz f.ftz (flog2V (wd (inA f a)))
def fsinW (f : FMods) (a : Word) : WF := approxFtz f.ftz (fsinV (wd (inA f a)))
def fcosW (f : FMods) (a : Word) : WF := approxFtz f.ftz (fcosV (wd (inA f a)))
def ftanhW (f : FMods) (a : Word) : WF := approxFtz f.ftz (ftanhV (wd (inA f a)))
def fexsW (f : FMods) (a b : Word) : WF := approxFtz f.ftz (fexsV (wd (inA f a)) (wd (inB f b)))

end Sys2Proof.Machine
end

