-- ==== Sys2Proof/Machine/Float.lean ====
section
/-! DEFINITION. The floating-point instructions (R148 to R157): one meaning each over the lane
functions of Machine/FloatOps.lean and Machine/Approx.lean. -/
namespace Sys2Proof.Machine

/-- A result with flags from the values of A, of A and B, and of A, B and C in a lane. -/
def fon1 (h : LHdr) (a : LSrc) (f : Word → WF) (s : State) (q : Iss) (_ : Mask) (l : Nat) : WF :=
  f ((s.fl q).src h.lit a l)
def fon2 (h : LHdr) (a b : LSrc) (f : Word → Word → WF) (s : State) (q : Iss) (_ : Mask) (l : Nat) :
    WF :=
  f ((s.fl q).src h.lit a l) ((s.fl q).src h.lit b l)
def fon3 (h : LHdr) (a b c : LSrc) (f : Word → Word → Word → WF) (s : State) (q : Iss) (_ : Mask)
    (l : Nat) : WF :=
  f ((s.fl q).src h.lit a l) ((s.fl q).src h.lit b l) ((s.fl q).src h.lit c l)
/-- The same with A, B and C in packed 16-bit positions (R52). -/
def hon2 (h : LHdr) (bf : Bool) (a b : LSrc) (f : Word → Word → WF) (s : State) (q : Iss) (_ : Mask)
    (l : Nat) : WF :=
  f ((s.fl q).srcH bf h.lit a l) ((s.fl q).srcH bf h.lit b l)
def hon3 (h : LHdr) (bf : Bool) (a b c : LSrc) (f : Word → Word → Word → WF) (s : State) (q : Iss)
    (_ : Mask) (l : Nat) : WF :=
  f ((s.fl q).srcH bf h.lit a l) ((s.fl q).srcH bf h.lit b l) ((s.fl q).srcH bf h.lit c l)
/-- A and B in packed positions, C a word (FDOT2, R52). -/
def hhw3 (h : LHdr) (bf : Bool) (a b c : LSrc) (f : Word → Word → Word → WF) (s : State) (q : Iss)
    (_ : Mask) (l : Nat) : WF :=
  f ((s.fl q).srcH bf h.lit a l) ((s.fl q).srcH bf h.lit b l) ((s.fl q).src h.lit c l)

/-- FADD (R148). -/
def execFadd (h : LHdr) (f : FMods) (r : Rnd) (d : LDst) (a b : LSrc) (s : State) :
    Host.Outcome State Fault Refusal :=
  issue (.fadd h f r d a b) (fOp h d (fon2 h a b (faddW f r))) s
/-- FSUB (R148). -/
def execFsub (h : LHdr) (f : FMods) (r : Rnd) (d : LDst) (a b : LSrc) (s : State) :
    Host.Outcome State Fault Refusal :=
  issue (.fsub h f r d a b) (fOp h d (fon2 h a b (fsubW f r))) s
/-- FMUL (R148). -/
def execFmul (h : LHdr) (f : FMods) (r : Rnd) (d : LDst) (a b : LSrc) (s : State) :
    Host.Outcome State Fault Refusal :=
  issue (.fmul h f r d a b) (fOp h d (fon2 h a b (fmulW f r))) s
/-- FFMA (R148). -/
def execFfma (h : LHdr) (f : FMods) (r : Rnd) (d : LDst) (a b c : LSrc) (s : State) :
    Host.Outcome State Fault Refusal :=
  issue (.ffma h f r d a b c) (fOp h d (fon3 h a b c (ffmaW f r))) s
/-- FMIN (R149). -/
def execFmin (h : LHdr) (f : FMods) (d : LDst) (a b : LSrc) (s : State) :
    Host.Outcome State Fault Refusal :=
  issue (.fmin h f d a b) (fOp h d (fon2 h a b (fminW f))) s
/-- FMAX (R149). -/
def execFmax (h : LHdr) (f : FMods) (d : LDst) (a b : LSrc) (s : State) :
    Host.Outcome State Fault Refusal :=
  issue (.fmax h f d a b) (fOp h d (fon2 h a b (fmaxW f))) s
/-- FDIV (R150): deferred. -/
def execFdiv (h : LHdr) (f : FMods) (r : Rnd) (d : Nat) (a b : LSrc) (s : State) :
    Host.Outcome State Fault Refusal :=
  issue (.fdiv h f r d a b) (dOp h d (fun s q => fon2 h a b (fdivW f r) s q 0)) s
/-- FRCP (R151, R152): deferred. -/
def execFrcp (h : LHdr) (f : FMods) (d : Nat) (a : LSrc) (s : State) :
    Host.Outcome State Fault Refusal :=
  issue (.frcp h f d a) (dOp h d (fun s q => fon1 h a (frcpW f) s q 0)) s
/-- FRSQ (R151, R152): deferred. -/
def execFrsq (h : LHdr) (f : FMods) (d : Nat) (a : LSrc) (s : State) :
    Host.Outcome State Fault Refusal :=
  issue (.frsq h f d a) (dOp h d (fun s q => fon1 h a (frsqW f) s q 0)) s
/-- FSQRT (R150): deferred. -/
def execFsqrt (h : LHdr) (f : FMods) (r : Rnd) (d : Nat) (a : LSrc) (s : State) :
    Host.Outcome State Fault Refusal :=
  issue (.fsqrt h f r d a) (dOp h d (fun s q => fon1 h a (fsqrtW f r) s q 0)) s
/-- FEXP2 (R151, R152): deferred. -/
def execFexp2 (h : LHdr) (f : FMods) (d : Nat) (a : LSrc) (s : State) :
    Host.Outcome State Fault Refusal :=
  issue (.fexp2 h f d a) (dOp h d (fun s q => fon1 h a (fexp2W f) s q 0)) s
/-- FLOG2 (R151, R152): deferred. -/
def execFlog2 (h : LHdr) (f : FMods) (d : Nat) (a : LSrc) (s : State) :
    Host.Outcome State Fault Refusal :=
  issue (.flog2 h f d a) (dOp h d (fun s q => fon1 h a (flog2W f) s q 0)) s
/-- FSIN (R151, R152): deferred. -/
def execFsin (h : LHdr) (f : FMods) (d : Nat) (a : LSrc) (s : State) :
    Host.Outcome State Fault Refusal :=
  issue (.fsin h f d a) (dOp h d (fun s q => fon1 h a (fsinW f) s q 0)) s
/-- FCOS (R151, R152): deferred. -/
def execFcos (h : LHdr) (f : FMods) (d : Nat) (a : LSrc) (s : State) :
    Host.Outcome State Fault Refusal :=
  issue (.fcos h f d a) (dOp h d (fun s q => fon1 h a (fcosW f) s q 0)) s
/-- FTANH (R151, R152): deferred. -/
def execFtanh (h : LHdr) (f : FMods) (d : Nat) (a : LSrc) (s : State) :
    Host.Outcome State Fault Refusal :=
  issue (.ftanh h f d a) (dOp h d (fun s q => fon1 h a (ftanhW f) s q 0)) s
/-- FEXS (R151, R152): deferred. -/
def execFexs (h : LHdr) (f : FMods) (d : Nat) (a b : LSrc) (s : State) :
    Host.Outcome State Fault Refusal :=
  issue (.fexs h f d a b) (dOp h d (fun s q => fon2 h a b (fexsW f) s q 0)) s
/-- FSCALE (R153). -/
def execFscale (h : LHdr) (f : FMods) (r : Rnd) (d : LDst) (a b : LSrc) (s : State) :
    Host.Outcome State Fault Refusal :=
  issue (.fscale h f r d a b) (fOp h d (fon2 h a b (fscaleW f r))) s
/-- FFRAC (R153). -/
def execFfrac (h : LHdr) (f : FMods) (d : LDst) (a : LSrc) (s : State) :
    Host.Outcome State Fault Refusal :=
  issue (.ffrac h f d a) (fOp h d (fon1 h a (ffracW f))) s
/-- FRINT (R153). -/
def execFrint (h : LHdr) (f : FMods) (r : Rnd) (d : LDst) (a : LSrc) (s : State) :
    Host.Outcome State Fault Refusal :=
  issue (.frint h f r d a) (fOp h d (fon1 h a (frintW f r))) s
/-- FCLASS (R154). -/
def execFclass (h : LHdr) (d : LDst) (a : LSrc) (s : State) :
    Host.Outcome State Fault Refusal :=
  issue (.fclass h d a) (fOp h d (fon1 h a (fun x => (fclassW x, 0)))) s
/-- FCOPYS (R155). -/
def execFcopys (h : LHdr) (sg : SignSel) (d : LDst) (a b : LSrc) (s : State) :
    Host.Outcome State Fault Refusal :=
  issue (.fcopys h sg d a b) (fOp h d (fon2 h a b (fun x y => (fcopysW sg x y, 0)))) s
/-- HADD2 (R156). -/
def execHadd2 (h : LHdr) (bf : Bool) (f : FMods) (r : Rnd) (d : LDst) (a b : LSrc) (s : State) :
    Host.Outcome State Fault Refusal :=
  issue (.hadd2 h bf f r d a b) (fOp h d (hon2 h bf a b (hadd2W bf f r))) s
/-- HMUL2 (R156). -/
def execHmul2 (h : LHdr) (bf : Bool) (f : FMods) (r : Rnd) (d : LDst) (a b : LSrc) (s : State) :
    Host.Outcome State Fault Refusal :=
  issue (.hmul2 h bf f r d a b) (fOp h d (hon2 h bf a b (hmul2W bf f r))) s
/-- HFMA2 (R156). -/
def execHfma2 (h : LHdr) (bf : Bool) (f : FMods) (r : Rnd) (d : LDst) (a b c : LSrc) (s : State) :
    Host.Outcome State Fault Refusal :=
  issue (.hfma2 h bf f r d a b c) (fOp h d (hon3 h bf a b c (hfma2W bf f r))) s
/-- HMIN2 (R156). -/
def execHmin2 (h : LHdr) (bf : Bool) (f : FMods) (d : LDst) (a b : LSrc) (s : State) :
    Host.Outcome State Fault Refusal :=
  issue (.hmin2 h bf f d a b) (fOp h d (hon2 h bf a b (hminmax2W bf false f))) s
/-- HMAX2 (R156). -/
def execHmax2 (h : LHdr) (bf : Bool) (f : FMods) (d : LDst) (a b : LSrc) (s : State) :
    Host.Outcome State Fault Refusal :=
  issue (.hmax2 h bf f d a b) (fOp h d (hon2 h bf a b (hminmax2W bf true f))) s
/-- FDOT2 (R157). -/
def execFdot2 (h : LHdr) (bf : Bool) (f : FMods) (r : Rnd) (d : LDst) (a b c : LSrc) (s : State) :
    Host.Outcome State Fault Refusal :=
  issue (.fdot2 h bf f r d a b c) (fOp h d (hhw3 h bf a b c (fdot2W bf f r))) s
/-- FDOT4 (R157). -/
def execFdot4 (h : LHdr) (fa : Bool) (fb : Bool) (nc : Bool) (r : Rnd) (d : LDst) (a b c : LSrc) (s : State) :
    Host.Outcome State Fault Refusal :=
  issue (.fdot4 h fa fb nc r d a b c) (fOp h d (fon3 h a b c (fdot4W fa fb nc r))) s

end Sys2Proof.Machine
end

