-- ==== Sys2Proof/Machine/Conv.lean ====
section
/-! DEFINITION. The conversion instructions (R158 to R167): one meaning each over the lane functions
of Machine/Convert.lean. -/
namespace Sys2Proof.Machine

/-- The random bits of stochastic rounding: C where it is read (R145, R160). -/
def randOf (fl : Flock) (h : LHdr) (c : Option LSrc) (l : Nat) : Word :=
  match c with
  | some x => fl.src h.lit x l
  | none => 0

/-- CVT (R159, R160). -/
def execCvt (h : LHdr) (dst src : Fmt) (u : Bool) (r : Rnd) (slot : Nat) (d : LDst) (a : LSrc)
    (c : Option LSrc) (s : State) : Host.Outcome State Fault Refusal :=
  issue (.cvt h dst src u r slot d a c) (fOp h d fun s q _ l =>
    cvtW dst src u (s.slotVal q slot) r ((s.fl q).src h.lit a l) (randOf (s.fl q) h c l)) s
/-- CVT2 (R159, R160). -/
def execCvt2 (h : LHdr) (dst src : Fmt) (u : Bool) (r : Rnd) (slot : Nat) (d : LDst) (a b : LSrc)
    (c : Option LSrc) (s : State) : Host.Outcome State Fault Refusal :=
  issue (.cvt2 h dst src u r slot d a b c) (fOp h d fun s q _ l =>
    cvt2W dst src u (s.slotVal q slot) r ((s.fl q).src h.lit a l) ((s.fl q).src h.lit b l)
      (randOf (s.fl q) h c l)) s
/-- CVT4 (R159, R160). -/
def execCvt4 (h : LHdr) (dst src : Fmt) (u : Bool) (r : Rnd) (slot : Nat) (d : LDst) (a b : LSrc)
    (c : Option LSrc) (s : State) : Host.Outcome State Fault Refusal :=
  issue (.cvt4 h dst src u r slot d a b c) (fOp h d fun s q _ l =>
    cvt4W dst src u (s.slotVal q slot) r ((s.fl q).src h.lit a l) ((s.fl q).src h.lit b l)
      (randOf (s.fl q) h c l)) s
/-- UNPK2 (R161). -/
def execUnpk2 (h : LHdr) (fmt : Fmt) (hi : Bool) (d : LDst) (a : LSrc) (s : State) :
    Host.Outcome State Fault Refusal :=
  issue (.unpk2 h fmt hi d a) (fOp h d (fon1 h a (unpk2W fmt hi))) s
/-- UNPK4 (R161). -/
def execUnpk4 (h : LHdr) (fmt : Fmt) (ix : Nat) (d : LDst) (a : LSrc) (s : State) :
    Host.Outcome State Fault Refusal :=
  issue (.unpk4 h fmt ix d a) (fOp h d (fon1 h a (unpk4W fmt ix))) s

/-- The format that XPAND expands (R162). -/
def xpandSrc (s : State) (q : Iss) (b : Bool) (slot : Nat) : Fmt :=
  ((if b then slotBfmt else slotAfmt) (s.slotVal q slot)).getD .e2m1
/-- XPAND's table: 16 bytes of chunk LUTLOC (R162). -/
def xpandLut (s : State) (q : Iss) (slot : Nat) : List Byte :=
  (List.range 16).map fun i => s.spByte (s.fo q) (512 * slotLutloc (s.slotVal q slot) + i)
/-- The trap of XPAND's table read, if any (R162): for the executing band. -/
def xpandTrap (s : State) (q : Iss) (b : Bool) (slot : Nat) : Option Nat :=
  let fo := s.fo q
  let ch := slotLutloc (s.slotVal q slot)
  if xpandSrc s q b slot != .lut4 then none
  else if 64 * fo.segs.length ≤ ch then some cSpbounds
  else if s.engineOwned fo ch then some cSpowner
  else none
/-- XPAND's table read as an access: four words of each Active lane (R162). -/
def xpandAcc (s : State) (q : Iss) (slot : Nat) : Acc :=
  { align := 4, bytes := 4
    at_ := fun _ => (List.range 4).map fun i => 512 * slotLutloc (s.slotVal q slot) + 4 * i
    data := fun _ => [], wide := false }
/-- The lanes whose table read touches the watched block (R162, R397). -/
def xpandWatch (s : State) (q : Iss) (b : Bool) (slot : Nat) (act : Mask) : Mask :=
  if xpandSrc s q b slot = .lut4 then watched (s.fl q) act (xpandAcc s q slot) 0 false else 0
/-- The table holds a word with an uncorrectable error (R447). -/
def xpandStruck (s : State) (q : Iss) (slot : Nat) : Bool :=
  s.struck (((s.fo q).place (512 * slotLutloc (s.slotVal q slot))).getD 0) 16
/-- The table read would be held, as an LDS issued now would be (R162, R202): XPAND waits. -/
def State.xpandHeld (s : State) (q : Iss) (b : Bool) (slot : Nat) : Bool :=
  xpandSrc s q b slot == .lut4 && s.spHeld q.fold q.flock q.lanes false
/-- XPAND's effect. A table read is one scratchpad wave of the cycle; with no Active lane its checks and its
wave stand all the same (log 56). -/
def xpandEff (h : LHdr) (b hi : Bool) (slot : Nat) (d : LDst) (a : LSrc) (q : Iss) (s : State) : Eff :=
  let act := (s.fl q).active h q.lanes
  match xpandTrap s q b slot with
  | some c => .error (c, q.lanes)
  | none =>
      if xpandSrc s q b slot = .lut4 ∧ act ≠ 0 ∧ xpandStruck s q slot then .error (cEcc, act)
      else (qOp h d (on1 h a (xpandW (xpandSrc s q b slot) hi (xpandLut s q slot))) q
        (if xpandSrc s q b slot = .lut4 then s.addWaves q 1 else s)).map fun r =>
          (r.1, xpandWatch s q b slot act)
/-- XPAND (R162). -/
def execXpand (h : LHdr) (b hi : Bool) (slot : Nat) (d : LDst) (a : LSrc) (s : State) :
    Host.Outcome State Fault Refusal :=
  let go := issue (.xpand h b hi slot d a) (xpandEff h b hi slot d a) s
  match s.issuer with
  | none => go
  | some q =>
      if (precheck s q (.xpand h b hi slot d a)).isNone && (xpandTrap s q b slot).isNone
          && s.xpandHeld q b slot then .next s else go

/-- SROUND (R163). -/
def execSround (h : LHdr) (fmt : Fmt) (r : Rnd) (slot : Nat) (d : LDst) (a : LSrc) (c : Option LSrc)
    (s : State) : Host.Outcome State Fault Refusal :=
  issue (.sround h fmt r slot d a c) (fOp h d fun s q _ l =>
    sroundW fmt (s.slotVal q slot) r ((s.fl q).src h.lit a l) (randOf (s.fl q) h c l)) s

/-- The block's scale over the Active lanes (R164). -/
def blockScale (s : State) (q : Iss) (h : LHdr) (a : LSrc) (t : Fmt) (act : Mask) : Nat :=
  scaleOf t ((lanesOf act).map fun l => v32 ((s.fl q).src h.lit a l).toNat)
/-- The NV of a lane whose value is NaN or infinite (R164). -/
def scaleNV (s : State) (q : Iss) (h : LHdr) (a : LSrc) (l : Nat) : Flg :=
  let v := v32 ((s.fl q).src h.lit a l).toNat
  if v.isNan || v.isInf then fNV else 0
/-- SCALEOF (R165). -/
def execScaleof (h : LHdr) (f4 : Bool) (slot : Nat) (d : LDst) (a : LSrc) (s : State) :
    Host.Outcome State Fault Refusal :=
  issue (.scaleof h f4 slot d a) (fun q s =>
    let t := if f4 then .e2m1 else (slotDfmt (s.slotVal q slot)).getD .e4m3
    let sc := blockScale s q h a t ((s.fl q).active h q.lanes)
    fOp h d (fun s q _ l => (wd sc, scaleNV s q h a l)) q s) s

/-- The word and the flags of one lane of SQZ4 and SQZ8 (R166): `n` element codes of format `t`, and
the flags of the lane's own element. -/
def sqzLane (h : LHdr) (t : Fmt) (n : Nat) (r : Rnd) (slot : Nat) (a : LSrc) (c : Option LSrc)
    (sc : Nat) (s : State) (q : Iss) (act : Mask) (l : Nat) : WF :=
  let elem := fun j =>
    if act.getLsbD j && sc != 0xFF then
      sqzElem t (s.slotVal q slot) r sc ((s.fl q).src h.lit a j) (randOf (s.fl q) h c j)
    else (0, 0)
  ((packElems t ((List.range n).map fun i => ((elem (l - l % n + i)).1, 0))).1,
   if sc = 0xFF then scaleNV s q h a l else (elem l).2)
/-- SQZ4 (R166): blocks of E2M1. -/
def execSqz4 (h : LHdr) (r : Rnd) (slot : Nat) (d : LDst) (a : LSrc) (c : Option LSrc) (s : State) :
    Host.Outcome State Fault Refusal :=
  issue (.sqz4 h r slot d a c) (fun q s =>
    let sc := blockScale s q h a .e2m1 ((s.fl q).active h q.lanes)
    fOp h d (sqzLane h .e2m1 8 r slot a c sc) q s) s
/-- SQZ8 (R166): blocks of the slot's DFMT. -/
def execSqz8 (h : LHdr) (r : Rnd) (slot : Nat) (d : LDst) (a : LSrc) (c : Option LSrc) (s : State) :
    Host.Outcome State Fault Refusal :=
  issue (.sqz8 h r slot d a c) (fun q s =>
    let t := (slotDfmt (s.slotVal q slot)).getD .e4m3
    let sc := blockScale s q h a t ((s.fl q).active h q.lanes)
    fOp h d (sqzLane h t 4 r slot a c sc) q s) s

end Sys2Proof.Machine
end

