-- ==== Sys2Proof/Machine/Matrix.lean ====
section
/-! DEFINITION. The matrix unit (R168 to R189): issue checks and hand-over, the command queue, and
the effect of each command. -/
namespace Sys2Proof.Machine

/-! ### Reading and writing through a segment map -/

/-- The place of a fold-relative byte under a segment map. -/
def segPlace (core : Nat) (segs : List Nat) (a : Nat) : Nat :=
  scratchAt core (segs.getD (a / 32768) 0 * 32768 + a % 32768)
/-- Reads of a scratchpad through a segment map. -/
def State.segRead (s : State) (core : Nat) (segs : List Nat) : SpRead := fun a =>
  memGet s.mem (segPlace core segs a)
/-- Bytes written from a fold-relative address on. -/
def State.segWrite (s : State) (core : Nat) (segs : List Nat) (a : Nat) : List Byte → State
  | [] => s
  | b :: bs =>
      State.segWrite { s with mem := memSet s.mem (segPlace core segs a) b } core segs (a + 1) bs
/-- The physical chunk of a fold-relative chunk under a segment map. -/
def segChunk (segs : List Nat) (ch : Nat) : Nat := segs.getD (ch / 64) 0 * 64 + ch % 64
/-- Whole words written through a segment map: errors in them are gone (R447). -/
def State.segPut (s : State) (core : Nat) (segs : List Nat) (a : Nat) (bs : List Byte) : State :=
  let t := s.segWrite core segs a bs
  { t with upsets := t.upsets.filter fun e =>
      !(List.range (bs.length / 4)).any fun i => segPlace core segs (a + 4 * i) == e.1 }
/-- The fold-relative byte of a place in a core's scratchpad under a segment map. -/
def relOf (core : Nat) (segs : List Nat) (p : Nat) : Option Nat :=
  if scratchAt core 0 ≤ p ∧ p < scratchAt core (2 ^ 20) then
    (segs.findIdx? (· == (p - scratchAt core 0) / 32768)).map fun i => i * 32768 + (p - scratchAt core 0) % 32768
  else none
/-- Bytes read through a segment map, by ranges, touch a word that holds an uncorrectable error. -/
def State.readsBad (s : State) (core : Nat) (segs : List Nat) (rs : List (Nat × Nat)) : Bool :=
  s.upsets.any fun e => match relOf core segs e.1 with
    | some x => rs.any fun r => decide (x < r.1 + r.2) && decide (r.1 < x + 4)
    | none => false

/-! ### Issue (R179, R180) -/

/-- Chunks from a first one on. -/
def chunkRun (first n : Nat) : List Nat := (List.range n).map fun i => first + i
/-- The chunk is held by a copy operation, not by the matrix unit (R180, check 6). One whose hold count has come to 0
and that has not yet returned is held by no copy, and may be held again (log 69). -/
def State.copyHolds (s : State) (fo : Fold) (ch : Nat) : Bool :=
  match kget (s.core fo.core).own (fo.physChunk ch) with
  | some (.copy _) => true
  | _ => false
/-- The first check of R180 that fails: the set, reserved bits, the slot, counts, the allocation and
the owner of every chunk of the extents. -/
def matTrap (s : State) (q : Iss) (reserved slotBad countBad : Bool) (chunks : List Nat) :
    Option Nat :=
  let fo := s.fo q
  if (s.core q.core).accFold != some q.fold then some cEngparam
  else if reserved then some cEngparam
  else if slotBad then some cEngparam
  else if countBad then some cEngparam
  else if chunks.any fun ch => decide (64 * fo.segs.length ≤ ch) then some cSpbounds
  else if chunks.any fun ch => s.copyHolds fo ch then some cSpowner
  else none
/-- A command joins the queue: its chunks become engine-owned, each held once more (R179). -/
def State.queueMat (s : State) (q : Iss) (c : MatCmd) : State :=
  s.modCore q.core fun k =>
    { k with
      mq := k.mq ++ [c]
      own := c.chunks.foldl (fun o ch => if (kget o ch).isSome then o else kset o ch .matrix) k.own
      hold := c.chunks.foldl (fun h ch => kset h ch (kgetD h ch 0 + 1)) k.hold }
/-- A command with nothing in it. -/
def matCmd (s : State) (q : Iss) (op tile : Nat) (chunks : List Nat) : MatCmd :=
  { op := op, fold := q.fold, flock := q.flock, born := (s.fl q).born, since := s.nextId, lanes := q.lanes, pc := q.pc, tile := tile, slot := 0, k := 0, a := 0, b := 0
    aoff := 0, boff := 0, raw := false, z := false, rnd := .dflt, segs := (s.fo q).segs
    chunks := (chunks.map (segChunk (s.fo q).segs)).eraseDups }

/-! ### MMA -/

/-- The extents of an MMA: operands and scales (R176, R177). -/
def mmaChunks (sl : DWord) (k afirst bfirst aoff boff : Nat) : List Nat :=
  let fa := (slotAfmt sl).getD .e4m3
  let fb := (slotBfmt sl).getD .e4m3
  chunkRun afirst (operandChunks fa k) ++ chunkRun bfirst (operandChunks fb k)
    ++ byteChunks (512 * slotAsloc sl + 32 * aoff) (scaleBytes (slotAsck sl) k)
    ++ byteChunks (512 * slotBsloc sl + 32 * boff) (scaleBytes (slotBsck sl) k)
/-- The slot's formats form a pair of R168. -/
def mmaPair (sl : DWord) : Bool :=
  match slotAfmt sl, slotBfmt sl with
  | some a, some b => pairOk a b
  | _, _ => false
/-- MMA (R181, R182). -/
def execMma (h : EHdr) (a : USrc) (tile slot : Nat) (s : State) : Host.Outcome State Fault Refusal :=
  issue (.mma h a tile slot) (fun q s =>
    let k := (s.uni q h.lit a).toNat
    let p0 := s.pnat q h.p0
    let p1 := s.pnat q h.p1
    let p2 := s.pnat q h.p2
    let sl := s.slotVal q slot
    let chunks := mmaChunks sl k p0 p1 (bits p2 12 0) (bits p2 28 16)
    match matTrap s q (decide (2 ^ 11 ≤ p0) || decide (2 ^ 11 ≤ p1) || bits p2 31 29 != 0
        || bits p2 15 13 != 0 || s.pnat q h.p3 != 0) (!mmaPair sl)
        (k % 32 != 0 || k == 0 || decide (4096 < k)) chunks with
    | some c => .error (c, q.lanes)
    | none =>
        .ok (s.queueMat q { matCmd s q 0 tile chunks with
            slot := sl, k := k, a := p0, b := p1, aoff := bits p2 12 0, boff := bits p2 28 16 }, 0)) s

/-! ### MZERO, MDRAIN, MLOAD -/

/-- MZERO (R184). -/
def execMzero (h : UHdr) (mask : Nat) (s : State) : Host.Outcome State Fault Refusal :=
  issue (.mzero h mask) (uOp h fun q s =>
    match matTrap s q false false false [] with
    | some c => .error (c, q.lanes)
    | none => .ok (s.queueMat q (matCmd s q 1 mask []), 0)) s
/-- The parameter words of MDRAIN and MLOAD hold a reserved bit. -/
def oneChunkBad (s : State) (q : Iss) (h : EHdr) : Bool :=
  decide (2 ^ 11 ≤ s.pnat q h.p0) || s.pnat q h.p1 != 0 || s.pnat q h.p2 != 0 || s.pnat q h.p3 != 0
/-- MDRAIN (R185, R186). -/
def execMdrain (h : EHdr) (tile slot : Nat) (raw z : Bool) (r : Rnd) (s : State) :
    Host.Outcome State Fault Refusal :=
  issue (.mdrain h tile slot raw z r) (fun q s =>
    let sl := s.slotVal q slot
    let w := if raw then 24 else fmtBytes ((slotDfmt sl).getD .f32)
    let bad := !raw && !(match slotDfmt sl with
      | some t => drainFmt t
      | none => false)
    let chunks := chunkRun (s.pnat q h.p0) (2 * w)
    match matTrap s q (oneChunkBad s q h) bad false chunks with
    | some c => .error (c, q.lanes)
    | none =>
        .ok (s.queueMat q { matCmd s q 2 tile chunks with
            slot := sl, a := s.pnat q h.p0, raw := raw, z := z, rnd := r }, 0)) s
/-- The issue of an MLOAD of element width `w`. -/
def mloadEff (h : EHdr) (op tile w : Nat) (sl : DWord) (bad : Bool) (q : Iss) (s : State) : Eff :=
  let chunks := chunkRun (s.pnat q h.p0) (2 * w)
  match matTrap s q (oneChunkBad s q h) bad false chunks with
  | some c => .error (c, q.lanes)
  | none => .ok (s.queueMat q { matCmd s q op tile chunks with slot := sl, a := s.pnat q h.p0 }, 0)
/-- MLOAD.LOAD (R187, R188). -/
def execMloadLoad (h : EHdr) (tile : Nat) (s : State) : Host.Outcome State Fault Refusal :=
  issue (.mloadLoad h tile) (mloadEff h 3 tile 24 0 false) s
/-- MLOAD.ADD (R187, R188). -/
def execMloadAdd (h : EHdr) (tile : Nat) (s : State) : Host.Outcome State Fault Refusal :=
  issue (.mloadAdd h tile) (mloadEff h 4 tile 24 0 false) s
/-- MLOAD.ADDV (R187, R188). -/
def execMloadAddv (h : EHdr) (tile slot : Nat) (s : State) : Host.Outcome State Fault Refusal :=
  issue (.mloadAddv h tile slot) (fun q s =>
    let sl := s.slotVal q slot
    mloadEff h 5 tile (fmtBytes ((slotDfmt sl).getD .f32)) sl (!(match slotDfmt sl with
      | some t => addvFmt t
      | none => false)) q s) s

/-! ### The unit runs a command -/

/-- A tile of a core. -/
def Core.tile (c : Core) (t : Nat) : Tile := kgetD c.tiles t Tile.zero
def State.setTile (s : State) (core t : Nat) (x : Tile) : State :=
  s.modCore core fun c => { c with tiles := kset c.tiles t x }
/-- Cycles that a command occupies the unit (R169). -/
def MatCmd.cycles (c : MatCmd) : Nat :=
  match c.op with
  | 0 =>
      let kc := if slotAfmt c.slot = some .e2m1 ∧ slotBfmt c.slot = some .e2m1 then 64 else 32
      (c.k + kc - 1) / kc
  | 1 => 1
  | 2 => if c.raw then 12 else 4
  | 5 => 4
  | _ => 12
/-- Flags merged into FFLAGS of the issuing flock, if it still exists and has a lane (R186). Between the
issue of its two bands in one cycle they are kept for band B's WRSR (R104). -/
def State.mergeFlags (s : State) (core fold flock born : Nat) (g : Flg) : State :=
  if (s.flock fold flock).born ≠ born then s else
  let s := s.modFlock fold flock fun fl =>
    if fl.live = 0 then fl else { fl with fflags := fl.fflags ||| g }
  s.modStage core (s.flock fold flock).stage fun st =>
    { st with turn := st.turn.map fun t =>
        if t.fold = fold ∧ t.flock = flock ∧ t.nextB then { t with flags := t.flags ||| g } else t }
/-- The scratchpad bytes that a command reads, by ranges (R176 to R178). -/
def MatCmd.reads (c : MatCmd) : List (Nat × Nat) :=
  match c.op with
  | 0 =>
      [(512 * c.a, 512 * operandChunks ((slotAfmt c.slot).getD .e4m3) c.k),
       (512 * c.b, 512 * operandChunks ((slotBfmt c.slot).getD .e4m3) c.k),
       (512 * slotAsloc c.slot + 32 * c.aoff, scaleBytes (slotAsck c.slot) c.k),
       (512 * slotBsloc c.slot + 32 * c.boff, scaleBytes (slotBsck c.slot) c.k)]
  | 3 | 4 => [(512 * c.a, 24576)]
  | 5 => [(512 * c.a, 1024 * fmtBytes ((slotDfmt c.slot).getD .f32))]
  | _ => []
/-- The tiles that a command writes whole: errors in them are gone (R447). -/
def MatCmd.heals (c : MatCmd) (t : Nat) : Bool :=
  match c.op with
  | 1 => bitOf c.tile t
  | 2 => c.z && c.tile == t
  | 3 => c.tile == t
  | _ => false
/-- The effect of a command (R182, R184, R186, R188). -/
def State.runMat (s : State) (core : Nat) (c : MatCmd) : State :=
  let rd := s.segRead core c.segs
  let t := (s.core core).tile c.tile
  match c.op with
  | 0 => s.setTile core c.tile (mmaTile rd c.slot c.k c.a c.b c.aoff c.boff t)
  | 1 => (List.range 4).foldl (fun s i => if bitOf c.tile i then s.setTile core i Tile.zero else s) s
  | 2 =>
      let r := if c.raw then (drainRaw t, 0)
        else drainBytes ((slotDfmt c.slot).getD .f32) c.slot (slotRnd c.slot c.rnd .rne) t
      let s := (s.segPut core c.segs (512 * c.a) r.1).mergeFlags core c.fold c.flock c.born (r.2 ||| tileFlags t)
      if c.z then s.setTile core c.tile Tile.zero else s
  | 3 => s.setTile core c.tile (mloadLoadTile rd c.a)
  | 4 => s.setTile core c.tile (mloadAddTile rd c.a t)
  | _ => s.setTile core c.tile (mloadAddvTile rd c.slot c.a t)

/-- The matrix unit has done with a command: its hold counts fall (R179). -/
def MatCmd.letGo (c : MatCmd) (k : Core) : Core :=
  { k with
    hold := c.chunks.foldl (fun h ch =>
      if kgetD h ch 0 ≤ 1 then kdel h ch else kset h ch (kgetD h ch 0 - 1)) k.hold }
/-- The unit's next command ends at an uncorrectable error (R447): it changes nothing, its chunks return,
and ECC is delivered to its flock, with a record of kind 5. -/
def State.failMat (s : State) (core : Nat) (c : MatCmd) (rest : List MatCmd) : State :=
  let fo := (kget s.folds c.fold).getD Fold.blank
  let s := s.modCore core fun k => c.letGo { k with mq := rest }
  (s.deliver c.fold c.flock c.born cEcc).errorRecord (dieOf core) fo.paddock fo.vd fo.drove (s.droveIdOf fo) fo.index core c.flock c.pc
/-- A word that a command reads, of the scratchpad or of its tile, holds an uncorrectable error. -/
def State.matBad (s : State) (core : Nat) (c : MatCmd) : Bool :=
  s.readsBad core c.segs c.reads
    || (c.op != 1 && c.op != 3 && (s.core core).tileBad.any fun e => e.1 == c.tile)
/-- The command may run: every access that issued before the hand-over is performed (R201), and what its issue came
after (R229). -/
def State.matReady (s : State) (core : Nat) (c : MatCmd) : Bool :=
  s.engineFree c.fold c.flock c.since c.lanes && c.chunks.all fun ch => s.chunkQuiet core ch
/-- MATRIX_COMMAND_START (R173): the unit takes its next command and runs it; its hold counts fall (R179). -/
def State.matStart (s : State) (core : Nat) : State :=
  match (s.core core).mq with
  | [] => s
  | c :: rest =>
      if !s.matReady core c then s
      else if s.matBad core c then s.failMat core c rest
      else
        let s := s.modCore core fun k => { k with mq := rest, tileBad := k.tileBad.filter fun e => !c.heals e.1 }
        let s := s.runMat core c
        let s := match kget s.folds c.fold with
          | some fo => s.count fo.paddock (dieOf core) 4 c.cycles
          | none => s
        s.modCore core c.letGo
def execMatrixCommandStart (core : Nat) (s : State) : Host.Outcome State Fault Refusal :=
  .next (s.matStart core)

end Sys2Proof.Machine
end

