-- ==== Sys2Proof/Machine/Copy.lean ====
section
/-! DEFINITION. Tile copies (R242 to R254), the waits on chunks and the status of copies (R255 to
R257), translation faults of streams (R258, R332), staging copies (R302) and collectives (R260 to
R266). -/
namespace Sys2Proof.Machine

/-! ### Streams and queues (R243) -/

/-- How many queues of the paddock's folds on a die are bound to a stream. -/
def State.bound (s : State) (p d st : Nat) : Nat :=
  ((s.folds.filter fun e => e.2.paddock == p && dieOf e.2.core == d).flatMap fun e =>
    e.2.queues.filter fun q => q.2 == st).length
/-- The paddock's stream on a die with the fewest queues bound, on a tie the lowest-numbered. -/
def State.pickStream (s : State) (p d : Nat) : Nat :=
  (s.streams p d).foldl (fun b st => if s.bound p d st < s.bound p d b then st else b)
    ((s.streams p d).headD 0)
/-- The stream of a fold's queue, bound at its first use. -/
def State.bindQueue (s : State) (fid qn : Nat) : Nat × State :=
  match kget s.folds fid with
  | none => (0, s)
  | some fo =>
      match kget fo.queues qn with
      | some st => (st, s)
      | none =>
          let st := s.pickStream fo.paddock (dieOf fo.core)
          (st, s.modFold fid fun fo => { fo with queues := kset fo.queues qn st })
/-- A stream is stalled by an operation of it that waits on a translation fault (R258). -/
def State.streamStalled (s : State) (o : CopyOp) : Bool :=
  s.copies.any fun e => e.2.phase == 2 && e.2.paddock == o.paddock && dieOf e.2.core == dieOf o.core
    && e.2.stream == o.stream

/-! ### Issue (R247 to R250) -/

/-- A parameter word that names a notification fails its checks (R247, R249). -/
def State.noteBad (s : State) (fo : Fold) (w : Nat) : Bool :=
  let n := w % 4
  let a := w / 4 * 4
  n == 3 || (n == 0 && a != 0) || (n != 0 && (s.commonsBad fo a || s.windowBad fo a))
/-- The place that a notification word names. -/
def State.notePlace (s : State) (fo : Fold) (w : Nat) : Nat :=
  if w % 4 = 0 then 0 else s.cmPlace fo (w / 4 * 4)
/-- Chunks of the index extent for a number of rows (R248). -/
def indexChunks (rows : Nat) : Nat := (4 * rows + 511) / 512
/-- The first check of R249 that fails. `kind` is that of R246. -/
def copyTrap (s : State) (q : Iss) (kind rlog a p0 p1 p2 p3 : Nat) : Option Nat :=
  let fo := s.fo q
  let d := dieOf q.core
  let n := bits p2 26 16 + 1
  let x := 512 * n
  let l := 16 * 2 ^ rlog
  let rows := x / l
  let first := bits p2 10 0
  let ich := bits p1 30 20
  let va := bits p1 19 0 * 2 ^ 32 + p0
  let lea := if fo.paddock = 0 then 0 else portOf fo.vd
  let indexed := kind == 3 || kind == 4
  let paramBad := bitOf p1 31 || bits p2 31 27 != 0 || bits p2 15 11 != 0
    || (!indexed && ich != 0) || (kind == 2 && first != 0) || decide (x < l) || x % l != 0
    || (kind == 2 && va % 4 != 0)
    || ((kind == 0 || kind == 1 || indexed) && (va % 16 != 0 || a % 16 != 0))
    || (kind == 1 && decide (1 < rows) && decide (a < l))
    || (kind == 5 && (n != 1 || decide (4096 ≤ a)
        || decide (bits (s.reg 0 fo.paddock 0x0F lea) 12 0 ≤ a)))
  let chunks := (if kind = 2 then [] else chunkRun first n)
    ++ (if indexed then chunkRun ich (indexChunks rows) else [])
  if paramBad || s.noteBad fo p3 then some cEngparam
  else if (s.streams fo.paddock d).isEmpty then some cEngparam
  else if chunks.any fun ch => decide (64 * fo.segs.length ≤ ch) then some cSpbounds
  else if chunks.any fun ch => s.engineOwned fo ch then some cSpowner
  else none
/-- The chain of a fold's drove. -/
def State.chainOf (s : State) (fo : Fold) : Nat :=
  match kget s.droves fo.drove with
  | some d => d.chain
  | none => 0
/-- An operation with nothing in it but where it comes from. -/
def copyOpOf (s : State) (fid flock pc : Nat) (fo : Fold) : CopyOp :=
  { paddock := fo.paddock, vd := fo.vd, fold := fid, flock := flock, core := fo.core
    drove := fo.drove, pc := pc, kind := 0, addr := 0, pitch := 0, rowlen := 512, first := 0
    count := 1, ichunk := 0, qn := 0, stream := 0, res := 0, chain := s.chainOf fo, naddr := 0
    note := 0, p3 := 0, segs := fo.segs, phase := 0, idx := [], data := [], dst := 0, fault := none, moved := none
    posted := none, fail := none, assist := false, seq := 0, wrote := false, part := none, rem := 0
    ix := fo.index, born := (s.flock fid flock).born }
/-- The lea die that runs a collective (R260). -/
def CopyOp.lea (o : CopyOp) : Nat := if o.paddock = 0 then 0 else portOf o.vd
/-- The bytes of a collective's table entry that it reads first, by address and length (R260). -/
def State.entryOf (s : State) (p lea g : Nat) : Nat × Nat :=
  (bits (s.reg 0 p 0x0F lea) 43 16 * 65536 + 16 * g, 16)
/-- The members that an entry lists, in rank order (R260), or none where the entry makes a collective fail. -/
def State.groupOf (s : State) (p lea g : Nat) : Option (List Nat) :=
  let r := s.reg 0 p 0x0F lea
  let base := bits r 43 16 * 65536
  let size := bits r 63 52 * 65536
  let n := s.rd (base + 16 * g) 2
  let list := s.rd (base + 16 * g + 8) 8
  if n = 0 || 32768 < n || s.rd (base + 16 * g + 2) 6 != 0 || 2 ^ 44 ≤ list || list % 8 != 0
      || list < base || base + size < list + 2 * n then none
  else some ((List.range n).map fun i => s.rd (list + 2 * i) 2)
/-- How many collectives a virtual device has issued on the group of a list. -/
def VDev.collsOn (d : VDev) (g : List Nat) : Nat := ((d.colls.find? fun e => e.1 == g).map Prod.snd).getD 0
/-- A collective takes the next number of its rank on its group (R262): the group is the list that its entry names as it
issues (log 89). -/
def State.numbered (s : State) (o : CopyOp) : CopyOp × State :=
  if o.kind = 5 ∧ o.paddock ≠ 0 then
    let g := (s.groupOf o.paddock o.lea o.pitch).getD []
    let k := (s.vd o.vd).collsOn g
    ({ o with seq := k }, s.modVd o.vd fun d => { d with colls := (g, k + 1) :: d.colls.filter fun e => e.1 != g })
  else (o, s)
/-- The data chunks and index chunks of an operation, fold-relative. -/
def CopyOp.indexed (o : CopyOp) : Bool := o.kind == 3 || o.kind == 4
/-- The chunks of its extent that the operation is to handle, by index: all, or a remnant's range (R421). -/
def CopyOp.span (o : CopyOp) : List Nat :=
  match o.part with
  | none => List.range o.count
  | some (f, n) => (List.range n).map fun i => f + i
def CopyOp.rows (o : CopyOp) : Nat := 512 * o.count / o.rowlen
def CopyOp.dataChunks (o : CopyOp) : List Nat := if o.kind = 2 then [] else chunkRun o.first o.count
def CopyOp.chunks (o : CopyOp) : List Nat :=
  o.dataChunks ++ if o.indexed then chunkRun o.ichunk (indexChunks o.rows) else []
/-- Every chunk of the operation becomes engine-owned (R250). -/
def State.ownChunks (s : State) (id : Nat) (o : CopyOp) : State :=
  s.modCore o.core fun c =>
    { c with own := (o.chunks.map (segChunk o.segs)).foldl (fun m ch => kset m ch (.copy id)) c.own }
/-- The issue of a TCOPY of a kind. -/
def tcopy (kind : Nat) (h : EHdr) (t : TcHdr) (a : USrc) (q : Iss) (s : State) : Eff :=
  let fo := s.fo q
  let av := (s.uni q h.lit a).toNat
  let p0 := s.pnat q h.p0
  let p1 := s.pnat q h.p1
  let p2 := s.pnat q h.p2
  let p3 := s.pnat q h.p3
  match copyTrap s q kind t.rlog av p0 p1 p2 p3 with
  | some c => .error (c, q.lanes)
  | none =>
      let b := s.bindQueue q.fold t.qn
      let id := b.2.nextId
      let o : CopyOp :=
        { copyOpOf s q.fold q.flock q.pc fo with
          kind := kind, addr := bits p1 19 0 * 2 ^ 32 + p0, pitch := av
          rowlen := if kind = 5 then 512 else 16 * 2 ^ t.rlog
          first := bits p2 10 0, count := bits p2 26 16 + 1, ichunk := bits p1 30 20, qn := t.qn
          stream := b.1, res := t.res, naddr := s.notePlace fo p3, note := p3 % 4, p3 := p3, lanes := q.lanes }
      let n := b.2.numbered o
      .ok (({ n.2 with copies := kset n.2.copies id n.1, nextId := id + 1 }).ownChunks id n.1, 0)
/-- TCOPY.LOAD (R248). -/
def execTcopyLoad (h : EHdr) (t : TcHdr) (a : USrc) (s : State) : Host.Outcome State Fault Refusal :=
  issue (.tcopyLoad h t a) (tcopy 0 h t a) s
/-- TCOPY.STORE (R248). -/
def execTcopyStore (h : EHdr) (t : TcHdr) (a : USrc) (s : State) : Host.Outcome State Fault Refusal :=
  issue (.tcopyStore h t a) (tcopy 1 h t a) s
/-- TCOPY.FILL (R248). -/
def execTcopyFill (h : EHdr) (t : TcHdr) (a : USrc) (s : State) : Host.Outcome State Fault Refusal :=
  issue (.tcopyFill h t a) (tcopy 2 h t a) s
/-- TCOPY.GATHER (R248). -/
def execTcopyGather (h : EHdr) (t : TcHdr) (a : USrc) (s : State) :
    Host.Outcome State Fault Refusal :=
  issue (.tcopyGather h t a) (tcopy 3 h t a) s
/-- TCOPY.SCATTER (R248). -/
def execTcopyScatter (h : EHdr) (t : TcHdr) (a : USrc) (s : State) :
    Host.Outcome State Fault Refusal :=
  issue (.tcopyScatter h t a) (tcopy 4 h t a) s
/-- TCOPY.COLL (R260). -/
def execTcopyColl (h : EHdr) (t : TcHdr) (a : USrc) (s : State) : Host.Outcome State Fault Refusal :=
  issue (.tcopyColl h t a) (tcopy 5 h t a) s

/-! ### Rows -/

/-- The memory address of row `r`: `none` for a row that an index of all ones leaves out. -/
def CopyOp.rowAddr (o : CopyOp) (r : Nat) : Option Nat :=
  if o.indexed then
    if o.idx.getD r 0 = 0xFFFFFFFF then none
    else some ((o.addr + o.idx.getD r 0 * o.pitch) % 2 ^ 52)
  else some ((o.addr + r * o.pitch) % 2 ^ 52)
/-- The parts of rows that lie in chunk `i` of the extent: address and length. -/
def CopyOp.chunkRows (o : CopyOp) (i : Nat) : List (Option Nat × Nat) :=
  if 512 ≤ o.rowlen then
    [((o.rowAddr (512 * i / o.rowlen)).map fun a => (a + 512 * i % o.rowlen) % 2 ^ 52, 512)]
  else (List.range (512 / o.rowlen)).map fun j => (o.rowAddr (512 * i / o.rowlen + j), o.rowlen)
/-- The chunk is held by an operation. -/
def State.heldBy (s : State) (core id ch : Nat) : Bool := kget (s.core core).own ch == some (.copy id)
/-- The chunks of the extent that the operation still holds, by index in the extent. -/
def State.leftOf (s : State) (id : Nat) (o : CopyOp) : List Nat :=
  (List.range o.count).filter fun i => o.kind != 2 && s.heldBy o.core id (segChunk o.segs (o.first + i))
/-- The chunk goes back to the threads. -/
def State.flipChunk (s : State) (core ch : Nat) : State :=
  s.modCore core fun c => { c with own := kdel c.own ch }

/-! ### TRYWAIT (R255, R256) -/

/-- Some chunk that the mask names lies beyond the allocation. -/
def tryBad (fo : Fold) (first : Nat) (m : Mask) : Bool :=
  (lanesOf m).any fun i => decide (64 * fo.segs.length ≤ first + i)
/-- Ready() of R256. -/
def State.tryReady (s : State) (fo : Fold) (first : Nat) (m : Mask) (any : Bool) : Bool :=
  m == 0 || (if any then (lanesOf m).any fun i => !s.engineOwned fo (first + i)
    else (lanesOf m).all fun i => !s.engineOwned fo (first + i))
/-- The bands of a flock whose TRYWAIT ends go on, each with its predicate. -/
def Flock.endTry (fl : Flock) (done : Nat → Mask → Bool → Nat → Bool) (ready : Nat → Mask → Bool → Bool) :
    Flock :=
  (List.range 32).foldl (fun fl l =>
    match fl.wait l with
    | some (.trywait _ k f m any t _) =>
        if done f m any t then (fl.setK k (ready f m any)).release (BitVec.ofNat 32 (2 ^ l)) else fl
    | _ => fl) fl
/-- TRYWAITs of a core's folds that have become ready end. -/
def State.settleTry (s : State) (core : Nat) : State :=
  { s with
    folds := s.folds.map fun e =>
      if e.2.core == core && e.2.status == .resident then
        (e.1, { e.2 with
          flocks := e.2.flocks.map fun fl =>
            fl.endTry (fun f m any _ => s.tryReady e.2 f m any) (s.tryReady e.2) })
      else e }
/-- Every TRYWAIT of a fold ends as its chunks stand: a stop request (R256). -/
def State.stopTry (s : State) (fid : Nat) : State :=
  s.modFold fid fun fo =>
    { fo with flocks := fo.flocks.map fun fl => fl.endTry (fun _ _ _ _ => true) (s.tryReady fo) }
/-- TRYWAIT (R256). -/
def execTrywait (h : UHdr) (any : Bool) (d : Nat) (a b : USrc) (s : State) :
    Host.Outcome State Fault Refusal :=
  issue (.trywait h any d a b) (uOp h fun q s =>
    let fo := s.fo q
    let f := (s.uni q h.lit a).toNat % 2048
    let m := s.uni q h.lit b
    if tryBad fo f m then .error (cSpbounds, q.lanes)
    else if s.tryReady fo f m any || fo.stopWanted != 0 then
      .ok (s.setFl q fun fl => fl.setK d (s.tryReady fo f m any), 0)
    else
      let n := (s.fl q).pc ((lanesOf q.lanes).headD 0)
      .ok (s.waitAt q q.lanes fun _ =>
        .trywait (if q.bandB then 1 else 0) d f m any (s.die (dieOf q.core)).cycles n, 0)) s
/-- TRYWAIT_TIMEOUT (R256): waits of the flock that began 2,048 cycles ago end as they stand. -/
def State.tryTimeout (s : State) (fold flock : Nat) : State :=
  match kget s.folds fold with
  | none => s
  | some fo =>
      s.modFlock fold flock fun fl =>
        fl.endTry (fun _ _ _ t => decide (t + 2048 ≤ (s.die (dieOf fo.core)).cycles)) (s.tryReady fo)
def execTrywaitTimeout (fold flock : Nat) (s : State) : Host.Outcome State Fault Refusal :=
  .next (s.tryTimeout fold flock)

/-- A count of an operation list in a status word. -/
def minNat (n k : Nat) : Nat := if k ≤ n then k else n
/-- TSTAT's word (R257). -/
def State.copyStatus (s : State) (q : Iss) (qn : Nat) : Word :=
  let fo := s.fo q
  match kget fo.queues qn with
  | none => 0
  | some st =>
      let mine := s.copies.filter fun e => e.2.fold == q.fold && e.2.flock == q.flock
        && e.2.qn == qn && e.2.kind != 7
      let stall := s.copies.any fun e => e.2.phase == 2 && e.2.paddock == fo.paddock
        && dieOf e.2.core == dieOf q.core && e.2.stream == st
      wd ((if stall then 2 ^ 16 else 0) + (mine.filter fun e => e.2.phase == 0).length * 256
        + minNat mine.length 255)
/-- TSTAT (R257). -/
def execTstat (h : UHdr) (d : Nat) (a : USrc) (s : State) : Host.Outcome State Fault Refusal :=
  issue (.tstat h d a) (uOp h fun q s =>
    let qn := (s.uni q h.lit a).toNat
    if 16 ≤ qn then .error (cEngparam, q.lanes)
    else .ok (s.setFl q fun fl => fl.setS d (s.copyStatus q qn), 0)) s

/-! ### A stream takes and performs an operation -/

/-- A peer of the virtual device on this device is being moved: packets for it are held (R438). -/
def State.peerHeld (s : State) (v : Nat) : Bool :=
  match s.ownVdn v with
  | none => false
  | some own => s.vds.any fun e => e.2.shep == 2 && e.1 != v && (match s.ownVdn e.1 with
      | some w => s.sameGroup own w
      | none => false)
/-- The operation may perform accesses: it has started, nothing stalls its stream, and it is not to
fail. -/
def State.copyRuns (s : State) (o : CopyOp) : Bool :=
  o.phase == 1 && o.fail.isNone && o.moved.isNone && !s.streamStalled o && !s.peerHeld o.vd

/-- What a collective reads of its paddock's group table, by ranges: the entry, and the list where it has one. -/
def State.groupReads (s : State) (o : CopyOp) : List (Nat × Nat) :=
  let e := s.entryOf o.paddock o.lea o.pitch
  e :: match s.groupOf o.paddock o.lea o.pitch with
    | some ms => [(s.rd (e.1 + 8) 8, 2 * ms.length)]
    | none => []
/-- An operation starts: its indices are read, and a collective's group (R260), whose list it keeps. One that reads
a word with an uncorrectable error is to fail with SUB 5, and one whose entry breaks a rule with SUB 7 (R260, R447). -/
def State.startCopy (s : State) (o : CopyOp) : CopyOp :=
  let rd := s.segRead o.core o.segs
  let idx := if o.indexed then (List.range o.rows).map fun r =>
    leNat ((List.range 4).map fun j => rd (512 * o.ichunk + 4 * r + j)) else []
  if o.kind = 5 then
    let g := if o.paddock = 0 then none else s.groupOf o.paddock o.lea o.pitch
    { o with
      phase := 1, group := g.getD []
      fail := if o.fail.isSome then o.fail
        else if (s.groupReads o).any fun r => (piecesOf r.1 r.2).any fun x => (s.readErr 0 x.1 x.2).isSome then some 5
        else if s.readsBad o.core o.segs [(512 * o.first, 64)] then some 5
        else if g.isNone || (s.ownVdn o.vd).isNone then some 7 else none }
  else
    { o with
      phase := 1, idx := idx
      fail := if o.indexed && s.readsBad o.core o.segs [(512 * o.ichunk, 4 * o.rows)] then some 5 else o.fail }
/-- COPY_START (R243): the operations of one queue start in the order of issue. Accesses that issued
before the hand-over are performed first (R201), and the acquires that the issue came after (R229). -/
def State.copyBegin (s : State) (id : Nat) : State :=
  match kget s.copies id with
  | none => s
  | some o =>
      let earlier := s.copies.any fun e => e.1 < id && e.2.fold == o.fold && e.2.qn == o.qn
        && e.2.phase == 0
      let held := match kget s.folds o.fold with
        | some fo => fo.stopWanted != 0
        | none => false
      if o.phase != 0 || held || earlier || s.streamStalled o
          || !s.engineFree o.fold o.flock id o.lanes
          || (o.chunks.any fun ch => !s.chunkQuiet o.core (segChunk o.segs ch)) then s
      else
        let t := if o.kind = 5 ∧ o.paddock ≠ 0 then (s.groupReads o).foldl (fun s r => (piecesOf r.1 r.2).foldl
            (fun s x => s.cached o.paddock .keep false 0 x.1 x.2) s) s
          else s
        { t with copies := kset t.copies id (s.startCopy o) }
def execCopyStart (op : Nat) (s : State) : Host.Outcome State Fault Refusal := .next (s.copyBegin op)

/-- The bytes of a chunk of the extent as memory gives them, and how many were read. -/
def State.loadRows (s : State) (o : CopyOp) :
    List (Option Nat × Nat) → Except AccErr (List Byte × Nat × State)
  | [] => .ok ([], 0, s)
  | (none, n) :: r => do
      let x ← State.loadRows s o r
      .ok (List.replicate n 0 ++ x.1, x.2)
  | (some a, n) :: r => do
      let y ← s.copyRead o.keep o.paddock o.vd a n
      let x ← State.loadRows y.2 o r
      .ok (y.1 ++ x.1, n + x.2.1, x.2.2)
/-- The chunks of the extent that an operation, or the other ranges of its remnant, still hold. -/
def State.groupLeft (s : State) (id : Nat) (o : CopyOp) : List Nat :=
  let ids := id :: if o.rem = 0 then [] else
    (s.copies.filter fun e => e.2.rem == o.rem && e.2.fold == o.fold).map Prod.fst
  (List.range o.count).filter fun i => ids.any fun j => s.heldBy o.core j (segChunk o.segs (o.first + i))
/-- After chunk `i` has returned, what is left is at most the 64 ranges that a REMNANT record holds (R419, log 60). -/
def State.rangesFit (s : State) (id : Nat) (o : CopyOp) (i : Nat) : Bool :=
  decide (o.count ≤ 128) || (
    let left := (s.groupLeft id o).filter (· != i)
    decide ((left.filter fun j => j == 0 || !left.contains (j - 1)).length ≤ 64))
/-- The bytes of chunk `i` of the extent that a store or scatter reads: those of rows that no index leaves out. -/
def CopyOp.chunkReads (o : CopyOp) (i : Nat) : List (Nat × Nat) :=
  ((o.chunkRows i).foldl (fun (r : List (Nat × Nat) × Nat) p =>
    (if p.1.isSome then r.1 ++ [(r.2, p.2)] else r.1, r.2 + p.2)) ([], 512 * (o.first + i))).1
/-- One chunk of a running operation goes back (R250): a load's after its bytes are written into it, a
store's after it has been read, an index chunk after its indices have. -/
def State.copyChunk (s : State) (id : Nat) (o : CopyOp) (ch : Nat) : State :=
  match (List.range o.count).find? fun i => segChunk o.segs (o.first + i) == ch with
  | none => (s.flipChunk o.core ch).settleTry o.core
  | some i =>
      if !s.rangesFit id o i then s
      else if o.kind = 0 ∨ o.kind = 3 then
        match s.loadRows o (o.chunkRows i) with
        | .error _ => s
        | .ok (bs, n, t) =>
            (((t.segPut o.core o.segs (512 * (o.first + i)) bs).count o.paddock (dieOf o.core) 5
              n).flipChunk o.core ch).settleTry o.core
      else if o.kind = 1 ∨ o.kind = 4 then
        if s.readsBad o.core o.segs (o.chunkReads i) || (o.chunkRows i).any (fun p => match p.1 with
            | some a => (s.accErr o.paddock o.vd true a p.2).isSome
            | none => false) then s else
        let bs := (List.range 512).map fun j => s.segRead o.core o.segs (512 * (o.first + i) + j)
        (({ s with copies := kset s.copies id { o with data := kset o.data i bs } }).flipChunk o.core
          ch).settleTry o.core
      else s
/-- CHUNK_RETURN (R179, R250): of the matrix unit, once no command that names the chunk is left, or of
a copy operation. -/
def State.chunkReturn (s : State) (core ch : Nat) : State :=
  match kget (s.core core).own ch with
  | none => s
  | some .matrix =>
      if (kget (s.core core).hold ch).isSome then s else (s.flipChunk core ch).settleTry core
  | some (.copy id) =>
      match kget s.copies id with
      | some o => if s.copyRuns o then s.copyChunk id o ch else s
      | none => s
def execChunkReturn (core chunk : Nat) (s : State) : Host.Outcome State Fault Refusal :=
  .next (s.chunkReturn core chunk)

/-- What an operation writes to memory, in ascending rows (R248, R252): addresses and bytes. -/
def CopyOp.memWrites (o : CopyOp) : List (Nat × List Byte) :=
  if o.kind = 1 ∨ o.kind = 4 then
    o.span.flatMap fun i =>
      ((o.chunkRows i).foldl (fun (r : List (Nat × List Byte) × List Byte) p =>
        (match p.1 with
          | some a => r.1 ++ [(a, r.2.take p.2)]
          | none => r.1, r.2.drop p.2)) ([], kgetD o.data i [])).1
  else if o.kind = 2 then
    [(o.addr, (List.range (512 * o.count / 4)).flatMap fun _ => leBytes o.pitch 4)]
  else if o.kind = 5 then [(o.dst, kgetD o.data 0 [])]
  else []
/-- A notification's add of 1 would read a word with an uncorrectable error; an exchange with 1 replaces it (R447). -/
def State.noteStruck (s : State) (note a : Nat) : Bool := note == 1 && s.struck a 4 || note == 2 && codeUnit a != 4 && s.struck a 4
/-- A notification's atomic (R236, R251): an add of 1, or an exchange with 1. -/
def State.notify (s : State) (note a : Nat) : State :=
  if note = 0 then s
  else
    let s := s.wr a 4 (if note = 1 then s.rd a 4 + 1 else 1)
    if isCommons a then s.setRecord a ((s.record a).filter fun e => e.1 != a) else s
/-- Nothing holds an operation back at an address: no promotion there is under way (R234). -/
def State.noteReady (s : State) (a : Nat) : Bool :=
  s.ops.all fun e => e.2.promo.all fun p => !touch (e.2.addrs p.1) e.2.bytes [a] 4
/-- The operation of a member on this device that is matched with an operation (R262): both have started, on lists
that are equal, with the same number (log 89). -/
def State.mate (s : State) (o : CopyOp) (vdn : Nat) : Option (Nat × CopyOp) :=
  s.copies.find? fun e => e.2.kind == 5 && e.2.paddock != 0 && e.2.phase != 0 && s.ownVdn e.2.vd == some vdn
    && e.2.seq == o.seq && e.2.group == o.group
/-- The shape record of a collective: its 16 words. -/
def State.shape (s : State) (o : CopyOp) : List Nat :=
  (List.range 16).map fun i => leNat ((List.range 4).map fun j =>
    s.segRead o.core o.segs (512 * o.first + 4 * i + j))
/-- Bytes of a rank's contribution. -/
def shapeBytes (w : List Nat) : Nat :=
  w.getD 1 0 * ((RedFmt.ofCode (bits (w.getD 0 0) 11 8)).map RedFmt.bytes).getD 1
/-- Coordinates of a rank in the grid. -/
def coordsOf (gx gy r : Nat) : Nat × Nat × Nat := (r % gx, r / gx % gy, r / gx / gy)
/-- The ranks of the sub-group of a rank under RMASK, in position order (R262). -/
def subGroup (gx gy gz rmask r : Nat) : List Nat :=
  let c := coordsOf gx gy r
  (List.range (gx * gy * gz)).filter fun j =>
    let k := coordsOf gx gy j
    (bitOf rmask 0 || k.1 == c.1) && (bitOf rmask 1 || k.2.1 == c.2.1)
      && (bitOf rmask 2 || k.2.2 == c.2.2)
/-- The shape record's fields. -/
def shGrid (w : List Nat) : Nat × Nat × Nat :=
  (bits (w.getD 2 0) 7 0, bits (w.getD 2 0) 15 8, bits (w.getD 2 0) 23 16)
/-- The rank of a collective in its group, and the members of its sub-group in position order (R262). -/
def State.rankOf (s : State) (o : CopyOp) : Nat := o.group.findIdx (some · == s.ownVdn o.vd)
def State.subOf (s : State) (o : CopyOp) : List Nat :=
  let w := s.shape o
  let g := shGrid w
  (subGroup g.1 g.2.1 g.2.2 (bits (w.getD 4 0) 2 0) (s.rankOf o)).map fun r => o.group.getD r 0
/-- A member's work is on this device. -/
def State.memberHere (s : State) (o : CopyOp) (vdn : Nat) : Bool :=
  ((s.vdnEnt vdn).map fun e => e.st) == some 1 || s.ownVdn o.vd == some vdn
/-- The members of the sub-group on other devices that have still to read this rank's source. -/
def State.readsLeft (s : State) (o : CopyOp) : List Nat :=
  (s.subOf o).filter fun n => !s.memberHere o n && !o.readBy.contains n
/-- No read of this rank's source is left (R266): each matched operation of the sub-group on this device has read its
sources, and each member on another device has read this one. -/
def State.matesDone (s : State) (o : CopyOp) : Bool :=
  (s.readsLeft o).isEmpty && (s.subOf o).all fun n => match s.mate o n with
    | some e => (kget e.2.data 0).isSome || e.2.fail.isSome
    | none => true
/-- Where packets to the fabric switch of a lea die go (R265). -/
def switchDest (lea : Nat) : Nat := 2 ^ 20 + 16 + lea
/-- A granted reduction slot goes back to the switch when its reduction ends (R265). -/
def State.giveSlot (s : State) (o : CopyOp) : State :=
  match o.slot with
  | some part => s.packet (switchDest (portOf o.vd)) 27 [wd part]
  | none => s
/-- Another range of the operation's remnant is still open (R421). -/
def State.restOf (s : State) (o : CopyOp) : Bool :=
  o.rem != 0 && decide (1 < (s.copies.filter fun e => e.2.rem == o.rem && e.2.fold == o.fold).length)
/-- A collective's record stays for the operations of other members that are matched with it (R262). -/
def State.pastColl (s : State) (o : CopyOp) : State :=
  s.modVd o.vd fun d => { d with pastColls := d.pastColls ++ [CollRec.mk o.seq o.group (s.shape o)] }
/-- The end of an operation: a collective's chunk is back, and the notification is performed, by the last range of
a remnant (R251, R266, R421). -/
def State.copyEnd (s : State) (id : Nat) (o : CopyOp) : State :=
  let s := if o.kind = 5 then ((s.pastColl o).flipChunk o.core (segChunk o.segs o.first)).settleTry o.core else s
  let rest := s.restOf o
  let s := { s with copies := kdel s.copies id }.giveSlot o
  if rest then s else s.notify o.note o.naddr
/-- No write of the operation that was sent to a peer is left unacknowledged (R236, R441). -/
def CopyOp.acked (o : CopyOp) : Bool := o.owed.isEmpty && o.backs.isEmpty
/-- COPY_COMPLETE (R251): every chunk is back, the writes are performed, all in one step (log 70), and then, once every write sent to a peer
is acknowledged (R236, R441), the notification. An operation whose writes are performed has nothing more to do on its
stream. -/
def State.copyDone (s : State) (id : Nat) : State :=
  match kget s.copies id with
  | none => s
  | some o =>
      let ws := o.memWrites
      let ready := (s.copyRuns o || (o.wrote && o.phase == 1 && o.fail.isNone && o.moved.isNone)) && o.kind != 7 && (o.kind == 5 || (o.chunks.all fun ch =>
          !s.heldBy o.core id (segChunk o.segs ch)))
        && (o.kind != 5 || (kget o.data 0).isSome)
        && (o.kind != 5 || s.matesDone o)
        && (o.note == 0 || (s.performedBefore o.fold o.flock id && s.noteReady o.naddr))
      if !ready || (!s.restOf o && s.noteStruck o.note o.naddr) then s
      else if o.wrote then if o.acked then s.copyEnd id o else s
      else if ws.any fun w => (s.accErr o.paddock o.vd true w.1 w.2.length).isSome then s
      else
        let n := (ws.map fun w => w.2.length).foldl (· + ·) 0
        let o := { o with wrote := true, owed := o.owed ++ ws.flatMap fun w => s.peerSends o.paddock o.vd w.1 w.2 }
        let s := ws.foldl (fun s w => s.copyWrite o.keep o.paddock o.vd w.1 w.2) s
        let s := s.count o.paddock (dieOf o.core) 6 n
        if o.acked then s.copyEnd id o else { s with copies := kset s.copies id o }
def execCopyComplete (op : Nat) (s : State) : Host.Outcome State Fault Refusal := .next (s.copyDone op)

/-! ### Faults of operations (R254, R258, R332, R403) -/

/-- The accesses that a running operation has still to perform: write or read, address, length. -/
def State.copyPending (s : State) (id : Nat) (o : CopyOp) : List (Bool × Nat × Nat) :=
  if o.phase = 0 ∨ o.wrote then []
  else if o.kind = 0 ∨ o.kind = 3 then
    ((s.leftOf id o).flatMap o.chunkRows).filterMap fun p => p.1.map fun a => (false, a, p.2)
  else if o.kind = 7 then [(false, o.addr, 512 * o.count)]
  else if o.kind = 1 ∨ o.kind = 4 then
    (o.span.flatMap o.chunkRows).filterMap fun p => p.1.map fun a => (true, a, p.2)
  else if o.kind = 2 then [(true, o.addr, 512 * o.count)]
  else match kget o.data 0 with
    | some bs => (true, o.dst, bs.length) :: if s.matesDone o then [] else [(false, o.addr, shapeBytes (s.shape o))]
    | none => [(false, o.addr, shapeBytes (s.shape o))]
/-- A store or scatter still has to read a chunk that holds an uncorrectable error (R447): the memory address
that its first bytes go to; or nothing is left but a notification that would read one. -/
def State.chunkErr (s : State) (id : Nat) (o : CopyOp) : Option (Bool × AccErr) :=
  let e := fun va => some (false, ({ sub := 5, stage := 0, va := va, page := 0, len := 0 } : AccErr))
  match (if o.phase = 1 ∧ (o.kind = 1 ∨ o.kind = 4) then
      (s.leftOf id o).find? fun i => s.readsBad o.core o.segs (o.chunkReads i) else none) with
  | some i => e (((o.chunkRows i).findSome? Prod.fst).getD 0)
  | none => if (s.copyPending id o).isEmpty && o.phase == 1 && !s.restOf o && s.noteStruck o.note o.naddr then e 0 else none
/-- The first failure that the operation meets, and whether the access writes. -/
def State.copyErr (s : State) (id : Nat) (o : CopyOp) : Option (Bool × AccErr) :=
  ((s.copyPending id o).findSome? fun a =>
    (s.accErr o.paddock o.vd a.1 a.2.1 a.2.2).map fun e => (a.1, e)).or (s.chunkErr id o)
/-- Bytes of a chunk of which each is earlier or new, as free bits choose: a word with an uncorrectable error that keeps
an earlier byte keeps the error (R447). -/
def State.segMix (s : State) (core : Nat) (segs : List Nat) (a : Nat) (bs : List Byte) : State :=
  let old := (List.range bs.length).map fun j => s.segRead core segs (a + j)
  let kept := (mixed s.free id (old.map fun _ => 1) (old.map fun _ => 0)).mapIdx fun j b => if b = 1 then segPlace core segs (a + j) / 4 else 0
  let bad := s.upsets.filter fun e => kept.contains (e.1 / 4)
  let t := { s with free := s.free + bs.length / 64 + 1 }.segPut core segs a (mixed s.free id old bs)
  { t with upsets := bad.foldl (fun m e => kset m e.1 e.2) t.upsets }
/-- A chunk that a load or gather gives back before it has read all of it: each byte holds its earlier value, or
what the operation read for it (R254). -/
def State.partLoad (s : State) (o : CopyOp) (i : Nat) : State :=
  ((o.chunkRows i).foldl (fun (r : State × Nat) p =>
    let new : Option (List Byte × State) := match p.1 with
      | none => some (List.replicate p.2 0, r.1)
      | some a => if r.1.accHeld o.paddock o.vd false a p.2 then none
          else match r.1.copyRead o.keep o.paddock o.vd a p.2 with
            | .ok x => some x
            | .error _ => none
    (match new with
      | none => r.1
      | some (bs, t) =>
          (if p.1.isSome then t.count o.paddock (dieOf o.core) 5 p.2 else t).segMix o.core o.segs r.2 bs, r.2 + p.2))
    (s, 512 * (o.first + i))).1
/-- Another operation stalls the stream of an operation: it performs no access (R258). -/
def State.stalledByOther (s : State) (o : CopyOp) : Bool := o.phase != 2 && s.streamStalled o
/-- What an operation that stops before its end leaves in chunks and in memory (R254): of a store also the
chunks that it has not yet read and can read. Once its writes are performed, before it has started, or where another
operation stalls its stream, nothing more. -/
def State.leaveParts (s : State) (id : Nat) (o : CopyOp) : State :=
  if o.phase = 0 || o.wrote || s.stalledByOther o then s
  else if o.kind = 0 ∨ o.kind = 3 then (s.leftOf id o).foldl (fun s i => s.partLoad o i) s
  else
    let o := if o.kind = 1 ∨ o.kind = 4 then
        { o with data := ((s.leftOf id o).filter fun i => !s.readsBad o.core o.segs (o.chunkReads i)).foldl (fun m i =>
            kset m i ((List.range 512).map fun j => s.segRead o.core o.segs (512 * (o.first + i) + j))) o.data }
      else o
    if o.kind = 5 ∧ (kget o.data 0).isNone then s
    else o.memWrites.foldl (fun s w => s.partWrite o.keep o.paddock o.vd (dieOf o.core) w.1 w.2) s
/-- An operation fails (R254): its chunks return, its record is written (R402, R403), and the fault is
delivered. A failed staging copy ends its fold without issue (R302). -/
def State.copyFail (s : State) (id : Nat) (o : CopyOp) (sub va : Nat) : State :=
  let s := (s.leaveParts id o).giveSlot o
  let s := s.modCore o.core fun c => { c with own := c.own.filter fun e => e.2 != .copy id }
  let s := { s with
    copies := (kdel s.copies id).map fun (e : Nat × CopyOp) =>
      if o.rem != 0 && e.2.rem == o.rem && e.2.fold == o.fold then (e.1, { e.2 with note := 0 }) else e }
  let s := s.fault o.paddock o.drove
    (faultRec 1 13 sub o.paddock (vdField o.paddock o.vd)
      (match kget s.droves o.drove with
        | some d => d.id
        | none => o.drove) o.ix o.core (if o.kind = 7 then 0 else o.qn) o.kind o.flock o.pc va
      (s.die (dieOf o.core)).refs)
  if o.kind = 7 then
    ({ s with copies := s.copies.filter fun e => !(e.2.fold == o.fold && e.2.kind == 7) }).modFold
      o.fold fun f =>
        { f with failed := true, flocks := f.flocks.map fun (fl : Flock) => fl.exitLanes fl.live }
  else (s.deliver o.fold o.flock o.born cCopyfault).settleTry o.core
/-- The SUBs that a record of a failed copy may hold (R402). -/
def legalSub (n : Nat) : Bool := (1 ≤ n && n ≤ 8) || n == 10
/-- COPY_FAULT (R254): the operation is to fail with this SUB, or meets an access that fails with it
and is no translation fault. An access that its host port cannot deliver may carry any SUB (log 59). -/
def State.copyFaultNow (s : State) (id sub : Nat) : State :=
  match kget s.copies id with
  | none => s
  | some o =>
      match o.fail with
      | some f => if f = sub ∧ o.phase ≠ 3 then s.copyFail id o f ((o.fault.map fun x => x.2.2.1).getD 0) else s
      | none =>
          match s.copyErr id o with
          | some (wr, e) =>
              if e.stage = 0 ∧ legalSub sub ∧ (e.sub = sub ∨ e.sub = 16) ∧ s.copyRuns o then
                let t := s.walked o.paddock o.vd e.va wr
                (match s.route o.paddock o.vd e.va wr with
                  | .mem _ pa => if sub = 5 then t.yieldErrors pa e.len else t
                  | _ => t).copyFail id o sub e.va
              else s
          | none => s
def execCopyFault (op sub : Nat) (s : State) : Host.Outcome State Fault Refusal :=
  .next (s.copyFaultNow op sub)

/-- Fault service of the operation's paddock is host-assisted, as it stands when a fault is met (R329). -/
def State.faultAssist (s : State) (o : CopyOp) : Bool := s.mode o.paddock 4
/-- A guest fault record of the operation (R332). -/
def guestRec (s : State) (o : CopyOp) (wr : Bool) (e : AccErr) (ix : Nat) : List Word :=
  let fo := (kget s.folds o.fold).getD Fold.blank
  [wd ((if o.kind = 7 then 0 else o.qn) * 2 ^ 24 + o.kind * 2 ^ 21 + (if wr then 2 ^ 20 else 0)
      + e.sub * 2 ^ 16 + ix % 65536),
   wd (s.droveIdOf fo), wd o.ix, wd o.flock, wd o.pc, wd e.va, wd (e.va / 2 ^ 32 % 2 ^ 20)
   , wd e.page]
/-- The record is written to the virtual device's ring while fewer are outstanding than it holds, none with its
INDEX (log 92), and its host port is up (R450); with no ring the fault is aborted at once. -/
def State.postFault (s : State) (id : Nat) (o : CopyOp) (wr : Bool) (e : AccErr) : State :=
  let gfq := s.bar o.vd 0x18
  let n := s.bar o.vd 0x48
  let o := { o with phase := 2, assist := true, fault := some (e.sub, e.stage, e.va, e.page), fwr := wr }
  if gfq = 0 then { s with copies := kset s.copies id { o with fail := some 8 } }
  else if 2 ^ bits gfq 3 0 ≤ (s.vd o.vd).gfOut.length || (kget (s.vd o.vd).gfOut (n % 65536)).isSome
      || !s.fnUp o.vd then
    { s with copies := kset s.copies id o }
  else
    let s := s.putWords (ringAt o.vd gfq 32 n) (guestRec s o wr e n)
    let s := s.modVd o.vd fun d => { d with gfOut := kset d.gfOut (n % 65536) id }
    let s := { s with copies := kset s.copies id { o with posted := some (n % 65536) } }
    (s.setBar o.vd 0x48 ((n + 1) % 2 ^ 32)).msixRaise o.vd (bits (s.bar o.vd 0x50) 10 0)
/-- TRANSLATION_FAULT (R258): the stream stalls, or the operation is to fail, by mode and stage. A
stalled operation without a record is posted once a place is free (R332). -/
def State.transFault (s : State) (id : Nat) : State :=
  match kget s.copies id with
  | none => s
  | some o =>
      match o.phase, o.fault with
      | 2, some (sub, stage, va, page) =>
          if o.assist && o.posted.isNone && o.fail.isNone then
            s.postFault id o o.fwr { sub := sub, stage := stage, va := va, page := page, len := 0 }
          else s
      | _, _ => match s.copyErr id o with
      | none => s
      | some (wr, e) =>
          let assist := s.faultAssist o
          if o.paddock = 0 || o.fail.isSome || !(e.stage != 0 || (assist && e.sub == 6)) then s
          else if !s.copyRuns o then s
          else
            let s := (s.walked o.paddock o.vd e.va wr).count o.paddock (dieOf o.core) 9 1
            if assist then s.postFault id o wr e
            else if e.stage = 1 then
              { s with
                copies := kset s.copies id
                  { o with fail := some e.sub, fault := some (e.sub, e.stage, e.va, e.page) } }
            else
              { s with
                copies := kset s.copies id
                  { o with phase := 2, assist := false, fault := some (e.sub, e.stage, e.va, e.page) } }
def execTranslationFault (op : Nat) (s : State) : Host.Outcome State Fault Refusal :=
  .next (s.transFault op)
/-- An operation that stalls is replayed, or is to fail. -/
def State.answerFault (s : State) (id : Nat) (fail : Option Nat) : State :=
  match kget s.copies id with
  | some o =>
      if o.phase = 2 then
        { s with copies := kset s.copies id { o with phase := 1, posted := none, fail := fail } }
      else s
  | none => s
/-- STAGE2_RESOLVE (R258): in hardware mode the hypervisor complex has resolved a stage-2 fault, or
cannot. -/
def State.stage2Answer (s : State) (id : Nat) (fixed : Bool) : State :=
  match kget s.copies id with
  | some o =>
      if o.assist || s.standby == 1 then s
      else s.answerFault id (if fixed then none else o.fault.map fun x => x.1)
  | none => s
def execStage2Resolve (op : Nat) (fixed : Bool) (s : State) : Host.Outcome State Fault Refusal :=
  .next (s.stage2Answer op fixed)

/-! ### Staging copies (R302) -/

/-- STAGING_COPY: the region's bytes are loaded; the fold's lanes may issue once none is left. -/
def State.stage1 (s : State) (fold region : Nat) : State :=
  match (s.copies.filter fun e => e.2.fold == fold && e.2.kind == 7 && e.2.qn == region).head? with
  | none => s
  | some (id, o) =>
      if !s.copyRuns o then s
      else match s.copyRead o.keep o.paddock o.vd o.addr (512 * o.count) with
        | .error _ => s
        | .ok (bs, t) =>
            let t := (t.segPut o.core o.segs (512 * o.first) bs).count o.paddock (dieOf o.core) 5
              (512 * o.count)
            let t : State := ({ t with copies := kdel t.copies id }.modCore o.core fun c =>
              { c with own := c.own.filter fun e => e.2 != Holder.copy id }).settleTry o.core
            if t.copies.any fun e => e.2.fold == fold && e.2.kind == 7 then t
            else t.modFold fold fun f =>
              { f with status := if f.status = .staging then .resident else f.status }
def execStagingCopy (fold region : Nat) (s : State) : Host.Outcome State Fault Refusal :=
  .next (s.stage1 fold region)

/-! ### Collectives (R260 to R266) -/

/-- The rank that a shape record names. -/
def shRank (w : List Nat) : Nat :=
  let g := shGrid w
  bits (w.getD 3 0) 7 0 + g.1 * (bits (w.getD 3 0) 15 8 + g.2.1 * bits (w.getD 3 0) 23 16)
/-- The record breaks a rule of R261. `n` is the member count and `own` the rank's own place. -/
def shapeBad (w : List Nat) (n own : Nat) : Bool :=
  let w0 := w.getD 0 0
  let g := shGrid w
  let cop := bits w0 3 0
  let rop := bits w0 7 4
  let ef := bits w0 11 8
  let c := w.getD 1 0
  let m := (subGroup g.1 g.2.1 g.2.2 (bits (w.getD 4 0) 2 0) (shRank w)).length
  bits w0 15 12 != 0 || decide (5 ≤ ef) || decide (4 ≤ rop) || decide (5 ≤ cop) || c == 0
    || 2 ^ 24 ≤ w.getD 2 0 || 2 ^ 24 ≤ w.getD 3 0 || 8 ≤ w.getD 4 0 || 2 ^ 20 ≤ w.getD 6 0
    || (w.drop 7).any (· != 0) || (cop != 3 && bits w0 31 16 != 0)
    || g.1 == 0 || g.2.1 == 0 || g.2.2 == 0 || g.1 * g.2.1 * g.2.2 != n
    || g.1 ≤ bits (w.getD 3 0) 7 0 || g.2.1 ≤ bits (w.getD 3 0) 15 8
    || g.2.2 ≤ bits (w.getD 3 0) 23 16 || shRank w != own
    || (cop ≤ 1 && rop == 1 && decide (3 ≤ ef)) || (cop ≤ 1 && ef == 4) || (2 ≤ cop && rop != 0)
    || ((cop == 1 || cop == 4) && c % m != 0) || (cop == 3 && decide (m ≤ bits w0 31 16))
/-- Two matched records agree (R262). -/
def shapeMatch (a b : List Nat) : Bool :=
  a.getD 0 0 == b.getD 0 0 && a.getD 1 0 == b.getD 1 0 && a.getD 2 0 == b.getD 2 0
    && a.getD 4 0 == b.getD 4 0
/-- Element `i` of a contribution. -/
def elemOf (b : Nat) (x : List Byte) (i : Nat) : Nat := leNat ((x.drop (b * i)).take b)
/-- The destination bytes of the rank at position `q` (R263, R264). -/
def collResult (w : List Nat) (q : Nat) (src : List (List Byte)) : List Byte :=
  let w0 := w.getD 0 0
  let c := w.getD 1 0
  let t := (RedFmt.ofCode (bits w0 11 8)).getD .f32
  let b := t.bytes
  let rop := bits w0 7 4
  let n := src.length
  match bits w0 3 0 with
  | 0 => (List.range c).flatMap fun i => leBytes (reduce t rop (src.map fun x => elemOf b x i)) b
  | 1 => (List.range (c / n)).flatMap fun i =>
      leBytes (reduce t rop (src.map fun x => elemOf b x (q * (c / n) + i))) b
  | 2 => src.flatten
  | 3 => src.getD (bits w0 31 16) []
  | _ => src.flatMap fun x => (x.drop (b * (q * (c / n)))).take (b * (c / n))
/-- The record of a member's matched collective that has ended (R262). -/
def State.pastOf (s : State) (o : CopyOp) (vdn : Nat) : Option (List Nat) :=
  s.vds.findSome? fun e =>
    if s.ownVdn e.1 = some vdn then
      (e.2.pastColls.find? fun r => r.seq == o.seq && r.group == o.group).map CollRec.shape
    else none
/-- What the drover takes from the member at a position of the sub-group, its record and its contribution of `n`
bytes: from a matched operation on this device, through that operation's own streams while nothing stalls them (R258), or from what came from another
device. `none` while it is not there. A record that differs is enough, and so is that of a matched operation that
has ended. A member whose own reads fail ends, and the others, for which R266 states nothing, stay unfinished
(log 89). -/
def State.memberPart (s : State) (o : CopyOp) (vdn n : Nat) (came : List Byte) :
    Option (List Nat × List Byte × State) :=
  let words := fun (bs : List Byte) => (List.range 16).map fun j => leNat ((bs.drop (4 * j)).take 4)
  if s.memberHere o vdn then
    match s.mate o vdn with
    | some (_, m) =>
        let w := s.shape m
        if s.readsBad m.core m.segs [(512 * m.first, 64)] then none
        else if !shapeMatch (s.shape o) w then some (w, [], s)
        else if !s.copyRuns m || shapeBad w o.group.length (o.group.findIdx (· == vdn)) then none
        else match s.copyRead m.keep m.paddock m.vd m.addr n with
          | .ok (bs, t) => some (w, bs, t)
          | .error _ => none
    | none => match s.pastOf o vdn with
      | some w => if shapeMatch (s.shape o) w then none else some (w, [], s)
      | none => none
  else if came.length < 64 then none
  else if !shapeMatch (s.shape o) (words came) then some (words came, [], s)
  else if came.length = 64 + n then some (words came, came.drop 64, s)
  else none
/-- The records and contributions of the sub-group in position order. Every rank's source is read, and so can fault, a
broadcast's other than ROOT's too, which R263 does not use: the rule leaves that open (log 89). -/
def State.memberParts (s : State) (o : CopyOp) (n : Nat) :
    List (Nat × List Byte) → Option (List (List Nat × List Byte) × State)
  | [] => some ([], s)
  | (vdn, came) :: r => do
      let x ← s.memberPart o vdn n came
      let y ← State.memberParts x.2.2 o n r
      some ((x.1, x.2.1) :: y.1, y.2)
/-- A collective is to fail with SUB 7 for its record, which later matched ones still meet (R261, R262). -/
def State.failColl (s : State) (id : Nat) (o : CopyOp) : State :=
  { s with copies := kset s.copies id { o with fail := if o.fail.isSome then o.fail else some 7 } }.pastColl o
/-- Every matched operation of the sub-group on this device is to fail with SUB 7 (R262). -/
def State.failMates (s : State) (o : CopyOp) : State :=
  (s.subOf o).foldl (fun s n => match s.mate o n with
    | some (id, m) => s.failColl id m
    | none => s) s
/-- Reduction slots that a paddock holds through a lea die (R265). -/
def State.slotsHeld (s : State) (p lea : Nat) : Nat :=
  (s.copies.filter fun e => e.2.paddock == p && portOf e.2.vd == lea && e.2.slot.isSome).length
/-- At the start of a reducing collective (`cop` 0 or 1) the drover asks the switch for a slot of the paddock's
partition, while the paddock holds fewer than its SLOTS; the switch's answer is free (R265, log 17). -/
def State.askSlot (s : State) (o : CopyOp) (cop : Nat) : Option Nat × State :=
  let r := s.reg 0 o.paddock 0x0D (portOf o.vd)
  if 2 ≤ cop ∨ bits r 23 16 ≤ s.slotsHeld o.paddock (portOf o.vd) then (none, s)
  else
    let x := s.freeVal
    (if bitOf x.1.toNat 0 then some (bits r 15 0) else none
      , x.2.packet (switchDest (portOf o.vd)) 26 [wd (bits r 15 0)])
/-- COLLECTIVE_START (R261): the drover takes the shape record and the contributions of the sub-group and runs the
collective, whose group it read when it started. `peers` holds, by position, the records (64 bytes) and contributions
of ranks on other devices. -/
def State.collRun (s : State) (id : Nat) (peers : List (List Byte)) : State :=
  match kget s.copies id with
  | none => s
  | some o =>
      if o.kind != 5 || !s.copyRuns o || (kget o.data 0).isSome then s
      else
        let w := s.shape o
        if s.readsBad o.core o.segs [(512 * o.first, 64)] then
          { s with copies := kset s.copies id { o with fail := some 5 } }
        else if shapeBad w o.group.length (s.rankOf o) then s.failColl id o
        else
          let sub := s.subOf o
          match s.memberParts o (shapeBytes w) (sub.mapIdx fun i n => (n, peers.getD i [])) with
          | none => s
          | some (xs, t) =>
              if xs.any fun x => !shapeMatch w x.1 then s.failMates o
              else
                let r := (t.count o.paddock (dieOf o.core) 5 (shapeBytes w)).askSlot o (bits (w.getD 0 0) 3 0)
                { r.2 with
                  copies := kset r.2.copies id { o with
                    slot := r.1
                    dst := w.getD 6 0 * 2 ^ 32 + w.getD 5 0
                    data := kset o.data 0
                      (collResult w (sub.findIdx (some · == s.ownVdn o.vd)) (xs.map Prod.snd)) } }
def execCollectiveStart (op : Nat) (peers : List (List Byte)) (s : State) :
    Host.Outcome State Fault Refusal := .next (s.collRun op peers)

/-- A member on another device reads this rank's source: its record and contribution are sent there (R266). -/
def State.memberRead (s : State) (id vdn : Nat) : State :=
  match kget s.copies id with
  | none => s
  | some o =>
      let w := s.shape o
      if o.kind != 5 || !s.copyRuns o || !(s.readsLeft o).contains vdn || shapeBad w o.group.length (s.rankOf o) then s
      else match s.copyRead o.keep o.paddock o.vd o.addr (shapeBytes w) with
        | .error _ => s
        | .ok (bs, t) =>
            { t with copies := kset t.copies id { o with readBy := o.readBy ++ [vdn] } }.packet (s.deviceOf vdn) 28
              (wd vdn :: w.map wd ++ bytesWords bs)

/-! ### Answers of peers on other devices (R347, R441) -/

/-- The operation has packets on their way to another device, or accesses to it to perform. -/
def State.usesPeers (s : State) (id : Nat) (o : CopyOp) : Bool :=
  !o.owed.isEmpty || (s.copyPending id o).any fun a => (vaPieces a.2.1 a.2.2).any fun p =>
    match s.route o.paddock o.vd p.1 a.1 with
    | .peer .. => true
    | _ => false
/-- An element of a list that a free value chooses is taken out of it. -/
def State.takeOne {α : Type} (s : State) (l : List α) : List α × State :=
  let f := s.freeVal
  (l.eraseIdx (f.1.toNat % l.length), f.2)
/-- The device that performed a write of the operation acknowledges it (R441), or an access is refused and the
operation is to fail with SUB 4 (R347, R402). Which of the writes that were sent it is, is a free value. -/
def State.peerAnswer (s : State) (id : Nat) (refused : Bool) : State :=
  match kget s.copies id with
  | none => s
  | some o =>
      if !o.owed.isEmpty then
        let r := s.takeOne o.owed
        { r.2 with copies := kset r.2.copies id { o with owed := r.1, fail := if refused then some 4 else o.fail } }
      else if !s.copyRuns o || !s.usesPeers id o || !refused then s
      else { s with copies := kset s.copies id { o with fail := some 4 } }

end Sys2Proof.Machine
end

