-- ==== Sys2Proof/Machine/Micro.lean ====
section
/-! DEFINITION. Micro-operations of crooks (R372 to R375): their fields, their validation (R386), and
what each computes from the values of its micro-operands. -/
namespace Sys2Proof.Machine

/-- The fields of a micro-operation word (R372). -/
structure Micro where
  op : Nat
  d : Nat
  a : Nat
  b : Nat
  c : Nat
  rnd : Nat
  m : Bool
  res : Bool
  md : Nat
  imm : Nat
  deriving DecidableEq, Repr
def microOf (w : DWord) : Micro :=
  let n := w.toNat
  { op := bits n 63 57, d := bits n 56 52, a := bits n 51 47, b := bits n 46 42, c := bits n 41 37
    rnd := bits n 36 34, m := bitOf n 33, res := bitOf n 32, md := bits n 31 24, imm := bits n 23 0 }

/-- The operations that may stand before COMMIT (R374). -/
def microOp (op : Nat) : Bool :=
  op ≤ 0x21 || (0x2C ≤ op && op ≤ 0x3D) || op == 0x40 || op == 0x42 || op == 0x43 || op == 0x4A
    || op == 0x4E || op == 0x4F || op == 0x54
/-- Which of A, B, C a micro-operation reads; SEL reads C as a value. -/
def microReads (x : Micro) : Bool × Bool × Bool :=
  if x.op = 0x43 then (true, true, true)
  else if x.op = 0x54 then (true, true, false)
  else if x.op = 0x4E ∨ x.op = 0x4F then (true, true, false)
  else laneReads x.op x.rnd
/-- A micro-operand as a register of a lane instruction: codes 0 to 14 are v0 to v14. -/
def microCode (c : Nat) : Nat := if c = 0x1F then 0 else c
/-- The lane instruction that acts as the micro-operation does, over registers that stand for the
micro-operands (R373, R374). -/
def Micro.lane (x : Micro) (slot : Nat) : Option Instr :=
  let cmp := x.op == 0x4E || x.op == 0x4F
  buildLR
    { e := false, op := x.op, d := if cmp then 1 else x.d, a := microCode x.a, b := microCode x.b
      m := x.m, x := true, c := if x.op = 0x43 then 0 else microCode x.c, g := 0, gn := false
      rnd := x.rnd, slot := slot, hold := 0, md := x.md, lit := none }

/-! ### Validation (R386) -/

/-- A field holds NONE where it is not read, and otherwise a code of R373 that is not reserved. -/
def fieldOk (rd : Bool) (c : Nat) : Bool := if rd then decide (c ≤ 0x0E) else c == 0x1F
/-- The codes that a micro-operation reads. -/
def Micro.codes (x : Micro) : List Nat :=
  let u := microReads x
  (if u.1 then [x.a] else []) ++ (if u.2.1 then [x.b] else []) ++ (if u.2.2 then [x.c] else [])
/-- The lane entry accepts MOD, RND and M, and R374 allows them. -/
def Micro.modesOk (x : Micro) : Bool :=
  if x.op = 0x54 then
    (x.md == 0 || x.md == 3 || x.md == 4 || x.md == 5 || x.md == 6) && x.rnd == 0 && !x.m
  else match x.lane 0 with
    | some i =>
        i.wf && i.entryOk && (match i.toRaw with
          | some (.lr r) => r.md == x.md && r.rnd == x.rnd && r.m == x.m && r.op == x.op
          | _ => false)
          && !((x.op == 0x4E || x.op == 0x4F) && bits x.md 6 4 != 0)
    | none => false
/-- A micro-operation other than COMMIT is valid by itself. -/
def Micro.ok (x : Micro) : Bool :=
  let u := microReads x
  let i := x.codes.contains 0x0B
  let f := x.codes.contains 0x0C
  microOp x.op && !x.res && decide (x.d < 8) && fieldOk u.1 x.a && fieldOk u.2.1 x.b
    && fieldOk u.2.2 x.c && !(i && f) && (i || f || x.imm == 0) && x.modesOk
/-- COMMIT is valid by itself (R375). -/
def Micro.commitOk (x : Micro) : Bool :=
  let st := bitOf x.md 0
  let pw := bitOf x.md 3
  let imm := fun c => c == 0x0B || c == 0x0C
  x.op == 0x7F && !x.res && x.rnd == 0 && !x.m && bits x.md 7 4 == 0 && bits x.md 2 1 != 3
    && (st || bits x.md 2 1 == 0) && fieldOk true x.a && fieldOk st x.b && fieldOk st x.c
    && fieldOk pw x.d && !imm x.a && !(st && (imm x.b || imm x.c)) && !(pw && imm x.d)
    && (if pw then decide (1 ≤ x.imm ∧ x.imm ≤ 95) else x.imm == 0)
/-- The micro-operands of COMMIT that are read. -/
def Micro.commitCodes (x : Micro) : List Nat :=
  [x.a] ++ (if bitOf x.md 0 then [x.b, x.c] else []) ++ (if bitOf x.md 3 then [x.d] else [])
/-- Every temporary that is read has been written by an earlier micro-operation. -/
def tempsOk : List Micro → List Nat → Bool
  | [], _ => true
  | [c], done => c.commitCodes.all fun n => decide (8 ≤ n) || done.contains n
  | x :: r, done =>
      (x.codes.all fun n => decide (8 ≤ n) || done.contains n) && tempsOk r (x.d :: done)
/-- A sequence passes validation. -/
def sequenceOk (ws : List DWord) : Bool :=
  let xs := ws.map microOf
  match xs.reverse with
  | [] => false
  | c :: r =>
      c.commitOk && r.all Micro.ok && tempsOk xs []
        && decide ((r.filter fun x => x.op == 0x54 || x.op == 0x3D).length ≤ 4)

/-! ### What a micro-operation computes -/

/-- The result and flags of a lane instruction on the values of its registers. LDS, SEL and the
comparisons are given where the crook runs. -/
def laneFn (v : Nat → Word) (sl : DWord) (lut : List Byte) (i : Instr) : WF :=
  let g := fun (x : LSrc) => match x with
    | .v n => v n
    | _ => 0
  let o := fun (x : Option LSrc) => (x.map g).getD 0
  match i with
  | .iadd _ _ a b => (addW (g a) (g b), 0)
  | .isub _ _ a b => (subW (g a) (g b), 0)
  | .imul _ _ a b => (mulW (g a) (g b), 0)
  | .imulh _ u _ a b => (mulhW u (g a) (g b), 0)
  | .imad _ _ a b c => (madW (g a) (g b) (g c), 0)
  | .iadds _ u _ a b => (addsW u (g a) (g b), 0)
  | .isubs _ u _ a b => (subsW u (g a) (g b), 0)
  | .imin _ u _ a b => (minW u (g a) (g b), 0)
  | .imax _ u _ a b => (maxW u (g a) (g b), 0)
  | .iabs _ t _ a => (absW t (g a), 0)
  | .iabsd _ u _ a b => (absdW u (g a) (g b), 0)
  | .and _ _ a b => (g a &&& g b, 0)
  | .or _ _ a b => (g a ||| g b, 0)
  | .xor _ _ a b => (g a ^^^ g b, 0)
  | .andn _ _ a b => (g a &&& ~~~(g b), 0)
  | .lop3 _ t _ a b c => (lop3W t (g a) (g b) (g c), 0)
  | .shl _ w _ a b => (shlW w (g a) (g b), 0)
  | .shr _ w _ a b => (shrW w (g a) (g b), 0)
  | .sar _ w _ a b => (sarW w (g a) (g b), 0)
  | .rol _ _ a b => (rolW (g a) (g b), 0)
  | .popc _ _ a => (popcW (g a), 0)
  | .clz _ _ a => (clzW (g a), 0)
  | .brev _ _ a => (brevW (g a), 0)
  | .bfx _ x _ a b => (bfxW x (g a) (g b), 0)
  | .bfi _ _ a b c => (bfiW (g a) (g b) (g c), 0)
  | .lea _ n _ a b => (leaW n (g a) (g b), 0)
  | .idot4 _ ua ub t _ a b c => (idotW 4 8 ua ub t (g a) (g b) (g c), 0)
  | .idot2 _ ua ub t _ a b c => (idotW 2 16 ua ub t (g a) (g b) (g c), 0)
  | .fadd _ f r _ a b => faddW f r (g a) (g b)
  | .fsub _ f r _ a b => fsubW f r (g a) (g b)
  | .fmul _ f r _ a b => fmulW f r (g a) (g b)
  | .ffma _ f r _ a b c => ffmaW f r (g a) (g b) (g c)
  | .fmin _ f _ a b => fminW f (g a) (g b)
  | .fmax _ f _ a b => fmaxW f (g a) (g b)
  | .fscale _ f r _ a b => fscaleW f r (g a) (g b)
  | .ffrac _ f _ a => ffracW f (g a)
  | .frint _ f r _ a => frintW f r (g a)
  | .fclass _ _ a => (fclassW (g a), 0)
  | .fcopys _ n _ a b => (fcopysW n (g a) (g b), 0)
  | .hadd2 _ bf f r _ a b => hadd2W bf f r (g a) (g b)
  | .hmul2 _ bf f r _ a b => hmul2W bf f r (g a) (g b)
  | .hfma2 _ bf f r _ a b c => hfma2W bf f r (g a) (g b) (g c)
  | .hmin2 _ bf f _ a b => hminmax2W bf false f (g a) (g b)
  | .hmax2 _ bf f _ a b => hminmax2W bf true f (g a) (g b)
  | .fdot2 _ bf f r _ a b c => fdot2W bf f r (g a) (g b) (g c)
  | .fdot4 _ fa fb nc r _ a b c => fdot4W fa fb nc r (g a) (g b) (g c)
  | .cvt _ dst src u r _ _ a c => cvtW dst src u sl r (g a) (o c)
  | .cvt2 _ dst src u r _ _ a b c => cvt2W dst src u sl r (g a) (g b) (o c)
  | .cvt4 _ dst src u r _ _ a b c => cvt4W dst src u sl r (g a) (g b) (o c)
  | .unpk2 _ t hi _ a => unpk2W t hi (g a)
  | .unpk4 _ t ix _ a => unpk4W t ix (g a)
  | .xpand _ b hi _ _ a =>
      (xpandW (((if b then slotBfmt else slotAfmt) sl).getD .e2m1) hi lut (g a), 0)
  | .sround _ t r _ _ a c => sroundW t sl r (g a) (o c)
  | .mov _ _ a => (g a, 0)
  | .prmt _ _ a b c => (prmtW (g a) (g b) (g c), 0)
  | .icmp _ c _ _ a b => (if icondW c (g a) (g b) then 1 else 0, 0)
  | .fcmp _ c _ z _ a b =>
      let r := fcmpW c z (g a) (g b)
      (if r.1 then 1 else 0, r.2)
  | _ => (0, 0)
/-- The result of a micro-operation other than LDS and COMMIT. -/
def Micro.value (x : Micro) (v : Nat → Word) (slotNo : Nat) (sl : DWord) (lut : List Byte) : WF :=
  if x.op = 0x43 then (if (v x.c != 0) != bitOf x.md 0 then v x.a else v x.b, 0)
  else ((x.lane slotNo).map (laneFn v sl lut)).getD (0, 0)

end Sys2Proof.Machine
end

