-- ==== Sys2Proof/Machine/Crook.lean ====
section
/-! DEFINITION. The crook instruction (R377 to R383), privileged operations under way, and CRKLOAD
(R384 to R387). -/
namespace Sys2Proof.Machine

/-! ### Bindings (R369, R370) -/

/-- The active binding set of a paddock (R369). -/
def State.activeSet (s : State) (p : Nat) : Nat := if s.kind p = 2 then (s.pad p).running else 0
/-- Micro-operation words of a binding on a core. -/
def State.crookWords (s : State) (p core : Nat) (b : CrkBind) : List DWord :=
  let first := bits (s.reg 0 p 0x06 0) 10 0
  (List.range b.len).map fun i => kgetD (s.core core).store (first + b.first + i) 0

/-- The first word of a binding on a core that an error the code cannot repair has struck: its micro-operation fails
(R381, R447). -/
def State.crookStruck (s : State) (p core : Nat) (b : CrkBind) : Option Nat :=
  let first := bits (s.reg 0 p 0x06 0) 10 0
  (List.range b.len).find? fun i => (s.core core).storeBad.contains (first + b.first + i)

/-! ### One run of a sequence (R378) -/


/-- The value of a micro-operand in a lane (R373). -/
def microVal (r : CrkRun) (ops : Nat → List Word) (md imm : Nat) (l n : Nat) : Word :=
  if n < 8 then (r.h.getD l []).getD n 0
  else match n with
    | 8 => (ops l).getD 0 0
    | 9 => (ops l).getD 1 0
    | 10 => (ops l).getD 2 0
    | 11 => iword (sext imm 24)
    | 12 => wd (imm * 2 ^ 8)
    | 13 => wd md
    | 14 => wd l
    | _ => 0
/-- Results written into h(d) of the Active lanes, with their flags. -/
def CrkRun.put (r : CrkRun) (act : Mask) (d : Nat) (f : Nat → WF) (waves : Nat) : CrkRun :=
  { h := (List.range 32).map fun l =>
      if act.getLsbD l then (r.h.getD l []).set d (f l).1 else r.h.getD l []
    fl := (List.range 32).map fun l =>
      if act.getLsbD l then r.fl.getD l 0 ||| (f l).2 else r.fl.getD l 0
    waves := r.waves + waves
    watch := r.watch }
/-- The size of an LDS micro-operation. -/
def microSize (md : Nat) : MSize := (MSize.ofCode (md % 8)).getD .w
/-- The access of an LDS micro-operation (R375). -/
def ldsAcc (r : CrkRun) (ops : Nat → List Word) (md : Nat) (x : Micro) : Acc :=
  { align := elemBytes (microSize x.md), bytes := elemBytes (microSize x.md)
    at_ := fun l => [(microVal r ops md x.imm l x.a + microVal r ops md x.imm l x.b).toNat]
    data := fun _ => [], wide := false }
/-- The Active lanes of each wave of a crook's access: words of one bank take one wave each, in the order of the
lanes that first touch them (R199, R200, log 74). -/
def accParts (act : Mask) (x : Acc) : List Mask :=
  let word := fun l => (x.at_ l).headD 0 / 4
  let ws := ((lanesOf act).map word).eraseDups
  let wave := fun l => (ws.filter fun w => w % 32 == word l % 32).findIdx (· == word l)
  (List.range (accWaves act x false)).map fun i => maskOf fun l => act.getLsbD l && wave l == i
/-- The fault of one wave of an LDS (R381): `rest` are the lanes of it and of the waves after it. Its owner bits and
its words are those of its own cycle (R380). -/
def ldsTrap (s : State) (fo : Fold) (m rest : Mask) (acc : Acc) : Option (Nat × Mask) :=
  let ecc :=
    let bad := maskOf fun l => rest.getLsbD l && s.struck ((fo.place ((acc.at_ l).headD 0)).getD 0) acc.bytes
    if bad &&& m ≠ 0 then some (cEcc, bad) else none
  match s.spTrap fo rest acc with
  | some (c, bad) => if c = cSpowner ∧ bad &&& m = 0 then ecc else some (c, bad)
  | none => ecc
/-- One wave of an LDS micro-operation. -/
def ldsWave (s : State) (q : Iss) (m rest : Mask) (acc : Acc) (r : CrkRun) (x : Micro) : Except (Nat × Mask) CrkRun :=
  let fo := s.fo q
  match ldsTrap s fo m rest acc with
  | some t => .error t
  | none =>
      .ok { r.put m x.d (fun l =>
        (extendWord (microSize x.md) (s.rd ((fo.place ((acc.at_ l).headD 0)).getD 0) acc.bytes), 0))
        (accWaves m acc false) with watch := r.watch ||| watched (s.fl q) m acc 0 false }
/-- One micro-operation in every Active lane, or the fault that abandons the crook (R381). -/
def microStep (s : State) (q : Iss) (act : Mask) (ops : Nat → List Word) (md slotNo : Nat)
    (r : CrkRun) (x : Micro) : Except (Nat × Mask) CrkRun :=
  let v := microVal r ops md x.imm
  if x.op = 0x54 then ldsWave s q act act (ldsAcc r ops md x) r x
  else if x.op = 0x3D then
    let sl := s.slotVal q slotNo
    let fmt := (if bitOf x.md 0 then slotBfmt else slotAfmt) sl
    match fmt with
    | none => .error (cDecode, q.lanes)
    | some t =>
        if !xpandFmt t || (x.m && t.width == 6) then .error (cDecode, q.lanes)
        else match xpandTrap s q (bitOf x.md 0) slotNo with
          | some c => .error (c, if act = 0 then q.lanes else act)
          | none =>
              if t = .lut4 ∧ xpandStruck s q slotNo then .error (cEcc, act) else
              .ok { r.put act x.d (fun l => x.value (v l) slotNo sl (xpandLut s q slotNo))
                (if t = .lut4 then 1 else 0) with
                watch := r.watch ||| xpandWatch s q (bitOf x.md 0) slotNo act }
  else .ok (r.put act x.d (fun l => x.value (v l) slotNo (s.slotVal q slotNo) []) 0)
/-- The micro-operations before COMMIT. -/
def microRun (s : State) (q : Iss) (act : Mask) (ops : Nat → List Word) (md slotNo : Nat) :
    CrkRun → List Micro → Except (Nat × Mask) CrkRun
  | r, [] => .ok r
  | r, x :: xs => do
      let r ← microStep s q act ops md slotNo r x
      microRun s q act ops md slotNo r xs
/-- The store of COMMIT as an access. -/
def commitAcc (x : Micro) (v : Nat → Nat → Word) : Acc :=
  let n := if bits x.md 2 1 = 0 then 4 else if bits x.md 2 1 = 1 then 1 else 2
  { align := n, bytes := n, at_ := fun l => [(v l x.b).toNat], data := fun l => [v l x.c]
    wide := false }
/-- What abandons a crook at COMMIT (R378, R381): ARITH, the checks of its store, and a store to part of a word with an
uncorrectable error (R447). -/
def commitTrap (fo : Fold) (act : Mask) (acc : Acc) (st : Bool) (r : CrkRun) (q : Iss) (s : State) :
    Option (Nat × Mask) :=
  let fl := s.fl q
  let g := fun l => r.fl.getD l 0
  if trapLanes fl act g ≠ 0 then some (cArith, trapLanes fl act g)
  else if !st then none
  else match s.spTrap fo act acc with
    | some t => some t
    | none =>
        let bad := maskOf fun l => act.getLsbD l && acc.bytes != 4
          && s.struck ((fo.place ((acc.at_ l).headD 0)).getD 0) acc.bytes
        if bad ≠ 0 then some (cEcc, bad) else none
/-- The COMMIT store of some lanes, in ascending order: after a FENCE.REL.FOLD of its lane it is a release for
what the lane had issued before the fence (R227, R380). -/
def commitStore (fo : Fold) (m : Mask) (acc : Acc) (q : Iss) (s : State) : State :=
  (lanesOf m).foldl (fun s l =>
    let s := s.wr ((fo.place ((acc.at_ l).headD 0)).getD 0) acc.bytes ((acc.data l).headD 0).toNat
    match kget (s.fl q).fenced l with
    | some n => s.owe q.fold q.flock n l
    | none => s) s
/-- The last cycle of COMMIT (R378, R379): the push with its named write, the predicate write and the flags. -/
def commitEnd (act : Mask) (acc : Acc) (st : Bool) (d : LDst) (com : Micro) (v : Nat → Nat → Word) (r : CrkRun)
    (q : Iss) (s : State) : State × Mask :=
  let s := s.addWaves q (r.waves + if st then accWaves act acc false else 0)
  let s := s.setFl q fun fl => fl.writeQ d act fun l => v l com.a
  let s := if bitOf com.md 3 then
    s.setFl q fun fl => fl.setP (com.imm % 128) act fun l => v l com.d != 0 else s
  (s.flags q (orFlags act fun l => r.fl.getD l 0), r.watch)
/-- COMMIT of a crook whose micro-operations ran (R378): its checks, and its effect. -/
def crookCommit (fo : Fold) (act : Mask) (ops : Nat → List Word) (md : Nat) (d : LDst) (com : Micro)
    (r : CrkRun) (q : Iss) (s : State) : Eff :=
  let v := microVal r ops md 0
  let acc := commitAcc com v
  let st := bitOf com.md 0
  match commitTrap fo act acc st r q s with
  | some t => .error t
  | none => .ok (commitEnd act acc st d com v r q (if st then commitStore fo act acc q s else s))
/-- A crook before its first micro-operation. -/
def CrkRun.start : CrkRun :=
  { h := List.replicate 32 (List.replicate 8 0), fl := List.replicate 32 0, waves := 0, watch := 0 }
/-- A bound crook's effect (R378). Its LDS are lane accesses that WATCH sees; its COMMIT never raises it (R397). `bad`:
the micro-operation whose word cannot be read (R381). -/
def crookEff (h : LHdr) (ws : List DWord) (bad : Option Nat) (slotNo md : Nat) (d : LDst) (a b c : LSrc) (q : Iss)
    (s : State) : Eff :=
  let fl := s.fl q
  let fo := s.fo q
  let act := fl.active h q.lanes
  let xs := ws.map microOf
  let ops := fun l => [fl.src h.lit a l, fl.src h.lit b l, fl.src h.lit c l]
  let com := xs.getLastD (microOf 0)
  if act = 0 then .ok (s, 0)
  else
    match microRun s q act ops md slotNo CrkRun.start (xs.dropLast.take (bad.getD 16)) with
    | .error t => .error t
    | .ok r => if bad.isSome then .error (cEcc, act) else crookCommit fo act ops md d com r q s

/-! ### The instruction (R377, R378, R383) -/

/-- A store that the band makes now would be a release at FOLD scope, by a fence of its lane, that may not be performed
yet (R225, R227). -/
def State.fencedWaits (s : State) (q : Iss) : Bool :=
  (s.fl q).fenced.any fun f => q.lanes.getLsbD f.1
    && (!s.mayOwe q.fold q.flock f.2 f.1
      || s.owedWaits s.nextId (memOpOf q .store) ⟨false, true, false, true⟩)
/-- The sequence reads or writes the scratchpad while an earlier access of the band's lanes is held:
the crook's own accesses take their place behind it (R202, R380), so it does not begin yet. A store of COMMIT waits as
an STS does, so behind a release fence wider than FOLD too, and as a release after one at FOLD scope (R227). -/
def State.crookHeld (s : State) (q : Iss) (ws : List DWord) : Bool :=
  let xs := ws.map microOf
  let st := xs.any fun x => x.op == 0x7F && bitOf x.md 0
  ((st || xs.any fun x => x.op == 0x54 || x.op == 0x3D) && s.spHeld q.fold q.flock q.lanes st)
    || (st && s.fencedWaits q)
/-- The band meets an evicted binding: its lanes wait at the crook, and the first meeting on the die
is an event of code 7 (R383). -/
def State.crookWait (s : State) (q : Iss) (p key : Nat) (b : CrkBind) : State :=
  let s := s.waitAt q q.lanes fun _ => .crook key q.pc
  let met := 128 * dieOf q.core + key
  let s := if (s.pad p).crkMet.contains met then s
    else (s.modPad p fun x => { x with crkMet := x.crkMet ++ [met] }).event 7 (dieOf q.core)
      (vdField p (s.fo q).vd) p q.core [wd (key / 16 * 256 + key % 16), wd b.tag]
  (s.modBand q fun b => { b with ended := true }).endInstr q
/-- CROOKn (R378). -/
def execCrook (h : LHdr) (n slot mx : Nat) (d : LDst) (a b c : LSrc) (s : State) :
    Host.Outcome State Fault Refusal :=
  let i := Instr.crook h n slot mx d a b c
  let find := fun (s : State) (q : Iss) =>
    kget (s.pad (s.fo q).paddock).binds (16 * s.activeSet (s.fo q).paddock + n)
  let go := issue i (fun q s =>
    match find s q with
    | none => .error (cCrook, q.lanes)
    | some bd =>
        let bad := s.struckOf q i
        if unsettled s q i then .error (cUnsettled, q.lanes)
        else if bad ≠ 0 then .error (cEcc, bad)
        else crookEff h (s.crookWords (s.fo q).paddock q.core bd) (s.crookStruck (s.fo q).paddock q.core bd)
          (if h.x then slot else 0) (if h.x then mx else 0) d a b c q s) s
  match s.issuer with
  | none => go
  | some q =>
      match find s q with
      | none => go
      | some bd =>
          if (precheck s q i).isSome then go
          else if bd.len = 0 then
            .next (s.crookWait q (s.fo q).paddock (16 * s.activeSet (s.fo q).paddock + n) bd)
          else if !unsettled s q i && s.struckOf q i == 0 && s.crookHeld q (s.crookWords (s.fo q).paddock q.core bd) then
            .next s
          else go

/-! ### Privileged operations under way -/

/-- An operation that a flock issues. -/
def PrivOp.issuedBy (o : PrivOp) (q : Iss) (s : State) : PrivOp :=
  { o with
    fold := q.fold, flock := q.flock, core := q.core, pc := q.pc, drove := (s.fo q).drove
    did := s.droveIdOf (s.fo q), fix := (s.fo q).index, born := (s.fl q).born }
/-- A privileged operation joins its unit; `counts`: it counts as an outstanding deferred operation of
the flock until it completes. -/
def State.startPriv (s : State) (q : Iss) (counts : Bool) (o : PrivOp) : State :=
  let id := s.nextId
  let s := { s with privs := kset s.privs id (o.issuedBy q s) }
  if counts then s.putOp q { memOpOf q .priv with counts := true, uni := true }
  else { s with nextId := id + 1 }
/-- An operation with nothing in it. -/
def privOf (what elem : Nat) (args : List Nat) : PrivOp :=
  { what := what, elem := elem, reg := 0, ix := 0, val := 0, args := args, naddr := 0, note := 0
    fold := 0, flock := 0, core := 0, pool := 0, waiting := [] }
/-- An operation meets an uncorrectable error in the commons or a host window: as for an access under way, ECC is
delivered to the flock and a record of kind 5 is written (R404, R447). -/
def State.privError (s : State) (o : PrivOp) : State :=
  (s.deliver o.fold o.flock o.born cEcc).errorRecord (dieOf o.core) 0 127 o.drove o.did o.fix o.core o.flock o.pc
/-- An operation ends at its unit: its notification is performed as R251 gives, but for an add that meets an
uncorrectable error, and it no longer counts as outstanding. -/
def State.privEnd (s : State) (id : Nat) (o : PrivOp) : State :=
  let s := { s with privs := kdel s.privs id, ops := kdel s.ops id }
  if s.noteStruck o.note o.naddr then s.privError o else s.notify o.note o.naddr
/-- Its notification may be performed now: the flock's earlier accesses are performed. -/
def State.privReady (s : State) (id : Nat) (o : PrivOp) : Bool :=
  o.note == 0 || (s.performedBefore o.fold o.flock id && s.noteReady o.naddr)

/-! ### CRKLOAD (R384 to R387) -/

/-- The words of a source list at a commons-space address. -/
def State.crkWords (s : State) (fo : Fold) (a n : Nat) : List DWord :=
  (List.range n).map fun i => BitVec.ofNat 64 (s.rd (s.cmPlace fo (a + 8 * i)) 8)
/-- A check of R385 fails. `op`: 0 LOAD, 1 UNBIND, 2 EVICT. -/
def crkBad (s : State) (q : Iss) (op n a p0 p1 p2 p3 : Nat) : Bool :=
  let fo := s.fo q
  let p := bits a 4 0
  let set := bits a 10 8
  let len := bits p1 4 0
  let first := bits p1 26 16
  let b := kget (s.pad p).binds (16 * set + n)
  a != p + 256 * set || p == 0 || s.kind p == 0 || (s.kind p == 1 && set != 0)
    || (if op = 0 then
          p1 != len + 65536 * first || len == 0 || decide (16 < len)
            || decide (bits (s.reg 0 p 0x06 0) 27 16 < first + len)
            || p0 % 8 != 0 || selOf p0 != 0 || selOf (p0 + 8 * len - 1) != 0 || s.commonsBad fo p0 || s.commonsBad fo (p0 + 8 * len - 1)
            || (!s.struck (s.cmPlace fo p0) (8 * len) && !sequenceOk (s.crkWords fo p0 len))
        else p0 != 0 || p1 != 0 || p2 != 0)
    || s.noteBad fo p3
    || (op == 2 && (match b with
      | some x => x.len == 0
      | none => true))
    || (op == 1 && b.isNone)
/-- The issue of a CRKLOAD. The words are read in the cycle of issue (R385): one with an uncorrectable error raises
ECC (R404). -/
def crkEff (op n : Nat) (h : EHdr) (a : USrc) (q : Iss) (s : State) : Eff :=
  let fo := s.fo q
  let av := (s.uni q h.lit a).toNat
  let p0 := s.pnat q h.p0
  let p1 := s.pnat q h.p1
  let p2 := s.pnat q h.p2
  let p3 := s.pnat q h.p3
  if crkBad s q op n av p0 p1 p2 p3 then .error (cEngparam, q.lanes)
  else if op = 0 ∧ s.struck (s.cmPlace fo p0) (8 * bits p1 4 0) then .error (cEcc, q.lanes)
  else
    .ok (s.startPriv q true
      { privOf op (bits av 4 0) (if op = 0 then (s.crkWords fo p0 (bits p1 4 0)).map (·.toNat) else [])
        with
        reg := 16 * bits av 10 8 + n, ix := bits p1 26 16, val := p2
        naddr := s.notePlace fo p3, note := p3 % 4 }, 0)
/-- CRKLOAD.LOAD (R387). -/
def execCrkloadLoad (h : EHdr) (a : USrc) (crn : Nat) (s : State) : Host.Outcome State Fault Refusal :=
  issue (.crkloadLoad h a crn) (crkEff 0 crn h a) s
/-- CRKLOAD.UNBIND (R387). -/
def execCrkloadUnbind (h : EHdr) (a : USrc) (crn : Nat) (s : State) :
    Host.Outcome State Fault Refusal :=
  issue (.crkloadUnbind h a crn) (crkEff 1 crn h a) s
/-- CRKLOAD.EVICT (R387). -/
def execCrkloadEvict (h : EHdr) (a : USrc) (crn : Nat) (s : State) :
    Host.Outcome State Fault Refusal :=
  issue (.crkloadEvict h a crn) (crkEff 2 crn h a) s

/-- Lanes of a paddock that wait for a binding become ready (R383). -/
def State.crkRelease (s : State) (p key : Nat) : State :=
  { s with
    folds := s.folds.map fun e =>
      if e.2.paddock == p then
        (e.1, { e.2 with
          flocks := e.2.flocks.map fun fl => fl.release (maskOf fun l => match fl.wait l with
            | some (.crook k _) => k == key
            | _ => false) })
      else e }
/-- A binding set to EVICTED: it keeps its SRC; its slots are free. -/
def State.crkEvict (s : State) (p key : Nat) : State :=
  s.modPad p fun x =>
    { x with
      binds := kmod x.binds key fun b => { b with first := 0, len := 0 }
      crkMet := x.crkMet.filter fun m => m % 128 != key }
/-- The slots of two sequences overlap. -/
def slotsMeet (a n b m : Nat) : Bool := decide (a < b + m) && decide (b < a + n)
/-- Words that replace struck ones in consecutive slots of a crook store (R447). -/
def storeHeal (m : List Nat) (a n : Nat) : List Nat := m.filter fun x => decide (x < a) || decide (a + n ≤ x)
/-- Words written to consecutive slots of a crook store. -/
def storePut (m : SMap DWord) (a : Nat) : List Nat → SMap DWord
  | [] => m
  | w :: ws => storePut (kset m a (BitVec.ofNat 64 w)) (a + 1) ws
/-- The cores of a paddock, a removed core that still runs folds of it included (R370). -/
def State.padCores (s : State) (p : Nat) : List Nat :=
  (List.range 640).filter fun c => s.holdsCore p c || (s.residents c).any fun e => e.2.paddock == p
/-- The store of every core of a paddock changed (R370). -/
def State.modStores (s : State) (p a : Nat) (ws : List Nat) : State :=
  (s.padCores p).foldl
    (fun s c => s.modCore c fun k =>
      { k with store := storePut k.store a ws, storeBad := storeHeal k.storeBad a ws.length }) s
/-- A sequence is installed on every core of a paddock and bound (R387); nothing is bound where the region has
become too small for it meanwhile (R370, log 64). A paddock without a core has no store to write and binds nothing, as
the sets of its first core then are EMPTY (R370). -/
def State.crkInstall (s : State) (p key first tag : Nat) (ws : List Nat) : State :=
  if decide (bits (s.reg 0 p 0x06 0) 27 16 < first + ws.length) || (s.padCores p).isEmpty then s else
  let base := bits (s.reg 0 p 0x06 0) 10 0
  let s := s.modStores p (base + first) ws
  let hit := ((s.pad p).binds.filter fun e => e.1 != key && e.2.len != 0
    && slotsMeet e.2.first e.2.len first ws.length).map Prod.fst
  let s := hit.foldl (fun s k => s.crkEvict p k) s
  (s.modPad p fun x =>
    { x with
      binds := kset x.binds key { first := first, len := ws.length, tag := tag }
      crkMet := x.crkMet.filter fun m => m % 128 != key }).crkRelease p key
/-- The crooks that run wave by wave, each with its core and turn. -/
def State.crooks (s : State) : List (Nat × Turn) :=
  s.cores.flatMap fun e => ([e.2.st0.turn, e.2.st1.turn].filterMap id).filterMap fun t =>
    if t.run.isSome then some (e.1, t) else none
/-- A crook of a paddock is executing (R387). -/
def State.crookRuns (s : State) (p : Nat) : Bool :=
  s.crooks.any fun e => (kget s.folds e.2.fold).any fun f => f.paddock == p
/-- The effect of a CRKLOAD (R387): 0 LOAD, 1 UNBIND, 2 EVICT. -/
def State.crkAct (s : State) (o : PrivOp) : State :=
  if o.what = 0 then s.crkInstall o.elem o.reg o.ix o.val o.args
  else if o.what = 1 then s.modPad o.elem fun x => { x with binds := kdel x.binds o.reg }
  else s.crkEvict o.elem o.reg

end Sys2Proof.Machine
end

