-- ==== Sys2Proof/Machine/Stop.lean ====
section
/-! DEFINITION. Bringing a fold to rest (R413 to R418): stop requests, point saves and
instruction-boundary saves, the cut of copies, forced resets, and the restore of a stopped fold
(R317, R420 to R422). -/
namespace Sys2Proof.Machine

/-! ### At rest (R413) -/

/-- Where a lane waits with a live map. -/
def Wait.point : Wait → Option Nat
  | .bar _ pc _ | .acquire pc _ | .cwait _ pc _ => some pc
  | _ => none
/-- Every non-exited lane waits at an instruction that carries a live map. -/
def Flock.atRest (fl : Flock) : Bool :=
  (lanesOf fl.live).all fun l => ((fl.wait l).bind Wait.point).isSome
/-- Two live maps together. -/
def LiveMap.union (a b : LiveMap) : LiveMap :=
  { v := Nat.lor a.v b.v, p := Nat.lor a.p b.p, s := Nat.lor a.s b.s, k := Nat.lor a.k b.k
    acc := Nat.lor a.acc b.acc, chunks := a.chunks ++ b.chunks }
def LiveMap.none : LiveMap := { v := 0, p := 0, s := 0, k := 0, acc := 0, chunks := [] }
/-- The union of the live maps of the points where the lanes of a flock wait (R414). -/
def Flock.restMap (fl : Flock) (o : CodeObj) : LiveMap :=
  (lanesOf fl.live).foldl (fun m l =>
    match ((fl.wait l).bind Wait.point).bind o.pointAt with
    | some p => m.union p.live
    | none => m) LiveMap.none
/-- A flock is at the end of its turn, and every deferred operation of it has returned (R416). -/
def State.returned (s : State) (fid : Nat) (fo : Fold) (fl : Flock) : Bool :=
  !s.inTurn fo.core fid fl.ix && s.ops.all fun e => e.2.fold != fid || e.2.flock != fl.ix || !e.2.counts
/-- Nothing keeps a flock from being saved (R416): its accesses and fences are performed too, so that what it does
after a restore comes after them (R227, R229, log 90). -/
def State.savable (s : State) (fid : Nat) (fo : Fold) (fl : Flock) : Bool :=
  fl.saved == 0 && fl.live != 0 && s.returned fid fo fl
    && s.ops.all fun e => e.2.fold != fid || e.2.flock != fl.ix || e.2.todo.isEmpty
/-- A saved flock: what no save keeps is 0. -/
def Flock.keepSaved (fl : Flock) (kind : Nat) : Flock :=
  { fl with
    saved := kind, pendV := 0, pendS := 0, tpc := 0, tlanes := 0, rettA := 0, rettSkip := false
    cause := 0, perf := 0, parked := false, fenced := [] }
/-- A point save of a flock (R414). -/
def Flock.pointSave (fl : Flock) (o : CodeObj) : Flock :=
  (fl.keepLive (fl.restMap o)).keepSaved 1
/-- An instruction-boundary save (R416): lanes at a JOIN or an evicted crook stand there without
waiting (R420). -/
def Flock.boundarySave (fl : Flock) : Flock :=
  (fl.setWait (maskOf fun l => match fl.wait l with
    | some (.join ..) | some (.crook ..) | some (.trywait ..) => true
    | _ => false) fun _ => none).keepSaved 2

/-! ### The request and its deadlines (R413, R415, R416) -/

/-- Why a fold is to stop: its paddock is held or its slice ends, its core has left the paddock, or
its virtual device is frozen. -/
def State.stopDue (s : State) (fo : Fold) : Bool :=
  let p := s.pad fo.paddock
  p.held || p.switching || !s.holdsCore fo.paddock fo.core
    || (fo.paddock != 0 && (s.vd fo.vd).frozen)
/-- On a core now. -/
def Fold.onCore (fo : Fold) : Bool := fo.status == .resident || fo.status == .staging
/-- STOP_REQUEST (R413): from now on no phase of the fold completes, and its TRYWAITs end. -/
def State.requestStop (s : State) (fid : Nat) : State :=
  match kget s.folds fid with
  | none => s
  | some fo =>
      if !fo.onCore || fo.stopWanted != 0 || !s.stopDue fo then s
      else
        let t := (s.die (dieOf fo.core)).refs
        let d := s.reg 0 fo.paddock 0x0C 0
        let s := s.modFold fid fun f =>
          { f with
            stopWanted := 1, stopT1 := t + 1000 * bits d 15 0
            stopT2 := t + 1000 * (bits d 15 0 + bits d 31 16) }
        s.stopTry fid
def execStopRequest (fold : Nat) (s : State) : Host.Outcome State Fault Refusal :=
  .next (s.requestStop fold)

/-- A row cannot be written now: it faults, a stop of its peer holds it, or another operation stalls the stream (R258,
R416, R438). -/
def State.rowStuck (s : State) (o : CopyOp) (a n : Nat) : Bool :=
  (s.accErr o.paddock o.vd true a n).isSome || s.accHeld o.paddock o.vd true a n || s.stalledByOther o
/-- The chunks that a store has read and of which some row cannot be written now, by index in the extent. -/
def State.stuckChunks (s : State) (o : CopyOp) : List Nat :=
  o.span.filter fun i => (kget o.data i).isSome && (o.chunkRows i).any fun p => match p.1 with
    | some a => s.rowStuck o a p.2
    | none => false
/-- Rows that a store has read are written at a cut and counted (R368, R416), and the packets that this sends to peers are
owed (R441). A row that cannot be written now is not performed, and the bytes of its chunk stay with the operation. -/
def State.flushRows (s : State) (o : CopyOp) : State × CopyOp :=
  let ws := o.memWrites.filter fun w => !s.rowStuck o w.1 w.2.length
  let n := (ws.map fun w => w.2.length).foldl (· + ·) 0
  let sent := ws.flatMap fun w => s.peerSends o.paddock o.vd w.1 w.2
  ((ws.foldl (fun s w => s.copyWrite o.keep o.paddock o.vd w.1 w.2) s).count o.paddock (dieOf o.core) 6 n
    , { o with data := o.data.filter fun e => (s.stuckChunks o).contains e.1, owed := o.owed ++ sent })
/-- Nothing of a started operation is left to be cut: every chunk of it is back and every row that it has read can be
written, so that it only has to complete, or its writes are performed (log 60). -/
def State.uncut (s : State) (id : Nat) (o : CopyOp) : Bool :=
  (o.kind != 2 && o.kind != 7 && (s.leftOf id o).isEmpty && (s.stuckChunks o).isEmpty) || o.wrote
/-- A started operation is cut (R416): the chunks that it has not returned are its remnant, with bytes that it has
read in them or not. A fill and a staging copy are remnants as a whole. One with nothing left but to write its rows
writes them, and has only to complete. -/
def State.cutCopy (s : State) (id : Nat) : State :=
  match kget s.copies id with
  | none => s
  | some o =>
      if o.phase = 0 ∨ o.phase = 3 ∨ o.kind = 5 then s
      else if s.uncut id o then
        if !o.wrote then
          let r := s.flushRows o
          { r.1 with
            copies := kset r.1.copies id
              { r.2 with phase := 1, fault := none, posted := none, wrote := true } }
        else s
      else
        let r := if o.kind = 1 ∨ o.kind = 4 then s.flushRows o
          else if o.kind = 0 ∨ o.kind = 3 then (s.leaveParts id o, { o with data := [] })
          else if o.kind = 7 then (s.ownChunks id o, o) else (s, o)
        { r.1 with
          copies := kset r.1.copies id
            { r.2 with
              phase := 3, idx := [], fault := none, posted := none, fail := none
              moved := if o.backs.isEmpty then none else o.moved } }
/-- Operations of a fold. -/
def State.copiesOf (s : State) (fid : Nat) : List (Nat × CopyOp) :=
  s.copies.filter fun e => e.2.fold == fid
/-- DEADLINE_T1 (R416): the rest deadline of folds of a paddock has passed. -/
def State.restDeadline (s : State) (p : Nat) : State :=
  (s.folds.filter fun e => e.2.paddock == p && e.2.onCore && e.2.stopWanted == 1
      && decide (e.2.stopT1 ≤ (s.die (dieOf e.2.core)).refs)).foldl (fun s e =>
    ((s.copiesOf e.1).foldl (fun s c => s.cutCopy c.1) s).modFold e.1 fun f =>
      { f with stopWanted := 2 }) s
def execDeadlineT1 (paddock : Nat) (s : State) : Host.Outcome State Fault Refusal :=
  .next (s.restDeadline paddock)

/-! ### Leaving a core -/

/-- A fold's slots, registers and segments are released, to be cleared in the background (R303), and
its engine-owned chunks and accumulator set are its own no more. -/
def State.leaveCore (s : State) (fid : Nat) : State :=
  match kget s.folds fid with
  | none => s
  | some fo =>
      let regs := (s.budget fo).regs
      let s := (List.range fo.flocks.length).foldl (fun s k =>
        if s.hasSlot fid k fo then s.dropFlock fo.core (k % 2) ((fo.flocks[k]?.getD Flock.empty).slot) regs
        else s) s
      s.modCore fo.core fun c =>
        { c with
          dirtySegs := c.dirtySegs ++ fo.segs
          own := c.own.filter fun e => !fo.segs.contains (e.1 / 64)
          hold := c.hold.filter fun e => !fo.segs.contains (e.1 / 64)
          mq := c.mq.filter fun m => m.fold != fid
          tiles := if c.accFold = some fid then [] else c.tiles
          accFold := if c.accFold = some fid then none else c.accFold }
/-- No matrix command of the fold is left, and none holds a chunk of it (R172). -/
def State.matrixQuiet (s : State) (fid : Nat) (fo : Fold) : Bool :=
  ((s.core fo.core).mq.all fun m => m.fold != fid)
    && (s.core fo.core).own.all fun e => e.2 != .matrix || !fo.segs.contains (e.1 / 64)
/-- The fold's logical chunks that are engine-owned, with the operation that holds each. -/
def State.ownedChunks (s : State) (fo : Fold) : SMap Nat :=
  (List.range (64 * fo.segs.length)).filterMap fun ch =>
    match kget (s.core fo.core).own (fo.physChunk ch) with
    | some (.copy id) => some (ch, id)
    | _ => none
/-- The index chunks that remaining rows of a remnant still need (R421). -/
def State.indexNeeded (s : State) (id : Nat) (o : CopyOp) : List Nat :=
  if !o.indexed then []
  else
    let left := s.leftOf id o
    (List.range (indexChunks o.rows)).filterMap fun i =>
      if left.any fun c => decide (512 * c / o.rowlen < 128 * (i + 1))
          && decide (128 * i ≤ (512 * c + 511) / o.rowlen) then some (o.ichunk + i) else none
/-- The chunks that stay engine-owned in a save, with the operation that holds each (R416, R421). -/
def State.keptOwn (s : State) (fid : Nat) (fo : Fold) : SMap Nat :=
  (s.copiesOf fid).foldl (fun m e =>
    (s.indexNeeded e.1 e.2).foldl (fun m ch =>
      if (kget m ch).isSome then m else kset m ch e.1) m) (s.ownedChunks fo)
/-- Every flock of the fold is saved or has ended. -/
def Fold.allSaved (fo : Fold) : Bool := fo.flocks.all fun fl => fl.saved != 0 || fl.live == 0
/-- Every operation of the fold is unstarted or cut. -/
def State.copiesStill (s : State) (fid : Nat) : Bool :=
  (s.copiesOf fid).all fun e => e.2.phase == 0 || e.2.phase == 3
/-- The number of the operation that stands for a remnant's ranges: the lowest of those left. -/
def State.repOf (s : State) (id : Nat) (o : CopyOp) : Nat :=
  if o.rem = 0 then id
  else (((s.copiesOf o.fold).filter fun e => e.2.rem == o.rem).map Prod.fst).headD id
/-- Every operation of a fold is a remnant, and the ranges of one remnant are one again (R421). -/
def State.allRemnants (s : State) (fid : Nat) : State :=
  { s with
    copies := s.copies.filterMap fun e =>
      if e.2.fold != fid then some e
      else if s.repOf e.1 e.2 != e.1 then none
      else
        let more := if e.2.rem = 0 then [] else
          ((s.copiesOf fid).filter fun x => x.2.rem == e.2.rem && x.1 != e.1).map Prod.snd
        some (e.1, { e.2 with
          phase := 3, part := none, rem := 0
          data := more.foldl (fun m x => x.data.foldl (fun m d => kset m d.1 d.2) m) e.2.data
          owed := e.2.owed ++ more.flatMap CopyOp.owed, backs := e.2.backs ++ more.flatMap CopyOp.backs }) }
/-- The stop of a fold is complete (R414, R416, R418): what its saves keep is kept, and it leaves its
core. Unlisted tiles and chunks are 0 after the restore (R316). -/
def State.finishStop (s : State) (fid : Nat) (status : FoldStatus) : State :=
  match kget s.folds fid with
  | none => s
  | some fo =>
      if !fo.onCore || !fo.allSaved || !s.matrixQuiet fid fo || !s.copiesStill fid
          || s.ops.any (fun e => e.2.fold == fid && !e.2.todo.isEmpty) then s
      else
        let o := s.objOf fo
        let whole := fo.flocks.any fun fl => fl.saved == 2
        let lm := fo.flocks.foldl (fun m fl => m.union (fl.restMap o)) LiveMap.none
        let own := (s.keptOwn fid fo).map fun e => (e.1, match kget s.copies e.2 with
          | some o => s.repOf e.2 o
          | none => e.2)
        let keep := (List.range (64 * fo.segs.length)).filter fun ch =>
          whole || (kget own ch).isSome || lm.chunks.any fun r => r.1 ≤ ch && ch < r.1 + r.2
        let data := keep.map fun ch =>
          (ch, (List.range 512).map fun j => s.segRead fo.core fo.segs (512 * ch + j))
        let c := s.core fo.core
        let kept := fun n => c.accFold == some fid && (whole || bitOf lm.acc n)
        let tiles := c.tiles.filter fun t => kept t.1
        let words := s.upsets.filterMap fun e => (relOf fo.core fo.segs e.1).bind fun x =>
          if keep.contains (x / 512) then some (x / 512, x % 512) else none
        let s := if words.isEmpty && !(c.tileBad.any fun t => kept t.1) then s
          else s.errorRecord (dieOf fo.core) fo.paddock fo.vd fo.drove (s.droveIdOf fo) fo.index fo.core 0 0
        let s := s.leaveCore fid
        let s := s.allRemnants fid
        let n := s.nextId
        { (s.modFold fid fun f =>
            { f with
              status := status, stopWanted := 0, stopSeq := n, ipoint := whole, segs := []
              savedTiles := tiles, savedChunks := data, savedOwn := own
              badTiles := c.tileBad.filter fun t => kept t.1, badWords := words }) with
          nextId := n + 1 }
/-- A flock is saved, and the stop completes if it can. -/
def State.saveFlock (s : State) (fid : Nat) (pick : Flock → Bool) (g : Flock → Flock) : State :=
  match kget s.folds fid with
  | none => s
  | some fo =>
      match fo.flocks.find? fun fl => s.savable fid fo fl && pick fl with
      | some fl => (s.modFlock fid fl.ix g).finishStop fid .stopped
      | none => s.finishStop fid .stopped
/-- POINT_SAVE (R414): a flock at rest of a fold under a stop request. -/
def State.pointStop (s : State) (fid : Nat) : State :=
  match kget s.folds fid with
  | none => s
  | some fo =>
      if !fo.onCore || fo.stopWanted == 0 then s
      else s.saveFlock fid (fun fl => fl.atRest && !fl.handler) fun fl => fl.pointSave (s.objOf fo)
def execPointSave (fold : Nat) (s : State) : Host.Outcome State Fault Refusal :=
  .next (s.pointStop fold)
/-- Some lanes wait at an evicted crook, and every other non-exited lane waits at an instruction with a live map or at
a JOIN: such a flock is saved without waiting for T1 (R383). -/
def Flock.atCrook (fl : Flock) : Bool :=
  (lanesOf fl.live).all (fun l => match fl.wait l with
    | some (.crook ..) | some (.join ..) => true
    | some w => w.point.isSome
    | none => false)
  && (lanesOf fl.live).any fun l => match fl.wait l with
    | some (.crook ..) => true
    | _ => false
/-- INSTRUCTION_BOUNDARY_SAVE (R416): after T1, or at once where its lanes wait at an evicted crook (R383),
a flock that is neither at rest nor in handler mode. -/
def State.boundaryStop (s : State) (fid : Nat) : State :=
  match kget s.folds fid with
  | none => s
  | some fo =>
      if !fo.onCore || fo.stopWanted == 0 then s
      else s.saveFlock fid (fun fl => !fl.atRest && !fl.handler && (fo.stopWanted == 2 || fl.atCrook))
        Flock.boundarySave
def execInstructionBoundarySave (fold : Nat) (s : State) : Host.Outcome State Fault Refusal :=
  .next (s.boundaryStop fold)

/-! ### Stopping for children (R295) -/

/-- CWAIT of some lane still waits for a child that has not retired. -/
def State.kidsLeft (s : State) (kids : List Nat) : Bool :=
  kids.any fun k => (kget s.launches k).isSome || (match kget s.droves k with
    | some d => !d.retired
    | none => false)
/-- Every non-exited lane waits at a CWAIT, or at a barrier whose phase cannot complete before one. -/
def State.waitsForKids (s : State) (fo : Fold) : Bool :=
  let ws : List (Option Wait) := fo.flocks.flatMap fun fl => (lanesOf fl.live).map fl.wait
  ws.all (fun w => match w with
    | some (.cwait kids _ _) => s.kidsLeft kids
    | some (.bar b _ _) => !fo.phaseDone b
    | _ => false)
    && ws.any fun w => match w with
      | some (.cwait ..) => true
      | _ => false
/-- CHILD_STOP (R295): every flock is point-saved at once, and the fold leaves its core. -/
def State.childStop (s : State) (fid : Nat) : State :=
  match kget s.folds fid with
  | none => s
  | some fo =>
      if fo.status == .resident && fo.stopWanted == 0 && s.waitsForKids fo
          && (fo.flocks.all fun fl => fl.atRest && !fl.handler && (fl.live == 0 || s.savable fid fo fl))
          && s.matrixQuiet fid fo && s.copiesStill fid then
        (s.modFold fid fun f =>
          { f with flocks := f.flocks.map fun fl =>
              if fl.live = 0 then fl else fl.pointSave (s.objOf fo) }).finishStop fid .stoppedChild
      else s
def execChildStop (fold : Nat) (s : State) : Host.Outcome State Fault Refusal :=
  .next (s.childStop fold)

/-! ### Forced reset (R417) -/

/-- A fold is reset: one record of kind 4, its copies are aborted without notification, its results
are discarded, and every lane exits. Its matrix commands run to their end (R172). -/
def State.resetFold (s : State) (fid : Nat) : State :=
  match kget s.folds fid with
  | none => s
  | some fo =>
      let k := if fo.flocks.any fun fl => fl.live != 0 && fl.saved == 0 then
          fo.flocks.findIdx fun fl => fl.live != 0 && fl.saved == 0
        else fo.flocks.findIdx fun fl => fl.live != 0
      let fl := fo.flocks.getD k Flock.empty
      let s := s.fault fo.paddock fo.drove
        (faultRec 4 31 0 fo.paddock (vdField fo.paddock fo.vd) (s.droveIdOf fo) fo.index fo.core 0 0
          (k % 16) (fl.pc ((lanesOf fl.live).headD 0)) 0 (s.die (dieOf fo.core)).refs)
      let ids := (s.copiesOf fid).map Prod.fst
      let s := (s.copiesOf fid).foldl (fun s e => (s.leaveParts e.1 e.2).giveSlot e.2) s
      let s := ids.foldl (fun s id => s.modCore fo.core fun c =>
        { c with own := c.own.filter fun e => e.2 != .copy id }) s
      let s := s.modCore fo.core fun c =>
        { c with
          st0 := { c.st0 with turn := c.st0.turn.filter fun t => t.fold != fid }
          st1 := { c.st1 with turn := c.st1.turn.filter fun t => t.fold != fid } }
      let s := { s with
        copies := s.copies.filter fun e => e.2.fold != fid
        launches := s.launches.filter fun e => e.2.fold != fid
        ops := s.ops.filter fun e => e.2.fold != fid || (!e.2.sp && e.2.writes) }
      s.modFold fid fun f =>
        { f with
          failed := true, stopWanted := 0
          flocks := f.flocks.map fun fl =>
            { fl.exitLanes fl.live with handler := false, parked := false, pendV := 0, pendS := 0 } }
/-- Every flock of the fold can be saved now, and its engines are at rest: it is never reset (R417). -/
def State.quiesced (s : State) (fid : Nat) (fo : Fold) : Bool :=
  (fo.flocks.all fun fl => fl.saved != 0 || fl.live == 0 || (s.returned fid fo fl && !fl.handler))
    && s.matrixQuiet fid fo && s.copiesStill fid
/-- FORCED_RESET (R417): folds of a paddock that have not come to rest by T1 + T2. -/
def State.forceReset (s : State) (p : Nat) : State :=
  (s.folds.filter fun e => e.2.paddock == p && e.2.onCore && e.2.stopWanted == 2 && !s.quiesced e.1 e.2
      && decide (e.2.stopT2 ≤ (s.die (dieOf e.2.core)).refs)).foldl (fun s e => s.resetFold e.1) s
def execForcedReset (paddock : Nat) (s : State) : Host.Outcome State Fault Refusal :=
  .next (s.forceReset paddock)

/-! ### Restoring a stopped fold (R317, R420 to R422) -/

/-- Lanes at a CWAIT whose children have all retired go on (R294), unless a stop request stands. -/
def State.settleCwait (s : State) (fid : Nat) : State :=
  s.modFold fid fun fo =>
    if fo.status != .resident || fo.stopWanted != 0 then fo
    else
      { fo with
        flocks := fo.flocks.map fun fl => fl.release (maskOf fun l => match fl.wait l with
          | some (.cwait kids _ _) => !s.kidsLeft kids
          | _ => false) }
/-- The place where every non-exited lane of every flock rests: ACQUIRE, or BAR.SW of one index on one
barrier, with the live map there and the switch index. -/
def State.switchRest (s : State) (fo : Fold) : Option (Nat × LiveMap) :=
  let o := s.objOf fo
  let ws : List (Option Wait) := fo.flocks.flatMap fun fl => (lanesOf fl.live).map fl.wait
  match ws with
  | [] => none
  | some (.acquire ..) :: _ =>
      if ws.all fun w => match w with
          | some (.acquire ..) => true
          | _ => false then some (acquirePoint, o.switchMap 4 0 0) else none
  | some (.bar b ..) :: _ =>
      if ws.all fun w => match w with
          | some (.bar c ..) => c == b
          | _ => false then
        match (fo.barrier b).sw with
        | some (some ix) => some (b, o.switchMap fo.sect 2 ix)
        | _ => none
      else none
  | _ => none
/-- The section with which a stopped fold comes back (R317, R422): the floor for a barrier-point fold
that rests at a switch point where the floor is eligible (R308), and otherwise the one it held. -/
def State.restoreSect (s : State) (fo : Fold) : Nat :=
  let o := s.objOf fo
  match s.switchRest fo with
  | some (_, lm) =>
      if !fo.ipoint && (o.floor.flocks == fo.flocks.length || (lm.v == 0 && lm.p == 0))
          && (fo.savedOwn.all fun e => decide (e.1 < 64 * o.floor.segs)) then
        o.variants.length - 1
      else fo.sect
  | none => fo.sect
/-- The fold's own flocks take slots on its core. A restored fold's floor may have more flocks than it has saved: it
holds the slots of those too, until it is granted (R317). -/
def State.placeFlocks (s : State) (fid have_ n : Nat) : State :=
  (List.range n).foldl (fun s k =>
    if decide (have_ ≤ k) || (s.flock fid k).live != 0 then s.placeFlock fid k else s) s
/-- Consecutive numbers of one class joined: first, count, class. -/
def runsOf : List (Nat × Nat) → List (Nat × Nat × Nat)
  | [] => []
  | (c, k) :: r =>
      match runsOf r with
      | (f, n, j) :: t => if f = c + 1 ∧ j = k then (c, n + 1, k) :: t else (c, 1, k) :: (f, n, j) :: t
      | [] => [(c, 1, k)]
/-- One more range of a remnant becomes an operation of its own, which holds those chunks of its range that are not
back. -/
def State.addRange (s : State) (id : Nat) (o : CopyOp) (r : Nat × Nat × Nat) : State :=
  let n := s.nextId
  let o := { o with part := some (r.1, r.2.1), rem := id, owed := [], backs := [] }
  let mine := (o.span.map fun i => segChunk o.segs (o.first + i)).filter fun ch => s.heldBy o.core id ch
  ({ s with copies := kset s.copies n o, nextId := n + 1 }).modCore o.core fun c =>
    { c with own := mine.foldl (fun m ch => kset m ch (.copy n)) c.own }
/-- A remnant starts again (R421): on the fold's new core and segments, each of its ranges one operation. -/
def State.restartCopy (s : State) (fid id : Nat) (fo : Fold) : State :=
  match kget s.copies id with
  | none => s
  | some o =>
      let b := if o.kind = 7 then (s.pickStream fo.paddock (dieOf fo.core), s) else s.bindQueue fid o.qn
      let o := b.2.startCopy { o with core := fo.core, segs := fo.segs, stream := b.1, drove := fo.drove }
      let left := (List.range o.count).filter fun i => (b.2.leftOf id o).contains i || (kget o.data i).isSome
      match (if o.kind = 5 ∨ left.length = o.count then [] else runsOf (left.map fun i => (i, 0))) with
      | [] => { b.2 with copies := kset b.2.copies id o }
      | [r] => { b.2 with copies := kset b.2.copies id { o with part := some (r.1, r.2.1) } }
      | r :: rest =>
          rest.foldl (fun s r => s.addRange id o r)
            { b.2 with copies := kset b.2.copies id { o with part := some (r.1, r.2.1), rem := id } }
/-- The queue bindings of a fold last, but for those to a stream that its die does not have or its paddock has no
more: these are made anew (R243). -/
def State.rebind (s : State) (fid olddie : Nat) (fo : Fold) : State :=
  let ok := fun (q : Nat × Nat) => olddie == dieOf fo.core && (s.streams fo.paddock olddie).contains q.2
  let lost := fo.queues.filter fun q => !ok q
  lost.foldl (fun s q => (s.bindQueue fid q.1).2) (s.modFold fid fun f => { f with queues := f.queues.filter ok })
/-- A stopped fold stands on a core again with its saved state, of which flocks above the floor's count keep theirs
until a grant drops them (log 85); then its phases complete, its CWAITs end, and its grant is made, if they can. -/
def State.restoreOn (s : State) (fid core : Nat) (segs : List Nat) : State :=
  match kget s.folds fid with
  | none => s
  | some fo =>
      let sect := s.restoreSect fo
      let olddie := dieOf fo.core
      let fo := { fo with
        core := core, sect := sect, segs := segs, status := .resident, stopWanted := 0, waitFrom := []
        flocks := fo.flocks.map fun fl => { fl with saved := 0 } }
      let s := { s with folds := kset s.folds fid fo }
      let s := fo.savedChunks.foldl (fun s c => s.segPut core segs (512 * c.1) c.2) s
      let s := { s with
        upsets := fo.badWords.foldl (fun (m : SMap Nat) (w : Nat × Nat) =>
          kset m (segPlace core segs (512 * w.1 + w.2)) 1) s.upsets }
      let acc := (s.objOf fo).acc
      let s := s.modCore core fun c =>
        { c with
          own := fo.savedOwn.foldl (fun m e => kset m (segChunk segs e.1) (.copy e.2)) c.own
          tiles := if acc then fo.savedTiles else c.tiles
          tileBad := if acc then fo.badTiles else c.tileBad
          accFold := if acc then some fid else c.accFold }
      let s := s.placeFlocks fid fo.flocks.length ((s.objOf fo).section sect).flocks
      let s := s.rebind fid olddie fo
      let s := (s.copiesOf fid).foldl (fun s e => s.restartCopy fid e.1 fo) s
      let s := s.modFold fid fun f =>
        { f with
          savedChunks := [], savedTiles := [], savedOwn := [], badTiles := [], badWords := [], ipoint := false
          status := if (s.copiesOf fid).any fun e => e.2.kind == 7 then .staging else .resident }
      (s.settle fid).settleCwait fid

end Sys2Proof.Machine
end

