-- ==== Sys2Proof/Machine/Sched.lean ====
section
/-! DEFINITION. The scheduler: turns (R270 to R274), launch records (R293, R297 to R299), admission
and restore of folds (R300 to R306, R310, R317), the end of folds and droves (R268), and completion
entries (R238, R299, R331). -/
namespace Sys2Proof.Machine

/-! ### Turns (R270 to R274) -/

/-- Lanes of a flock that are ready (R270). -/
def Flock.readyLanes (fl : Flock) : Mask :=
  if fl.saved != 0 || fl.parked then 0 else maskOf fl.laneReady
/-- T1 of a stop request has passed: only flocks in handler mode take further turns (R416). -/
def State.pastT1 (s : State) (fo : Fold) : Bool :=
  fo.stopWanted == 2 || (fo.stopWanted == 1 && decide (fo.stopT1 ≤ (s.die (dieOf fo.core)).refs))
/-- The flock is ready: resident, not parked, with a ready lane. -/
def State.flockReady (s : State) (fid k : Nat) : Bool :=
  match kget s.folds fid with
  | some fo =>
      fo.status == .resident && (!s.pastT1 fo || (s.flock fid k).handler) && (s.flock fid k).readyLanes != 0
  | none => false
/-- The slot that a stage selects next (R273). -/
def State.pickSlot (s : State) (st : Stage) : Option (Nat × Nat × Nat) :=
  ((List.range 24).map fun i => (st.last + 1 + i) % 24).findSome? fun i =>
    match kget st.slots i with
    | some (f, k) => if s.flockReady f k then some (i, f, k) else none
    | none => none
/-- Ready lanes grouped by PC: PC and lanes, lowest PC first. -/
def Flock.groups (fl : Flock) (m : Mask) : SMap Mask :=
  (lanesOf m).foldl (fun g l => kset g (fl.pc l) (kgetD g (fl.pc l) 0 ||| BitVec.ofNat 32 (2 ^ l))) []
/-- The largest group; of equally large ones, that with the lower PC (R271). -/
def largest (g : SMap Mask) : Option (Nat × Mask) :=
  g.foldl (fun (b : Option (Nat × Mask)) e => match b with
    | none => some e
    | some x => if popcount x.2 < popcount e.2 then some e else b) none
/-- A band at the start of its run. -/
def newBand (m : Mask) : Band := ⟨m, 0, false, none, none, none, []⟩
/-- A turn begins (R271). A cause that was delivered is taken by band A before it issues: the flock parks and every
other lane is parked by the trap, so band B issues nothing (R398, R403). -/
def State.beginTurn (s : State) (core stage i fid k : Nat) : State :=
  let fl := s.flock fid k
  let g := fl.groups fl.readyLanes
  let a := largest g
  let b := (a.map fun x => kdel g x.1).bind largest
  let t : Turn :=
    { fold := fid, flock := k, a := a.map fun x => newBand x.2, b := b.map fun x => newBand x.2
      nextB := false, flags := 0, trapA := none, trapB := none, reads := [], waves := 0
      base := s.nextId, from_ := s.nextId }
  let put := fun (s : State) (t : Turn) =>
    s.modStage core stage fun st => { st with last := i, turn := some t }
  match a with
  | none => s
  | some (pc, m) =>
      if fl.deliver = 0 then put s t
      else
        let c := if fl.deliver.getLsbD cCopyfault then cCopyfault else cEcc
        let s := s.modFlock fid k fun fl =>
          { fl with cause := fl.deliver &&& ~~~(causeBit c), deliver := 0 }
        let t := { t with a := t.a.map fun x => { x with ended := true }, b := none, trapA := some ⟨c, pc, m, pc⟩ }
        (put s t).endTurn core stage t
/-- TURN_SELECT (R273). -/
def State.turnSelect (s : State) (core stage : Nat) : State :=
  let st := s.stageOf core stage
  if st.turn.isSome then s
  else match s.pickSlot st with
    | some (i, f, k) => s.beginTurn core stage i f k
    | none => s
def execTurnSelect (core stage : Nat) (s : State) : Host.Outcome State Fault Refusal :=
  .next (s.turnSelect core stage)
/-- UNPARK (R274): nothing deferred is outstanding, and few enough commands are unstarted. A flock
whose lanes have all exited ends, and its slot and registers are released (R268). -/
def State.unparkFlock (s : State) (fid k : Nat) : State :=
  match kget s.folds fid with
  | none => s
  | some fo =>
      let fl := s.flock fid k
      let wait := (s.ops.any fun e => e.2.fold == fid && e.2.flock == k && e.2.counts)
        || decide (24 < ((s.core fo.core).mq.filter fun m => m.fold == fid && m.flock == k).length)
        || decide (40 < ((s.copiesOf fid).filter fun e => e.2.flock == k && e.2.phase == 0).length)
      if !fl.parked || wait || s.inTurn fo.core fid k then s
      else
        let s := s.modFlock fid k fun fl => { fl with parked := false }
        if fl.live = 0 && s.hasSlot fid k fo then
          s.dropFlock fo.core (k % 2) fl.slot (s.budget fo).regs
        else s
def execUnpark (fold flock : Nat) (s : State) : Host.Outcome State Fault Refusal :=
  .next (s.unparkFlock fold flock)

/-! ### Launch records (R297, R298) -/

/-- The fields of a launch record. -/
structure LaunchRec where
  code : Nat
  gx : Nat
  gy : Nat
  gz : Nat
  prio : Nat
  chain : Nat
  flags : Nat
  res : Nat
  tag : Nat
  slots : List Nat
  sinit : List Nat
  args : List Nat
  deriving DecidableEq, Repr
/-- `n` numbers of `k` bytes from an offset. -/
def fieldsOf (b : List Byte) (off k n : Nat) : List Nat :=
  (List.range n).map fun i => leNat ((b.drop (off + k * i)).take k)
def fieldOf (b : List Byte) (off k : Nat) : Nat := leNat ((b.drop off).take k)
/-- The fields of the 256 bytes of a record. -/
def launchOf (b : List Byte) : LaunchRec :=
  { code := fieldOf b 0 8, gx := fieldOf b 8 4, gy := fieldOf b 12 2, gz := fieldOf b 14 2
    prio := fieldOf b 16 1, chain := fieldOf b 17 1, flags := fieldOf b 18 1
    res := fieldOf b 19 1 + fieldOf b 24 8, tag := fieldOf b 20 4, slots := fieldsOf b 0x20 8 8
    sinit := fieldsOf b 0x60 4 8, args := fieldsOf b 0x80 8 16 }
/-- A paddock holds a core on some die. -/
def State.hasCore (s : State) (p : Nat) : Bool :=
  (List.range 16).any fun d => !(s.coresOn p d).isEmpty
/-- The dispatcher refuses the record (R298); the grid of a child's record is ignored (R297). -/
def State.launchBad (s : State) (p : Nat) (child : Bool) (r : LaunchRec) : Bool :=
  (kget (s.pad p).objs r.code).isNone || r.res != 0 || decide (4 ≤ r.flags) || decide (3 < r.prio)
    || (!child && (decide (2 ^ 31 ≤ r.gx) || r.gx * r.gy * r.gz == 0
      || decide (2 ^ 31 < r.gx * r.gy * r.gz)))
    || r.args.any (fun a => decide (2 ^ 52 ≤ a))
    || r.slots.any (fun x => !slotOk (BitVec.ofNat 64 x)) || !s.hasCore p
/-- A DROVEID that a drove may be given: not all ones, and of no unretired drove of the paddock. -/
def State.droveIdOk (s : State) (p id : Nat) : Bool :=
  decide (id < 2 ^ 32 - 1) && s.droves.all fun e => e.2.paddock != p || e.2.id != id || e.2.retired
/-- A drove from a launch record. -/
def droveOf (id : Nat) (r : LaunchRec) : Drove :=
  { id := id, paddock := 0, vd := 0, depth := 0, parentDrove := 0, parentFold := 0, group := 0
    host := true, port := 0, queue := 0, obj := r.code, gx := r.gx, gy := r.gy, gz := r.gz
    rgrid := r.gx + 2 ^ 32 * r.gy + 2 ^ 48 * r.gz, prio := r.prio, chain := r.chain, flags := r.flags, tag := wd r.tag
    slots := r.slots.map (BitVec.ofNat 64), sinit := r.sinit.map wd, args := r.args, nextFold := 0
    ended := 0, lastDie := 0, cq := 0, prev := none, aged := 0, faulted := false
    refused := false, retired := false, order := 0, since := [], after := none }
/-- The cycles of a die, those before its last thermal reset with them: waits are measured by them (R301, R310). -/
def Die.total (d : Die) : Nat := d.past + d.cycles
/-- A drove joins the device. The launch order of R301 is the order in which launch records are read (log 63). -/
def State.addDrove (s : State) (key : Nat) (d : Drove) : State :=
  { s with
    droves := kset s.droves key { d with
      order := s.nextId, since := (List.range 16).map fun i => (s.die i).total
      after := (s.pad d.paddock).startDie }
    nextId := s.nextId + 1 }

/-- A launch record holds an uncorrectable error (R404, R447): no child comes of it, ECC is delivered to the flock that
launched, and a record of kind 5 is written. -/
def State.recordBad (s : State) (id : Nat) (l : LaunchOp) (o : MemOp) : State :=
  ((({ s with launches := kdel s.launches id, ops := kdel s.ops id }).deliver l.fold l.flock o.born cEcc).errorRecord
    l.die l.paddock l.vd l.drove l.did l.ix l.core l.flock l.pc).drain
/-- LAUNCH_RECORD_READ (R293): once every earlier access of the band's lanes, and every one that the fold orders
before them (R230), is performed, the record is read, and the child is created or refused. -/
def State.recordRead (s : State) (id droveId : Nat) : State :=
  match kget s.launches id, kget s.ops id with
  | some l, some o =>
      let ready := s.ops.all fun e => id ≤ e.1 || e.2.fold != o.fold || e.2.flock != o.flock
        || (lanesOf o.whose).all fun m => !e.2.stands m
      let ready := ready && !s.coverWaits id o ((lanesOf o.whose).headD 0) ⟨true, false, false, false⟩ false
        && !s.owedWaits id o ⟨true, false, false, false⟩
      if !ready || !s.droveIdOk l.paddock droveId then s
      else if s.struck l.addr 256 then s.recordBad id l o
      else
        let r := launchOf (memRead s.mem l.addr 256)
        let s := { s with launches := kdel s.launches id, ops := kdel s.ops id }
        let depth := match kget s.droves l.drove with
          | some d => d.depth + 1
          | none => 0
        let d := { droveOf droveId r with
          paddock := l.paddock, vd := l.vd, depth := depth, parentDrove := l.drove
          parentFold := l.fold, group := l.group, host := false, gx := l.gx, gy := l.gy, gz := l.gz
          lastDie := l.die }
        if s.launchBad l.paddock true r then
          ((s.addDrove id { d with refused := true, gx := 0 }).fault l.paddock l.drove
            (faultRec 2 14 0 l.paddock (vdField l.paddock l.vd) l.did l.ix l.core 0 0 l.flock l.pc 0
              (s.die l.die).refs)).drain
        else (s.addDrove id d).drain
  | _, _ => s
def execLaunchRecordRead (op droveId : Nat) (s : State) : Host.Outcome State Fault Refusal :=
  .next (s.recordRead op droveId)

/-- A function runs now (R362, R424): its virtual device runs and is not frozen, no slice is ending, and its paddock
is not held. -/
def State.runs (s : State) (v : Nat) : Bool :=
  let p := s.padOfFn v
  !(s.pad p).held && !(s.pad p).switching
    && (128 ≤ v || (s.vdValid v && !(s.vd v).frozen && (s.kind p != 2 || s.runningVd p == v)))
/-- The entry may be released: those that were withheld while the virtual device was descheduled or frozen come
first, in the order of retirement, whatever queue each is for: one whose ring is full, has no base or exists no more
holds those behind it back (R38, R362, log 80). -/
def VDev.inOrder (v : VDev) (n : Nat) : Bool :=
  v.withheld.all fun q => q.2.all fun e => decide (v.heldTo ≤ e.1) || decide (n ≤ e.1)
/-- The oldest withheld entry of a completion queue, its drove's writes performed, finds room in a ring whose port is
up (R238, R331). -/
def State.entryReady (s : State) (v cq : Nat) : Bool :=
  match kgetD (s.vd v).withheld cq [] with
  | [] => false
  | (n, key, _) :: _ =>
      let base := s.bar v (cqReg cq 0)
      let used := (s.bar v (cqReg cq 1) + 2 ^ 32 - s.bar v (cqReg cq 2) % 2 ^ 32) % 2 ^ 32
      decide (cq < s.cqn v) && base != 0 && decide (used < 2 ^ bits base 3 0) && s.fnUp v
        && (s.ops.all fun o => o.2.drove != key || !o.2.writes || o.2.todo.isEmpty) && (s.vd v).inOrder n
/-- A completion withheld before the slice, or before the thaw, can be written now: it is, before the slice's folds come
back and its queues are read (R38, R362, step 4). -/
def State.releasing (s : State) (v : Nat) : Bool :=
  (s.vd v).withheld.any fun q => (q.2.head?.any fun e => decide (e.1 < (s.vd v).heldTo)) && s.entryReady v q.1
/-- A function's droves are served now (R362, R424): it runs, and the completions withheld before are out. -/
def State.serves (s : State) (v : Nat) : Bool := s.runs v && !s.releasing v
/-- A launch queue is served (R331). -/
def State.queueServed (s : State) (v q : Nat) : Bool :=
  decide (q < s.lqn v) && !(s.vd v).mute.contains q && s.bar v (lqReg q 0) != 0
    && decide (bits (s.bar v (lqReg q 3)) 3 0 < s.cqn v)
/-- Entries of a launch queue that are notified and unread. -/
def State.unread (s : State) (v q : Nat) : Nat :=
  let n := (s.lqTail v q + 2 ^ 32 - s.bar v (lqReg q 1)) % 2 ^ 32
  minNat n (2 ^ bits (s.bar v (lqReg q 0)) 3 0)
/-- LAUNCH_ENTRY_READ (R299, R331): the next entry of a launch queue becomes a drove, or is refused. Its trace record
is staged now, on the die of the slice master (log 88). -/
def State.entryRead (s : State) (v q droveId : Nat) : State :=
  let p := s.padOfFn v
  if !s.serves v || !s.fnUp v || !s.queueServed v q || s.unread v q == 0 || !s.droveIdOk p droveId then s
  else
    let h := s.bar v (lqReg q 1)
    let r := launchOf (memRead s.mem (ringAt v (s.bar v (lqReg q 0)) 256 h) 256)
    let vd := if 128 ≤ v then 127 else v
    let key := s.nextId
    let d := { droveOf droveId r with
      paddock := p, vd := vd, port := portOfFn v, queue := q, cq := bits (s.bar v (lqReg q 3)) 3 0
      prev := kget (s.vd v).lastDrove q }
    let s := s.setBar v (lqReg q 1) ((h + 1) % 2 ^ 32)
    let s := s.modVd v fun x => { x with lastDrove := kset x.lastDrove q key }
    let die := (s.sliceMaster p).getD 0
    let s := s.trace p die 1 (traceRec vd 0 1 0 0 droveId 0 0 0 (s.die die).refs)
    let s := { s with nextId := key + 1 }
    if s.launchBad p false r then
      (s.addDrove key { d with refused := true, gx := 0, lastDie := die }).fault p key
        (faultRec 2 14 0 p (vdField p vd) droveId 0 0 0 0 0 0 0 (s.die die).refs)
    else s.addDrove key { d with lastDie := die }
def execLaunchEntryRead (vd queue droveId : Nat) (s : State) : Host.Outcome State Fault Refusal :=
  .next (s.entryRead vd queue droveId)

/-! ### Admission (R300 to R306) -/

/-- Folds of a drove that are pending. -/
def Drove.pendingFold (d : Drove) : Bool := decide (d.nextFold < d.gx * d.gy * d.gz)
/-- The function that launched a host drove. -/
def Drove.fn (d : Drove) : Nat := if d.paddock = 0 then 128 + d.port else d.vd
/-- The drove may begin admission (R299): every earlier drove of its queue has begun, or never will; and
for a SERIAL drove the previous one has retired. -/
def State.mayBegin (s : State) (d : Drove) : Bool :=
  (s.droves.all fun e => !e.2.host || e.2.fn != d.fn || e.2.queue != d.queue || decide (d.order ≤ e.2.order)
      || e.2.refused || e.2.retired || decide (0 < e.2.nextFold))
    && (!bitOf d.flags 1 || (match d.prev.bind (kget s.droves) with
      | none => true
      | some x => x.retired))
/-- The drove may begin or go on with admission (R299, R300). -/
def State.mayAdmit (s : State) (d : Drove) : Bool :=
  d.pendingFold && !d.refused && !d.retired && s.serves d.fn
    && (!d.host || decide (0 < d.nextFold) || s.mayBegin d)
/-- The core can take a new fold of an object, or a stopped fold that needs these amounts now and owes
the rest of its floor (R304, R306). -/
def State.coreTakes (s : State) (p : Nat) (o : CodeObj) (need : List Nat) (c : Nat) : Bool :=
  s.holdsCore p c && !(s.core c).retired && !(s.core c).hot
    && (List.zipWith (fun n av => decide (n ≤ av)) need (s.avail c none)).all id
    && (!o.acc || ((s.core c).accFold.isNone && (s.residents c).all fun e => !(s.objOf e.2).acc))
/-- The object's regions need a copy stream of the die (R304). -/
def State.streamsOk (s : State) (p d : Nat) (o : CodeObj) : Bool :=
  o.regions.all fun r => r.src != 2 || !(s.streams p d).isEmpty
/-- The core that the dispatcher of a die takes (R306): coolest, fewest droop events, lowest id. -/
def State.bestCore (s : State) (p d : Nat) (o : CodeObj) (need : List Nat) : Option Nat :=
  ((s.coresOn p d).filter (s.coreTakes p o need)).foldl (fun (b : Option Nat) c => match b with
    | none => some c
    | some x =>
        let i := s.core c
        let j := s.core x
        if i.temp < j.temp || (i.temp == j.temp && i.droop < j.droop) then some c else b) none
/-- The die where the search for a drove's next fold starts (R300). -/
def State.startDieOf (s : State) (d : Drove) : Nat :=
  if d.nextFold ≠ 0 then (d.lastDie + 1) % 16
  else if !d.host then d.lastDie
  else match d.after with
    | some x => (x + 1) % 16
    | none => (s.sliceMaster d.paddock).getD 0
/-- Where a drove's next fold goes: the first die, counting upward, that has a core able to take it. -/
def State.targetOf (s : State) (d : Drove) : Option Nat :=
  let o := (kget (s.pad d.paddock).objs d.obj)
  match o with
  | none => none
  | some o =>
      ((List.range 16).map fun i => (s.startDieOf d + i) % 16).findSome? fun die =>
        if s.streamsOk d.paddock die o then s.bestCore d.paddock die o o.floor.uses else none
/-- A drove's priority for admission on a die (R301). -/
def Drove.rank (d : Drove) (die : Nat) : Nat := if bitOf d.aged die then 3 else d.prio
/-- The drove's pending folds are served before another's on a die (R301). -/
def Drove.before (a b : Drove) (die : Nat) : Bool :=
  b.rank die < a.rank die
    || (a.rank die == b.rank die && (b.depth < a.depth || (a.depth == b.depth && a.order < b.order)))

/-- A stopped fold may come back: what it stopped for is over (R301, R317). -/
def State.mayReturn (s : State) (fo : Fold) : Bool :=
  !fo.failed && s.serves (if fo.paddock = 0 then 128 else fo.vd) &&
    match fo.status with
    | .stopped => true
    | .stoppedChild =>
        fo.flocks.any (fun fl => (lanesOf fl.live).any fun l => match fl.wait l with
          | some (.cwait kids _ _) => !s.kidsLeft kids
          | _ => false)
          || (List.range 17).any fun b => fo.phaseDone b
    | _ => false
/-- The die on which a stopped fold waits: its own, or any where the paddock has left that die. -/
def State.waitsOn (s : State) (fo : Fold) (d : Nat) : Bool :=
  dieOf fo.core == d || (s.coresOn fo.paddock (dieOf fo.core)).isEmpty
/-- What a stopped fold needs: the section it comes back with, together with its floor (R317). -/
def State.returnNeed (s : State) (fo : Fold) : List Nat :=
  let o := s.objOf fo
  List.zipWith Nat.max (o.section (s.restoreSect fo)).uses o.floor.uses
/-- A stopped fold can come back on a die (R301, R304, R317). -/
def State.canReturn (s : State) (fo : Fold) (d : Nat) : Bool :=
  s.mayReturn fo && s.waitsOn fo d && s.streamsOk fo.paddock d (s.objOf fo)
    && (s.bestCore fo.paddock d (s.objOf fo) (s.returnNeed fo)).isSome
/-- A fold of the paddock has waited on the die for 4,096 cycles (R310). -/
def State.longWait (s : State) (p d : Nat) : Bool :=
  let now := (s.die d).total
  (s.droves.any fun e => e.2.paddock == p && s.mayAdmit e.2 && decide (e.2.since.getD d 0 + 4096 ≤ now))
    || s.folds.any fun e => e.2.paddock == p && s.mayReturn e.2 && s.waitsOn e.2 d
      && decide (kgetD e.2.waitFrom d now + 4096 ≤ now)
/-- No shrink request stands once no fold of the paddock has waited so long any more (R310). -/
def State.dropShrink (s : State) (p d : Nat) : State :=
  if s.longWait p d then s
  else
    { s with
      folds := s.folds.map fun e =>
        if e.2.paddock == p && dieOf e.2.core == d then (e.1, { e.2 with shrink := false }) else e }
/-- On every die: a fold that has come in waits on none of them any more. -/
def State.dropShrinks (s : State) (p : Nat) : State := (List.range 16).foldl (fun s d => s.dropShrink p d) s
/-- The dispatcher of a die notes which stopped folds wait there and since when, and lifts the shrink requests that
nobody waits for any longer (R310). -/
def State.noteWaits (s : State) (d : Nat) : State :=
  let s := { s with
    folds := s.folds.map fun (e : Nat × Fold) =>
      if e.2.onCore then e
      else if s.mayReturn e.2 && s.waitsOn e.2 d then
        (e.1, { e.2 with waitFrom := kset e.2.waitFrom d (kgetD e.2.waitFrom d (s.die d).total) })
      else (e.1, { e.2 with waitFrom := kdel e.2.waitFrom d }) }
  (((s.folds.filter fun e => e.2.shrink && dieOf e.2.core == d).map fun e => e.2.paddock).eraseDups).foldl
    (fun s p => s.dropShrink p d) s
/-- The segments are free and distinct. -/
def State.segsFree (s : State) (c n : Nat) (segs : List Nat) : Bool :=
  segs.length == n && segs.eraseDups.length == n && segs.all fun g => (s.freeSegs c).contains g

/-- A flock of a fold just admitted (R302). -/
def startFlock (o : CodeObj) (sinit : List Word) (k : Nat) : Flock :=
  { Flock.empty with
    ix := k
    s := (List.range 8).filterMap fun i =>
      if sinit.getD i 0 = 0 then none else some (i, sinit.getD i 0)
    pcs := List.replicate 32 (o.base + o.prologue.off) }
/-- The staging copies of an admitted fold (R302). -/
def State.stageRegions (s : State) (fid : Nat) (fo : Fold) (o : CodeObj) (args : List Nat) : State :=
  (o.regions.zip (List.range o.regions.length)).foldl (fun s e =>
    if e.1.src ≠ 2 then s
    else
      let id := s.nextId
      let c : CopyOp :=
        { copyOpOf s fid 0 (o.base + o.prologue.off) fo with
          kind := 7, addr := args.getD e.1.arg 0, pitch := 512, first := e.1.first
          count := e.1.count, qn := e.2, stream := s.pickStream fo.paddock (dieOf fo.core), phase := 1 }
      { s with copies := kset s.copies id c, nextId := id + 1 }) s
/-- A host-launched drove's fold goes to a die: the first folds of later droves start behind it (R300). -/
def State.hostFold (s : State) (d : Drove) (die : Nat) : State :=
  { s.modPad d.paddock fun x => { x with startDie := some die } with
    droves := s.droves.map fun e =>
      if e.2.paddock == d.paddock && decide (d.order < e.2.order) then (e.1, { e.2 with after := some die })
      else e }
/-- A drove's next fold stands on a core (R302). -/
def State.admitOn (s : State) (key : Nat) (d : Drove) (o : CodeObj) (core : Nat) (segs : List Nat) :
    State :=
  let fid := s.nextId
  let arg := o.regions.any fun r => r.src == 2
  let fo := { Fold.blank with
    drove := key, paddock := d.paddock, vd := d.vd, index := d.nextFold, obj := d.obj, core := core
    sect := 4, segs := segs, order := fid
    status := if arg then .staging else .resident
    flocks := (List.range o.prologue.flocks).map fun k => startFlock o d.sinit k }
  let s := { s with folds := kset s.folds fid fo, nextId := fid + 1 }
  let s := s.modDrove key fun x => { x with nextFold := x.nextFold + 1, lastDie := dieOf core }
  let s := if d.host then s.hostFold d (dieOf core) else s
  let s := if o.acc then s.modCore core fun c => { c with accFold := some fid, tiles := [], tileBad := [] } else s
  (s.placeFlocks fid o.prologue.flocks o.prologue.flocks).stageRegions fid fo o d.args
/-- A fold of the first class of a paddock waits on a die: none of the paddock's pending folds is admitted there
(R301). -/
def State.barred (s : State) (p die : Nat) : Bool :=
  s.folds.any fun e => e.2.paddock == p && s.mayReturn e.2 && s.waitsOn e.2 die
/-- FOLD_ADMIT (R300, R301, R304): the dispatcher of the die that a drove's next fold goes to admits
it on the core of R306, when nothing earlier in the order of R301, of whatever paddock, can be admitted there. -/
def State.admitFold (s : State) (key core : Nat) (segs : List Nat) : State :=
  match kget s.droves key with
  | none => s
  | some d =>
      match kget (s.pad d.paddock).objs d.obj with
      | none => s
      | some o =>
          let die := dieOf core
          let first := s.barred d.paddock die || s.folds.any fun e => s.canReturn e.2 die
          let earlier := s.droves.any fun e => e.1 != key && !s.barred e.2.paddock die
            && s.mayAdmit e.2 && e.2.before d die && (s.targetOf e.2).map dieOf == some die
          if s.mayAdmit d && s.targetOf d == some core && !first && !earlier
              && s.segsFree core o.prologue.segs segs then
            (s.admitOn key d o core segs).dropShrinks d.paddock
          else s
def execFoldAdmit (drove core : Nat) (segs : List Nat) (s : State) :
    Host.Outcome State Fault Refusal := .next (s.admitFold drove core segs)
/-- FOLD_RESTORE (R301, R317): a stopped fold comes back on a core of its die, earlier stops first. -/
def State.restore (s : State) (fid core : Nat) (segs : List Nat) : State :=
  match kget s.folds fid with
  | none => s
  | some fo =>
      let o := s.objOf fo
      let die := dieOf core
      let need := s.returnNeed fo
      let earlier := s.folds.any fun e => e.1 != fid && decide (e.2.stopSeq < fo.stopSeq) && s.canReturn e.2 die
      if s.mayReturn fo && s.waitsOn fo die && !earlier && s.streamsOk fo.paddock die o
          && s.bestCore fo.paddock die o need == some core
          && s.segsFree core (o.section (s.restoreSect fo)).segs segs then
        (s.restoreOn fid core segs).dropShrinks fo.paddock
      else s
def execFoldRestore (fold core : Nat) (segs : List Nat) (s : State) :
    Host.Outcome State Fault Refusal := .next (s.restore fold core segs)

/-- PRIO_AGING (R301): a fold that has been pending for 2^20 cycles of a die counts as PRIO 3 there. -/
def State.age (s : State) (key : Nat) : State :=
  s.modDrove key fun d =>
    if d.pendingFold then
      { d with
        aged := (List.range 16).foldl (fun m i =>
          if d.since.getD i 0 + 2 ^ 20 ≤ (s.die i).total then Nat.lor m (2 ^ i) else m) d.aged }
    else d
def execPrioAging (drove : Nat) (s : State) : Host.Outcome State Fault Refusal := .next (s.age drove)
/-- SHRINK_REQUEST (R310): a fold of the paddock has waited on the die for 4,096 cycles, and this one
holds more than its floor. -/
def State.askShrink (s : State) (fid : Nat) : State :=
  match kget s.folds fid with
  | none => s
  | some fo =>
      let die := dieOf fo.core
      let more := (List.zipWith (fun a b => decide (b < a)) (s.budget fo).uses (s.objOf fo).floor.uses).any id
      if fo.onCore && s.longWait fo.paddock die && more then s.modFold fid fun f => { f with shrink := true } else s
def execShrinkRequest (fold : Nat) (s : State) : Host.Outcome State Fault Refusal :=
  .next (s.askShrink fold)

/-! ### Ends (R268, R303) -/

/-- Accesses of the fold to scratchpad are still to be performed: they touch its segments, so it does not end yet. -/
def State.spLeft (s : State) (fid : Nat) : Bool :=
  s.ops.any fun e => e.2.fold == fid && e.2.sp && !e.2.todo.isEmpty
/-- FOLD_END (R268): every flock has ended, and every matrix command and copy of the fold. -/
def State.endFold (s : State) (fid : Nat) : State :=
  match kget s.folds fid with
  | none => s
  | some fo =>
      let flocks := (List.range fo.flocks.length).all fun k =>
        (s.flock fid k).live == 0 && !(s.flock fid k).parked
      if flocks && (s.copiesOf fid).isEmpty && !s.spLeft fid && (!fo.onCore || s.matrixQuiet fid fo) then
        let s := if fo.onCore then s.leaveCore fid else s
        ({ s with folds := kdel s.folds fid }).modDrove fo.drove fun d => { d with ended := d.ended + 1 }
      else s
def execFoldEnd (fold : Nat) (s : State) : Host.Outcome State Fault Refusal := .next (s.endFold fold)
/-- A released segment of a core is cleared to 0 and becomes free. -/
def State.clearSeg (s : State) (core g : Nat) : State :=
  if (s.core core).dirtySegs.contains g then
    { s with
      mem := memClear s.mem (scratchAt core (32768 * g)) 32768
      upsets := healWords s.upsets (scratchAt core (32768 * g)) 32768 }.modCore core fun c =>
        { c with dirtySegs := c.dirtySegs.filter (· != g) }
  else s
/-- RESOURCE_CLEAR (R303): a piece of what a core's folds have released is cleared to 0 and becomes free: segment `n`
(0), flock slot `n` (1), or `n` register bytes of a stage (2, 3). Each piece takes its own time (R464). -/
def State.clearCore (s : State) (core what n : Nat) : State :=
  if what = 0 then s.clearSeg core n
  else s.modCore core fun c =>
    if what = 1 then { c with dirtySlots := c.dirtySlots.filter (· != n) }
    else if what = 2 then { c with dirty0 := c.dirty0 - n }
    else { c with dirty1 := c.dirty1 - n }
def execResourceClear (piece : Released) (s : State) : Host.Outcome State Fault Refusal :=
  .next (s.clearCore piece.core piece.what piece.n)

/-- Completion entries of a function that are withheld. -/
def VDev.withheldCount (v : VDev) : Nat := (v.withheld.map fun e => e.2.length).foldl (· + ·) 0
/-- A waiting fault record names the drove. -/
def State.recordWaits (s : State) (d : Drove) : Bool :=
  ((s.pad d.paddock).faultNew ++ (s.pad d.paddock).faultBuf).any fun r => r.getD 1 0 == wd d.id
/-- Every access of the drove's folds is performed: what waits for its retirement comes after them (R229). -/
def State.accessesDone (s : State) (key : Nat) : Bool := s.ops.all fun e => e.2.drove != key || e.2.todo.isEmpty
/-- DROVE_RETIRE (R268, R299): its folds, copies and children have ended, its accesses are performed, and its
records are written. The last kernel of a chain gives up the chain's cache lines (R358); then a host drove's
completion entry is formed, and lanes that waited for it go on (R294). -/
def State.retireDrove (s : State) (key : Nat) : State :=
  match kget s.droves key with
  | none => s
  | some d =>
      let kids := (s.droves.any fun e => !e.2.host && e.2.parentDrove == key && !e.2.retired)
        || s.launches.any fun e => e.2.drove == key
      let total := d.gx * d.gy * d.gz
      let full := d.host && decide (1024 ≤ (s.vd d.fn).withheldCount)
      if d.retired || d.nextFold != total || d.ended != total || kids || full || s.recordWaits d
          || s.copies.any (fun e => e.2.drove == key) || !s.accessesDone key then s
      else
        let s := { s with droves := kdel s.droves key }
        let s := if bitOf d.flags 0 then s.demote d.paddock d.chain else s
        let s := s.trace d.paddock d.lastDie 1 (traceRec d.vd 0 2 0 0 d.id 0 0 0 (s.die d.lastDie).refs)
        if d.host then
          let st := if d.refused then 1 else if d.faulted then 2 else 0
          { s with nextId := s.nextId + 1 }.modVd d.fn fun v =>
            { v with
              withheld := kset v.withheld d.cq
                (kgetD v.withheld d.cq [] ++ [(s.nextId, key, [d.tag, wd (d.queue * 65536 + st), wd d.id, 0])]) }
        else s.settleCwait d.parentFold
def execDroveRetire (drove : Nat) (s : State) : Host.Outcome State Fault Refusal :=
  .next (s.retireDrove drove)

/-- COMPLETION_ENTRY_WRITE (R238, R299, R331): the oldest withheld entry is written when the ring has
room, once every write of the drove is performed; then its MSI-X message. -/
def State.completionWrite (s : State) (v cq : Nat) : State :=
  match kgetD (s.vd v).withheld cq [] with
  | [] => s
  | (_, _, e) :: rest =>
      let tail := s.bar v (cqReg cq 1)
      if !s.runs v || !s.entryReady v cq then s
      else
        (((s.putWords (ringAt v (s.bar v (cqReg cq 0)) 16 tail) e).modVd v fun x =>
            { x with withheld := kset x.withheld cq rest }).setBar v (cqReg cq 1)
          ((tail + 1) % 2 ^ 32)).msixRaise v (bits (s.bar v (cqReg cq 3)) 10 0)
def execCompletionEntryWrite (vd queue : Nat) (s : State) : Host.Outcome State Fault Refusal :=
  .next (s.completionWrite vd queue)

/-! ### Time slices (R361, R362) -/

/-- The entry of the slice table. -/
def State.sliceEnt (s : State) (p i : Nat) : SliceEnt := kgetD (s.pad p).slices i ⟨false, 0, 0⟩
/-- A virtual device has nothing to run (R362). -/
def State.vdIdle (s : State) (v : Nat) : Bool :=
  (s.folds.all fun e => e.2.paddock == 0 || e.2.vd != v)
    && (s.droves.all fun e => e.2.paddock == 0 || e.2.vd != v || !e.2.pendingFold || e.2.refused)
    && (List.range (s.lqn v)).all fun q => !s.queueServed v q || s.unread v q == 0
/-- A trace record of a slice's start or end (R366): the die of the slice master stages it, with core and flock 0
and payloads 0 (log 88). -/
def State.sliceTrace (s : State) (p type v : Nat) : State :=
  let d := (s.sliceMaster p).getD 0
  s.trace p d 4 (traceRec v 0 type 0 0 0 0 0 0 (s.die d).refs)
/-- SLICE_END (R361, R362, step 1): the master's count has reached the entry's length, or an entry that had
nothing to run at step 4 has released its completions. Those that it can release are out by then (step 4). -/
def State.sliceEnd (s : State) (p : Nat) : State :=
  match (s.pad p).runEnt with
  | none => s
  | some e =>
      let x := s.pad p
      let ended := (x.idle && (s.vd e.vd).withheldCount == 0) || decide (e.len * 65536 ≤ x.delivered)
      if s.kind p != 2 || x.switching || x.held || !ended || s.releasing e.vd then s
      else (s.sliceTrace p 7 e.vd).modPad p fun x => { x with switching := true }
def execSliceEnd (paddock : Nat) (s : State) : Host.Outcome State Fault Refusal :=
  .next (s.sliceEnd paddock)
/-- The next valid entry after the current one. Where none has run yet the search starts after entry 0, so entry 1 is
before it: R361 does not say (log 96). -/
def State.nextSlice (s : State) (p : Nat) : Option (Nat × SliceEnt) :=
  ((List.range 8).map fun i => ((s.pad p).running + 1 + i) % 8).findSome? fun i =>
    if (s.sliceEnt p i).valid then some (i, s.sliceEnt p i) else none
/-- SLICE_SWITCH (R362, steps 3 to 5): every fold has stopped on every die, and some valid entry has
work or a withheld completion; the next entry runs. Completions withheld until now are released in order. -/
def State.sliceSwitch (s : State) (p : Nat) : State :=
  let x := s.pad p
  let work := (List.range 8).any fun i =>
    (s.sliceEnt p i).valid && (!s.vdIdle (s.sliceEnt p i).vd
      || (s.vd (s.sliceEnt p i).vd).withheldCount != 0)
  let still := s.folds.all fun e => e.2.paddock != p || !e.2.onCore
  if s.kind p != 2 || x.held || !(x.switching || x.runEnt.isNone) || !still || !work then s
  else match s.nextSlice p with
    | none => s
    | some (i, e) =>
        ((s.modPad p fun x =>
          { x with
            running := i, runEnt := some e, idle := s.vdIdle e.vd, delivered := 0, switching := false }).modVd e.vd
          fun v => { v with heldTo := s.nextId }).sliceTrace p 6 e.vd
def execSliceSwitch (paddock : Nat) (s : State) : Host.Outcome State Fault Refusal :=
  .next (s.sliceSwitch paddock)

end Sys2Proof.Machine
end

