-- ==== Sys2Proof/Machine/Cfg.lean ====
section
/-! DEFINITION. The configuration registers and PCFG (R334 to R338): the values that a register
takes, the refusals of R336, and the configuration unit, which performs writes and reads one at a
time in the order in which they arrive. -/
namespace Sys2Proof.Machine

/-! ### Ranges -/

/-- Two ranges (first, count) share a place. -/
def rangesMeet (a n b m : Nat) : Bool := n != 0 && m != 0 && decide (a < b + m) && decide (b < a + n)
/-- What the range (a, n) has beside the range (b, m). -/
def rangeMinus (a n b m : Nat) : List (Nat × Nat) :=
  if m = 0 then [(a, n)]
  else [(a, Nat.min (a + n) b - a), (Nat.max a (b + m), a + n - Nat.max a (b + m))]
/-- The pages that a range of bytes touches: the first and how many. -/
def pageSpan (a n : Nat) : Nat × Nat :=
  if n = 0 then (0, 0) else (a / 2 ^ 17, (a + n - 1) / 2 ^ 17 - a / 2 ^ 17 + 1)
def inSpan (x : Nat × Nat) (p : Nat) : Bool := decide (x.1 ≤ p) && decide (p < x.1 + x.2)
def spanPages (x : Nat × Nat) : List Nat := (List.range x.2).map fun i => x.1 + i
def spansMeet (x y : Nat × Nat) : Bool := rangesMeet x.1 x.2 y.1 y.2
/-- The bytes of a CODE and of a SAVEAREA value, and of a GROUPTAB value (R334), and the pages that they touch. -/
def codeBytes (v : Nat) : Nat × Nat := (bits v 43 20 * 2 ^ 20, bits v 63 52 * 2 ^ 20)
def groupBytes (v : Nat) : Nat × Nat := (bits v 43 16 * 65536, bits v 63 52 * 65536)
def codeSpan (v : Nat) : Nat × Nat := pageSpan (codeBytes v).1 (codeBytes v).2
def groupSpan (v : Nat) : Nat × Nat := pageSpan (groupBytes v).1 (groupBytes v).2
/-- The channel of an HBM4 address is in the paddock's CHANS mask (R20, R334). -/
def State.ownsChan (s : State) (p a : Nat) : Bool :=
  isHbm a && bitOf (s.reg 0 p 0x02 (a / 2 ^ 36)) (a / 2 ^ 31 % 32)
/-- Every byte of a range is on channels of the paddock. -/
def State.ownsRange (s : State) (p a n : Nat) : Bool :=
  n == 0 || (isHbm (a + n - 1) && (List.range ((a + n - 1) / 2 ^ 31 - a / 2 ^ 31 + 1)).all fun i =>
    s.ownsChan p ((a / 2 ^ 31 + i) * 2 ^ 31))

/-! ### Registers and their values (R334) -/

/-- How many elements a table has, and how many indexes a register. -/
def cfgElems (tgt : Nat) : Nat := if tgt = 0 then 32 else if tgt = 1 then 128 else 16
def cfgIndexes (tgt reg : Nat) : Nat :=
  if tgt ≠ 0 then 1
  else if 1 ≤ reg ∧ reg ≤ 4 then 16
  else if reg = 0x08 ∨ reg = 0x0D ∨ reg = 0x0F then 2
  else 1
/-- No reserved bit is set, and every field is in its range (R334, R336). -/
def cfgFieldOk (tgt reg v : Nat) : Bool :=
  match tgt, reg with
  | 0, 0x00 => decide (v < 256) && bits v 3 2 == 0 && bits v 1 0 != 3
  | 0, 0x01 => decide (v < 2 ^ 40)
  | 0, 0x02 => decide (v < 2 ^ 32)
  | 0, 0x03 => bits v 63 27 == 0 && bits v 15 10 == 0 && decide (bits v 26 16 ≤ 1024)
  | 0, 0x04 => decide (v < 2 ^ 17) && decide (bits v 16 8 ≤ 256)
  | 0, 0x05 => bits v 63 29 == 0 && bits v 15 12 == 0 && decide (bits v 28 16 ≤ 4096)
  | 0, 0x06 => bits v 63 28 == 0 && bits v 15 11 == 0 && decide (bits v 27 16 ≤ 2048)
  | 0, 0x07 => bits v 63 60 == 0 && bits v 47 44 == 0 && bits v 15 1 == 0
  | 0, 0x08 => decide (v ≤ 32)
  | 0, 0x09 => bits v 63 60 == 0 && bits v 47 44 == 0 && bits v 11 0 == 0
  | 0, 0x0A => decide (v < 4) && v != 0
  | 0, 0x0B => decide (v < 2 ^ 36) && decide (bits v 35 32 ≤ 12) && bits v 31 30 == 0 && bits v 4 0 == 0
  | 0, 0x0C =>
      decide (v < 2 ^ 32) && decide (10 ≤ bits v 15 0) && decide (bits v 15 0 ≤ 780)
        && decide (20 ≤ bits v 31 16) && decide (bits v 31 16 ≤ 780)
        && decide (bits v 15 0 + bits v 31 16 ≤ 800)
  | 0, 0x0D => decide (v < 2 ^ 24)
  | 0, 0x0E => bits v 51 44 == 0 && bits v 19 0 == 0
  | 0, 0x0F =>
      bits v 51 44 == 0 && bits v 15 13 == 0 && decide (bits v 12 0 ≤ 4096)
        && decide (16 * bits v 12 0 ≤ bits v 63 52 * 65536)
  | 1, 0x00 =>
      bits v 63 29 == 0 && bits v 23 21 == 0 && bits v 15 9 == 0 && bits v 7 5 == 0
        && decide (bits v 28 24 ≤ 16) && decide (bits v 20 16 ≤ 16) && (!bitOf v 8 || bits v 4 0 != 0)
  | 1, 0x01 => bits v 63 44 == 0 && bits v 10 1 == 0
  | 1, 0x02 => bits v 63 48 == 0 && bits v 14 1 == 0
  | 1, 0x03 => bits v 63 20 == 0 && bits v 9 9 == 0 && decide (bits v 19 10 ≤ 512)
  | 1, 0x04 => decide (v < 2 ^ 17)
  | 1, 0x05 => decide (v < 2 ^ 9) && bits v 7 5 == 0
  | 2, 0x00 => decide (70 ≤ v) && decide (v ≤ 105)
  | 2, 0x01 => decide (1024 ≤ v) && decide (v < 2 ^ 20)
  | _, _ => false

/-! ### Writes under way -/

/-- VCTL as a write leaves it: PADDOCK changes only while VALID is 0 (R336, log 24). -/
def vctlValue (old v : Nat) : Nat :=
  if bitOf old 8 && bitOf v 8 then v / 32 * 32 + bits old 4 0 else v
/-- A register's new value as the paddock's state shows it: STOP shows in the hold alone. -/
def State.cfgPut (s : State) (o : PrivOp) : State :=
  if o.reg = 0x0A then
    if o.val = 2 then s else s.modPad o.elem fun x => { x with held := o.val == 1 }
  else if o.reg = 0x20 then s.setReg 1 o.elem 0x00 0 (vctlValue (s.reg 1 o.elem 0x00 0) o.val)
  else s.setReg (o.reg / 32) o.elem (o.reg % 32) o.ix o.val
/-- The registers as every earlier write of the configuration unit leaves them: an issue checks
R336 against these. -/
def State.cfgView (s : State) : State :=
  s.privs.foldl (fun s e => if e.2.what == 20 && e.2.pool == 0 then s.cfgPut e.2 else s) s
/-- Cores that a CORES write takes away. -/
def coresTaken (d old new : Nat) : List Nat :=
  ((List.range 40).filter fun c => bitOf old c && !bitOf new c).map fun c => 40 * d + c
/-- A core that has left a paddock, and is not cleared yet (R336). -/
def State.draining (s : State) (c : Nat) : Bool :=
  s.privs.any fun e => e.2.what == 20 && e.2.reg == 0x01
    && (coresTaken e.2.ix (e.2.args.headD 0) e.2.val).contains c

/-! ### Refusals (R336) -/

/-- The paddock holds some resource (R327, R328). -/
def State.holdsAny (s : State) (p : Nat) : Bool :=
  (List.range 16).any (fun d =>
    s.reg 0 p 0x01 d != 0 || s.reg 0 p 0x02 d != 0 || s.commonsSize p d != 0 || s.streamCount p d != 0
      || kgetD (s.pad p).ways d 0 != 0)
    || bits (s.reg 0 p 0x05 0) 28 16 != 0 || bits (s.reg 0 p 0x06 0) 27 16 != 0
    || bits (s.reg 0 p 0x07 0) 59 48 != 0 || bits (s.reg 0 p 0x09 0) 59 48 != 0
    || bits (s.reg 0 p 0x0E 0) 63 52 != 0
    || (List.range 2).any fun l =>
      s.reg 0 p 0x08 l != 0 || bits (s.reg 0 p 0x0D l) 23 16 != 0 || bits (s.reg 0 p 0x0F l) 63 52 != 0
/-- Paddocks other than one, and tenants other than one. -/
def otherPads (p : Nat) : List Nat := (List.range 32).filter (· != p)
def otherTenants (p : Nat) : List Nat := (otherPads p).filter (· != 0)
/-- PCTL. -/
def State.pctlBad (s : State) (p v : Nat) : Bool :=
  let k := bits v 1 0
  let old := s.kind p
  (p == 0 && k != 1)
    || (k == 0 && old != 0 && (s.holdsAny p || !(s.vdsOf p).isEmpty))
    || (k != old && k != 0 && old != 0 && !(s.vdsOf p).isEmpty)
/-- CORES. -/
def State.coresBad (s : State) (p d v : Nat) : Bool :=
  ((coresTaken d v (s.reg 0 p 0x01 d)).any fun c =>
    (otherPads p).any (fun r => s.holdsCore r c) || (s.core c).retired || (s.die d).retired || s.draining c)
    || (p == 0 && (List.range 16).all fun x => (if x = d then v else s.reg 0 0 0x01 x) == 0)
/-- CHANS. -/
def State.chansBad (s : State) (p d v : Nat) : Bool :=
  let old := s.reg 0 p 0x02 d
  (s.pages.any fun e => e.2.count != 0 && e.2.owner == p && e.1 / 2 ^ 19 == d
    && bitOf old (e.1 / 2 ^ 14 % 32) && !bitOf v (e.1 / 2 ^ 14 % 32))
    || (List.range 32).any fun c => bitOf v c && !bitOf old c
      && s.chanRetired (d * 2 ^ 36 + c * 2 ^ 31)
/-- A range register of a tenant: the range passes its end or overlaps another tenant's. -/
def State.rangeBad (s : State) (p reg ix v lo1 lo0 hi1 hi0 top : Nat) : Bool :=
  let a := bits v lo1 lo0
  let n := bits v hi1 hi0
  p == 0 || decide (top < a + n)
    || (otherTenants p).any fun r =>
      rangesMeet a n (bits (s.reg 0 r reg ix) lo1 lo0) (bits (s.reg 0 r reg ix) hi1 hi0)
/-- KEYS: a slot that leaves the range is not empty. -/
def State.keysLeave (s : State) (p v : Nat) : Bool :=
  let old := s.reg 0 p 0x05 0
  s.keys.any fun e => e.2.st != 0
    && inSpan (bits old 11 0, bits old 28 16) e.1 && !inSpan (bits v 11 0, bits v 28 16) e.1
/-- The bytes that hold code, group tables or the save area, but for one register. -/
def State.tableSpans (s : State) (p reg ix : Nat) : List (Nat × Nat) :=
  codeBytes (s.reg 0 0 0x10 0) :: (List.range 32).flatMap fun r =>
    (if r = p ∧ reg = 0x0E then [] else [codeBytes (s.reg 0 r 0x0E 0)])
      ++ ((List.range 2).filter fun l => !(r == p && reg == 0x0F && l == ix)).map fun l =>
        groupBytes (s.reg 0 r 0x0F l)
/-- CODE and GROUPTAB: the new range. -/
def State.tableBad (s : State) (p reg ix a n : Nat) : Bool :=
  let x := pageSpan a n
  !s.ownsRange 0 a n || (s.tableSpans p reg ix).any (spansMeet (a, n))
    || s.pages.any fun e => e.2.count != 0 && inSpan x e.1
/-- STREAMS: the paddock has a resident fold or an unfinished copy operation on the die. -/
def State.copiesOn (s : State) (p d : Nat) : Bool :=
  s.folds.any (fun e => e.2.paddock == p && e.2.onCore && dieOf e.2.core == d)
    || s.copies.any fun e => e.2.paddock == p && e.2.phase != 3 && dieOf e.2.core == d
/-- VCTL. -/
def State.vctlBad (s : State) (v x : Nat) : Bool :=
  let old := s.reg 1 v 0x00 0
  let p := bits x 4 0
  (bitOf x 8 && !bitOf old 8 && (s.kind p == 0
      || decide ((if s.kind p = 2 then 8 else 1) ≤ (s.vdsOf p).length)))
    || (bitOf old 8 && !bitOf x 8 && s.droves.any fun e => e.2.paddock != 0 && e.2.vd == v && !e.2.retired)
/-- The write is refused (R336). -/
def State.cfgRefused (s : State) (tgt reg elem ix v : Nat) : Bool :=
  match tgt, reg with
  | 0, 0x00 => s.pctlBad elem v
  | 0, 0x01 => s.coresBad elem ix v
  | 0, 0x02 => s.chansBad elem ix v
  | 0, 0x03 =>
      s.rangeBad elem reg ix v 9 0 26 16 1024
        || (s.commonsSize elem ix != 0 && bits v 26 16 != 0
          && bits v 9 0 * 65536 != s.commonsBase elem ix)
  | 0, 0x04 => s.rangeBad elem reg ix v 7 0 16 8 256 || s.copiesOn elem ix
  | 0, 0x05 =>
      s.rangeBad elem reg ix v 11 0 28 16 4096 || inSpan (bits v 11 0, bits v 28 16) 0
        || s.keysLeave elem v
  | 0, 0x06 =>
      s.rangeBad elem reg ix v 10 0 27 16 2048 || s.folds.any fun e => e.2.paddock == elem && e.2.onCore
  | 0, 0x07 => !s.ownsRange 0 (bits v 43 16 * 65536) (bits v 59 48 * 65536)
  | 0, 0x08 => elem == 0 || decide (32 < v + ((otherTenants elem).map fun r => s.reg 0 r 0x08 ix).foldl (· + ·) 0)
  | 0, 0x0A => (v == 1 && (elem == 0 || (s.pad elem).held)) || (v == 3 && !(s.pad elem).held)
  | 0, 0x0B => elem != 0
  | 0, 0x0D =>
      bits v 23 16 != 0 && (otherPads elem).any fun r =>
        bits (s.reg 0 r 0x0D ix) 23 16 != 0 && bits (s.reg 0 r 0x0D ix) 15 0 == bits v 15 0
  | 0, 0x0E =>
      s.tableBad elem reg ix (bits v 43 20 * 2 ^ 20) (bits v 63 52 * 2 ^ 20)
        || (s.pad elem).objs.any fun o => decide (bits v 63 52 * 2 ^ 20 < o.2.base + 4 * o.2.words)
  | 0, 0x0F => s.tableBad elem reg ix (bits v 43 16 * 65536) (bits v 63 52 * 65536)
  | 0, 0x10 => true
  | 1, 0x00 => s.vctlBad elem v
  | 1, 0x01 =>
      let r := s.page (bits v 43 11 * 2048 / 2 ^ 17)
      bitOf v 0 && !(isHbm (bits v 43 11 * 2048) && r.table)
        && !(r.count == 0 && s.ownsChan 0 (bits v 43 11 * 2048))
  | 1, 0x03 =>
      decide (512 < bits v 8 0 + bits v 19 10) || (List.range 128).any fun x =>
        x != elem && portOf x == portOf elem
          && rangesMeet (bits v 8 0) (bits v 19 10) (s.hwinFirst x) (s.hwinCount x)
  | _, _ => false

/-! ### Effects (R336, R370) -/

/-- Pages marked as holding tables. -/
def State.markTables (s : State) (x : Nat × Nat) : State :=
  (spanPages x).foldl (fun s p => s.modPage p fun r => { r with table := true }) s
/-- A page made CLEARED: it reads zeros and keeps no tag, and the caches hold no line of it (R343, R352). -/
def State.clearPage (s : State) (p : Nat) : State :=
  ({ s with mem := memClear s.mem (p * 2 ^ 17) (2 ^ 17) }.dropLines p 1).modPage p fun r =>
    { r with cleared := true, table := false, bad := [] }
/-- Zeros over a table, under slot 0, and its page marked. -/
def State.newTable (s : State) (a n : Nat) : State :=
  (s.memPut 0 .keep 0 a (List.replicate n 0)).modPage (a / 2 ^ 17) fun r => { r with table := true }
/-- Cores that join a paddock take a copy of its crook-store region, with the errors in it; the binding sets of a first
core are EMPTY, as its region is zero (R370). -/
def State.copyRegion (s : State) (p : Nat) (new : List Nat) : State :=
  let r := s.reg 0 p 0x06 0
  let a := bits r 10 0
  let n := bits r 27 16
  match (List.range 640).find? fun c => s.holdsCore p c with
  | none => s.modPad p fun x => { x with binds := [], crkMet := [] }
  | some c =>
      let ws := (List.range n).map fun i => (kgetD (s.core c).store (a + i) 0).toNat
      let bad := (s.core c).storeBad.filter fun x => decide (a ≤ x) && decide (x < a + n)
      new.foldl (fun s x => s.modCore x fun k =>
        { k with store := storePut k.store a ws, storeBad := storeHeal k.storeBad a n ++ bad }) s
/-- STOP (R336): 1 holds the paddock, 2 resets every context, 3 releases the hold. -/
def State.stopAct (s : State) (p act : Nat) : State :=
  if act = 1 then
    let x := s.pad p
    let s := match x.runEnt with
      | some e => if s.kind p = 2 && !x.switching then s.sliceTrace p 7 e.vd else s
      | none => s
    s.modPad p fun x => { x with held := true, switching := x.switching || x.runEnt.isSome }
  else if act = 2 then
    (s.folds.filter fun e => e.2.paddock == p).foldl (fun s e => s.resetFold e.1) s
  else s.modPad p fun x => { x with held := false }
/-- TRACECTL becomes nonzero: TRACECNT starts again (R331). -/
def State.setTrace (s : State) (v x : Nat) : State :=
  let s := if s.reg 1 v 0x05 0 = 0 ∧ x ≠ 0 then s.setBar v 0x30 0 else s
  s.setReg 1 v 0x05 0 x
/-- A virtual device is created or destroyed: its function has empty queues, its SHADOW registers are 0 (R333,
R336), and the shepherds' state of it changes only from DONE (R437): in STOPPING and RECEIVING it stays frozen. -/
def State.newVd (s : State) (v : Nat) : State :=
  let x := s.vd v
  let keep := if x.shep = 3 then VDev.empty
    else { VDev.empty with
      frozen := x.frozen && (x.shep == 2 || x.shep == 4)
      shep := x.shep, shepArgs := x.shepArgs, round := x.round, granules := x.granules, snapped := x.snapped
      pos := x.pos, sent := x.sent, drops := x.drops, got := x.got }
  { s with vds := kset s.vds v keep }.modVd (128 + portOf v) fun d =>
    { d with bar0 := d.bar0.filter fun e => !(decide (0x5000 + 128 * (v % 64) ≤ e.1)
        && decide (e.1 < 0x5000 + 128 * (v % 64) + 128)) }
/-- Whether a core is marked hot, at a temperature and a threshold (R306). -/
def coreHot (th temp : Nat) (hot : Bool) : Bool := if th ≤ temp then true else if temp + 4 ≤ th then false else hot
/-- The first part of a write: the register, and what follows from it at once. -/
def State.cfgApply (s : State) (o : PrivOp) : State :=
  let p := o.elem
  let v := o.val
  let old := o.args.headD 0
  let t := if o.reg = 0x0A then s else s.cfgPut o
  match o.reg with
  | 0x00 => if bits old 1 0 = bits v 1 0 then t else t.modPad p fun x =>
      { x with startDie := none, running := 0, runEnt := none, switching := false, idle := false, delivered := 0 }
  | 0x01 => (s.copyRegion p (coresTaken o.ix v old)).cfgPut o
  | 0x06 => t.modPad p fun x => { x with binds := [], crkMet := [] }
  | 0x07 => { t with stage := t.stage.filter fun e => e.1 / 16 != p }
  | 0x09 => if bits v 59 48 = 0 then t.modPad p fun x => { x with faultBuf := [] } else t
  | 0x0A => s.stopAct p v
  | 0x0E => t.markTables (codeSpan v)
  | 0x0F => t.markTables (groupSpan v)
  | 0x20 =>
      if bitOf old 8 = bitOf v 8 then t else t.newVd p
  | 0x21 =>
      if bitOf v 0 && !(s.page (bits v 43 11 * 2048 / 2 ^ 17)).table then
        t.newTable (bits v 43 11 * 2048) 2048
      else t
  | 0x25 => s.setTrace p v
  | 0x40 => { t with
      cores := t.cores.map fun (e : Nat × Core) =>
        if dieOf e.1 = p then (e.1, { e.2 with hot := coreHot v e.2.temp e.2.hot }) else e }
  | _ => t
/-- What a write releases: bytes of commons and of host windows. -/
def PrivOp.released (o : PrivOp) : List (Nat × Nat) :=
  let old := o.args.headD 0
  if o.reg = 0x03 then
    (rangeMinus (bits old 9 0 * 65536) (bits old 26 16 * 65536) (bits o.val 9 0 * 65536)
      (bits o.val 26 16 * 65536)).map fun x => (commonsAt o.ix x.1, x.2)
  else if o.reg = 0x23 then
    (rangeMinus (bits old 8 0 * 4096) (bits old 19 10 * 4096) (bits o.val 8 0 * 4096)
      (bits o.val 19 10 * 4096)).map fun x => (windowAt (portOf o.elem) x.1, x.2)
  else []
/-- Pages that leave a CODE or GROUPTAB range. -/
def PrivOp.leaves (o : PrivOp) : List Nat :=
  let old := o.args.headD 0
  if o.reg = 0x0E then (spanPages (codeSpan old)).filter fun p => !inSpan (codeSpan o.val) p
  else if o.reg = 0x0F then (spanPages (groupSpan old)).filter fun p => !inSpan (groupSpan o.val) p
  else []
/-- A write releases some of the bytes. -/
def PrivOp.frees (o : PrivOp) (a n : Nat) : Bool :=
  o.released.any fun r => rangesMeet r.1 r.2 a n
/-- Everything that a write removes is drained (R325, R338): folds have left the cores and the held paddock, and no
access to released bytes is under way, the notification of a copy and the record read of a LAUNCH among them. -/
def State.cfgDrained (s : State) (o : PrivOp) : Bool :=
  (o.reg != 0x01 || s.folds.all fun e => !e.2.onCore
    || !(coresTaken o.ix (o.args.headD 0) o.val).contains e.2.core)
    && (o.reg != 0x0A || o.val != 1 || s.folds.all fun e => e.2.paddock != o.elem || !e.2.onCore)
    && (s.ops.all fun e => e.2.todo.all fun t => t.2.1.all fun a => !o.frees a e.2.bytes)
    && (s.copies.all fun e => e.2.note == 0 || e.2.phase == 3 || !o.frees e.2.naddr 4)
    && s.launches.all fun e => !o.frees e.2.addr 256
/-- Everything that the folds of a core have released is cleared. -/
def State.clearAll (s : State) (c : Nat) : State :=
  ((s.core c).dirtySegs.foldl (fun s g => s.clearSeg c g) s).modCore c fun k =>
    { k with dirtySlots := [], dirty0 := 0, dirty1 := 0 }
/-- What it removes is cleared; a page that another range still touches has not left (log 25). A remnant keeps no
notification there (log 23). -/
def State.cfgClear (s : State) (o : PrivOp) : State :=
  let s := o.released.foldl (fun (s : State) r =>
    { s with mem := memClear s.mem r.1 r.2, upsets := healWords s.upsets r.1 r.2 }) s
  let s := { s with
    copies := s.copies.map fun (e : Nat × CopyOp) =>
      if e.2.phase = 3 ∧ o.frees e.2.naddr 4 then (e.1, { e.2 with note := 0 }) else e }
  let s := (o.leaves.filter fun p =>
    !(s.tableSpans o.elem o.reg o.ix).any (spansMeet (p * 2 ^ 17, 2 ^ 17))).foldl State.clearPage s
  if o.reg = 0x01 then
    let s := (coresTaken o.ix (o.args.headD 0) o.val).foldl
      (fun s c => (s.clearAll c).modCore c fun k => { k with store := [], storeBad := [] }) s
    if (List.range 640).any fun c => s.holdsCore o.elem c then s
    else s.modPad o.elem fun x => { x with binds := [], crkMet := [] }
  else s

/-! ### The configuration unit (R338) -/

/-- The value that a read returns; the write-only field of STOP reads 0 (R8). -/
def State.cfgRead (s : State) (o : PrivOp) : Nat :=
  if o.reg = 0x0A ∨ (o.elem ≠ 0 ∧ (o.reg = 0x0B ∨ o.reg = 0x10)) then 0
  else s.reg (o.reg / 32) o.elem (o.reg % 32) o.ix
/-- A store of the device that is a release at DEVICE scope. -/
def State.relStore (s : State) (a n v : Nat) : State :=
  let s := s.wr a n v
  if isCommons a then s.setRecord a ((s.record a).filter fun e => e.1 != a) else s
/-- A write that takes cores from a paddock is not complete while the run that issued it goes on: what else that run
issues finds the cores still owned (R392, log 23). -/
def State.cfgInRun (s : State) (id : Nat) (o : PrivOp) : Bool :=
  o.reg == 0x01 && !(coresTaken o.ix (o.args.headD 0) o.val).isEmpty
    && match (s.stageOf o.core (s.flock o.fold o.flock).stage).turn with
      | some t => t.fold == o.fold && t.flock == o.flock && decide (t.from_ ≤ id)
      | none => false
/-- CONFIG_WRITE_COMPLETE (R338): the oldest request of the unit. Its effect is performed, and once
what it removes is drained and cleared it completes with its notification; a read is performed. -/
def State.cfgStep (s : State) (id : Nat) : State :=
  match s.privs.find? fun e => e.2.what == 20 || e.2.what == 21 with
  | none => s
  | some (k, o) =>
      if k ≠ id then s
      else if o.what = 21 then
        if s.performedBefore o.fold o.flock id && s.noteReady o.naddr then
          { s with privs := kdel s.privs id }.relStore o.naddr 8 (s.cfgRead o)
        else s
      else
        let s := if o.pool = 1 then s
          else { s.cfgApply o with privs := kset s.privs id { o with pool := 1 } }
        if s.cfgDrained o && s.privReady id o && !s.cfgInRun id o then (s.cfgClear o).privEnd id o else s
def execConfigWriteComplete (op : Nat) (s : State) : Host.Outcome State Fault Refusal :=
  .next (s.cfgStep op)

/-! ### PCFG (R337, R338) -/

/-- A write by PCFG. -/
def pcfgEff (tgt reg : Nat) (h : EHdr) (a : USrc) (q : Iss) (s : State) : Eff :=
  let fo := s.fo q
  let e := (s.uni q h.lit a).toNat
  let v := s.pnat q h.p0 + 2 ^ 32 * s.pnat q h.p1
  let ix := s.pnat q h.p2
  let p3 := s.pnat q h.p3
  let w := s.cfgView
  if cfgElems tgt ≤ e || cfgIndexes tgt reg ≤ ix || !cfgFieldOk tgt reg v
      || w.cfgRefused tgt reg e ix v || s.noteBad fo p3 then .error (cEngparam, q.lanes)
  else
    .ok (s.startPriv q false
      { privOf 20 e [w.reg tgt e reg ix] with
        reg := 32 * tgt + reg, ix := ix, val := v, naddr := s.notePlace fo p3, note := p3 % 4 }, 0)
/-- PCFG.RD. -/
def pcfgRdEff (tgt reg : Nat) (h : EHdr) (a : USrc) (q : Iss) (s : State) : Eff :=
  let fo := s.fo q
  let e := (s.uni q h.lit a).toNat
  let ix := s.pnat q h.p2
  let p3 := s.pnat q h.p3
  if cfgElems tgt ≤ e || cfgIndexes tgt reg ≤ ix || s.pnat q h.p0 != 0 || s.pnat q h.p1 != 0
      || p3 % 8 != 0 || s.commonsBad fo p3 || s.windowBad fo p3 then .error (cEngparam, q.lanes)
  else
    .ok (s.startPriv q false
      { privOf 21 e [] with reg := 32 * tgt + reg, ix := ix, naddr := s.cmPlace fo p3 }, 0)

/-- PCFG.PAD.PCTL (R336). -/
def execPcfgPctl (h : EHdr) (a : USrc) (s : State) : Host.Outcome State Fault Refusal :=
  issue (.pcfgPctl h a) (pcfgEff 0 0x00 h a) s
/-- PCFG.PAD.CORES (R336). -/
def execPcfgCores (h : EHdr) (a : USrc) (s : State) : Host.Outcome State Fault Refusal :=
  issue (.pcfgCores h a) (pcfgEff 0 0x01 h a) s
/-- PCFG.PAD.CHANS (R336). -/
def execPcfgChans (h : EHdr) (a : USrc) (s : State) : Host.Outcome State Fault Refusal :=
  issue (.pcfgChans h a) (pcfgEff 0 0x02 h a) s
/-- PCFG.PAD.COMMONS (R336). -/
def execPcfgCommons (h : EHdr) (a : USrc) (s : State) : Host.Outcome State Fault Refusal :=
  issue (.pcfgCommons h a) (pcfgEff 0 0x03 h a) s
/-- PCFG.PAD.STREAMS (R336). -/
def execPcfgStreams (h : EHdr) (a : USrc) (s : State) : Host.Outcome State Fault Refusal :=
  issue (.pcfgStreams h a) (pcfgEff 0 0x04 h a) s
/-- PCFG.PAD.KEYS (R336). -/
def execPcfgKeys (h : EHdr) (a : USrc) (s : State) : Host.Outcome State Fault Refusal :=
  issue (.pcfgKeys h a) (pcfgEff 0 0x05 h a) s
/-- PCFG.PAD.CROOK (R336). -/
def execPcfgCrook (h : EHdr) (a : USrc) (s : State) : Host.Outcome State Fault Refusal :=
  issue (.pcfgCrook h a) (pcfgEff 0 0x06 h a) s
/-- PCFG.PAD.TRACEBUF (R336). -/
def execPcfgTracebuf (h : EHdr) (a : USrc) (s : State) : Host.Outcome State Fault Refusal :=
  issue (.pcfgTracebuf h a) (pcfgEff 0 0x07 h a) s
/-- PCFG.PAD.DROVER (R336). -/
def execPcfgDrover (h : EHdr) (a : USrc) (s : State) : Host.Outcome State Fault Refusal :=
  issue (.pcfgDrover h a) (pcfgEff 0 0x08 h a) s
/-- PCFG.PAD.FAULTQ (R336). -/
def execPcfgFaultq (h : EHdr) (a : USrc) (s : State) : Host.Outcome State Fault Refusal :=
  issue (.pcfgFaultq h a) (pcfgEff 0 0x09 h a) s
/-- PCFG.PAD.EVQ (R336). -/
def execPcfgEvq (h : EHdr) (a : USrc) (s : State) : Host.Outcome State Fault Refusal :=
  issue (.pcfgEvq h a) (pcfgEff 0 0x0B h a) s
/-- PCFG.PAD.STOP (R336). -/
def execPcfgStopHold (h : EHdr) (a : USrc) (s : State) : Host.Outcome State Fault Refusal :=
  issue (.pcfgStopHold h a) (pcfgEff 0 0x0A h a) s
/-- PCFG.PAD.STOP (R336). -/
def execPcfgStopReset (h : EHdr) (a : USrc) (s : State) : Host.Outcome State Fault Refusal :=
  issue (.pcfgStopReset h a) (pcfgEff 0 0x0A h a) s
/-- PCFG.PAD.STOP (R336). -/
def execPcfgStopRelease (h : EHdr) (a : USrc) (s : State) : Host.Outcome State Fault Refusal :=
  issue (.pcfgStopRelease h a) (pcfgEff 0 0x0A h a) s
/-- PCFG.PAD.DEADLINE (R336). -/
def execPcfgDeadline (h : EHdr) (a : USrc) (s : State) : Host.Outcome State Fault Refusal :=
  issue (.pcfgDeadline h a) (pcfgEff 0 0x0C h a) s
/-- PCFG.PAD.NETRED (R336). -/
def execPcfgNetred (h : EHdr) (a : USrc) (s : State) : Host.Outcome State Fault Refusal :=
  issue (.pcfgNetred h a) (pcfgEff 0 0x0D h a) s
/-- PCFG.PAD.CODE (R336). -/
def execPcfgCode (h : EHdr) (a : USrc) (s : State) : Host.Outcome State Fault Refusal :=
  issue (.pcfgCode h a) (pcfgEff 0 0x0E h a) s
/-- PCFG.PAD.GROUPTAB (R336). -/
def execPcfgGrouptab (h : EHdr) (a : USrc) (s : State) : Host.Outcome State Fault Refusal :=
  issue (.pcfgGrouptab h a) (pcfgEff 0 0x0F h a) s
/-- PCFG.PAD.SAVEAREA (R336). -/
def execPcfgSavearea (h : EHdr) (a : USrc) (s : State) : Host.Outcome State Fault Refusal :=
  issue (.pcfgSavearea h a) (pcfgEff 0 0x10 h a) s
/-- PCFG.VD.VCTL (R336). -/
def execPcfgVctl (h : EHdr) (a : USrc) (s : State) : Host.Outcome State Fault Refusal :=
  issue (.pcfgVctl h a) (pcfgEff 1 0x00 h a) s
/-- PCFG.VD.S2ROOT (R336). -/
def execPcfgS2root (h : EHdr) (a : USrc) (s : State) : Host.Outcome State Fault Refusal :=
  issue (.pcfgS2root h a) (pcfgEff 1 0x01 h a) s
/-- PCFG.VD.S1ROOT (R336). -/
def execPcfgS1root (h : EHdr) (a : USrc) (s : State) : Host.Outcome State Fault Refusal :=
  issue (.pcfgS1root h a) (pcfgEff 1 0x02 h a) s
/-- PCFG.VD.HWIN (R336). -/
def execPcfgHwin (h : EHdr) (a : USrc) (s : State) : Host.Outcome State Fault Refusal :=
  issue (.pcfgHwin h a) (pcfgEff 1 0x03 h a) s
/-- PCFG.VD.VDN (R336). -/
def execPcfgVdn (h : EHdr) (a : USrc) (s : State) : Host.Outcome State Fault Refusal :=
  issue (.pcfgVdn h a) (pcfgEff 1 0x04 h a) s
/-- PCFG.VD.TRACECTL (R336). -/
def execPcfgTracectl (h : EHdr) (a : USrc) (s : State) : Host.Outcome State Fault Refusal :=
  issue (.pcfgTracectl h a) (pcfgEff 1 0x05 h a) s
/-- PCFG.DIE.HOT (R336). -/
def execPcfgHot (h : EHdr) (a : USrc) (s : State) : Host.Outcome State Fault Refusal :=
  issue (.pcfgHot h a) (pcfgEff 2 0x00 h a) s
/-- PCFG.DIE.QWIN (R336). -/
def execPcfgQwin (h : EHdr) (a : USrc) (s : State) : Host.Outcome State Fault Refusal :=
  issue (.pcfgQwin h a) (pcfgEff 2 0x01 h a) s
/-- PCFG.RD (R338). -/
def execPcfgRd (h : EHdr) (a : USrc) (tgt reg : Nat) (s : State) : Host.Outcome State Fault Refusal :=
  issue (.pcfgRd h a tgt reg) (pcfgRdEff tgt reg h a) s

end Sys2Proof.Machine
end

