-- ==== Sys2Proof/Machine/Priv.lean ====
section
/-! DEFINITION. The privileged instructions on keys, translation, virtual device numbers, bandwidth
and ways, slices, cleared pages and messages (R345 to R352, R354 to R365). -/
namespace Sys2Proof.Machine

/-! ### Keys (R350, R351) -/

/-- A slot is EMPTY, and no PKEY under way is to fill it. -/
def State.slotFree (s : State) (k : Nat) : Bool :=
  (s.key k).st == 0 && s.privs.all fun e => e.2.what != 10 || e.2.elem != k
/-- Every cache line that carries a slot becomes invalid, its dirty sectors discarded (R351). -/
def State.loseSlot (s : State) (k : Nat) : State := s.loseLines fun c => c.slot == k
/-- PKEY at issue: `op` 0 GEN, 1 LOAD, 2 ERASE. The material of a key is told apart by a number: that
of the 64 bytes for LOAD, and one of its own for GEN. LOAD reads its bytes at issue: one with an uncorrectable error
raises ECC (R404). From the issue of ERASE on no line of the slot is left to write back (R351). -/
def pkeyEff (op : Nat) (h : EHdr) (a : USrc) (q : Iss) (s : State) : Eff :=
  let fo := s.fo q
  let k := (s.uni q h.lit a).toNat
  let p0 := s.pnat q h.p0
  let p3 := s.pnat q h.p3
  let bad := decide (4096 ≤ k) || k == 0 || s.pnat q h.p1 != 0 || s.pnat q h.p2 != 0
    || (if op = 1 then
          p0 % 64 != 0 || selOf p0 != 0 || s.commonsBad fo p0 || s.commonsBad fo (p0 + 63)
        else p0 != 0)
    || (if op = 2 then !s.keyLive k else !s.slotFree k) || s.noteBad fo p3
  if bad then .error (cEngparam, q.lanes)
  else if op = 1 ∧ s.struck (s.cmPlace fo p0) 64 then .error (cEcc, q.lanes)
  else
    let o := { privOf (if op = 2 then 11 else 10) k [] with
      val := if op = 1 then 2 * leNat (memRead s.mem (s.cmPlace fo p0) 64) + 1 else 2 * s.nextId + 2
      naddr := s.notePlace fo p3, note := p3 % 4 }
    let s := if op = 2 then { s with keys := kset s.keys k { s.key k with st := 2 } }.loseSlot k else s
    .ok (s.startPriv q false o, 0)
/-- PKEY.GEN (R350, R351). -/
def execPkeyGen (h : EHdr) (a : USrc) (s : State) : Host.Outcome State Fault Refusal :=
  issue (.pkeyGen h a) (pkeyEff 0 h a) s
/-- PKEY.LOAD (R350, R351). -/
def execPkeyLoad (h : EHdr) (a : USrc) (s : State) : Host.Outcome State Fault Refusal :=
  issue (.pkeyLoad h a) (pkeyEff 1 h a) s
/-- PKEY.ERASE (R350, R351). -/
def execPkeyErase (h : EHdr) (a : USrc) (s : State) : Host.Outcome State Fault Refusal :=
  issue (.pkeyErase h a) (pkeyEff 2 h a) s
/-- The slot becomes LIVE with the key, or EMPTY (R351). -/
def State.keyAct (s : State) (o : PrivOp) : State :=
  if o.what = 10 then { s with keys := kset s.keys o.elem { st := 1, gen := o.val } }
  else { s with keys := kdel s.keys o.elem }.loseSlot o.elem

/-! ### PMAP (R341 to R345) -/

/-- Bytes that an entry of a level covers, and the size of the table that an entry of it names. -/
def granule2 (level : Nat) : Nat := if level = 1 then 2 ^ 40 else if level = 2 then 2 ^ 29 else 2 ^ 17
def tableBytes (level : Nat) : Nat := if level = 1 then 2 ^ 14 else 2 ^ 15
/-- The entry is valid and of a type. -/
def entryIs (e type : Nat) : Bool := bitOf e 0 && bits e 2 1 == type
/-- The output of a page leaf, and the HBM4 pages that it covers. -/
def leafBase (level e : Nat) : Nat := leafOut level e 0
def leafPages (level e : Nat) : List Nat :=
  if isHbm (leafBase level e) then
    (List.range (if level = 2 then 4096 else 1)).map fun i => leafBase level e / 2 ^ 17 + i
  else []
/-- Check 4 of R345: a page leaf's output. -/
def State.leafBad (s : State) (vd p level e : Nat) : Bool :=
  let a := leafBase level e
  (if isHbm a then !s.ownsChan p a || s.chanRetired a
   else !isHostAddr a || decide (8 ≤ bits a 43 40) != (portOf vd == 1))
    || (leafPages level e).any fun x =>
      let r := s.page x
      r.table || (r.count != 0 && (r.owner != p || r.key != bits e 63 52))
/-- Check 6: a leaf with C set disagrees with a valid C leaf of its group (R342). `at_` is the place
of the new entry, and `i` its index in its table. -/
def State.groupBad (s : State) (at_ i e : Nat) : Bool :=
  (List.range 64).any fun j =>
    let x := s.rd (at_ - 8 * (i % 64) + 8 * j) 8
    j != i % 64 && bitOf x 0 && bits x 2 1 == 1 && bitOf x 5
      && (bits x 63 52 != bits e 63 52 || bits x 4 3 != bits e 4 3
        || bits x 47 17 + i % 64 != bits e 47 17 + j)
/-- The checks of R345 on a new entry with V set. -/
def State.newEntryBad (s : State) (vd level gpa at_ e : Nat) : Bool :=
  let p := s.vdPad vd
  !entryOk 2 level e || match bits e 2 1 with
    | 0 =>
        let r := s.page (tableAddr e / 2 ^ 17)
        !s.ownsChan 0 (tableAddr e) || r.count != 0
    | 1 =>
        s.leafBad vd p level e
          || !inSpan (bits (s.reg 0 p 0x05 0) 11 0, bits (s.reg 0 p 0x05 0) 28 16) (bits e 63 52)
          || !s.keyLive (bits e 63 52)
          || (bitOf e 5 && s.groupBad at_ (bits gpa 28 17) e)
    | 2 => false
    | _ =>
        let v := bits e 22 16
        !s.vdValid v || s.vdPad v != p || decide (s.lqn v ≤ bits e 27 24)
/-- Check 9: a valid table entry whose table still holds a valid entry is replaced. -/
def State.tableInUse (s : State) (level old : Nat) : Bool :=
  level != 3 && entryIs old 0 && (List.range (tableBytes level / 8)).any fun i =>
    bitOf (s.rd (tableAddr old + 8 * i) 8) 0
/-- The table bytes that the checks of R345 read: the entries of the walk and the one there, the group of a leaf with C
set, and the table that the old entry names. -/
def State.pmapReads (s : State) (vd level gpa e : Nat) : List (Nat × Nat) :=
  ((List.range level).filterMap fun i => s.entry2At vd gpa (i + 1)).map (fun a => (a, 8)) ++
    match s.entry2At vd gpa level with
    | none => []
    | some at_ =>
        (if entryIs e 1 && bitOf e 5 then [(at_ - 8 * (bits gpa 28 17 % 64), 512)] else [])
          ++ if level != 3 && entryIs (s.rd at_ 8) 0 then [(tableAddr (s.rd at_ 8), tableBytes level)] else []
/-- Check 1 of R345, but for a substituted operand's form. -/
def State.pmapOdd (s : State) (vd level gpa : Nat) : Bool :=
  !s.vdValid vd || !bitOf (s.reg 1 vd 0x01 0) 0 || gpa % granule2 level != 0
/-- A table that the checks read holds an uncorrectable error, or its channel is retired: ECC at issue (R404, R448,
log 91). -/
def State.pmapUnread (s : State) (vd level gpa e : Nat) : Bool :=
  (s.pmapReads vd level gpa e).any fun x => (s.readErr 0 x.1 x.2).isSome
/-- What the checks read passes the cache of its stack (R26), counted as the operation is performed (log 72). -/
def State.pmapPass (s : State) (vd level gpa e : Nat) : State :=
  (s.pmapReads vd level gpa e).foldl (fun s x => s.cached (s.payer 0 x.1) .keep false 0 x.1 x.2) s
/-- The checks of R345 that do not hang on a substituted operand's form. They read the completed state: another PMAP
under way is not counted (log 95). -/
def State.pmapBad (s : State) (vd level gpa e : Nat) : Bool :=
  s.pmapOdd vd level gpa || match s.entry2At vd gpa level with
      | none => true
      | some at_ =>
          (bitOf e 0 && s.newEntryBad vd level gpa at_ e) || s.tableInUse level (s.rd at_ 8)
/-- The count of valid leaves of a page goes down. -/
def PageRec.unmapped (r : PageRec) : PageRec :=
  { r with
    count := r.count - 1, track := r.track && r.count != 1
    dirty := if r.count = 1 then 0 else r.dirty }
/-- It goes up; `track` where the virtual device is tracked (R429). It is not bounded at 65,535, past which R343 states
nothing (log 95). -/
def PageRec.mapped (r : PageRec) (p key : Nat) (track : Bool) : PageRec :=
  { r with
    count := r.count + 1, owner := p, key := key, track := r.track || track
    dirty := if track then 2 ^ 64 - 1 else r.dirty }
/-- The effect of PMAP (R345). -/
def State.pmapAct (s : State) (vd level gpa e : Nat) : State :=
  match s.entry2At vd gpa level with
  | none => s
  | some at_ =>
      let p := s.vdPad vd
      let old := s.rd at_ 8
      let s := s.pmapPass vd level gpa e
      let s := if entryIs e 0 && !bitOf old 0 then s.newTable (tableAddr e) (tableBytes level) else s
      let s := if entryIs old 1 then
        (leafPages level old).foldl (fun s x => s.modPage x PageRec.unmapped) s else s
      let s := if entryIs e 1 then
        (leafPages level e).foldl (fun s x => s.modPage x fun r =>
          r.mapped p (bits e 63 52) ((s.vd vd).shep == 1 || (s.vd vd).shep == 2)) s else s
      s.memPut 0 .keep 0 at_ (leBytes e 8)
/-- PMAP (R345). -/
def execPmap (h : EHdr) (a : USrc) (lvl : Nat) (s : State) : Host.Outcome State Fault Refusal :=
  issue (.pmap h a lvl) (fun q s =>
    let vd := (s.uni q h.lit a).toNat
    let g := s.pnat q h.p0
    let e := s.pnat q h.p1 + 2 ^ 32 * s.pnat q h.p2
    if 128 ≤ vd || 2 ^ 31 ≤ g || s.pnat q h.p3 != 0 || s.pmapOdd vd (lvl + 1) (g * 2 ^ 17) then
      .error (cEngparam, q.lanes)
    else if s.pmapUnread vd (lvl + 1) (g * 2 ^ 17) e then .error (cEcc, q.lanes)
    else if s.pmapBad vd (lvl + 1) (g * 2 ^ 17) e then .error (cEngparam, q.lanes)
    else .ok (s.startPriv q true { privOf 12 vd [] with reg := lvl + 1, ix := g * 2 ^ 17, val := e }, 0)) s

/-! ### TLBI and VDNSET (R346 to R348) -/

/-- A TLBI: it completes when every cache has dropped the translations. -/
def tlbiEff (bad : Bool) (q : Iss) (s : State) : Eff :=
  if bad then .error (cEngparam, q.lanes) else .ok (s.startPriv q true (privOf 13 0 []), 0)
/-- TLBI.VD (R346). -/
def execTlbiVd (h : UHdr) (a : USrc) (s : State) : Host.Outcome State Fault Refusal :=
  issue (.tlbiVd h a) (uOp h fun q s => tlbiEff (!s.vdValid (s.uni q h.lit a).toNat) q s) s
/-- TLBI.PAGE (R346). -/
def execTlbiPage (h : UHdr) (a b : USrc) (s : State) : Host.Outcome State Fault Refusal :=
  issue (.tlbiPage h a b) (uOp h fun q s =>
    tlbiEff (!s.vdValid (s.uni q h.lit a).toNat || decide (2 ^ 31 ≤ (s.uni q h.lit b).toNat)) q s) s
/-- TLBI.PAD (R346). -/
def execTlbiPad (h : UHdr) (a : USrc) (s : State) : Host.Outcome State Fault Refusal :=
  issue (.tlbiPad h a) (uOp h fun q s => tlbiEff (decide (32 ≤ (s.uni q h.lit a).toNat)) q s) s
/-- TLBI.ALL (R346). -/
def execTlbiAll (h : UHdr) (a : USrc) (s : State) : Host.Outcome State Fault Refusal :=
  issue (.tlbiAll h a) (uOp h fun q s => tlbiEff ((s.uni q h.lit a) != 0) q s) s
/-- An entry of the map (R347). -/
def State.vdnAct (s : State) (o : PrivOp) : State :=
  { s with
    vdns := kset s.vdns (o.ix % 4096)
      { st := bits o.val 1 0, tag := o.ix / 4096, group := o.reg, vd := bits o.val 8 2
        device := bits o.val 23 9, moved := ((s.die 16).refs, (s.die 17).refs), expired := 0 } }
/-- VDNSET (R348). -/
def execVdnset (h : UHdr) (a b : USrc) (s : State) : Host.Outcome State Fault Refusal :=
  issue (.vdnset h a b) (uOp h fun q s =>
    let x := (s.uni q h.lit a).toNat
    let y := (s.uni q h.lit b).toNat
    if 2 ^ 28 ≤ x || 2 ^ 24 ≤ y || (bits y 1 0 == 1 && !s.vdValid (bits y 8 2)) then
      .error (cEngparam, q.lanes)
    else
      .ok (s.startPriv q true { privOf 14 0 [] with ix := bits x 15 0, reg := bits x 27 16, val := y }, 0)) s

/-! ### Slices (R363) -/

/-- SLICE (R363): the entry is written at once. -/
def execSlice (h : EHdr) (a : USrc) (entry : Nat) (s : State) : Host.Outcome State Fault Refusal :=
  issue (.slice h a entry) (fun q s =>
    let fo := s.fo q
    let p := (s.uni q h.lit a).toNat
    let x := s.pnat q h.p0
    let len := s.pnat q h.p1
    let p3 := s.pnat q h.p3
    let v := bitOf x 7
    if 32 ≤ p || s.kind p != 2 || 256 ≤ x || 2 ^ 24 ≤ len || s.pnat q h.p2 != 0 || s.noteBad fo p3
        || (v && (!s.vdValid (x % 128) || s.vdPad (x % 128) != p || len == 0)) then
      .error (cEngparam, q.lanes)
    else
      .ok ((s.modPad p fun d => { d with slices := kset d.slices entry ⟨v, x % 128, len⟩ }).startPriv q
        false { privOf 15 p [] with naddr := s.notePlace fo p3, note := p3 % 4 }, 0)) s

/-! ### Bandwidth and ways (R354, R355, R359, R360) -/

/-- Channels of a stack that are not retired, and of those the paddock's. -/
def State.liveChans (s : State) (st : Nat) : Nat :=
  ((List.range 32).filter fun c => !s.chanRetired (st * 2 ^ 36 + c * 2 ^ 31)).length
def State.ownChans (s : State) (p st : Nat) : Nat :=
  ((List.range 32).filter fun c =>
    s.ownsChan p (st * 2 ^ 36 + c * 2 ^ 31) && !s.chanRetired (st * 2 ^ 36 + c * 2 ^ 31)).length
/-- The capacity of a stack (R353), and a paddock's minimum and cap there; 0 and 1,024 after reset. -/
def State.capacity (s : State) (st : Nat) : Nat := 1024 * s.liveChans st / 32
def State.minOf (s : State) (p st : Nat) : Nat := (kgetD (s.pad p).bw st (0, 1024)).1
def State.capOf (s : State) (p st : Nat) : Nat := (kgetD (s.pad p).bw st (0, 1024)).2
def State.setBw (s : State) (p st mn cap : Nat) : State :=
  s.modPad p fun d => { d with bw := kset d.bw st (mn, cap) }
/-- The largest minimum that a paddock has on a stack, or that a QOSSET.BW under way is to give it (R354, log 27). -/
def State.minDue (s : State) (p st : Nat) : Nat :=
  s.privs.foldl (fun m e =>
    if e.2.what = 16 ∧ e.2.elem = p ∧ e.2.ix = st then Nat.max m (bits e.2.val 10 0) else m) (s.minOf p st)
/-- Minima of the paddocks of a stack, but for one. -/
def State.minSum (s : State) (st : Nat) (ps : List Nat) : Nat :=
  (ps.map fun r => s.minDue r st).foldl (· + ·) 0
/-- The sum of the minima in force on a stack. -/
def State.minHeld (s : State) (st : Nat) : Nat := ((List.range 32).map fun p => s.minOf p st).foldl (· + ·) 0
/-- Some condition of R354 fails on a stack. -/
def State.bwBroken (s : State) (st : Nat) : Bool :=
  decide (s.capacity st < s.minHeld st)
    || (List.range 32).any fun p => decide (32 * s.ownChans p st < s.minOf p st)
/-- R355: minima within the channel limits, then shrunk to the capacity, and caps within it; event 4. -/
def State.shrinkBw (s : State) (st : Nat) : State :=
  if !s.bwBroken st then s
  else
    let r := s.capacity st
    let s := (List.range 32).foldl (fun s p =>
      s.setBw p st (Nat.min (s.minOf p st) (32 * s.ownChans p st)) (s.capOf p st)) s
    let sum := s.minHeld st
    let s := (List.range 32).foldl (fun t p =>
      t.setBw p st (if r < sum then s.minOf p st * r / sum else s.minOf p st) (Nat.min (s.capOf p st) r)) s
    s.event 4 st 0 0 st []
/-- The values of a QOSSET.BW come into force: QOSSET keeps the conditions of R354 true, so that where a retirement since
its issue has lowered what they allow, they shrink as R355 gives (log 27). -/
def State.bwAct (s : State) (p st mn cap : Nat) : State := (s.setBw p st mn cap).shrinkBw st
/-- QOSSET (R360): `what` 0 BW, 1 WAYS. -/
def qosEff (what : Nat) (h : EHdr) (a : USrc) (q : Iss) (s : State) : Eff :=
  let fo := s.fo q
  let p := (s.uni q h.lit a).toNat
  let st := s.pnat q h.p0
  let x := s.pnat q h.p1
  let p3 := s.pnat q h.p3
  let mn := bits x 10 0
  let cap := bits x 26 16
  let bad := if what = 0 then
      x != mn + 65536 * cap || decide (1024 < mn) || cap == 0 || decide (1024 < cap) || decide (cap < mn)
        || decide (32 * s.ownChans p st < mn)
        || decide (s.capacity st < mn + s.minSum st (otherPads p))
    else decide (65536 ≤ x)
  if 32 ≤ p || 16 ≤ st || s.pnat q h.p2 != 0 || bad || s.noteBad fo p3 then .error (cEngparam, q.lanes)
  else
    .ok (s.startPriv q false
      { privOf (16 + what) p [] with
        ix := st, val := x, naddr := s.notePlace fo p3, note := p3 % 4 }, 0)
/-- QOSSET.BW (R360). -/
def execQossetBw (h : EHdr) (a : USrc) (s : State) : Host.Outcome State Fault Refusal :=
  issue (.qossetBw h a) (qosEff 0 h a) s
/-- QOSSET.WAYS (R360). -/
def execQossetWays (h : EHdr) (a : USrc) (s : State) : Host.Outcome State Fault Refusal :=
  issue (.qossetWays h a) (qosEff 1 h a) s
/-- A way gets a new owner, or none, once its old owner's lines are written back and invalid (R359). -/
def State.giveWay (s : State) (d way : Nat) (new : Option Nat) : State :=
  (List.range 32).foldl (fun s p =>
    if some p = new then
      if bitOf (s.ways p d) way then s
      else s.modPad p fun x => { x with ways := kset x.ways d (s.ways p d + 2 ^ way) }
    else if bitOf (s.ways p d) way then
      (s.cleanWay p d way).modPad p fun x => { x with ways := kset x.ways d (s.ways p d - 2 ^ way) }
    else s) s
/-- Ways that a QOSSET.WAYS has still to hand over: those named that another owner or none has, and
those of the paddock that it does not name. -/
def State.waysLeft (s : State) (o : PrivOp) : List Nat :=
  (List.range 16).filter fun w => bitOf o.val w != bitOf (s.ways o.elem o.ix) w
/-- WAY_HANDOVER (R359): a way passes to its new owner under the oldest QOSSET that moves it. -/
def State.handover (s : State) (die way : Nat) : State :=
  match s.privs.find? fun e => e.2.what == 17 && e.2.ix == die && (s.waysLeft e.2).contains way with
  | some (_, o) => s.giveWay die way (if bitOf o.val way then some o.elem else none)
  | none => s
def execWayHandover (die way : Nat) (s : State) : Host.Outcome State Fault Refusal :=
  .next (s.handover die way)

/-! ### Cleared pages (R352) -/

/-- Pages made CLEARED, and their cache lines invalid. -/
def State.clearRange (s : State) (first n : Nat) : State :=
  { s.dropLines first n with
    mem := memClear s.mem (first * 2 ^ 17) (n * 2 ^ 17)
    pages := s.pages.map fun e =>
      if inSpan (first, n) e.1 then (e.1, { e.2 with cleared := true, bad := [] }) else e }
/-- CLEARP (R352). -/
def execClearp (h : UHdr) (a b : USrc) (s : State) : Host.Outcome State Fault Refusal :=
  issue (.clearp h a b) (uOp h fun q s =>
    let p := (s.uni q h.lit a).toNat
    let n := (s.uni q h.lit b).toNat
    if n == 0 || 2 ^ 23 < p + n
        || s.pages.any (fun e => inSpan (p, n) e.1 && (e.2.count != 0 || e.2.table)) then
      .error (cEngparam, q.lanes)
    else .ok (s.startPriv q true { privOf 18 0 [] with ix := p, val := n }, 0)) s

/-! ### Messages (R365) -/

/-- MSG (R365). `dest`: 0 the hypervisor complex, 1 and 2 the physical functions, 3 a virtual
function, named by A's whole value: one of 128 and up is an invalid virtual device (log 97). -/
def execMsg (h : EHdr) (a : USrc) (dest : Nat) (s : State) : Host.Outcome State Fault Refusal :=
  issue (.msg h a dest) (fun q s =>
    let v := (s.uni q h.lit a).toNat
    if (if dest = 3 then !s.vdValid v else a != .zero) then .error (cEngparam, q.lanes)
    else
      .ok (s.startPriv q false
        { privOf 19 (if dest = 3 then v else 127 + dest)
            [s.pnat q h.p0, s.pnat q h.p1, s.pnat q h.p2, s.pnat q h.p3] with reg := dest }, 0)) s
/-- The message is delivered. -/
def State.msgAct (s : State) (o : PrivOp) : State :=
  let ws := o.args.map wd
  if o.reg = 0 then { s with hvMail := s.hvMail ++ [ws ++ [wd s.hvMail.length, 0, 0, 0]] }
  else s.mailPut o.elem ws
/-- Messages of one flock are delivered in order, after its earlier accesses. -/
def State.msgReady (s : State) (id : Nat) (o : PrivOp) : Bool :=
  s.performedBefore o.fold o.flock id && s.privs.all fun e =>
    decide (id ≤ e.1) || e.2.what != 19 || e.2.fold != o.fold || e.2.flock != o.flock

/-! ### Completion -/

/-- The completion of the operations of this file and of CRKLOAD. -/
def State.privStep (s : State) (id : Nat) (o : PrivOp) : State :=
  if !s.privReady id o then s
  else match o.what with
    | 0 | 1 | 2 => if s.crookRuns o.elem then s else (s.crkAct o).privEnd id o
    | 10 | 11 => (s.keyAct o).privEnd id o
    | 12 => (s.pmapAct o.elem o.reg o.ix o.val).privEnd id o
    | 13 | 15 => s.privEnd id o
    | 14 => (s.vdnAct o).privEnd id o
    | 16 => (s.bwAct o.elem o.ix (bits o.val 10 0) (bits o.val 26 16)).privEnd id o
    | 17 => if (s.waysLeft o).isEmpty then s.privEnd id o else s
    | 18 => (s.clearRange o.ix o.val).privEnd id o
    | 19 => if s.msgReady id o then (s.msgAct o).privEnd id o else s
    | _ => s

end Sys2Proof.Machine
end

