-- ==== Sys2Proof/Machine/Save.lean ====
section
/-! DEFINITION. The neutral state record stream (R419 to R422, R439), SAVEX and LOADX (R423 to R425),
and moving code (R426 to R428). -/
namespace Sys2Proof.Machine

/-! ### Writing a stream (R419, R420) -/

/-- A record: its header, and its body filled to a multiple of 8 bytes. -/
def recBytes (type : Nat) (body : List Byte) : List Byte :=
  let n := (body.length + 7) / 8 * 8
  leBytes type 4 ++ leBytes n 4 ++ body ++ List.replicate (n - body.length) 0
/-- Set bits of a mask of `w` bits, lowest first. -/
def bitList (m w : Nat) : List Nat := (List.range w).filter (bitOf m)
/-- The section of an object that holds a code offset, or the one given. -/
def CodeObj.sectAt (o : CodeObj) (off held : Nat) : Nat :=
  (((List.range o.variants.length) ++ [4]).find? fun i =>
    decide ((o.section i).off ≤ off) && decide (off < (o.section i).off + (o.section i).len)).getD held
/-- A PC in offset form, and in point form where it carries a live map (R420). -/
def CodeObj.pcWord (o : CodeObj) (held pc : Nat) (point : Bool) : Nat :=
  let off := (pc + 2 ^ 32 - o.base) % 2 ^ 32
  let sect := o.sectAt off held
  let i := o.points.findIdx fun p => p.off == off
  if point && i < o.points.length then 2 ^ 31 + (o.points.getD i ⟨0, 0, 0, 0, LiveMap.none⟩).sect * 2 ^ 28 + i
  else sect * 2 ^ 28 + (off + 2 ^ 32 - (o.section sect).off) % 2 ^ 32 / 4 % 2 ^ 28
/-- The word of a lane's PC, taken at the place where its code stands now (R428). -/
def CodeObj.laneWord (o : CodeObj) (now : Nat → Nat) (held : Nat) (fl : Flock) (l : Nat) : Nat :=
  if fl.exited.getLsbD l then 2 ^ 32 - 1
  else o.pcWord held (now (fl.pc l)) ((fl.wait l).bind Wait.point).isSome
/-- The registers that a save of a flock holds: those of the live maps, or all within the budget. -/
def State.saveMap (s : State) (fo : Fold) (fl : Flock) : LiveMap :=
  let o := s.objOf fo
  if fl.live = 0 then LiveMap.none
  else if fl.saved = 2 then
    { LiveMap.none with v := 2 ^ (o.section fo.sect).regs - 1, p := 2 ^ 96 - 2, s := 2 ^ 32 - 1 }
  else fl.restMap o
/-- FLOCK. The K values have that of k0, which is always true, among them. -/
def State.flockRec (s : State) (fo : Fold) (fl : Flock) : List Byte :=
  let o := s.objOf fo
  let m := s.saveMap fo fl
  let ages := if fl.saved = 2 && fl.live != 0 then 16 else 0
  recBytes 0x30
    (leBytes (fl.ix + 256 * ages) 4 ++ leBytes fl.exited.toNat 4 ++ leBytes fl.deliver.toNat 4
      ++ leBytes fl.fflags.toNat 4 ++ leBytes fl.ftrapen.toNat 4 ++ leBytes fl.watch.toNat 4
      ++ (List.range 32).flatMap (fun l => leBytes (o.laneWord (s.forward fo.paddock) fo.sect fl l) 4)
      ++ leBytes m.v 8 ++ leBytes m.p 12 ++ leBytes m.s 4 ++ leBytes (Nat.lor fl.k.toNat 1) 1
      ++ (bitList m.v 64).flatMap (fun n => (List.range 32).flatMap fun l => leBytes (fl.getV n l).toNat 4)
      ++ (bitList m.p 96).flatMap (fun n => leBytes (maskOf fun l => fl.getP n l).toNat 4)
      ++ (bitList m.s 32).flatMap (fun n => leBytes (fl.getS n).toNat 4)
      ++ (List.range ages).flatMap fun a => (List.range 32).flatMap fun l => leBytes (fl.getQ a l).toNat 4)
/-- BARRIER. -/
def Fold.barRec (fo : Fold) (b : Nat) : List Byte :=
  let x := fo.barrier b
  recBytes 0x21 (leBytes (b + 256 * x.phase) 8
    ++ (List.range 16).flatMap fun f => leBytes (kgetD x.arrived f 0).toNat 4)
/-- ACC. -/
def tileRec (n : Nat) (t : Tile) : List Byte :=
  recBytes 0x31 (leBytes (n + 256 * ((if t.win then 1 else 0) + if t.sat then 2 else 0)) 8
    ++ (List.range 1024).flatMap fun k => leBytes (t.get k % 2 ^ 192).toNat 24)
/-- The tiles that the save of a fold holds: the listed ones, or all four. -/
def State.savedTileList (s : State) (fo : Fold) : List Nat :=
  let o := s.objOf fo
  if !o.acc then []
  else if fo.ipoint then [0, 1, 2, 3]
  else bitList (fo.flocks.foldl (fun m fl => m.union (fl.restMap o)) LiveMap.none).acc 4
/-- CHUNKS: maximal runs of saved chunks of one owner. -/
def Fold.chunkRecs (fo : Fold) : List Byte :=
  (runsOf (fo.savedChunks.map fun c => (c.1, if (kget fo.savedOwn c.1).isSome then 1 else 0))).flatMap
    fun r => recBytes 0x32 (leBytes (r.1 + 2 ^ 16 * r.2.1 + 2 ^ 32 * r.2.2) 8
      ++ (List.range r.2.1).flatMap fun i => kgetD fo.savedChunks (r.1 + i) [])
/-- The ranges of a remnant: data chunks that have not returned. -/
def Fold.remRanges (fo : Fold) (id : Nat) (o : CopyOp) : List (Nat × Nat × Nat) :=
  if o.kind = 2 then [(o.first, o.count, 0)]
  else runsOf ((o.dataChunks.filter fun ch => kget fo.savedOwn ch == some id).map fun ch => (ch, 0))
/-- REMNANT. -/
def State.remRec (s : State) (fo : Fold) (id : Nat) (o : CopyOp) : List Byte :=
  let rs := fo.remRanges id o
  let rlog := if o.kind = 5 then 0 else Nat.log2 (o.rowlen / 16)
  recBytes 0x33
    (leBytes (o.flock + 2 ^ 8 * o.qn + 2 ^ 16 * o.kind + 2 ^ 24 * rlog) 4 ++ leBytes (o.res + 2 ^ 8 * rs.length) 4
      ++ leBytes o.pitch 4 ++ leBytes o.addr 8 ++ leBytes o.ichunk 2 ++ leBytes o.first 2
      ++ leBytes (o.count - 1) 4 ++ leBytes o.p3 4
      ++ leBytes ((s.objOf fo).pcWord fo.sect o.pc false) 4
      ++ rs.flatMap fun r => leBytes r.1 2 ++ leBytes r.2.1 2)
/-- A fold as its stream shows it: a chunk whose rows a cut store still holds is listed with the store's remnant, with
the bytes that the store has read where the fold does not save the chunk itself (R416, log 60). -/
def State.streamFold (s : State) (fid : Nat) (fo : Fold) : Fold :=
  (s.copiesOf fid).foldl (fun fo e => e.2.data.foldl (fun (fo : Fold) (d : Nat × List Byte) =>
    let ch := e.2.first + d.1
    { fo with
      savedOwn := if (kget fo.savedOwn ch).isSome then fo.savedOwn else kset fo.savedOwn ch e.1
      savedChunks := if (kget fo.savedChunks ch).isSome then fo.savedChunks else kset fo.savedChunks ch d.2 }) fo) fo
/-- FOLD and what follows it. -/
def State.foldRecs (s : State) (fid : Nat) (fo : Fold) : List Byte :=
  let fo := s.streamFold fid fo
  let b := (s.objOf fo).section fo.sect
  recBytes 0x20 (leBytes fo.index 4 ++ leBytes fo.sect 1 ++ leBytes fo.flocks.length 1
    ++ leBytes b.segs 1 ++ leBytes (if fo.ipoint then 1 else 0) 1)
  ++ (List.range 17).flatMap fo.barRec
  ++ fo.flocks.flatMap (s.flockRec fo)
  ++ (s.savedTileList fo).flatMap (fun n => tileRec n (kgetD fo.savedTiles n Tile.zero))
  ++ fo.chunkRecs
  ++ (s.copiesOf fid).flatMap fun e => s.remRec fo e.1 e.2
/-- The parent fold's lanes wait at CWAIT for the drove. -/
def State.droveAwaited (s : State) (key : Nat) (d : Drove) : Bool :=
  !d.host && match kget s.folds d.parentFold with
    | some fo => fo.flocks.any fun fl => (lanesOf fl.live).any fun l => match fl.wait l with
        | some (.cwait kids _ _) => kids.contains key
        | _ => false
    | none => false
/-- The launch record of a drove (R297). -/
def Drove.record (d : Drove) : List Byte :=
  leBytes d.obj 8 ++ leBytes d.rgrid 8 ++ leBytes (d.prio + 2 ^ 8 * d.chain + 2 ^ 16 * d.flags) 4
    ++ leBytes d.tag.toNat 4 ++ leBytes 0 8 ++ d.slots.flatMap (fun x => leBytes x.toNat 8)
    ++ d.sinit.flatMap (fun x => leBytes x.toNat 4) ++ d.args.flatMap fun x => leBytes x 8
/-- DROVE. -/
def State.droveRec (s : State) (key : Nat) (d : Drove) : List Byte :=
  let parent := match kget s.droves d.parentDrove with
    | some p => p.id
    | none => 2 ^ 32 - 1
  let pfold := match kget s.folds d.parentFold with
    | some f => f.index
    | none => 0
  recBytes 0x10
    (leBytes d.id 4 ++ leBytes (if d.host then 2 ^ 32 - 1 else parent) 4
      ++ leBytes (if d.host then 0 else pfold) 4
      ++ leBytes (d.depth + 2 ^ 8 * d.group + 2 ^ 16 * d.queue
        + 2 ^ 24 * if s.droveAwaited key d then 1 else 0) 4
      ++ leBytes d.gx 4 ++ leBytes d.gy 2 ++ leBytes d.gz 2 ++ leBytes d.nextFold 4 ++ leBytes d.obj 8
      ++ leBytes 0 4 ++ d.record)
/-- The droves of a virtual device that have not retired. -/
def State.drovesOf (s : State) (v : Nat) : List (Nat × Drove) :=
  s.droves.filter fun e => e.2.paddock != 0 && e.2.vd == v && !e.2.retired
/-- A register of a queue in the QUEUES record. -/
def State.queuesRec (s : State) (v : Nat) : List Byte :=
  let ws := (s.vd v).withheld.flatMap fun e => e.2
  let ws := (ws.foldl (fun (m : SMap (List Word)) e => kset m e.1 e.2.2) []).map Prod.snd
  let r := fun (a n : Nat) => leBytes (s.bar v a) n
  recBytes 0x03 (leBytes ws.length 4
    ++ (List.range (s.lqn v)).flatMap (fun q =>
      r (lqReg q 0) 8 ++ r (lqReg q 1) 4 ++ r (lqReg q 2) 4 ++ r (lqReg q 3) 8)
    ++ (List.range (s.cqn v)).flatMap (fun q =>
      r (cqReg q 0) 8 ++ r (cqReg q 1) 4 ++ r (cqReg q 2) 4 ++ r (cqReg q 3) 8)
    ++ ws.flatMap wordsBytes)
/-- REGION (R439). -/
def State.regionRec (s : State) (space die place n : Nat) : List Byte :=
  if n = 0 then []
  else recBytes 0x50 (leBytes (space + 256 * die) 4 ++ leBytes 0 4 ++ leBytes n 8 ++ memRead s.mem place n)
/-- The binding set of a virtual device (R425). -/
def State.bindSet (s : State) (v : Nat) : Option Nat :=
  if s.kind (s.vdPad v) = 2 then
    (List.range 8).find? fun i =>
      let e := s.sliceEnt (s.vdPad v) i
      e.valid && e.vd == v
  else some 0
/-- CROOK: the LIVE bindings of the virtual device. -/
def State.crookRecs (s : State) (v : Nat) : List Byte :=
  let p := s.vdPad v
  let c := ((List.range 640).find? fun c => s.holdsCore p c).getD 0
  match s.bindSet v with
  | none => []
  | some set =>
      ((s.pad p).binds.filter fun e => e.1 / 16 == set && e.2.len != 0).flatMap fun e =>
        recBytes 0x40 (leBytes (e.1 % 16 + 256 * e.2.len) 4 ++ leBytes e.2.tag 4
          ++ (s.crookWords p c e.2).flatMap fun w => leBytes w.toNat 8)
/-- The records of a virtual device's stream after STREAM. -/
def State.vdRecs (s : State) (v : Nat) : List Byte :=
  let p := s.vdPad v
  recBytes 0x02 (leBytes (s.vd v).tbase.toNat 4 ++ leBytes (s.lqn v + 256 * s.cqn v) 4
      ++ leBytes (s.reg 1 v 0x05 0) 8)
    ++ s.queuesRec v
    ++ s.regionRec 1 0 (windowAt (portOf v) (4096 * s.hwinFirst v)) (4096 * s.hwinCount v)
    ++ (if s.kind p = 1 then (List.range 16).flatMap fun d =>
        s.regionRec 0 d (commonsAt d (s.commonsBase p d)) (s.commonsSize p d) else [])
    ++ (s.drovesOf v).flatMap (fun e => s.droveRec e.1 e.2
      ++ (s.folds.filter fun f => f.2.drove == e.1).flatMap fun f => s.foldRecs f.1 f.2)
    ++ s.crookRecs v
    ++ recBytes 0xFF []
/-- A stream of a virtual device, with its sequence number. -/
def State.streamOf (s : State) (v seq : Nat) : List Byte :=
  let b := s.vdRecs v
  let kind := s.folds.any fun f => f.2.paddock != 0 && f.2.vd == v && f.2.ipoint
  recBytes 0x01 (leBytes (1 + if kind then 2 ^ 16 else 0) 4 ++ leBytes seq 4 ++ leBytes (32 + b.length) 8
    ++ leBytes v 8) ++ b

/-! ### Reading a stream (R420 to R422, R424) -/

/-- A record found in a stream: its offset, type, and body length. -/
structure SRec where
  off : Nat
  type : Nat
  len : Nat
  deriving DecidableEq, Repr
/-- How a loader reads `n` bytes at an offset of a stream. -/
abbrev Reader := Nat → Nat → Nat
def SRec.get (r : SRec) (rd : Reader) (k n : Nat) : Nat := rd (r.off + 8 + k) n
/-- Bytes of a record's body. -/
def SRec.bytes (r : SRec) (rd : Reader) (k n : Nat) : List Byte :=
  (List.range n).map fun i => BitVec.ofNat 8 (r.get rd (k + i) 1)
def recTypes : List Nat := [1, 2, 3, 0x50, 0x10, 0x20, 0x21, 0x30, 0x31, 0x32, 0x33, 0x40, 0xFF]
/-- The records of a stream up to END, or the offset of the first that is malformed. -/
def scanRecs (rd : Reader) (limit : Nat) : Nat → Nat → Except Nat (List SRec)
  | 0, off => .error off
  | f + 1, off =>
      let type := rd off 2
      let len := rd (off + 4) 4
      if limit < off + 8 || rd (off + 2) 2 != 0 || len % 8 != 0 || !recTypes.contains type
          || limit < off + 8 + len || (type == 0xFF && len != 0) then .error off
      else if type = 0xFF then .ok [⟨off, type, len⟩]
      else do
        let rest ← scanRecs rd limit f (off + 8 + len)
        .ok (⟨off, type, len⟩ :: rest)
/-- The order of records: 0 is the start of the stream. -/
def nextOk (prev type : Nat) : Bool :=
  let after := fun (l : List Nat) => l.contains type
  let fold := [0x10, 0x20, 0x40, 0xFF]
  match prev with
  | 0 => type == 1
  | 1 => type == 2
  | 2 => type == 3
  | 3 | 0x50 => after [0x50, 0x10, 0x40, 0xFF]
  | 0x10 => after fold
  | 0x20 => after [0x21, 0x30]
  | 0x21 => after [0x21, 0x30]
  | 0x30 => after ([0x30, 0x31, 0x32, 0x33] ++ fold)
  | 0x31 => after ([0x31, 0x32, 0x33] ++ fold)
  | 0x32 => after ([0x32, 0x33] ++ fold)
  | 0x33 => after (0x33 :: fold)
  | 0x40 => after [0x40, 0xFF]
  | _ => false
/-- Ones of a field. -/
def onesOf (n w : Nat) : Nat := (bitList n w).length
def pad8 (n : Nat) : Nat := (n + 7) / 8 * 8
/-- What a check of records carries: the record before, the queues, the object, the section, flocks
and segments of the fold, flock records seen. -/
structure Ctx where
  prev : Nat
  lqn : Nat
  cqn : Nat
  obj : CodeObj
  sect : Nat
  flocks : Nat
  seen : Nat
  deriving DecidableEq, Repr
def Ctx.start : Ctx :=
  { prev := 0, lqn := 0, cqn := 0, sect := 0, flocks := 0, seen := 0
    obj := { id := 0, base := 0, words := 0, starts := 0, prologue := ⟨0, 0, 0, 0, 0⟩, variants := []
             points := [], regions := [] } }
/-- Bytes of a record from an offset to its end are 0. -/
def SRec.zeroFrom (r : SRec) (rd : Reader) (k : Nat) : Bool := (List.range (r.len - k)).all fun i => r.get rd (k + i) 1 == 0
/-- A PC word (R420): its section, and in point form its reserved bits. -/
def pcWordOk (w : Nat) : Bool :=
  w == 2 ^ 32 - 1 || (decide (bits w 30 28 ≤ 4) && (!bitOf w 31 || bits w 27 16 == 0))
/-- The reserved fields of a launch record, its format slots, and the fields that have limits (R108, R297, R298). -/
def launchOk (l : LaunchRec) : Bool :=
  l.res == 0 && decide (l.flags < 4) && decide (l.prio ≤ 3) && l.args.all (fun a => decide (a < 2 ^ 52))
    && l.slots.all fun x => slotOk (BitVec.ofNat 64 x)
/-- The bytes of a FLOCK record that hold registers. -/
def SRec.flockLen (r : SRec) (rd : Reader) : Nat :=
  let g := r.get rd
  177 + 128 * onesOf (g 152 8) 64 + 4 * onesOf (g 160 12) 96 + 4 * onesOf (g 172 4) 32 + 128 * g 1 1
/-- The length and reserved fields of a record, with those of the registers that it holds. -/
def SRec.formOk (r : SRec) (rd : Reader) (c : Ctx) : Bool :=
  let g := r.get rd
  match r.type with
  | 0x01 => r.len == 24 && decide (g 2 2 < 2) && g 17 7 == 0
  | 0x02 => r.len == 16 && g 6 2 == 0 && decide (g 4 1 ≤ 16) && decide (g 5 1 ≤ 16) && g 0 4 % 4 == 0
      && decide (g 8 8 < 2 ^ 9) && bits (g 8 8) 7 5 == 0
  | 0x03 => r.len == pad8 (4 + 24 * c.lqn + 24 * c.cqn + 16 * g 0 4)
      && r.zeroFrom rd (4 + 24 * c.lqn + 24 * c.cqn + 16 * g 0 4)
  | 0x50 => decide (g 0 1 < 2) && g 2 2 == 0 && g 12 4 == 0 && g 8 4 % 64 == 0
      && r.len == 16 + g 8 4 && decide (g 1 1 < if g 0 1 = 0 then 16 else 1)
  | 0x10 => r.len == 296 && decide (g 15 1 < 2) && g 36 4 == 0 && decide (g 14 1 < 16) && decide (g 13 1 < 16)
      && decide (g 12 1 ≤ 10) && launchOk (launchOf (r.bytes rd 40 256))
  | 0x20 => r.len == 8 && decide (g 7 1 < 2) && decide (g 4 1 ≤ 4)
  | 0x21 => r.len == 72 && decide (g 0 1 ≤ 16) && decide (g 1 1 < 2) && g 2 6 == 0
  | 0x30 =>
      r.len == pad8 (r.flockLen rd) && r.zeroFrom rd (r.flockLen rd) && g 2 2 == 0 && g 0 1 == c.seen
        && (g 1 1 == 0 || g 1 1 == 16) && (g 8 4 == Nat.land (g 8 4) (2 ^ cCopyfault + 2 ^ cEcc))
        && decide (g 12 4 < 2 ^ 7) && decide (g 16 4 < 2 ^ 5) && !bitOf (g 20 4) 3
        && (List.range 32).all fun l => pcWordOk (g (24 + 4 * l) 4)
  | 0x31 => r.len == 24584 && decide (g 0 1 < 4) && decide (g 1 1 < 4) && g 2 6 == 0
  | 0x32 => r.len == 8 + 512 * g 2 2 && decide (g 4 1 < 2) && g 5 3 == 0 && g 2 2 != 0
      && decide (g 0 2 + g 2 2 ≤ 64 * (c.obj.section c.sect).segs)
  | 0x33 =>
      r.len == pad8 (36 + 4 * g 5 1) && r.zeroFrom rd (36 + 4 * g 5 1) && g 6 2 == 0 && g 26 2 == 0
        && decide (1 ≤ g 5 1) && decide (g 5 1 ≤ 64) && (g 2 1 == 7 || (decide (g 2 1 ≤ 5) && decide (g 1 1 < 16)))
        && decide (g 0 1 < 16) && decide (g 3 1 ≤ 12) && decide (g 4 1 ≤ 2) && pcWordOk (g 32 4)
  | 0x40 => r.len == 8 + 8 * g 1 1 && g 2 2 == 0 && decide (g 0 1 < 16) && decide (1 ≤ g 1 1) && decide (g 1 1 ≤ 16)
  | _ => r.len == 0
/-- The micro-operation words of a CROOK record. -/
def SRec.words (r : SRec) (rd : Reader) : List Nat := (List.range (r.get rd 1 1)).map fun i => r.get rd (8 + 8 * i) 8
/-- What else of a record the target refuses: the status code of R424 and its count. -/
def State.recBad (s : State) (v : Nat) (rd : Reader) (c : Ctx) (r : SRec) : Option (Nat × Nat) :=
  let g := r.get rd
  let p := s.vdPad v
  let o := (kget (s.pad p).objs (g 28 8))
  match r.type with
  | 0x01 => if g 0 2 = 1 then none else some (2, r.off)
  | 0x50 =>
      let room := if g 0 1 = 0 then s.commonsSize p (g 1 1) else 4096 * s.hwinCount v
      if room < g 4 4 + g 8 4 then some (4, r.off) else none
  | 0x10 => if o.isNone then some (3, r.off) else none
  | 0x20 =>
      let b := c.obj.section (g 4 1)
      if (g 4 1 != 4 && decide (c.obj.variants.length ≤ g 4 1)) || b.flocks != g 5 1 || b.segs != g 6 1 then
        some (4, r.off)
      else if s.hasCore p && (List.zipWith (fun a b => decide (a ≤ b)) (b.uses ++ c.obj.floor.uses)
          [24, 24, 131072, 131072, 2048, 24, 24, 131072, 131072, 2048]).all id then none
      else some (5, r.off)
  | 0x40 => if sequenceOk ((r.words rd).map (BitVec.ofNat 64)) then none else some (4, r.off)
  | _ => none
/-- The context after a record. -/
def State.nextCtx (s : State) (v : Nat) (rd : Reader) (c : Ctx) (r : SRec) : Ctx :=
  let g := r.get rd
  let c := { c with prev := r.type }
  match r.type with
  | 0x02 => { c with lqn := g 4 1, cqn := g 5 1 }
  | 0x10 => { c with obj := (kget (s.pad (s.vdPad v)).objs (g 28 8)).getD c.obj }
  | 0x20 => { c with sect := g 4 1, flocks := g 5 1, seen := 0 }
  | 0x30 => { c with seen := c.seen + 1 }
  | _ => c
/-- Every record in order: the first refusal, with its code and count. -/
def State.checkRecs (s : State) (v : Nat) (rd : Reader) : Ctx → List SRec → Option (Nat × Nat)
  | _, [] => none
  | c, r :: rs =>
      if !nextOk c.prev r.type || !r.formOk rd c
          || ([0x31, 0x32, 0x33, 0x20, 0x10, 0x40, 0xFF].contains r.type && c.seen != c.flocks) then
        some (4, r.off)
      else match s.recBad v rd c r with
        | some e => some e
        | none => State.checkRecs s v rd (s.nextCtx v rd c r) rs

/-! ### Installing a stream -/

/-- What an installation carries: the state, the drove and fold under way, droves by DROVEID, engine
chunks of the fold that no remnant holds yet, and droves with parents: key, parent's DROVEID, parent
fold index, AWAITED. -/
structure Load where
  st : State
  drove : Nat
  fold : Nat
  lqn : Nat
  cqn : Nat
  ids : SMap Nat
  eng : List Nat
  kids : List (Nat × Nat × Nat × Bool)
  folds : List Nat
  deriving DecidableEq, Repr
def Load.mod (x : Load) (g : State → State) : Load := { x with st := g x.st }
def Load.modFold (x : Load) (g : Fold → Fold) : Load := x.mod fun s => s.modFold x.fold g
/-- The barrier that the instruction at a PC names. -/
def State.barAt (s : State) (p pc : Nat) : Nat :=
  match (s.fetch p pc).bind decode with
  | some (.bar _ b, _) | some (.barSw _ b, _) | some (.bara _ b, _) | some (.barw _ b, _) => b
  | _ => 0
/-- The PC that a word names in an object, and its point (R420). -/
def CodeObj.pcOf (o : CodeObj) (w : Nat) : Nat × Option Point :=
  if w = 2 ^ 32 - 1 then (0, none)
  else if bitOf w 31 then
    match o.points[bits w 15 0]? with
    | some pt => (pt.off + o.base, some pt)
    | none => (o.base, none)
  else (o.base + (o.section (bits w 30 28)).off + 4 * bits w 27 0, none)
/-- A lane stands waiting at an instruction with a live map; the children of a CWAIT follow. -/
def State.waitOf (s : State) (p pc : Nat) : Option Point → Option Wait
  | none => none
  | some pt =>
      let next := (pc + s.lenAt p pc) % 2 ^ 32
      match pt.kind with
      | 0 => some (.acquire pc next)
      | 5 => some (.cwait [] pc next)
      | _ => some (.bar (s.barAt p pc) pc next)
/-- FLOCK read. -/
def State.flockFrom (s : State) (p : Nat) (o : CodeObj) (rd : Reader) (r : SRec) : Flock :=
  let g := r.get rd
  let vs := bitList (g 152 8) 64
  let ps := bitList (g 160 12) 96
  let ss := bitList (g 172 4) 32
  let pcs := (List.range 32).map fun l => o.pcOf (g (24 + 4 * l) 4)
  let w := fun (k : Nat) => wd (g k 4)
  let vo := 177
  let po := vo + 128 * vs.length
  let so := po + 4 * ps.length
  let qo := so + 4 * ss.length
  { Flock.empty with
    ix := g 0 1, stage := g 0 1 % 2
    v := (List.range vs.length).map fun i =>
      (vs.getD i 0, (List.range 32).map fun l => w (vo + 128 * i + 4 * l))
    p := (List.range ps.length).map fun i => (ps.getD i 0, w (po + 4 * i))
    s := (List.range ss.length).map fun i => (ss.getD i 0, w (so + 4 * i))
    q := (List.range 32).map fun l => (List.range (g 1 1)).map fun a => w (qo + 128 * a + 4 * l)
    k := BitVec.ofNat 8 (g 176 1 / 2 * 2)
    pcs := pcs.map Prod.fst, waits := pcs.map fun x => s.waitOf p x.1 x.2
    exited := w 4, deliver := w 8, fflags := w 12, ftrapen := w 16, watch := w 20, saved := if g 1 1 = 16 then 2 else 1 }
/-- REMNANT read: an operation without a queue binding. -/
def State.copyFrom (s : State) (x : Load) (fo : Fold) (rd : Reader) (r : SRec) : CopyOp :=
  let g := r.get rd
  let p3 := g 28 4
  { copyOpOf s x.fold (g 0 1) ((s.objOf fo).pcOf (g 32 4)).1 fo with
    kind := g 2 1, addr := g 12 8, pitch := g 8 4, rowlen := if g 2 1 = 5 then 512 else 16 * 2 ^ g 3 1
    first := g 22 2, count := g 24 2 + 1, ichunk := g 20 2, qn := g 1 1, res := g 4 1
    naddr := s.notePlace fo p3, note := p3 % 4, p3 := p3, phase := 3 }
/-- A drove from its record (R297). The stream holds neither the die of its last fold nor that of the launch: both are
die 0, so that its next fold's search starts at die 1, and a child's first at die 0 (R300, log 29). -/
def droveFrom (s : State) (v : Nat) (rd : Reader) (r : SRec) : Drove :=
  let g := r.get rd
  let l := launchOf (r.bytes rd 40 256)
  { droveOf (g 0 4) l with
    paddock := s.vdPad v, vd := v, depth := g 12 1, group := g 13 1, host := g 4 4 == 2 ^ 32 - 1
    port := portOf v, queue := g 14 1, gx := g 16 4, gy := g 20 2, gz := g 22 2, nextFold := g 24 4
    ended := g 24 4, cq := bits (s.bar v (lqReg (g 14 1) 3)) 3 0
    prev := if g 4 4 = 2 ^ 32 - 1 then kget (s.vd v).lastDrove (g 14 1) else none }
/-- One record installed. -/
def Load.put (v : Nat) (rd : Reader) (x : Load) (r : SRec) : Load :=
  let g := r.get rd
  let s := x.st
  let p := s.vdPad v
  let fo := (kget s.folds x.fold).getD Fold.blank
  match r.type with
  | 0x02 => { x.mod fun s => s.modVd v fun d => { d with tbase := wd (g 0 4) } with lqn := g 4 1, cqn := g 5 1 }
  | 0x03 =>
      let co := 4 + 24 * x.lqn
      let wo := co + 24 * x.cqn
      let set := fun (a k n : Nat) (s : State) => s.setBar v a (g k n)
      let wr := fun (a k : Nat) (s : State) => s.queueReg v a (g k 8)
      let plain := !s.mode (s.vdPad v) 5
      let s := (List.range (minNat x.lqn (s.lqn v))).foldl (fun s q =>
        (wr (lqReg q 3) (16 + 4 + 24 * q) (set (lqReg q 2) (12 + 4 + 24 * q) 4
          (set (lqReg q 1) (8 + 4 + 24 * q) 4 (wr (lqReg q 0) (4 + 24 * q) s)))).modVd v fun d =>
            { d with plainTail := if plain then kset d.plainTail q (g (12 + 4 + 24 * q) 4) else d.plainTail }) s
      let s := (List.range (minNat x.cqn (s.cqn v))).foldl (fun s q =>
        wr (cqReg q 3) (16 + co + 24 * q) (set (cqReg q 2) (12 + co + 24 * q) 4
          (set (cqReg q 1) (8 + co + 24 * q) 4 (wr (cqReg q 0) (co + 24 * q) s)))) s
      let s := (List.range (g 0 4)).foldl (fun (s : State) i =>
        let ws := (List.range 4).map fun j => wd (g (wo + 16 * i + 4 * j) 4)
        let cq := bits (s.bar v (lqReg (wbits (ws.getD 1 0) 31 16) 3)) 3 0
        { s with nextId := s.nextId + 1 }.modVd v fun d =>
          { d with withheld := kset d.withheld cq (kgetD d.withheld cq [] ++ [(s.nextId, s.nextId, ws)]) }) s
      { x with st := s.modVd v fun d => { d with heldTo := s.nextId } }
  | 0x50 =>
      let place := if g 0 1 = 0 then commonsAt (g 1 1) (s.commonsBase p (g 1 1) + g 4 4)
        else windowAt (portOf v) (4096 * s.hwinFirst v + g 4 4)
      x.mod fun s =>
        { s with mem := memWrite s.mem place (r.bytes rd 16 (g 8 4)), upsets := healWords s.upsets place (g 8 4) }
  | 0x10 =>
      let d := droveFrom s v rd r
      let key := s.nextId
      let s := s.addDrove key d
      let s := if d.host then s.modVd v fun y => { y with lastDrove := kset y.lastDrove d.queue key } else s
      { x with
        st := s, drove := key, ids := kset x.ids d.id key
        kids := if d.host then x.kids else x.kids ++ [(key, g 4 4, g 8 4, bitOf (g 15 1) 0)] }
  | 0x20 =>
      let d := (kget s.droves x.drove).getD (droveFrom s v rd r)
      let key := s.nextId
      let f : Fold := { Fold.blank with
        drove := x.drove, paddock := p, vd := v, index := g 0 4, obj := d.obj, core := 640, sect := g 4 1
        flocks := List.replicate (g 5 1) { Flock.empty with exited := ~~~0 }, order := key
        status := .stopped, stopSeq := key, ipoint := g 7 1 == 1 }
      { x with
        st := ({ s with folds := kset s.folds key f, nextId := key + 1 }).modDrove x.drove fun d =>
          { d with ended := d.ended - 1 }
        fold := key, eng := [], folds := x.folds ++ [key] }
  | 0x21 =>
      x.modFold fun f => { f with
        barriers := kset f.barriers (g 0 1)
          { phase := g 1 1, sw := none, marks := []
            arrived := (List.range 16).filterMap fun k =>
              if g (8 + 4 * k) 4 = 0 then none else some (k, wd (g (8 + 4 * k) 4)) } }
  | 0x30 => x.modFold fun f => { f with flocks := f.flocks.set (g 0 1) (s.flockFrom p (s.objOf fo) rd r) }
  | 0x31 =>
      let cells := (List.range 1024).filterMap fun k =>
        let n := g (8 + 24 * k) 24
        if n = 0 then none else some (k, if n < 2 ^ 191 then (n : Int) else (n : Int) - 2 ^ 192)
      x.modFold fun f => { f with
        savedTiles := kset f.savedTiles (g 0 1) { cells := cells, win := bitOf (g 1 1) 0, sat := bitOf (g 1 1) 1 } }
  | 0x32 =>
      let chs := chunkRun (g 0 2) (g 2 2)
      { x.modFold fun f => { f with
          savedChunks := (List.range (g 2 2)).foldl (fun m i =>
            kset m (g 0 2 + i) (r.bytes rd (8 + 512 * i) 512)) f.savedChunks } with
        eng := if g 4 1 = 1 then x.eng ++ chs else x.eng }
  | 0x33 =>
      let id := s.nextId
      let (o, s) := s.numbered (s.copyFrom x fo rd r)
      let rs := if o.kind = 2 then [] else
        (List.range (g 5 1)).flatMap fun i => chunkRun (g (36 + 4 * i) 2) (g (38 + 4 * i) 2)
      let ix := if o.indexed then chunkRun o.ichunk (indexChunks o.rows) else []
      let mine := x.eng.filter fun ch => rs.contains ch || ix.contains ch
      { ({ x with st := { s with copies := kset s.copies id o, nextId := id + 1 } } : Load).modFold fun f =>
          { f with savedOwn := mine.foldl (fun m ch => kset m ch id) f.savedOwn } with
        eng := x.eng.filter fun ch => !mine.contains ch }
  | _ => x
/-- Which arrivals of a phase came by BAR.SW of one index, as the points where lanes wait show (R314). -/
def State.barKinds (s : State) (fo : Fold) : Fold :=
  let o := s.objOf fo
  { fo with
    barriers := fo.barriers.map fun b =>
      let at_ := fo.flocks.flatMap fun fl => (lanesOf fl.live).filterMap fun l => match fl.wait l with
        | some (.bar n pc _) => if n = b.1 then
            some ((o.pointAt pc).bind fun (x : Point) => if x.kind = 2 then some x.sw else none) else none
        | _ => none
      let all := (b.2.arrived.map fun a => popcount a.2).foldl (· + ·) 0
      (b.1, { b.2 with
        sw := if all = 0 then none
          else match at_ with
            | some i :: _ => if at_.all (· == some i) && at_.length == all then some (some i) else some none
            | _ => some none }) }
/-- The children of a loaded fold that its lanes at CWAIT wait for. -/
def Fold.awaitKids (fo : Fold) (ks : List Nat) : Fold :=
  { fo with
    flocks := fo.flocks.map fun fl => fl.setWait (~~~0) fun l => match fl.wait l with
      | some (.cwait _ pc n) => some (.cwait ks pc n)
      | w => w }
/-- Parents and waits are joined once every record stands. -/
def Load.link (x : Load) : State :=
  let key := fun (s : State) (pd ix : Nat) =>
    (x.folds.find? fun f => match kget s.folds f with
      | some fo => fo.drove == pd && fo.index == ix
      | none => false).getD s.nextId
  let s := x.kids.foldl (fun s k =>
    let pd := kgetD x.ids k.2.1 s.nextId
    let pf := key s pd k.2.2.1
    s.modDrove k.1 fun d => { d with parentDrove := pd, parentFold := pf }) x.st
  x.folds.foldl (fun s f =>
    let ks := x.kids.filterMap fun k => match kget s.droves k.1 with
      | some d => if d.parentFold = f ∧ k.2.2.2 then some k.1 else none
      | none => none
    s.modFold f fun fo => (s.barKinds fo).awaitKids ks) s

/-! ### Bindings of a stream (R425) -/

/-- A slot of the region is covered by a LIVE binding of another set. -/
def State.slotUsed (s : State) (p set i : Nat) : Bool :=
  (s.pad p).binds.any fun e => e.1 / 16 != set && e.2.len != 0
    && decide (e.2.first ≤ i) && decide (i < e.2.first + e.2.len)
/-- The first slots of sequences placed in order, each in the lowest run of free slots. -/
def placeSeqs (free : Nat → Bool) (count : Nat) : List Nat → Option (List Nat)
  | [] => some []
  | n :: ns =>
      match (List.range (count + 1 - n)).find? fun f => (List.range n).all fun i => free (f + i) with
      | none => none
      | some f =>
          (placeSeqs (fun i => free i && !(decide (f ≤ i) && decide (i < f + n))) count ns).map (f :: ·)
/-- The places of a stream's sequences, or the count of status 6. -/
def State.placeCrooks (s : State) (v : Nat) (ns : List Nat) : Except Nat (List Nat) :=
  match s.bindSet v with
  | none => .error 0
  | some set =>
      let p := s.vdPad v
      match placeSeqs (fun i => !s.slotUsed p set i) (bits (s.reg 0 p 0x06 0) 27 16) ns with
      | some l => .ok l
      | none => .error (ns.foldl (· + ·) 0)
/-- The bindings of a stream installed on every core of the paddock. -/
def State.putCrooks (s : State) (v : Nat) (rd : Reader) (rs : List SRec) (fs : List Nat) : State :=
  match s.bindSet v with
  | none => s
  | some set =>
      let p := s.vdPad v
      let s := s.modPad p fun d => { d with binds := d.binds.filter fun e => e.1 / 16 != set }
      (rs.zip fs).foldl (fun s x =>
        s.crkInstall p (16 * set + x.1.get rd 0 1) x.2 (x.1.get rd 4 4) (x.1.words rd)) s
/-- A stream is read, checked and installed into a virtual device: the status code and count of R424,
and the state. A stream of another revision is refused before anything else of it is read (R422). -/
def State.loadStream (s : State) (v limit : Nat) (rd : Reader) : Nat × Nat × State :=
  if 10 ≤ limit ∧ rd 0 4 = 1 ∧ rd 8 2 ≠ 1 then (2, 0, s)
  else match scanRecs rd limit (limit / 8 + 1) 0 with
  | .error off => (4, off, s)
  | .ok rs =>
      match s.checkRecs v rd Ctx.start rs with
      | some (c, n) => (c, n, s)
      | none =>
          let cr := rs.filter fun r => r.type == 0x40
          match s.placeCrooks v (cr.map fun r => r.get rd 1 1) with
          | .error n => (6, n, s)
          | .ok fs =>
              let x := rs.foldl (Load.put v rd)
                { st := s, drove := 0, fold := 0, lqn := 0, cqn := 0, ids := [], eng := [], kids := []
                  folds := [] }
              let last := rs.getLastD ⟨0, 0, 0⟩
              (0, last.off + 8, x.link.putCrooks v rd cr fs)

/-! ### SAVEX and LOADX (R423, R424) -/

/-- SAVEX (`op` 0 SAVE, 1 THAW, 2 DISCARD) and LOADX (3) at issue. -/
def savexEff (op : Nat) (h : EHdr) (a : USrc) (q : Iss) (s : State) : Eff :=
  let fo := s.fo q
  let v := (s.uni q h.lit a).toNat
  let p0 := s.pnat q h.p0
  let p1 := s.pnat q h.p1
  let p2 := s.pnat q h.p2
  let p3 := s.pnat q h.p3
  let pa := p0 + 2 ^ 32 * (p1 % 4096)
  let bad := !s.vdValid v
    || (if op = 1 ∨ op = 2 then p0 != 0 || p1 != 0
        else p0 % 8 != 0 || !(isHbm pa || isHostAddr pa))
    || p2 % 8 != 0 || s.commonsBad fo p2 || s.windowBad fo p2 || s.noteBad fo p3
    || (match op with
      | 0 => (s.vd v).frozen
      | 1 | 2 => !(s.vd v).frozen
      | _ => (s.vd v).frozen || !(s.drovesOf v).isEmpty)
  if bad then .error (cEngparam, q.lanes)
  else
    let s := if op = 0 then s.modVd v fun d => { d with frozen := true } else s
    .ok (s.startPriv q true
      { privOf (40 + op) v [pa, p1 / 4096 * 4096] with
        reg := s.cmPlace fo p2, naddr := s.notePlace fo p3, note := p3 % 4 }, 0)
/-- SAVEX.SAVE (R424). -/
def execSavexSave (h : EHdr) (a : USrc) (s : State) : Host.Outcome State Fault Refusal :=
  issue (.savexSave h a) (savexEff 0 h a) s
/-- SAVEX.THAW (R424). -/
def execSavexThaw (h : EHdr) (a : USrc) (s : State) : Host.Outcome State Fault Refusal :=
  issue (.savexThaw h a) (savexEff 1 h a) s
/-- SAVEX.DISCARD (R424). -/
def execSavexDiscard (h : EHdr) (a : USrc) (s : State) : Host.Outcome State Fault Refusal :=
  issue (.savexDiscard h a) (savexEff 2 h a) s
/-- LOADX (R424). -/
def execLoadx (h : EHdr) (a : USrc) (s : State) : Host.Outcome State Fault Refusal :=
  issue (.loadx h a) (savexEff 3 h a) s

/-- Every fold of a frozen virtual device is saved or gone, and nothing of it is under way, packets that its cut copies
have sent to peers among it (R441). -/
def State.vdStill (s : State) (v : Nat) : Bool :=
  (s.folds.all fun f => f.2.paddock == 0 || f.2.vd != v || (!f.2.onCore && !f.2.failed))
    && (s.launches.all fun e => e.2.paddock == 0 || e.2.vd != v)
    && (s.copies.all fun e => e.2.paddock == 0 || e.2.vd != v || e.2.acked)
    && (s.drovesOf v).all fun d => !d.2.refused && s.ops.all fun e => e.2.drove != d.1
/-- The virtual device's saved folds, droves and remnants are dropped. -/
def State.dropVd (s : State) (v : Nat) : State :=
  let mine := fun (p w : Nat) => p != 0 && w == v
  { s with
    folds := s.folds.filter fun e => !mine e.2.paddock e.2.vd
    droves := s.droves.filter fun e => !mine e.2.paddock e.2.vd
    copies := s.copies.filter fun e => !mine e.2.paddock e.2.vd }.modVd v fun d => { d with lastDrove := [] }
/-- The end of a SAVEX or LOADX: its status word, then its notification. -/
def State.savexEnd (s : State) (id : Nat) (o : PrivOp) (code n : Nat) : State :=
  (s.relStore o.reg 8 (code + 2 ^ 32 * n)).privEnd id o
/-- SAVE: the stream is written up to the limit. -/
def State.saveAct (s : State) (id : Nat) (o : PrivOp) : State :=
  let p := s.vdPad o.elem
  let s := s.modPad p fun d => { d with saves := d.saves + 1 }
  let b := s.streamOf o.elem (s.pad p).saves
  let limit := o.args.getD 1 0
  (s.devPut 0 (o.args.getD 0 0) (b.take limit)).savexEnd id o (if limit < b.length then 1 else 0) b.length
/-- Bytes that the device reads for itself cannot be read (R349, R447, R448). -/
def State.unreadable (s : State) (a n : Nat) : Bool :=
  (piecesOf a n).any fun x => (s.readErr (s.ownSlot x.1) x.1 x.2).isSome
/-- Bytes that the device reads for itself pass the cache, for a paddock (R26). -/
def State.devGot (s : State) (p a n : Nat) : State :=
  (piecesOf a n).foldl (fun s x => s.cached p .keep false (s.ownSlot x.1) x.1 x.2) s
/-- The first record of a stream that cannot be read, by its offset, and how many bytes of the stream are read. -/
def State.streamBad (s : State) (a limit : Nat) (rd : Reader) : Option Nat × Nat :=
  match scanRecs rd limit (limit / 8 + 1) 0 with
  | .ok rs => ((rs.find? fun r => s.unreadable (a + r.off) (8 + r.len)).map SRec.off, (rs.getLastD ⟨0, 0, 0⟩).off + 8)
  | .error off => (if s.unreadable a (minNat limit (off + 8)) then some off else none, minNat limit (off + 8))
/-- LOADX: the stream is read, and installed if it can be. One with a record that cannot be read is malformed there, and
a record of kind 5 is written (log 91). -/
def State.loadAct (s : State) (id : Nat) (o : PrivOp) : State :=
  let a := o.args.getD 0 0
  let limit := o.args.getD 1 0
  let rd : Reader := fun off n => s.rd (a + off) n
  let u := s.streamBad a limit rd
  let t := s.devGot 0 a u.2
  match u.1 with
  | some off =>
      (t.errorRecord (dieOf o.core) 0 127 o.drove o.did o.fix o.core o.flock o.pc).savexEnd id o 4 off
  | none =>
      let x := t.loadStream o.elem limit rd
      x.2.2.savexEnd id o x.1 x.2.1
/-- The completion of SAVEX and LOADX. -/
def State.savexStep (s : State) (id : Nat) (o : PrivOp) : State :=
  let v := o.elem
  if !(s.performedBefore o.fold o.flock id && s.noteReady o.reg && s.privReady id o) then s
  else match o.what with
    | 40 => if s.vdStill v then s.saveAct id o else s
    | 41 => (s.modVd v fun d => { d with frozen := false, heldTo := s.nextId }).savexEnd id o 0 0
    | 42 =>
        if s.folds.any fun f => f.2.paddock != 0 && f.2.vd == v && f.2.onCore then s
        else ((s.dropVd v).modVd v fun d => { d with frozen := false, heldTo := s.nextId }).savexEnd id o 0 0
    | _ => s.loadAct id o

/-! ### CODEMV (R426 to R428) -/

/-- The bytes of an object's code section, rounded up to 4 KiB. -/
def CodeObj.span (o : CodeObj) : Nat := (4 * o.words + 4095) / 4096 * 4096
/-- CODEMV (R426). -/
def execCodemv (h : EHdr) (a : USrc) (s : State) : Host.Outcome State Fault Refusal :=
  issue (.codemv h a) (fun q s =>
    let fo := s.fo q
    let p := (s.uni q h.lit a).toNat
    let old := s.pnat q h.p0
    let new := s.pnat q h.p1
    let len := s.pnat q h.p2
    let p3 := s.pnat q h.p3
    let d := s.pad p
    let bad := decide (32 ≤ p) || s.kind p == 0 || old % 4096 != 0 || new % 4096 != 0 || len == 0
      || (d.objs.all fun o => o.2.base != old || o.2.span != len)
      || (d.objs.any fun o => rangesMeet new len o.2.base o.2.span)
      || (d.fwd.any fun e => rangesMeet new len e.2.old e.2.len)
      || decide (16 ≤ d.fwd.length) || s.noteBad fo p3
    if bad then .error (cEngparam, q.lanes)
    else
      .ok (s.startPriv q true
        { privOf 44 p [old, new, len] with naddr := s.notePlace fo p3, note := p3 % 4 }, 0)) s
/-- A PC moved. -/
def movePC (old new len pc : Nat) : Nat := if old ≤ pc ∧ pc < old + len then pc - old + new else pc
/-- A wait whose PCs are moved. -/
def Wait.moved (f : Nat → Nat) : Wait → Wait
  | .join pc m n => .join (f pc) m (f n)
  | .bar b pc n => .bar b (f pc) (f n)
  | .acquire pc n => .acquire (f pc) (f n)
  | .cwait k pc n => .cwait k (f pc) (f n)
  | .trywait b k i m a t n => .trywait b k i m a t (f n)
  | .rett => .rett
  | .crook b pc => .crook b (f pc)
def Flock.moved (f : Nat → Nat) (fl : Flock) : Flock :=
  { fl with
    pcs := (List.range 32).map fun l => f (fl.pc l)
    waits := fl.waits.map fun w => w.map (Wait.moved f), tpc := wd (f fl.tpc.toNat) }
/-- The PCs that folds and their operations hold, moved. -/
def State.moveHeld (s : State) (p : Nat) (f : Nat → Nat) : State :=
  let mine := fun k => ((kget s.folds k).map fun (fo : Fold) => fo.paddock) == some p
  { s with
    folds := s.folds.map fun (e : Nat × Fold) =>
      if e.2.paddock == p then (e.1, { e.2 with flocks := e.2.flocks.map (Flock.moved f) }) else e
    copies := s.copies.map fun (e : Nat × CopyOp) =>
      if e.2.paddock == p then (e.1, { e.2 with pc := f e.2.pc }) else e
    launches := s.launches.map fun (e : Nat × LaunchOp) =>
      if e.2.paddock == p then (e.1, { e.2 with pc := f e.2.pc }) else e
    ops := s.ops.map fun (e : Nat × MemOp) => if mine e.2.fold then (e.1, { e.2 with pc := f e.2.pc }) else e
    privs := s.privs.map fun (e : Nat × PrivOp) => if mine e.2.fold then (e.1, { e.2 with pc := f e.2.pc }) else e
    cores := s.cores.map fun (e : Nat × Core) =>
      (e.1, { e.2 with mq := e.2.mq.map fun m => if mine m.fold then { m with pc := f m.pc } else m }) }
/-- The lowest forwarding entry that is not live. -/
def freeEntry (m : SMap FwdEnt) : Nat := ((List.range 16).find? fun i => (kget m i).isNone).getD 0
/-- The move (R427). -/
def State.moveCode (s : State) (p old new len : Nat) : State :=
  let f := movePC old new len
  let s := s.moveHeld p f
  let s := if p = 0 then s
    else (s.vdsOf p).foldl (fun s v => s.modVd v fun d => { d with tbase := wd (f d.tbase.toNat) }) s
  let mine := (s.folds.filter fun e => e.2.paddock == p).map Prod.fst
  s.modPad p fun d =>
    { d with
      tbase := if p = 0 then wd (f d.tbase.toNat) else d.tbase
      objs := d.objs.map fun o => if o.2.base = old then (o.1, { o.2 with base := new }) else o
      fwd := kset d.fwd (freeEntry d.fwd) ⟨old, new, len, mine⟩ }
/-- The completion of CODEMV: every flock of the paddock is between runs. -/
def State.codemvStep (s : State) (id : Nat) (o : PrivOp) : State :=
  let busy := s.cores.any fun c => (c.2.st0.turn.toList ++ c.2.st1.turn.toList).any fun t =>
    match kget s.folds t.fold with
    | some fo => fo.paddock == o.elem
    | none => false
  if busy || !s.privReady id o then s
  else (s.moveCode o.elem (o.args.getD 0 0) (o.args.getD 1 0) (o.args.getD 2 0)).privEnd id o
/-- FORWARDING_ENTRY_RETIRE (R428): no fold of the entry's set remains. -/
def State.fwdRetire (s : State) (p i : Nat) : State :=
  match kget (s.pad p).fwd i with
  | none => s
  | some e =>
      if e.set.any fun f => (kget s.folds f).isSome then s
      else s.modPad p fun d => { d with fwd := kdel d.fwd i }
def execForwardingEntryRetire (paddock entry : Nat) (s : State) : Host.Outcome State Fault Refusal :=
  .next (s.fwdRetire paddock entry)

end Sys2Proof.Machine
end

