-- ==== Sys2Proof/Machine/Migrate.lean ====
section
/-! DEFINITION. Live migration (R429 to R443): dirty tracking, rounds and the prediction, the shepherd
commands, the stop phase at source and destination, and peer accesses from other devices with
forwarding and moved refusals (R347, R440). -/
namespace Sys2Proof.Machine

/-! ### Tracked pages (R429, R430) -/

/-- The entries of a stage-2 table: place and value of each with V set that can be read. -/
def State.validEntries (s : State) (table n : Nat) : List (Nat × Nat) :=
  (List.range n).filterMap fun i =>
    let e := s.rd (table + 8 * i) 8
    if bitOf e 0 && (s.readErr 0 (table + 8 * i) 8).isNone then some (i, e) else none
/-- The tables that a scan of a virtual device's pages reads: place and length of each. -/
def State.scanned (s : State) (v : Nat) : List (Nat × Nat) :=
  let root := s.reg 1 v 0x01 0
  if !bitOf root 0 then []
  else
    (bits root 43 11 * 2 ^ 11, 2 ^ 11) ::
      (s.validEntries (bits root 43 11 * 2 ^ 11) 256).flatMap fun a =>
        if bits a.2 2 1 ≠ 0 then []
        else
          (tableAddr a.2, tableBytes 1) :: (s.validEntries (tableAddr a.2) 2048).filterMap fun b =>
            if bits b.2 2 1 = 0 then some (tableAddr b.2, tableBytes 2) else none
/-- The shepherd's scan passes the cache of each table's stack (R26). -/
def State.scan (s : State) (v : Nat) : State :=
  (s.scanned v).foldl (fun s t => s.cached (s.payer (s.vdPad v) t.1) .keep false 0 t.1 t.2) s
/-- A table of the scan cannot be read (R447). -/
def State.scanBad (s : State) (v : Nat) : Bool := (s.scanned v).any fun t => (s.readErr 0 t.1 t.2).isSome
/-- The record of kind 5 of an error that the shepherd meets, in the fault queue of the virtual device's paddock
(R447). -/
def State.shepError (s : State) (v : Nat) : State :=
  s.fault (s.vdPad v) 0 (faultRec 5 16 0 (s.vdPad v) v 0 0 0 0 0 0 0 0 (s.die 16).refs)
/-- The valid page leaves of a virtual device: guest physical address, level, entry. -/
def State.leaves2 (s : State) (v : Nat) : List (Nat × Nat × Nat) :=
  let root := s.reg 1 v 0x01 0
  if !bitOf root 0 then []
  else (s.validEntries (bits root 43 11 * 2 ^ 11) 256).flatMap fun a =>
    if bits a.2 2 1 ≠ 0 then []
    else (s.validEntries (tableAddr a.2) 2048).flatMap fun b =>
      let g := a.1 * 2 ^ 40 + b.1 * 2 ^ 29
      if bits b.2 2 1 = 1 then [(g, 2, b.2)]
      else if bits b.2 2 1 ≠ 0 then []
      else (s.validEntries (tableAddr b.2) 4096).filterMap fun c =>
        if bits c.2 2 1 = 1 then some (g + c.1 * 2 ^ 17, 3, c.2) else none
/-- The pages that the leaves cover, ascending, each with the lowest guest physical address that maps
it. -/
def State.pagesOfVd (s : State) (v : Nat) : SMap Nat :=
  (s.leaves2 v).foldl (fun m e =>
    ((leafPages e.2.1 e.2.2).foldl (fun (r : SMap Nat × Nat) p =>
      (if (kget r.1 p).isSome then r.1 else kset r.1 p r.2, r.2 + 2 ^ 17)) (m, e.1)).1) []
/-- TRACK and every dirty bit set on the pages, or both cleared. -/
def State.trackPages (s : State) (ps : List Nat) (on : Bool) : State :=
  ps.foldl (fun s p => s.modPage p fun r =>
    { r with track := on, dirty := if on then 2 ^ 64 - 1 else 0 }) s
/-- Set dirty bits of a virtual device (D of R432). -/
def State.dirtyCount (s : State) (v : Nat) : Nat :=
  ((s.pagesOfVd v).map fun e => onesOf (s.page e.1).dirty 64).foldl (· + ·) 0

/-! ### The prediction (R432) -/

/-- A resident fold as an instruction-boundary save of every flock would leave it, with its operations cut
as they stand. -/
def State.predicted (s : State) (fid : Nat) (fo : Fold) : Fold :=
  if !fo.onCore then fo
  else
    { fo with
      status := .stopped, ipoint := true, savedTiles := [], savedOwn := s.keptOwn fid fo
      flocks := fo.flocks.map fun fl => if fl.live = 0 then fl else fl.boundarySave
      savedChunks := (List.range (64 * fo.segs.length)).map fun ch => (ch, List.replicate 512 0) }
/-- S: bytes of the stream that a stop now would send. -/
def State.predictBytes (s : State) (v : Nat) : Nat :=
  let on := (s.folds.filter fun e => e.2.onCore).map Prod.fst
  let t := { s with
    folds := s.folds.map fun (e : Nat × Fold) => (e.1, s.predicted e.1 e.2)
    copies := s.copies.filter fun (e : Nat × CopyOp) =>
      e.2.kind != 5 || e.2.phase == 0 || !on.contains e.2.fold }
  (t.streamOf v 0).length
/-- P, and a free value where the target is a host buffer and so has no ports. -/
def State.predict (s : State) (v : Nat) : Nat × State :=
  let d := s.reg 0 (s.vdPad v) 0x0C 0
  let r := 2240 * onesOf ((s.vd v).shepArgs.getD 3 0) 18
  if r = 0 then
    let f := s.freeVal
    (f.1.toNat, f.2)
  else
    (1000 * (bits d 15 0 + bits d 31 16) + 130000
      + (2048 * s.dirtyCount v + s.predictBytes v + r - 1) / r, s)

/-! ### Commands (R433 to R437, R443) -/

/-- The arguments of a command break their limits (R434). -/
def shepArgBad (cmd a b : Nat) : Bool :=
  match cmd with
  | 0 =>
      if bitOf a 31 then
        bits a 30 12 != 0 || decide (bits a 11 8 < 4) || decide (12 ≤ bits a 11 8) || bits b 11 0 == 0
      else bitOf a 15 || bits a 7 0 != 0 || decide (2 ^ 18 ≤ b) || b == 0
  | 2 => decide (2 ^ 16 ≤ a) || a == 0 || b != 0
  | 4 => bitOf a 31 || bits a 15 0 != 0 || b != 0
  | _ => a != 0 || b != 0
/-- The command is allowed in a state (R437). -/
def shepAllowed (cmd st : Nat) : Bool :=
  match cmd with
  | 0 | 4 => st == 0
  | 3 => st == 1 || st == 4
  | _ => st == 1
/-- A shepherd command for the virtual device is outstanding. -/
def State.shepBusy (s : State) (v : Nat) : Bool :=
  s.privs.any fun e => decide (30 ≤ e.2.what) && decide (e.2.what < 35) && e.2.elem == v
/-- The checks of R435 that concern the command; `ha` is what MIGHA must be. -/
def State.shepBad (s : State) (cmd v a b : Nat) (ha : Bool) : Bool :=
  !s.vdValid v || s.mode (s.vdPad v) 7 != ha || s.shepBusy v || shepArgBad cmd a b
    || !shepAllowed cmd (s.vd v).shep || (cmd == 4 && !(s.drovesOf v).isEmpty)
/-- The arguments of a command as it issues: STOP forms its prediction then (R432). -/
def State.shepArgsNow (s : State) (cmd v a b : Nat) : List Nat × State :=
  if cmd = 2 then
    let p := s.predict v
    ([a, b, p.1], p.2)
  else ([a, b], s)
/-- SHEP at issue. -/
def shepEff (cmd : Nat) (h : EHdr) (a : USrc) (q : Iss) (s : State) : Eff :=
  let fo := s.fo q
  let v := (s.uni q h.lit a).toNat
  let p0 := s.pnat q h.p0
  let p1 := s.pnat q h.p1
  let p2 := s.pnat q h.p2
  let p3 := s.pnat q h.p3
  if s.shepBad cmd v p0 p1 false || p2 % 32 != 0 || selOf p2 != 0 || s.commonsBad fo p2
      || s.commonsBad fo (p2 + 31) || s.noteBad fo p3 then .error (cEngparam, q.lanes)
  else
    let x := s.shepArgsNow cmd v p0 p1
    .ok (x.2.startPriv q true
      { privOf (30 + cmd) v x.1 with
        reg := s.cmPlace fo p2, naddr := s.notePlace fo p3, note := p3 % 4 }, 0)
/-- SHEP.BEGIN (R437). -/
def execShepBegin (h : EHdr) (a : USrc) (s : State) : Host.Outcome State Fault Refusal :=
  issue (.shepBegin h a) (shepEff 0 h a) s
/-- SHEP.ROUND (R431). -/
def execShepRound (h : EHdr) (a : USrc) (s : State) : Host.Outcome State Fault Refusal :=
  issue (.shepRound h a) (shepEff 1 h a) s
/-- SHEP.STOP (R438). -/
def execShepStop (h : EHdr) (a : USrc) (s : State) : Host.Outcome State Fault Refusal :=
  issue (.shepStop h a) (shepEff 2 h a) s
/-- SHEP.ABORT (R437). -/
def execShepAbort (h : EHdr) (a : USrc) (s : State) : Host.Outcome State Fault Refusal :=
  issue (.shepAbort h a) (shepEff 3 h a) s
/-- SHEP.ACCEPT (R437). -/
def execShepAccept (h : EHdr) (a : USrc) (s : State) : Host.Outcome State Fault Refusal :=
  issue (.shepAccept h a) (shepEff 4 h a) s

/-- The report of a command (R436): its words, and the state after P has been formed. -/
def State.shepReport (s : State) (v code cmd : Nat) : List Word × State :=
  let d := s.vd v
  let p := s.predict v
  let drops := if cmd = 2 then minNat d.drops 65535 else 0
  let t := (s.die 16).refs
  ([wd (drops * 2 ^ 16 + d.shep * 2 ^ 8 + code), wd d.round, wd d.sent, wd (s.dirtyCount v), wd p.1
    , wd ((s.predictBytes v + 4095) / 4096), wd t, wd (t / 2 ^ 32)], p.2)
/-- A command ends: its report, then its notification, or MSI-X vector 1 of the physical function that
gave it (R443), whose host gets neither while its port is down. -/
def State.shepEnd (s : State) (id : Nat) (o : PrivOp) (code : Nat) : State :=
  let r := s.shepReport o.elem code (o.what - 30)
  let s := if o.pool = 0 ∨ r.2.fnUp (127 + o.pool) then r.2.putWords o.reg r.1 else r.2
  let s := if o.pool = 0 ∧ isCommons o.reg then
      (List.range 4).foldl (fun s i =>
        s.setRecord (o.reg + 8 * i) ((s.record (o.reg + 8 * i)).filter fun e => e.1 != o.reg + 8 * i)) s
    else s
  if o.pool = 0 then s.privEnd id o
  else
    let s := { s with privs := kdel s.privs id }
    if s.fnUp (127 + o.pool) then s.msixRaise (127 + o.pool) 1 else s
/-- Changes to a command under way. -/
def State.setPriv (s : State) (id : Nat) (o : PrivOp) : State := { s with privs := kset s.privs id o }

/-! ### Granules (R430, R431) -/

/-- A snapshot of a page: its dirty word is read and cleared, and its granules join those to be sent. -/
def State.snapshot (s : State) (v page gpa : Nat) : State :=
  let gs := (bitList (s.page page).dirty 64).map fun g => (gpa / 2048 + g, 64 * page + g)
  (s.modPage page fun r => { r with dirty := 0 }).modVd v fun d =>
    { d with granules := d.granules ++ gs, snapped := kset d.snapped page (s.page page).dirty }
/-- What a failed command has read of the dirty words is marked again, so that a later round sends it
(R437, log 52). -/
def State.markAgain (s : State) (v : Nat) : State :=
  ((s.vd v).snapped.foldl (fun s e => s.modPage e.1 fun r =>
    if r.track then { r with dirty := Nat.lor r.dirty e.2 } else r) s).modVd v fun d =>
      { d with granules := [], snapped := [] }
/-- Bytes that go to a host buffer, after what it already holds, or the report code: 2 where they would pass its end, 3
where its port is down. -/
def State.toBuffer (s : State) (v : Nat) (bs : List Byte) : Except Nat State :=
  let d := s.vd v
  if d.shepArgs.getD 5 0 < d.pos + bs.length then .error 2
  else if (s.hostErr (d.shepArgs.getD 4 0)).isSome then .error 3
  else
    .ok ({ s with mem := memWrite s.mem (d.shepArgs.getD 4 0 + d.pos) bs }.modVd v fun d =>
      { d with pos := d.pos + bs.length })
/-- Why a granule (guest and device physical number) cannot be sent, as a report code, or the state once it is sent: on
an allotted port that is up (R450).
It is read through the cache under its page's key (R430, R431), and charged to the paddock. -/
def State.sendGranule (s : State) (v : Nat) (g : Nat × Nat) : Except (Nat × State) State :=
  let d := s.vd v
  let p := s.vdPad v
  let pa := 2048 * g.2
  let slot := (s.page (pa / 2 ^ 17)).key
  let s := s.modVd v fun d => { d with granules := d.granules.drop 1 }
  if (s.readErr slot pa 2048).isSome then
    .error (3, (s.yieldErrors pa 2048).shepError v)
  else
    let bs := memRead s.mem pa 2048
    let t := (s.cached p .keep false slot pa 2048).modVd v fun d => { d with sent := d.sent + 1 }
    if d.shepArgs.getD 0 0 = 0 ∧ !s.fabricUp (d.shepArgs.getD 3 0) then .error (3, s)
    else if d.shepArgs.getD 0 0 = 0 then
      .ok (t.packet (d.shepArgs.getD 1 0) 6
        ([wd (d.shepArgs.getD 2 0), wd g.1, wd (g.1 / 2 ^ 32)] ++ bytesWords bs))
    else match t.toBuffer v (leBytes (2048 * g.1) 8 ++ bs) with
      | .ok t => .ok t
      | .error c => .error (c, s)

/-! ### Progress of a command -/

/-- A stop that fails before step 5: the virtual device resumes at the source, as after SAVEX THAW (R437). -/
def State.shepResume (s : State) (v : Nat) : State :=
  (s.markAgain v).modVd v fun d => { d with shep := 1, frozen := false, heldTo := s.nextId }
/-- BEGIN: every page is tracked, and the target recorded. -/
def State.shepBegin (s : State) (v a b : Nat) : State :=
  let args := if bitOf a 31 then [1, 0, 0, 0, bits a 11 0 * 2 ^ 32 + bits b 31 12 * 4096, bits b 11 0 * 2 ^ 30]
    else [0, bits a 30 16, bits a 14 8, b, 0, 0]
  (s.trackPages ((s.pagesOfVd v).map Prod.fst) true).modVd v fun d =>
    { d with shep := 1, shepArgs := args, round := 0, granules := [], snapped := [], pos := 0, sent := 0 }
/-- One granule sent, or the end of the command. -/
def State.shepSend (s : State) (id : Nat) (o : PrivOp) (g : Nat × Nat) : State :=
  match s.sendGranule o.elem g with
  | .ok t => t
  | .error (c, t) => (if o.what = 32 then t.shepResume o.elem else t.markAgain o.elem).shepEnd id o c
/-- The stream of step 4, sent to the destination or to the host buffer. -/
def State.shepStream (s : State) (id : Nat) (o : PrivOp) : State :=
  let v := o.elem
  let p := s.vdPad v
  let s := s.modPad p fun d => { d with saves := d.saves + 1 }
  let b := s.streamOf v (s.pad p).saves
  let d := s.vd v
  if d.shepArgs.getD 0 0 = 0 ∧ !s.fabricUp (d.shepArgs.getD 3 0) then (s.shepResume v).shepEnd id o 3
  else if d.shepArgs.getD 0 0 = 0 then
    (s.packet (d.shepArgs.getD 1 0) 7 ([wd (d.shepArgs.getD 2 0), wd b.length] ++ bytesWords b)).setPriv id
      { o with ix := 4 }
  else match s.toBuffer v b with
    | .ok t => t.setPriv id { o with ix := 4 }
    | .error c => (s.shepResume v).shepEnd id o c
/-- The pages that a round or a stop is to send, each with the guest page that maps it as the command starts: one that
PMAP takes from the virtual device meanwhile is sent under that one. -/
def State.pageList (s : State) (v : Nat) : List Nat := (s.pagesOfVd v).map fun e => e.1 + 2 ^ 24 * (e.2 / 2 ^ 17)
/-- The snapshot of a page of the list, under the guest address that maps it now, or else that of the list: its entry is
read once more. -/
def State.snapshotOf (s : State) (v x : Nat) : State :=
  (s.walked2 (s.vdPad v) v (kgetD (s.pagesOfVd v) (x % 2 ^ 24) (x / 2 ^ 24 * 2 ^ 17))).snapshot v (x % 2 ^ 24) (kgetD (s.pagesOfVd v) (x % 2 ^ 24) (x / 2 ^ 24 * 2 ^ 17))
/-- ROUND: page by page, each snapshot's granules sent before the next; to a host buffer it ends
itself. -/
def State.shepRoundStep (s : State) (id : Nat) (o : PrivOp) : State :=
  let v := o.elem
  let d := s.vd v
  if o.ix = 0 then
    ((s.scan v).modVd v fun d => { d with sent := 0, granules := [], snapped := [] }).setPriv id
      { o with ix := 1, waiting := s.pageList v }
  else match d.granules, o.waiting with
    | g :: _, _ => s.shepSend id o g
    | [], p :: ps => (s.snapshotOf v p).setPriv id { o with waiting := ps }
    | [], [] =>
        if d.shepArgs.getD 0 0 = 0 then s.setPriv id { o with ix := 2 }
        else (s.modVd v fun d => { d with round := d.round + 1 }).shepEnd id o 0
/-- STOP: the steps of R438 up to the switch. -/
def State.shepStopStep (s : State) (id : Nat) (o : PrivOp) : State :=
  let v := o.elem
  match o.ix with
  | 0 =>
      let s := s.modVd v fun d => { d with sent := 0, drops := 0, granules := [], snapped := [] }
      if 1000 * o.args.getD 0 0 < o.args.getD 2 0 then s.shepEnd id o 1
      else (s.modVd v fun d => { d with shep := 2, frozen := true }).setPriv id { o with ix := 1 }
  | 1 =>
      if !s.vdStill v then s
      else if s.scanBad v then (((s.scan v).shepError v).shepResume v).shepEnd id o 3
      else (s.scan v).setPriv id { o with ix := 2, waiting := s.pageList v }
  | 2 =>
      match o.waiting with
      | p :: ps => (s.snapshotOf v p).setPriv id { o with waiting := ps }
      | [] => s.setPriv id { o with ix := 3 }
  | 3 =>
      match (s.vd v).granules with
      | g :: _ => s.shepSend id o g
      | [] => s.shepStream id o
  | _ => s
/-- The progress of a shepherd command. One whose scan meets a table that cannot be read ends with code 3 and a record
(R447); an ABORT then ends the tracking of what can be read (log 91). -/
def State.shepStep (s : State) (id : Nat) (o : PrivOp) : State :=
  let v := o.elem
  if o.pool = 0 && !(s.performedBefore o.fold o.flock id && s.noteReady o.reg && s.privReady id o) then s
  else if (o.what == 30 || (o.what == 31 && o.ix == 0)) && s.scanBad v then
    ((s.scan v).shepError v).shepEnd id o 3
  else match o.what with
    | 30 => ((s.scan v).shepBegin v (o.args.getD 0 0) (o.args.getD 1 0)).shepEnd id o 0
    | 31 => s.shepRoundStep id o
    | 32 => s.shepStopStep id o
    | 33 =>
        let bad := (s.vd v).shep == 1 && s.scanBad v
        let s := if (s.vd v).shep = 1 then (s.scan v).trackPages ((s.pagesOfVd v).map Prod.fst) false else s
        let s := if bad then s.shepError v else s
        (s.modVd v fun d => { d with
          shep := 0, granules := [], snapped := [], sent := 0, got := false, frozen := d.frozen && d.shep != 4
          heldTo := if d.shep = 4 then s.nextId else d.heldTo }).shepEnd id o (if bad then 3 else 0)
    | _ => (s.modVd v fun d => { d with
        shep := 4, shepArgs := [0, bits (o.args.getD 0 0) 30 16], frozen := true, got := false, sent := 0
        round := 0 }).shepEnd id o 0
/-- The command of a kind outstanding for a virtual device. -/
def State.shepOp (s : State) (v what : Nat) : Option (Nat × PrivOp) :=
  s.privs.find? fun e => e.2.what == what && e.2.elem == v
/-- ROUND_ACKNOWLEDGED (R431): the destination has acknowledged, or refused, every granule. -/
def State.roundAck (s : State) (v : Nat) (refused : Bool) : State :=
  match s.shepOp v 31 with
  | some (id, o) =>
      if o.ix ≠ 2 then s
      else if refused then (s.markAgain v).shepEnd id o 4
      else (s.modVd v fun d => { d with round := d.round + 1 }).shepEnd id o 0
  | none => s
def execRoundAcknowledged (vd : Nat) (refused : Bool) (s : State) : Host.Outcome State Fault Refusal :=
  .next (s.roundAck vd refused)
/-- TRANSFER_FAILURE (R437): a transfer, or the destination, fails. -/
def State.transferFail (s : State) (v : Nat) (refused : Bool) : State :=
  let code := if refused then 4 else 3
  match s.shepOp v 31, s.shepOp v 32 with
  | some (id, o), _ =>
      if o.ix = 0 then s else (s.markAgain v).shepEnd id o code
  | none, some (id, o) => if o.ix < 3 then s else (s.shepResume v).shepEnd id o code
  | none, none => s
def execTransferFailure (vd : Nat) (refused : Bool) (s : State) : Host.Outcome State Fault Refusal :=
  .next (s.transferFail vd refused)

/-! ### The switch and the destination (R438, R439) -/

/-- The map entry of a virtual device's number changed; one that was invalid becomes that number's. An entry that
serves another number is not this one's (R347). -/
def State.modOwnVdn (s : State) (v : Nat) (g : VdnEnt → VdnEnt) : State :=
  match s.ownVdn v with
  | some n =>
      let e := kgetD s.vdns (n % 4096) ⟨0, 0, 0, 0, 0, (0, 0), 0⟩
      if e.st ≠ 0 ∧ e.tag ≠ n / 4096 then s
      else { s with vdns := kset s.vdns (n % 4096) (g { e with tag := n / 4096 }) }
  | none => s
/-- MIGRATION_SWITCH (R438): step 5 at the source, and steps 5 and 6 at the destination. -/
def State.migSwitch (s : State) (v : Nat) : State :=
  let d := s.vd v
  let host := d.shepArgs.getD 0 0 = 1
  if d.shep = 2 then
    match s.shepOp v 32 with
    | some (id, o) =>
        if o.ix ≠ 4 then s
        else
          let s := s.modOwnVdn v fun e =>
            { e with
              st := 3, device := d.shepArgs.getD 1 0, moved := ((s.die 16).refs, (s.die 17).refs)
              expired := if host then 3 else 0 }
          let s := (s.scan v).trackPages ((s.pagesOfVd v).map Prod.fst) false
          ((s.dropVd v).modVd v fun d => { d with shep := 3, withheld := [], snapped := [] }).shepEnd id o 0
    | none => s
  else if d.shep = 4 ∧ d.got then
    let s := s.modOwnVdn v fun e => { e with st := 1, vd := v, moved := (0, 0), expired := 0 }
    s.modVd v fun d => { d with
      shep := 0, frozen := false, got := false, mute := List.range (s.lqn v) }
  else s
def execMigrationSwitch (vd : Nat) (s : State) : Host.Outcome State Fault Refusal :=
  .next (s.migSwitch vd)
/-- The virtual device is RECEIVING from a device (R437). -/
def State.receives (s : State) (v src : Nat) : Bool :=
  (s.vd v).shep == 4 && (s.vd v).shepArgs.getD 1 0 == src
/-- GRANULE_RECEIVE (R431, R438): a granule from a device is written through the destination's stage 2, or refused. -/
def State.granuleIn (s : State) (v g : Nat) (bs : List Byte) (src : Nat) : State :=
  let refuse := s.packet src 9 [wd v, wd g]
  if !s.fabricUp (2 ^ 18 - 1) then s
  else if !s.receives v src ∨ bs.length ≠ 2048 then refuse
  else
    let t := s.walked2 (s.vdPad v) v (2048 * g % 2 ^ 48)
    match s.walk2 v (2048 * g % 2 ^ 48) true with
    | .mem slot pa =>
        if (s.writeErr slot pa 2048).isSome then t.packet src 9 [wd v, wd g]
        else (t.memPut (s.vdPad v) .keep slot pa bs).packet src 8 [wd v, wd g]
    | _ => t.packet src 9 [wd v, wd g]
def execGranuleReceive (a : Arrival) (granule : Nat) (bytes : List Byte) (s : State) :
    Host.Outcome State Fault Refusal := .next (s.granuleIn a.vd granule bytes a.src)
/-- STREAM_RECEIVE (R438): the stream is checked and installed as LOADX installs, or refused. -/
def State.streamIn (s : State) (v : Nat) (bs : List Byte) (src : Nat) : State :=
  if !s.fabricUp (2 ^ 18 - 1) then s
  else if !s.receives v src ∨ (s.vd v).got then s.packet src 11 [wd v]
  else
    let x := s.loadStream v bs.length fun off n => leNat ((bs.drop off).take n)
    if x.1 = 0 then (x.2.2.modVd v fun d => { d with got := true }).packet src 10 [wd v]
    else x.2.2.packet src 11 [wd v]
def execStreamReceive (a : Arrival) (bytes : List Byte) (s : State) :
    Host.Outcome State Fault Refusal := .next (s.streamIn a.vd bytes a.src)

/-! ### Peer accesses of other devices (R347, R440) -/

/-- What stands against one piece of an access under a virtual device's stage 2. -/
def State.peerPieceBad (s : State) (v : Nat) (wr : Bool) (p : Nat × Nat) : Bool :=
  match s.walk2 v p.1 wr with
  | .mem slot pa => ((if wr then s.writeErr slot pa p.2 else s.readErr slot pa p.2)).isSome
  | .notify .. => false
  | _ => true
/-- One piece read, and one written, through the page owner's ways (R356). -/
def State.peerRead (s : State) (v : Nat) (p : Nat × Nat) : List Byte × State :=
  let t := s.walked2 (s.vdPad v) v p.1
  match s.walk2 v p.1 false with
  | .mem slot pa => (memRead s.mem pa p.2, t.cached (s.payer (s.vdPad v) pa) .keep false slot pa p.2)
  | _ => (List.replicate p.2 0, t)
def State.peerWrite (s : State) (v : Nat) (p : Nat × Nat) (bs : List Byte) : State :=
  let t := s.walked2 (s.vdPad v) v p.1
  match s.walk2 v p.1 true with
  | .mem slot pa => t.memPut (s.payer (s.vdPad v) pa) .keep slot pa bs
  | .notify w q off => if off = 0 ∧ bs.length = 4 then t.lqNotify w q (leNat bs) else t
  | _ => t
/-- What an access that is refused has read: its walks, and the blocks whose errors it met (R26, R448). -/
def State.peerTried (s : State) (v : Nat) (wr : Bool) (ps : List (Nat × Nat)) : State :=
  ps.foldl (fun s p =>
    let t := s.walked2 (s.vdPad v) v p.1
    match s.walk2 v p.1 wr with
    | .mem slot pa => if !wr && (s.readErr slot pa p.2).isSome then t.yieldErrors pa p.2 else t
    | _ => t) s
/-- PEER_ACCESS (R347): an incoming access to a virtual device number, from another's, at lea die `lea`. It is
performed, refused, or forwarded; while the target's stop runs it is held. `bs` gives a read its length. -/
def State.peerIn (s : State) (vdn src gpa : Nat) (wr : Bool) (bs : List Byte) (lea : Nat) : State :=
  let words := [wd vdn, wd gpa, wd (gpa / 2 ^ 32), wd bs.length, if wr then 1 else 0]
  let back := s.deviceOf src
  let refuse := s.packet back 4 words
  if !s.fabricUp (leaPorts lea) then s
  else match s.vdnEnt vdn with
  | none => refuse
  | some e =>
      if e.st = 3 then
        if s.moveOver e (lea % 2) then s.packet back 5 words
        else s.packet e.device 12 (wd src :: words ++ if wr then bytesWords bs else [])
      else if e.st ≠ 1 then refuse
      else if (s.vd e.vd).shep = 2 then s
      else if !s.sameGroup src vdn then refuse
      else
        let ps := piecesOf (gpa % 2 ^ 48) bs.length
        if ps.any (s.peerPieceBad e.vd wr) then (s.peerTried e.vd wr ps).packet back 4 words
        else if wr then
          ((ps.foldl (fun (r : State × List Byte) p =>
            (r.1.peerWrite e.vd p (r.2.take p.2), r.2.drop p.2)) (s, bs)).1).packet back 3 words
        else
          let r := ps.foldl (fun (r : List Byte × State) p =>
            let x := r.2.peerRead e.vd p
            (r.1 ++ x.1, x.2)) ([], s)
          r.2.packet back 2 (words ++ bytesWords r.1)
def execPeerAccess (target : PeerTarget) (src gpa : Nat) (wr : Bool) (bytes : List Byte) (s : State) :
    Host.Outcome State Fault Refusal := .next (s.peerIn target.vdn src gpa wr bytes target.lea)
/-- The device number is one of another device, and of the operation's group. -/
def State.reaches (s : State) (o : CopyOp) (vdn : Nat) : Bool :=
  match s.ownVdn o.vd, s.vdnEnt vdn with
  | some own, some e => decide (2 ≤ e.st) && s.sameGroup own vdn
  | _, _ => false
/-- MOVED_REFUSAL (R440): a packet of an operation to a moved virtual device comes back: one of the writes that it has
sent there, which one being a free value, or else an access that a running operation has still to perform. -/
def State.movedIn (s : State) (vdn op : Nat) : State :=
  match kget s.copies op with
  | none => s
  | some o =>
      let mine := (List.range o.owed.length).filter fun i => (o.owed[i]?.map Prod.fst) == some vdn
      let now := some (s.die (16 + portOf o.vd)).refs
      if !mine.isEmpty then
        let f := s.freeVal
        let i := mine.getD (f.1.toNat % mine.length) 0
        { f.2 with
          copies := kset s.copies op
            { o with moved := now, owed := o.owed.eraseIdx i, backs := o.backs ++ (o.owed.drop i).take 1 } }
      else if o.paddock = 0 ∨ o.phase ≠ 1 ∨ o.wrote ∨ !s.reaches o vdn then s
      else { s with copies := kset s.copies op { o with moved := now } }
def execMovedRefusal (vdn op : Nat) (s : State) : Host.Outcome State Fault Refusal :=
  .next (s.movedIn vdn op)
/-- A write packet of an operation goes out through the map as it stands (R259, R440): it is sent, performed where the
target is here, held while the target's stop runs or the map still names the old home, or refused. -/
def State.sendAgain (s : State) (op : Nat) (x : Nat × Nat × List Byte) : State :=
  match kget s.copies op with
  | none => s
  | some o =>
      let put := fun (s : State) (o : CopyOp) => { s with copies := kset s.copies op o }
      let later := put s { o with backs := o.backs ++ [x] }
      let stops := (s.vdnEnt x.1).any fun e => e.st == 1 && (s.vd e.vd).shep == 2
      let here := (s.vdnEnt x.1).elim s fun e => s.walked2 o.paddock e.vd x.2.1
      if stops then later
      else match s.peerRoute o.vd x.1 x.2.1 true with
        | .fault 17 _ _ => later
        | .fault sub _ _ => put s { o with fail := some sub }
        | .peer vdn gpa =>
            put (s.packet (s.deviceOf vdn) 1 (s.peerHead o.vd vdn gpa x.2.2.length ++ bytesWords x.2.2))
              { o with owed := o.owed ++ [x] }
        | .mem slot pa => match s.writeErr slot pa x.2.2.length with
            | some sub => put s { o with fail := some sub }
            | none => here.memPut (s.payer o.paddock pa) o.keep slot pa x.2.2
        | .notify v q off => if off = 0 ∧ x.2.2.length = 4 then here.lqNotify v q (leNat x.2.2) else here
/-- MOVED_RETRY (R440): after 4,096 counts the packets go out again through the map, those that were refused and, of a
running operation, those still to be sent. -/
def State.movedAgain (s : State) (op : Nat) : State :=
  match kget s.copies op with
  | none => s
  | some o =>
      let now := (s.die (16 + portOf o.vd)).refs
      if (o.moved.isNone && o.backs.isEmpty) || (o.moved.any fun t => decide (now < t + 4096)) then s
      else
        let t := o.backs.foldl (fun s x => s.sendAgain op x)
          { s with copies := kset s.copies op { o with moved := none, backs := [] } }
        match kget t.copies op with
        | some u => if u.backs.isEmpty then t else { t with copies := kset t.copies op { u with moved := some now } }
        | none => t
def execMovedRetry (op : Nat) (s : State) : Host.Outcome State Fault Refusal := .next (s.movedAgain op)
/-- FORWARDING_EXPIRY (R440): on each lea die forwarding ends 1,000,000 of its counts after the switch. -/
def State.fwdExpire (s : State) (vdn : Nat) : State :=
  match s.vdnEnt vdn with
  | none => s
  | some e =>
      if e.st = 3 then
        { s with
          vdns := kset s.vdns (vdn % 4096)
            { e with expired := (if s.moveOver e 0 then 1 else 0) + if s.moveOver e 1 then 2 else 0 } }
      else s
def execForwardingExpiry (vdn : Nat) (s : State) : Host.Outcome State Fault Refusal :=
  .next (s.fwdExpire vdn)

/-! ### SHEPCMD (R443) -/

/-- BUSY: a command that the physical function of a port gave is in progress. -/
def State.shepRuns (s : State) (port : Nat) : Bool :=
  s.privs.any fun e => decide (30 ≤ e.2.what) && decide (e.2.what < 35) && e.2.pool == 1 + port
/-- SHEPSTAT as it reads. What is held at 0x9018 is ERR, and the last virtual device commanded, plus 1, from bit
16. -/
def State.shepStat (s : State) (port : Nat) : Nat :=
  let x := s.bar (128 + port) 0x9018
  (if 65536 ≤ x then (s.vd (x / 65536 - 1)).shep * 256 else 0) + (if bitOf x 1 then 2 else 0)
    + if s.shepRuns port then 1 else 0
/-- SHEPCMD through the physical function of a port (R443). -/
def State.shepCommand (s : State) (port x : Nat) : State :=
  let f := 128 + port
  let v := bits x 6 0
  let cmd := bits x 11 8
  let a := s.bar f 0x9000 % 2 ^ 32
  let b := s.bar f 0x9000 / 2 ^ 32
  if s.shepRuns port || decide (5 ≤ cmd) || s.shepBad cmd v a b true then
    s.setBar f 0x9018 (s.bar f 0x9018 / 65536 * 65536 + 2)
  else
    let y := s.shepArgsNow cmd v a b
    let id := y.2.nextId
    { y.2.setBar f 0x9018 (65536 * (v + 1)) with
      nextId := id + 1
      privs := kset y.2.privs id
        { privOf (30 + cmd) v y.1 with reg := hostPa port (s.bar f 0x9008 / 32 * 32), pool := 1 + port } }
def execShepcmd (port : Nat) (value : DWord) (s : State) : Host.Outcome State Fault Refusal :=
  .next (if s.fnUp (128 + port) then s.shepCommand port value.toNat else s)

/-! ### Completion of privileged operations -/

/-- PRIVILEGED_COMPLETION (R464): a privileged operation makes progress at its unit, and ends with its
notification when it can. -/
def State.privDone (s : State) (id : Nat) : State :=
  match kget s.privs id with
  | none => s
  | some o =>
      if o.what = 20 ∨ o.what = 21 then s
      else if 30 ≤ o.what ∧ o.what < 35 then
        s.shepStep id o
      else if 40 ≤ o.what ∧ o.what < 44 then s.savexStep id o
      else if o.what = 44 then s.codemvStep id o
      else s.privStep id o
def execPrivilegedCompletion (op : Nat) (s : State) : Host.Outcome State Fault Refusal :=
  .next (s.privDone op)

end Sys2Proof.Machine
end

