-- ==== Sys2Proof/Machine/HostIo.lean ====
section
/-! DEFINITION. What hosts do to the device and see of it: registers of BAR0 (R331 to R333), host
windows (R208, R209), configuration requests (R329, R330, R333), the event and fault queues (R364,
R402), trace records (R366), and DECODE at a fetch (R60). -/
namespace Sys2Proof.Machine

/-! ### Answers to hosts (log 12) -/

/-- Where an answer to a host port goes. -/
def hostDest (port : Nat) : Nat := 2 ^ 20 + port
/-- The function answers its host: a physical function, or that of a valid virtual device, of a port that is
not down (R450). -/
def State.visible (s : State) (v : Nat) : Bool :=
  ((128 ≤ v && v < 130) || s.vdValid v) && !bitOf s.portsDown (portOfFn v)

/-! ### BAR0 registers (R331 to R333) -/

/-- LQNOTIFY (R331). -/
def execLqnotify (vd queue : Nat) (value : DWord) (s : State) : Host.Outcome State Fault Refusal :=
  .next (if s.visible vd then s.lqNotify vd queue (value.toNat % 2 ^ 32) else s)
/-- CQHEAD (R331). -/
def State.cqHead (s : State) (v q x : Nat) : State :=
  if s.visible v && decide (q < s.cqn v) then s.setBar v (cqReg q 2) (x % 2 ^ 32) else s
def execCqhead (vd queue : Nat) (value : DWord) (s : State) : Host.Outcome State Fault Refusal :=
  .next (s.cqHead vd queue value.toNat)
/-- TLBINV (R331): the drop ends at once, so BUSY reads 0. -/
def State.tlbInv (s : State) (v : Nat) : State := if s.visible v then s.setBar v 0x10 0 else s
def execTlbinv (vd : Nat) (_value : DWord) (s : State) : Host.Outcome State Fault Refusal :=
  .next (s.tlbInv vd)
/-- GFQANS (R332): replay, or abort with SUB 8; an INDEX of no outstanding record is ignored. A record stays outstanding
until its INDEX is named; one whose operation no longer stalls on it ends nothing else. -/
def State.gfAnswer (s : State) (v x : Nat) : State :=
  match if s.visible v then kget (s.vd v).gfOut (bits x 15 0) else none with
  | none => s
  | some op =>
      let t := s.modVd v fun d => { d with gfOut := kdel d.gfOut (bits x 15 0) }
      if ((kget s.copies op).bind CopyOp.posted) = some (bits x 15 0) then
        t.answerFault op (if bitOf x 16 then some 8 else none)
      else t
def execGfqans (vd : Nat) (value : DWord) (s : State) : Host.Outcome State Fault Refusal :=
  .next (s.gfAnswer vd value.toNat)
/-- S1ROOT through BAR0 (R331): the virtual device's register, its reserved bits 0. -/
def State.s1root (s : State) (v x : Nat) : State :=
  if v < 128 && s.visible v then s.setReg 1 v 0x02 0 (bits x 47 15 * 2 ^ 15 + x % 2) else s
def execS1rootWrite (vd : Nat) (value : DWord) (s : State) : Host.Outcome State Fault Refusal :=
  .next (s.s1root vd value.toNat)
/-- SHADOW (R333): the driver's approved tail of a queue of a virtual function. -/
def State.shadow (s : State) (v q x : Nat) : State :=
  if v < 128 && q < 16 && s.fnUp v then s.setBar (128 + portOf v) (0x5000 + 128 * (v % 64) + 8 * q) (x % 2 ^ 32) else s
def execShadow (vd queue : Nat) (value : DWord) (s : State) : Host.Outcome State Fault Refusal :=
  .next (s.shadow vd queue value.toNat)
/-- HACONS (R333). -/
def execHacons (port : Nat) (value : DWord) (s : State) : Host.Outcome State Fault Refusal :=
  .next (if port < 2 ∧ s.fnUp (128 + port) then s.setBar (128 + port) 0x90 (value.toNat % 2 ^ 32) else s)
/-- HOST_ASSIST_RECORD (R333), of the port of a function. -/
def execHostAssistRecord (vd : Nat) (s : State) : Host.Outcome State Fault Refusal :=
  .next (s.assistWrite (portOfFn vd))
/-- A base that becomes nonzero starts its count again. -/
def State.setRing (s : State) (v off count top x : Nat) : State :=
  match ringBase top x with
  | none => s
  | some b => if s.bar v off = 0 ∧ b ≠ 0 then (s.setBar v count 0).setBar v off b else s.setBar v off b
/-- REGISTER_WRITE (R331, R333, R443): a register without a row of its own. Writes of read-only and
absent registers are ignored. -/
def State.regWrite (s : State) (v off x : Nat) : State :=
  let pf := decide (128 ≤ v)
  if !s.visible v || off % 8 != 0 then s
  else if 0x1000 ≤ off ∧ off < 0x3000 then s.queueReg v off x
  else match off, pf with
    | 0x18, false => s.setRing v 0x18 0x48 12 x
    | 0x28, false => s.setTrace v (bits x 8 8 * 256 + bits x 4 0)
    | 0x38, _ => s.setBar v 0x38 (bits x 63 12 * 4096)
    | 0x40, _ => if bitOf x 32 then s.setBar v 0x40 (s.bar v 0x40 % 2 ^ 32) else s
    | 0x50, false => s.setBar v 0x50 (bits x 10 0)
    | 0x80, true => s.setRing v 0x80 0x88 12 x
    | 0x98, true => s.setBar v 0x98 (bits x 10 0)
    | 0x9000, true => s.setBar v 0x9000 x
    | 0x9008, true => s.setBar v 0x9008 (bits x 63 5 * 32)
    | _, _ => s
/-- The function that a port's function number names: 0 the physical function, 1 to 64 a virtual
function (R328). -/
def fnOf (port vf : Nat) : Nat := if vf = 0 then 128 + port else 64 * port + vf - 1
def execRegisterWrite (port vf offset : Nat) (value : DWord) (s : State) :
    Host.Outcome State Fault Refusal :=
  .next (if port < 2 ∧ vf ≤ 64 then s.regWrite (fnOf port vf) offset value.toNat else s)

/-- What a register of a function reads as: 0 where it is write-only, absent, or of a queue at or above the
function's count (R8, R331, R333, R443); no drop of translations is ever in progress. -/
def State.regValue (s : State) (v off : Nat) : Nat :=
  let pf := decide (128 ≤ v)
  let q := off % 0x1000 / 32
  if off % 8 != 0 then 0
  else if 0x1000 ≤ off ∧ off < 0x2000 then
    if q < s.lqn v ∧ off % 32 != 16 then s.bar v off else 0
  else if 0x2000 ≤ off ∧ off < 0x3000 then if q < s.cqn v then s.bar v off else 0
  else match off, pf with
    | 0x00, false => s.lqn v + s.cqn v * 2 ^ 8 + s.hwinCount v * 2 ^ 16
    | 0x08, false => s.reg 1 v 0x02 0
    | 0x28, false => s.reg 1 v 0x05 0
    | 0x18, false | 0x30, false | 0x48, false | 0x50, false => s.bar v off
    | 0x38, _ | 0x40, _ => s.bar v off
    | 0x80, true | 0x88, true | 0x90, true | 0x98, true | 0x9000, true | 0x9008, true => s.bar v off
    | 0x9018, true => s.shepStat (v - 128)
    | _, _ => 0
/-- A host reads a register of a function: the answer goes to its port. -/
def State.regRead (s : State) (port vf off : Nat) : State :=
  let v := fnOf port vf
  if 2 ≤ port ∨ 64 < vf ∨ !s.visible v then s
  else s.packet (hostDest port) 24 [wd vf, wd off, wd (s.regValue v off), wd (s.regValue v off / 2 ^ 32)]
/-- The driver of a physical function reads an entry of the boot journal (R450). -/
def State.journalRead (s : State) (port ix : Nat) : State :=
  if 2 ≤ port ∨ !s.visible (128 + port) then s
  else s.packet (hostDest port) 25 (wd ix :: (s.journal.getD ix []).map wd)

/-! ### Host windows (R208, R209, R330) -/

/-- Bytes of a host window as its host reads them: 0 at and beyond the share's end, and free where an uncorrectable error
has struck the word, which is then reported (R446, log 93). -/
def State.windowRead (s : State) (place a room n : Nat) : List Byte × State :=
  (List.range n).foldl (fun r i =>
    if room ≤ a + i then (r.1 ++ [0], r.2)
    else if s.struck (place + i) 1 then (r.1 ++ (r.2.freeBytes 1).1, (r.2.freeBytes 1).2)
    else (r.1 ++ [memGet s.mem (place + i)], r.2)) ([], s)
/-- HOST_WINDOW_ACCESS: a host reads or writes BAR2 of a virtual function. Outside the share reads
give 0 and writes are dropped; a migration drops writes (R438). `bs` gives a read its length. -/
def State.windowAccess (s : State) (port vf a : Nat) (wr : Bool) (bs : List Byte) : State :=
  let v := fnOf port vf
  if 2 ≤ port ∨ vf = 0 ∨ 64 < vf ∨ !s.visible v then s
  else
    let room := 4096 * s.hwinCount v
    let place := windowAt port (4096 * s.hwinFirst v + a)
    if wr then
      if (s.vd v).shep = 2 ∨ (s.vd v).shep = 3 then s.dropHost v
      else
        { s with
          mem := memWrite s.mem place (bs.take (room - a))
          upsets := healWords s.upsets place (bs.take (room - a)).length }
    else
      let got := s.windowRead place a room bs.length
      let s := if s.struck place (Nat.min bs.length (room - a)) then
          got.2.errorRecord (16 + port) (s.vdPad v) v s.nextId 0 0 0 0 0 else got.2
      s.packet (hostDest port) 20 (wd a :: got.1.map fun b => b.setWidth 32)
def execHostWindowAccess (port vf addr : Nat) (wr : Bool) (bytes : List Byte) (s : State) :
    Host.Outcome State Fault Refusal := .next (s.windowAccess port vf addr wr bytes)

/-! ### Configuration requests (R329, R330, R333) -/

/-- The answer to a configuration request: status (0 success, 1 Unsupported Request, 2 Configuration
Request Retry Status) and data. -/
def State.cfgReply (s : State) (v status : Nat) (data : Word) : State :=
  s.packet (hostDest (portOf v)) 21 [wd v, wd status, data]
/-- The lowest TAG that no outstanding request of a port has. -/
def State.freeTag (s : State) (port : Nat) : Nat :=
  ((List.range 64).find? fun t => (s.vd (128 + port)).reqs.all fun r => r.1 != t).getD 0
/-- CONFIG_REQUEST: words 0 and 1 of a record (R333), word 0 holding 2 for a read and 3 for a write,
and the data written. The hypervisor complex answers from tables that the spec does not give, so its
data is a free value; a forwarded request waits for CFGANS. -/
def State.cfgRequest (s : State) (v : Nat) (ws : List Word) : State :=
  let f := 128 + portOf v
  if s.standby = 1 then s.cfgReply v 2 0
  else if !s.vdValid v then s.cfgReply v 1 0
  else if !s.mode (s.vdPad v) 6 then
    let x := s.freeVal
    x.2.cfgReply v 0 (x.1.setWidth 32)
  else if 64 ≤ (s.vd f).reqs.length then s.cfgReply v 2 0
  else
    let t := s.freeTag (portOf v)
    let type := if wbits (ws.getD 0 0) 7 0 = 3 then 3 else 2
    let r := wbits (ws.getD 1 0)
    (s.modVd f fun d => { d with reqs := d.reqs ++ [(t, v, ws)] }).assistPut (portOf v)
      [wd (v % 64 * 256 + type), wd (r 19 16 * 2 ^ 16 + r 11 2 * 4), if type = 3 then ws.getD 2 0 else 0
       , wd t, 0, 0, 0, 0]
def execConfigRequest (vd : Nat) (words : List Word) (s : State) : Host.Outcome State Fault Refusal :=
  .next (if vd < 128 && !bitOf s.portsDown (portOf vd) then s.cfgRequest vd words else s)
/-- CFGANS (R333): the request of a TAG is complete; another TAG is ignored. -/
def State.cfgAnswer (s : State) (port x : Nat) : State :=
  let f := 128 + port
  match (s.vd f).reqs.find? fun r => r.1 == bits x 15 0 with
  | none => s
  | some (t, v, _) =>
      (s.modVd f fun d => { d with reqs := d.reqs.filter fun r => r.1 != t }).cfgReply v
        (if bitOf x 16 then 1 else 0) (wd (x / 2 ^ 32))
def execCfgans (port : Nat) (value : DWord) (s : State) : Host.Outcome State Fault Refusal :=
  .next (if port < 2 ∧ s.fnUp (128 + port) then s.cfgAnswer port value.toNat else s)
/-- The image of a number; one that nothing has replaced is the one delivered with the device (log 57). -/
def State.image (s : State) (ix : Nat) : Image := kgetD s.images ix ⟨[], true, true⟩
/-- An image is used only when both of its signatures verify (R449). -/
def Image.verifies (x : Image) : Bool := x.ed && x.ml
/-- STANDBY_TAKEOVER (R330): the standby complex begins to take over, with event 6; the second time it
has taken over, with its firmware loaded, which is used only where it verifies (R449). -/
def State.takeover (s : State) (lea : Nat) : State :=
  if s.standby = 0 then { s with standby := 1 }.event 6 lea 0 0 lea []
  else if s.standby = 1 ∧ (s.image 3).verifies then { s with standby := 2, loaded := kset s.loaded 5 (s.image 3) }
  else s
def execStandbyTakeover (lea : Nat) (s : State) : Host.Outcome State Fault Refusal :=
  .next (s.takeover lea)

/-! ### Event and fault queues (R364, R402) -/

/-- EVENT_RECORD (R364): the oldest event that the device has is recorded (`src` 0), or a message of
the hypervisor complex (1) or of the physical function of port A or B (2, 3) becomes an event. -/
def State.eventRecord (s : State) (src : Nat) (pay : List Word) : State :=
  if src = 0 then
    match s.evNew with
    | [] => s
    | r :: rest => { s with evNew := rest }.evArrive r
  else if src < 4 then s.event src 0 0 0 0 pay
  else s
def execEventRecord (src : Nat) (payload : List Word) (s : State) : Host.Outcome State Fault Refusal :=
  .next (s.eventRecord src payload)
/-- EVENT_QUEUE_POLL (R364). -/
def execEventQueuePoll (s : State) : Host.Outcome State Fault Refusal := .next (s.evFlush 64)

/-- The place of a paddock's fault queue and its number of records. -/
def State.fqBase (s : State) (p : Nat) : Nat := bits (s.reg 0 p 0x09 0) 43 12 * 4096
def State.fqSize (s : State) (p : Nat) : Nat := 128 * bits (s.reg 0 p 0x09 0) 59 48 - 1
/-- A word of its header, and whether it can be read (R447, R448). -/
def State.fqWord (s : State) (p i : Nat) : Nat := s.rd (s.fqBase p + 4 * i) 4
def State.fqReads (s : State) (p i : Nat) : Bool := (s.readErr 0 (s.fqBase p + 4 * i) 4).isNone
/-- The header's counts are read through the cache of their stack (R26). -/
def State.fqPass (s : State) (p : Nat) : State := s.cached 0 .keep false 0 (s.fqBase p) 12
/-- Waiting records are written in order while the queue has room; a header that cannot be read shows none (log 93).
While SIZE is 0 they are dropped. -/
def State.fqFlush (s : State) (p : Nat) : Nat → State
  | 0 => s
  | n + 1 =>
      match (s.pad p).faultBuf with
      | [] => s
      | r :: rest =>
          if s.fqSize p = 0 then s.modPad p fun d => { d with faultBuf := [] }
          else
          let s := s.fqPass p
          let prod := s.fqWord p 0
          if !s.fqReads p 0 || !s.fqReads p 1 || decide (s.fqSize p ≤ (prod + 2 ^ 32 - s.fqWord p 1) % 2 ^ 32) then s
          else
            let s := s.modPad p fun d => { d with faultBuf := rest }
            let s := s.devPut 0 (s.fqBase p + 32 + 32 * (prod % s.fqSize p)) (wordsBytes r)
            State.fqFlush (s.devPut 0 (s.fqBase p) (leBytes ((prod + 1) % 2 ^ 32) 4)) p n
/-- FAULT_RECORD_WRITE (R402): a record arrives; it is written, waits among 16, or is dropped with OVF. -/
def State.faultWrite (s : State) (p : Nat) : State :=
  match (s.pad p).faultNew with
  | [] => s
  | r :: rest =>
      let s := s.modPad p fun d => { d with faultNew := rest }
      let s := s.fqFlush p 16
      if s.fqSize p = 0 then s
      else if (s.pad p).faultBuf.length < 16 then
        (s.modPad p fun d => { d with faultBuf := d.faultBuf ++ [r] }).fqFlush p 16
      else if !s.fqReads p 2 then s
      else s.devPut 0 (s.fqBase p + 8) (leBytes (s.fqWord p 2 / 2 * 2 + 1) 4)
def execFaultRecordWrite (paddock : Nat) (s : State) : Host.Outcome State Fault Refusal :=
  .next (s.faultWrite paddock)
/-- FAULT_QUEUE_POLL (R402). -/
def execFaultQueuePoll (paddock : Nat) (s : State) : Host.Outcome State Fault Refusal :=
  .next (s.fqFlush paddock 16)

/-! ### Trace records (R366) -/

/-- The part of the trace buffer for a record's virtual device: its place and number of records. -/
def State.tracePart (s : State) (p v : Nat) : Nat × Nat :=
  let r := s.reg 0 p 0x07 0
  let base := bits r 43 16 * 65536
  let n := bits r 59 48 * 65536 / 32
  if s.kind p = 2 then
    let x := s.pad p
    let i := if x.runEnt.any fun e => e.vd == v then x.running else (s.bindSet v).getD x.running
    (base + i * (n / 8) * 32, n / 8)
  else (base, n)
/-- The die on whose stack a paddock's trace buffer lies (R334). -/
def State.traceDie (s : State) (p : Nat) : Nat := bits (s.reg 0 p 0x07 0) 39 36
/-- TRACE_RECORD_WRITE (R366): a staged record is written to the part, which wraps or stops when full;
a TYPE 8 record follows where records were dropped, once there is space: of its staging, and under the cap. Its core,
flock, DROVEID, PC and tag are 0, and it goes to the part of the record it follows or, alone, of the running virtual
device (log 88). -/
def State.traceWrite (s : State) (p d : Nat) : State :=
  let key := p * 16 + d
  let lost := kgetD s.traceDrop key 0
  let drops := fun v => if lost = 0 ∨ s.atCap p (s.traceDie p) then []
    else [traceRec v 0 8 0 0 0 0 (wd lost) 0 (s.die d).refs]
  match kgetD s.stage key [] with
  | [] =>
      if (drops 0).isEmpty || 128 ≤ s.runningVd p then s
      else { s with stage := kset s.stage key (drops (s.runningVd p)), traceDrop := kdel s.traceDrop key }
  | r :: rest =>
      let v := wbits (r.headD 0) 22 16
      let tail := drops v
      let s := { s with
        stage := kset s.stage key (rest ++ tail), traceDrop := if tail.isEmpty then s.traceDrop else kdel s.traceDrop key }
      let part := s.tracePart p v
      let n := s.bar v 0x30
      let wrap := bitOf (s.reg 1 v 0x05 0) 8
      if !bitOf (s.reg 0 p 0x07 0) 0 || part.2 = 0 || (!wrap && part.2 ≤ n) then s
      else
        (s.devPut p (part.1 + 32 * (n % part.2)) (wordsBytes r)).setBar v 0x30 (n + 1)
def execTraceRecordWrite (paddock die : Nat) (s : State) : Host.Outcome State Fault Refusal :=
  .next (s.traceWrite paddock die)

/-! ### DECODE at a fetch (R60) -/

/-- FETCH_DECODE: the named band of a stage, where it issues next. -/
def State.fetchStage (s : State) (core stage band : Nat) : State :=
  let t := s.attend core stage
  match t.issuer with
  | none => s
  | some q => if q.bandB == (band == 1) then t.fetchDecode else s
def execFetchDecode (core stage band : Nat) (s : State) : Host.Outcome State Fault Refusal :=
  .next (s.fetchStage core stage band)

end Sys2Proof.Machine
end

