-- ==== Sys2Proof/Machine/House.lean ====
section
/-! DEFINITION. Housekeeping: bandwidth windows (R354, R360), hot marks (R306), clocks and thermal
reset (R452), scrubbing and uncorrectable errors (R446, R447), retirement (R355, R448), start (R450),
attestation (R451) and the management interface (R453). -/
namespace Sys2Proof.Machine

/-! ### Windows, heat and clocks -/

/-- BANDWIDTH_WINDOW (R354, R360): a window of QWIN counts ends, and the next has the minima and caps
that stand now. -/
def State.window (s : State) (d : Nat) : State :=
  if d < 16 ∧ (s.die d).winAt + s.reg 2 d 0x01 0 ≤ (s.die d).refs then
    s.modDie d fun x =>
      { x with
        winAt := x.refs, charged := [], bwNow := (List.range 32).map fun p => (p, (s.minOf p d, s.capOf p d)) }
  else s
def execBandwidthWindow (die : Nat) (s : State) : Host.Outcome State Fault Refusal := .next (s.window die)
/-- HOT_MARK (R306): a core's sensor and droop counter read anew. -/
def State.heat (s : State) (c temp droop : Nat) : State :=
  let th := s.reg 2 (dieOf c) 0x00 0
  if 640 ≤ c then s
  else s.modCore c fun k =>
    { k with
      temp := temp, droop := droop
      hot := coreHot th temp k.hot }
def execHotMark (core temp droop : Nat) (s : State) : Host.Outcome State Fault Refusal :=
  .next (s.heat core temp droop)
/-- The hottest sensor of a die. -/
def State.hottest (s : State) (d : Nat) : Nat :=
  ((List.range 40).map fun i => (s.core (40 * d + i)).temp).foldl Nat.max 0
/-- CLOCK_STEP (R452): at most every 10^5 counts the clock steps by 50 MHz, down to 425 MHz while the die
draws more than 190 W or its hottest sensor is at 110 °C or above, and up to 850 MHz once it is 5 °C under
that and within its budget. -/
def State.clockMove (s : State) (d : Nat) (up : Bool) : State :=
  let x := s.die d
  let due := if up then decide (s.hottest d ≤ 105 ∧ x.power ≤ 190)
    else decide (110 ≤ s.hottest d ∨ 190 < x.power)
  if 16 ≤ d ∨ x.refs < x.clockAt + 100000 ∨ due = false then s
  else
    let mhz := if up then Nat.min 850 (x.clock + 50) else Nat.max 425 (x.clock - 50)
    s.modDie d fun x => { x with clock := mhz, clockAt := x.refs }
def execClockStep (die : Nat) (up : Bool) (s : State) : Host.Outcome State Fault Refusal :=
  .next (s.clockMove die up)
/-- Every fold on some cores is reset (R417). -/
def State.resetOn (s : State) (on : Nat → Bool) : State :=
  (s.folds.filter fun e => e.2.onCore && on e.2.core).foldl (fun s e => s.resetFold e.1) s
/-- The residue mismatches of a die's cores are forgotten: their counts were of before its reset. -/
def State.forgetMisses (s : State) (d : Nat) : State :=
  { s with cores := s.cores.map fun (e : Nat × Core) => if dieOf e.1 = d then (e.1, { e.2 with misses := [] }) else e }
/-- THERMAL_RESET (R452): a sensor of the die has reached 125 °C. The die is reset with every context on it,
and its counts start at 0 (R411); how long folds have waited there is kept (R301, R310). -/
def State.dieReset (s : State) (d : Nat) : State :=
  if 16 ≤ d ∨ s.hottest d < 125 then s
  else ((s.resetOn fun c => dieOf c == d).forgetMisses d).modDie d fun x =>
    { x with past := x.past + x.cycles, refs := 0, cycles := 0, clock := 850, clockAt := 0, part := 0, winAt := 0, badBlocks := [], cache := [], charged := [] }
def execThermalReset (die : Nat) (s : State) : Host.Outcome State Fault Refusal := .next (s.dieReset die)

/-! ### Errors (R445 to R447, R404) -/

/-- An error that the code cannot repair strikes register words of a flock: by lane source operand code, v
registers, queue ages, and s registers in lane 0 (R444, R446). -/
def State.upsetReg (s : State) (fold flock code : Nat) (m : Mask) : State :=
  if 0x70 ≤ code ∨ m = 0 then s
  else s.modFlock fold flock fun fl => { fl with bad := kset fl.bad code (kgetD fl.bad code 0 ||| m) }
/-- It strikes a word of a scratchpad, of the commons or of a host window, or a block of HBM4. -/
def State.upsetMem (s : State) (a : Nat) : State :=
  if isHbm a then s.modPage (a / 2 ^ 17) fun r => { r with bad := kset r.bad (a % 2 ^ 17 / 64) 0 }
  else if a < 2 ^ 45 then s else { s with upsets := kset s.upsets (a / codeUnit a * codeUnit a) 1 }
/-- It strikes a word of a memory-side cache, where a line of it holds the word. -/
def State.upsetCache (s : State) (a : Nat) : State :=
  if isHbm a then { s with upsets := kset s.upsets (a / 8 * 8) 1 }.dropStruck else s
/-- It strikes a word of an accumulator tile. -/
def State.upsetTile (s : State) (core tile word : Nat) : State :=
  s.modCore core fun c => if 4 ≤ tile ∨ c.tileBad.contains (tile, word) then c
    else { c with tileBad := c.tileBad ++ [(tile, word)] }
/-- It strikes words of an operand latch of a band. -/
def State.upsetLatch (s : State) (core stage band latch : Nat) (m : Mask) : State :=
  let hit := fun (b : Band) => { b with bad := kset b.bad latch (kgetD b.bad latch 0 ||| m) }
  s.modStage core stage fun st => { st with turn := st.turn.map fun t =>
    if 3 ≤ latch ∨ m = 0 then t else if band = 0 then { t with a := t.a.map hit } else { t with b := t.b.map hit } }
/-- It strikes a word of a crook store. -/
def State.upsetStore (s : State) (core slot : Nat) : State :=
  s.modCore core fun c => if c.storeBad.contains slot then c else { c with storeBad := c.storeBad ++ [slot] }

/-- The paddock that holds a core, the control paddock where none does. -/
def State.padOfCore (s : State) (c : Nat) : Nat := ((List.range 32).find? fun p => s.holdsCore p c).getD 0
/-- The tenant whose commons range of a die holds an offset, or the control paddock. -/
def State.padOfCommons (s : State) (d off : Nat) : Nat :=
  ((otherTenants 0).find? fun p => decide (s.commonsBase p d ≤ off) && decide (off < s.commonsBase p d + s.commonsSize p d)).getD 0
/-- What the scrubber finds: the state with the bad word in it, and the paddock that owns the word. Of a die's addresses
to be scrubbed, HBM4 comes first, from 2^36 the commons, from 2^37 the scratchpads by core, and from 2^38 the registers
by core, stage, slot, lane source operand code and lane (log 58). -/
def State.scrubFind (s : State) (d a : Nat) : State × Nat :=
  if a < 2 ^ 36 then
    let pa := d * 2 ^ 36 + a
    let r := s.page (pa / 2 ^ 17)
    ((s.upsetMem pa).yieldErrors pa 64, if r.count = 0 then 0 else r.owner)
  else if a < 2 ^ 37 then (s.upsetMem (commonsAt d (a % 2 ^ 26)), s.padOfCommons d (a % 2 ^ 26))
  else if a < 2 ^ 38 then
    let c := 40 * d + a % 2 ^ 37 / 2 ^ 20 % 40
    let seg := a % 2 ^ 20 / 32768
    let f := (s.residents c).find? fun e => e.2.segs.contains seg
    (s.upsetMem (scratchAt c (a % 2 ^ 20)), f.elim (s.padOfCore c) fun e => e.2.paddock)
  else
    let n := (a - 2 ^ 38) / 4096
    let c := 40 * d + n / 48 % 40
    match kget (s.stageOf c (n / 24 % 2)).slots (n % 24) with
    | none => (s, s.padOfCore c)
    | some (f, k) =>
        (s.upsetReg f k (a % 4096 / 32) (BitVec.ofNat 32 (2 ^ (a % 32)))
          , (kget s.folds f).elim 0 fun fo => fo.paddock)
/-- SCRUB (R446): the scrubber visits an HBM4 block, or a word of the commons, of a scratchpad or of a register; an
uncorrectable one stays as it is and fails its next reader (a CLEARED page reads zeros all the same, R352), and it is
recorded in the owner's fault queue, for the virtual device that the owner runs (R447, log 58). -/
def State.scrubAt (s : State) (d a : Nat) (bad : Bool) : State :=
  if !bad || 16 ≤ d then s
  else
    let r := s.scrubFind d a
    r.1.errorRecord d r.2 (s.vdNow r.2) s.nextId 0 0 0 0 0
def execScrub (die addr : Nat) (bad : Bool) (s : State) : Host.Outcome State Fault Refusal :=
  .next (s.scrubAt die addr bad)
/-- The instruction of a band goes through its lanes' ALUs: one of lane arithmetic that returns in its cycle, or a bound
crook, once what stands before it lets it issue (R22, R79). -/
def State.aluRuns (s : State) (q : Iss) (i : Instr) : Bool :=
  (precheck s q i).isNone && match i with
    | .crook _ n .. =>
        match kget (s.pad (s.fo q).paddock).binds (16 * s.activeSet (s.fo q).paddock + n) with
        | some b => b.len != 0 && !unsettled s q i && s.struckOf q i == 0
            && !s.crookHeld q (s.crookWords (s.fo q).paddock q.core b)
        | none => false
    | .xpand _ b _ slot _ _ => (xpandTrap s q b slot).isNone && !s.xpandHeld q b slot
    | _ => decide (i.opc < 0x54) && !(decide (0x22 ≤ i.opc) && decide (i.opc ≤ 0x2B))
/-- The next instruction of a stage meets a second residue mismatch in some of its Active lanes: ECC, precise (R445,
R447), before what its results would raise (log 55). -/
def State.eccIssue (s : State) (core stage : Nat) (m : Mask) : State :=
  let t := s.attend core stage
  match t.issuer with
  | none => s
  | some q =>
      match fetchInstr t q with
      | none => s
      | some i =>
          let hit := m &&& (t.fl q).guarded i q.lanes
          if hit = 0 ∨ !t.aluRuns q i then s
          else ((t.fetchPass q).trapAt q cEcc hit (isRett i)).mismatch core
/-- The bank ALUs of a stage's core fail twice in some lanes under the instruction that issues next, or no more. -/
def State.setAlu (s : State) (core stage : Nat) (m : Mask) : State :=
  s.modStage core stage fun st => { st with turn := st.turn.map fun t => { t with alu := m } }
/-- A second residue mismatch behind the issue (R404, R445): of a deferred arithmetic result, or of the bank
ALU in one lane of an atomic that could be performed now, which ends without effect. -/
def State.eccResult (s : State) (id l : Nat) : State :=
  match kget s.ops id with
  | none => s
  | some o =>
      match o.kind with
      | .arith => if s.inTurn o.core o.fold o.flock then s else (s.failResult id o).mismatch o.core
      | .atom .. | .cas _ => if s.mayPerform id o l then (s.failAlu id l o).drain else s
      | _ => s
/-- The matrix unit's next command meets an uncorrectable error of a tile or of its own (R447). -/
def State.eccMatrix (s : State) (core : Nat) : State :=
  match (s.core core).mq with
  | [] => s
  | c :: rest => if s.matReady core c then s.failMat core c rest else s
/-- A reduce ALU's second mismatch, or a drover buffer's word (R445, R447): the collective is to fail with
SUB 5. -/
def State.eccReduce (s : State) (id : Nat) : State :=
  match kget s.copies id with
  | some o => if o.kind = 5 ∧ o.phase = 1 ∧ o.fail = none then
      { s with copies := kset s.copies id { o with fail := some 5 } } else s
  | none => s

/-! ### Retirement (R355, R448) -/

/-- An entry of the boot journal, which holds the last 1,024 (R450). -/
def State.log (s : State) (e : List Nat) : State :=
  { s with journal := (s.journal ++ [e]).drop (s.journal.length + 1 - 1024) }

/-- Cores retired, their folds reset. -/
def State.retireCores (s : State) (on : Nat → Bool) : State :=
  ((List.range 640).filter on).foldl (fun s c => s.modCore c fun k => { k with retired := true })
    (s.resetOn on)
/-- 16 distinct blocks of a channel have yielded uncorrectable errors within 10^8 counts (R448). -/
def State.chanFails (s : State) (ix : Nat) : Bool :=
  let x := (s.die (ix / 32)).badBlocks.filter fun e => decide (e.1 * 64 / 2 ^ 31 % 32 = ix % 32)
  let last := (x.map Prod.snd).foldl Nat.max 0
  decide (16 ≤ (x.filter fun e => decide (last ≤ e.2 + 10 ^ 8)).length)
/-- A core has raised ECC from second residue mismatches 8 times within 10^8 counts (R448). -/
def Core.fails (c : Core) : Bool :=
  let last := c.misses.foldl Nat.max 0
  decide (8 ≤ (c.misses.filter fun t => decide (last ≤ t + 10 ^ 8)).length)
/-- A channel, core or die is retired: event 5, and the journal's entry (R448). -/
def State.retireChan (s : State) (ix : Nat) : State :=
  if 512 ≤ ix ∨ bitOf (s.die (ix / 32)).retiredChans (ix % 32) then s
  else
    (((s.modDie (ix / 32) fun x => { x with retiredChans := x.retiredChans + 2 ^ (ix % 32) }).event 5 (ix / 32)
      0 0 ix []).log [9, 0, ix]).shrinkBw (ix / 32)
def State.retireCore (s : State) (ix : Nat) : State :=
  if 640 ≤ ix ∨ (s.core ix).retired then s
  else ((s.retireCores (· == ix)).event 5 (dieOf ix) 0 0 ix []).log [9, 1, ix]
def State.retireDie (s : State) (ix : Nat) : State :=
  if 16 ≤ ix ∨ (s.die ix).retired then s
  else
    ((((s.retireCores fun c => dieOf c == ix).modDie ix fun x =>
      { x with retired := true, retiredChans := 2 ^ 32 - 1 }).event 5 ix 0 0 ix []).log [9, 2, ix]).shrinkBw ix
/-- No core of a die is left. -/
def State.noCoreLeft (s : State) (d : Nat) : Bool :=
  (List.range 40).all fun i => (s.core (40 * d + i)).retired
/-- RESOURCE_RETIRE (R448): kind 0 a channel by its device number that R448 names, 1 a core that it names. A die is
retired at a start alone (R450). -/
def State.retireRes (s : State) (kind ix : Nat) : State :=
  match kind with
  | 0 => if s.chanFails ix then s.retireChan ix else s
  | 1 => if (s.core ix).fails then s.retireCore ix else s
  | _ => s
def execResourceRetire (kind ix : Nat) (s : State) : Host.Outcome State Fault Refusal :=
  .next (s.retireRes kind ix)

/-! ### Start (R449, R450) -/

/-- The parts of a start, in order: a step, and the die, stack or port that it is for. -/
def bootParts : List (Nat × Nat) :=
  [(1, 0)] ++ (List.range 16).map (fun d => (2, d)) ++ (List.range 16).map (fun d => (3, d))
    ++ (List.range 16).map (fun d => (4, d)) ++ [(5, 0), (6, 0), (7, 0), (7, 1)]
    ++ (List.range 18).map fun p => (8, p)
/-- The faults of a part that a start is to meet: the channels or cores at fault. -/
def State.bootFaultOf (s : State) (p : Nat × Nat) : Option Nat :=
  (s.bootFaults.find? fun e => e.1 == p.1 && e.2.1 == p.2).map fun e => e.2.2
/-- A step has loaded an image (R451). -/
def State.loads (s : State) (step ix : Nat) : State := { s with loaded := kset s.loaded step (s.image ix) }
/-- A part that the journal marks as failed is replaced by its alternative, or skipped (R450): the second
firmware copy, a retired die, the slow profile or retired channels, retired cores and a die with none left, the
standby complex, a port that stays down. Step 6 has none. -/
def State.bootAlt (s : State) (p : Nat × Nat) : Option State :=
  let mask := s.bootFaultOf p
  let ok := { s with bootFaults := s.bootFaults.filter fun e => e.1 != p.1 || e.2.1 != p.2 }
  match p.1 with
  | 1 => if (s.image 1).verifies then some (ok.loads 1 1) else none
  | 2 => some (ok.retireDie p.2)
  | 3 =>
      let s := ok.modDie p.2 fun x => { x with slow := true }
      some ((List.range 32).foldl (fun s i =>
        if bitOf ((mask.getD 0)) i then s.retireChan (32 * p.2 + i) else s) s)
  | 4 =>
      let s := (List.range 40).foldl (fun s i =>
        if bitOf (mask.getD 0) i then s.retireCore (40 * p.2 + i) else s) ok
      some (if s.noCoreLeft p.2 then s.retireDie p.2 else s)
  | 5 => if (s.image 3).verifies then some ({ ok with standby := 2 }.loads 5 3) else none
  | 6 => none
  | 7 => some { ok with portsDown := Nat.lor ok.portsDown (2 ^ p.2) }
  | _ => some { ok with portsDown := Nat.lor ok.portsDown (2 ^ (2 + p.2)) }
/-- A part's own action succeeds: nothing fails in it, and the images that it loads verify. -/
def State.bootOk (s : State) (p : Nat × Nat) : Bool :=
  (s.bootFaultOf p).isNone && match p.1 with
    | 1 => (s.image 0).verifies
    | 5 => (s.image 2).verifies
    | 6 => (s.image 4).verifies
    | _ => true
/-- What a part's own action leaves: the image it loads, full speed, the first complex, a port that is up. -/
def State.bootDone (s : State) (p : Nat × Nat) : State :=
  match p.1 with
  | 1 => s.loads 1 0
  | 3 => s.modDie p.2 fun x => { x with slow := false }
  | 5 => { s with standby := 0 }.loads 5 2
  | 6 => s.loads 6 4
  | 7 => { s with portsDown := if bitOf s.portsDown p.2 then s.portsDown - 2 ^ p.2 else s.portsDown }
  | 8 => { s with portsDown := if bitOf s.portsDown (2 + p.2) then s.portsDown - 2 ^ (2 + p.2) else s.portsDown }
  | _ => s
/-- The journal marks a part as failed: its last entry is a start (R450). -/
def State.bootFailed (s : State) (p : Nat × Nat) : Bool :=
  match (s.journal.filter fun e => e.headD 0 == p.1 && e.getD 3 0 == p.2).getLast? with
  | some e => e.getD 1 0 == 0
  | none => false
/-- The parts of a start from one on: each writes its start entry before it begins and its end entry, with
status 0, or 1 for an alternative, after it. A part that fails leaves no end entry, and the start stops there. -/
def State.bootFrom (s : State) : List (Nat × Nat) → State × Bool
  | [] => (s, true)
  | p :: rest =>
      if (2 ≤ p.1 ∧ p.1 ≤ 4) ∧ (s.die p.2).retired then State.bootFrom s rest
      else
        let failed := s.bootFailed p
        let s := s.log [p.1, 0, 0, p.2]
        if failed then
          match s.bootAlt p with
          | some t => State.bootFrom (t.log [p.1, 1, 1, p.2]) rest
          | none => (s, false)
        else if s.bootOk p then State.bootFrom ((s.bootDone p).log [p.1, 1, 0, p.2]) rest
        else (s, false)
/-- The part that the journal's last start left without an end entry, if any (R450). -/
def State.bootLeft (s : State) : Option (Nat × Nat) :=
  match (s.journal.filter fun e => decide (e.headD 0 < 9)).getLast? with
  | some [i, 0, 0, p] => some (i, p)
  | _ => none
/-- The image that a step uses has been loaded since the device was last reset, or the step uses none. -/
def State.imageIn (s : State) (step : Nat) : Bool := !([1, 5, 6].contains step) || (kget s.loaded step).isSome
/-- The parts that a START runs: all of them, or after a start that failed those from the failed part on (R394), and
before it those whose image a reset has lost, so that every image in use has been verified (R449, log 36). -/
def State.bootTodo (s : State) : List (Nat × Nat) :=
  match s.bootLeft with
  | none => bootParts
  | some p =>
      ((bootParts.takeWhile (· != p)).filter fun x => !s.imageIn x.1) ++ bootParts.dropWhile (· != p)
/-- START (R394, R450): the parts of the eight steps that are to run with their journal entries, each by its alternative
where the journal marks it as failed, and what firmware sets: paddock 0's CODE, whose pages hold code, and SAVEAREA.
Journal entries are the step, 0 for start and 1 for end, a status, and the die, stack or port (log 36). -/
def State.startUp (s : State) (code save : Nat) : State :=
  if s.started then s
  else
    let r := s.bootFrom s.bootTodo
    if r.2 then
      { ((r.1.setReg 0 0 0x0E 0 code).setReg 0 0 0x10 0 save).markTables (codeSpan code) with started := true }
    else r.1
def execStart (code savearea : DWord) (s : State) : Host.Outcome State Fault Refusal :=
  .next (s.startUp code.toNat savearea.toNat)

/-! ### Attestation and management (R451, R453) -/

/-- The images that steps 1, 5 and 6 have loaded. -/
def State.loadedImages (s : State) : List Image := s.loaded.map Prod.snd
/-- An attestation report (R451): the nonce, the revision, the SHA-384 measurements of the images loaded, the
retirement map of dies, channels by stack, cores by die and ports, the HBM4 profile of each stack, and the
journal's entry count. -/
def State.report (s : State) (nonce : List Byte) : List Word :=
  let m := fun (f : Nat → Bool) (n : Nat) => wd (((List.range n).map fun i => if f i then 2 ^ i else 0).foldl (· + ·) 0)
  bytesWords (nonce.take 32) ++ [1]
    ++ s.loadedImages.flatMap (fun x => (List.range 12).map (Config.sha384 x.words))
    ++ [m (fun d => (s.die d).retired) 16]
    ++ (List.range 16).map (fun d => wd (s.die d).retiredChans)
    ++ (List.range 16).map (fun d => m (fun i => (s.core (40 * d + i)).retired) 32)
    ++ (List.range 16).map (fun d => m (fun i => (s.core (40 * d + 32 + i)).retired) 8)
    ++ [wd s.portsDown, m (fun d => (s.die d).slow) 16, wd s.journal.length]
/-- ATTESTATION_REQUEST (R451), over the PCIe data-object exchange of a host port, which gets the report with
its Ed25519 and ML-DSA-65 signatures (64 and 3,309 bytes) under the device identity key. -/
def State.attest (s : State) (port : Nat) (nonce : List Byte) : State :=
  if 2 ≤ port ∨ !s.fnUp (128 + port) then s
  else
    let r := s.report nonce
    s.packet (hostDest port) 22 (r ++ (List.range 16).map (Config.signature 0 r)
      ++ (List.range 828).map (Config.signature 1 r))
def execAttestationRequest (asked : Challenge) (s : State) : Host.Outcome State Fault Refusal :=
  .next (s.attest asked.port asked.nonce)
/-- The power that the device draws: of its compute dies, lea dies and stacks (R452). -/
def State.powerDrawn (s : State) : Nat := ((List.range 19).map fun d => (s.die d).power).foldl (· + ·) 0
/-- I3C_READ (R453): 0 the power drawn; 1 + core a core's temperature; from 1024 on an entry of the journal. -/
def State.i3cGet (s : State) (r : Nat) : State :=
  if r = 0 then s.packet (hostDest 2) 23 [wd r, wd s.powerDrawn]
  else if r ≤ 640 then s.packet (hostDest 2) 23 [wd r, wd (s.core (r - 1)).temp]
  else if 1024 ≤ r then s.packet (hostDest 2) 23 (wd r :: (s.journal.getD (r - 1024) []).map wd)
  else s
def execI3cRead (reg : Nat) (s : State) : Host.Outcome State Fault Refusal := .next (s.i3cGet reg)
/-- I3C_SET_POWER_LIMIT (R453): from 1,200 W to 3,800 W. -/
def execI3cSetPowerLimit (value : Nat) (s : State) : Host.Outcome State Fault Refusal :=
  .next (if 1200 ≤ value ∧ value ≤ 3800 then { s with powerLimit := value } else s)
/-- I3C_HOLD_RESET (R453): the device is held in reset, or let go. What lies outside it or in its flash
stays: host memory, the journal, retirements, the power limit; what the last start chose stands until the next one
chooses again (log 37). -/
def State.holdIn (s : State) (on : Bool) : State :=
  if !on then { s with holdReset := false }
  else
    { State.reset with
      agenda := s.agenda, nextId := s.nextId, free := s.free, mem := s.mem.filter fun c => isHostAddr c.1
      outbox := s.outbox, journal := s.journal, powerLimit := s.powerLimit, holdReset := true
      images := s.images, bootFaults := s.bootFaults, portsDown := s.portsDown
      standby := if s.standby = 2 then 2 else 0
      dies := (s.dies.filter fun e => e.2.retired || e.2.retiredChans != 0 || e.2.slow || e.2.power != 0).map fun e =>
        (e.1, { Die.empty with
          retired := e.2.retired, retiredChans := e.2.retiredChans, slow := e.2.slow, power := e.2.power })
      cores := (s.cores.filter fun e => e.2.retired).map fun e => (e.1, { Core.empty with retired := true }) }
def execI3cHoldReset (on : Bool) (s : State) : Host.Outcome State Fault Refusal := .next (s.holdIn on)

/-- Whether the device makes a move: while it is held, before a start and after one that stopped at a part, only the
management interface acts, and what is outside the device (R450). -/
def State.moves (s : State) : Move → Bool
  | .event (.i3cHoldReset _) | .event (.i3cRead _) | .event (.i3cSetPowerLimit _) => true
  | .hostStore .. | .power .. | .flash .. | .bootFault .. => true
  | .event (.start ..) => !s.holdReset
  | _ => !s.holdReset && s.started

end Sys2Proof.Machine
end

