-- ==== Sys2Proof/Machine/Move.lean ====
section
/-! DEFINITION. Moves, lane exchange, register-indexed access and predicates (R124 to R137). -/
namespace Sys2Proof.Machine

/-- MOV (R124). -/
def execMov (h : LHdr) (d : LDst) (a : LSrc) (s : State) : Host.Outcome State Fault Refusal :=
  issue (.mov h d a) (qOp h d (on1 h a id)) s
/-- SEL (R124). -/
def execSel (h : LHdr) (neg : Bool) (d : LDst) (a b : LSrc) (p : Nat) (s : State) :
    Host.Outcome State Fault Refusal :=
  issue (.sel h neg d a b p) (qOp h d fun s q _ l =>
    if (s.fl q).getP p l != neg then (s.fl q).src h.lit a l else (s.fl q).src h.lit b l) s

/-! ### Lane exchange (R125) -/

/-- The source lane of a lane: `pos` from its place in the segment, the operand and the width. -/
def shflLane (w : Nat) (pos : Nat → Nat → Nat → Nat) (l n : Nat) : Nat :=
  let size := 32 / 2 ^ w
  l - l % size + pos (l % size) (n % size) size
/-- What a lane receives: its source's A where the source is Active, else its own A or 0. -/
def shflRes (h : LHdr) (w : Nat) (z : Bool) (a b : LSrc) (pos : Nat → Nat → Nat → Nat) (s : State)
    (q : Iss) (act : Mask) (l : Nat) : Word :=
  let fl := s.fl q
  let src := shflLane w pos l (fl.src h.lit b l).toNat
  if act.getLsbD src then fl.src h.lit a src else if z then 0 else fl.src h.lit a l
/-- SHFL (R125): by index. -/
def execShfl (h : LHdr) (w : Nat) (z : Bool) (d : LDst) (a b : LSrc) (s : State) :
    Host.Outcome State Fault Refusal :=
  issue (.shfl h w z d a b) (qOp h d (shflRes h w z a b fun _ n _ => n)) s
/-- SHFLU (R125): from lower lanes, wrapping. -/
def execShflu (h : LHdr) (w : Nat) (z : Bool) (d : LDst) (a b : LSrc) (s : State) :
    Host.Outcome State Fault Refusal :=
  issue (.shflu h w z d a b) (qOp h d (shflRes h w z a b fun i n size => (i + size - n) % size)) s
/-- SHFLD (R125): from higher lanes, wrapping. -/
def execShfld (h : LHdr) (w : Nat) (z : Bool) (d : LDst) (a b : LSrc) (s : State) :
    Host.Outcome State Fault Refusal :=
  issue (.shfld h w z d a b) (qOp h d (shflRes h w z a b fun i n size => (i + n) % size)) s
/-- SHFLX (R125): with the exchange partner. -/
def execShflx (h : LHdr) (w : Nat) (z : Bool) (d : LDst) (a b : LSrc) (s : State) :
    Host.Outcome State Fault Refusal :=
  issue (.shflx h w z d a b) (qOp h d (shflRes h w z a b fun i n _ => i ^^^ n)) s

/-- VOTE's word from the Active lanes and those in which the predicate holds (R126). -/
def voteW (m : VoteMode) (act yes : Mask) : Word :=
  match m with
  | .ballot => yes
  | .count => wd (popcount yes)
  | .first => wd ((lanesOf yes).headD 32)
  | .last => wd ((lanesOf yes).getLastD 32)
  | .any => if yes = 0 then 0 else 1
  | .all => if yes = act then 1 else 0
  | .agree => if yes = act ∨ yes = 0 then 1 else 0
/-- VOTE (R126). -/
def execVote (h : LHdr) (mode : VoteMode) (neg : Bool) (d : LDst) (p : Nat) (s : State) :
    Host.Outcome State Fault Refusal :=
  issue (.vote h mode neg d p) (fun q s =>
    let act := (s.fl q).active h q.lanes
    let yes := maskOf fun l => act.getLsbD l && ((s.fl q).getP p l != neg)
    qOp h d (fun _ _ _ _ => voteW mode act yes) q s) s

/-- MATCH's word in lane `l`: `e` are the Active lanes with an equal value (R127). -/
def matchW (m : MatchMode) (act e : Mask) (l : Nat) : Word :=
  match m with
  | .eq => e
  | .rank => wd ((lanesOf e).filter (· < l)).length
  | .lead => wd ((lanesOf e).headD 0)
  | .uni => if e = act then act else 0
/-- MATCH (R127). -/
def execMatchv (h : LHdr) (mode : MatchMode) (d : LDst) (a : LSrc) (s : State) :
    Host.Outcome State Fault Refusal :=
  issue (.matchv h mode d a) (qOp h d fun s q act l =>
    let fl := s.fl q
    let x := fl.src h.lit a l
    matchW mode act (maskOf fun j => act.getLsbD j && fl.src h.lit a j == x) l) s
/-- PRMT (R128). -/
def execPrmt (h : LHdr) (d : LDst) (a b c : LSrc) (s : State) : Host.Outcome State Fault Refusal :=
  issue (.prmt h d a b c) (qOp h d (on3 h a b c prmtW)) s

/-! ### Register-indexed access (R130 to R132) -/

/-- The trap of an indexed access, if any: an index outside the window in some lane, or a pending
register that some lane selects (R131). -/
def indexTrap (fl : Flock) (q : Iss) (act : Mask) (len n : Nat) (ix : Nat → Word) :
    Option (Nat × Mask) :=
  let bad := maskOf fun l => act.getLsbD l && decide (len ≤ (ix l).toNat)
  if bad ≠ 0 then some (cIndex, bad)
  else if (lanesOf act).any fun l => fl.pendV.getLsbD (n + (ix l).toNat) then
    some (cUnsettled, q.lanes)
  else none
/-- RDX (R131): every distinct register selected is one bank read (R132). -/
def execRdx (h : LHdr) (len : Nat) (d : LDst) (n : Nat) (b : LSrc) (s : State) :
    Host.Outcome State Fault Refusal :=
  issue (.rdx h len d n b) (fun q s =>
    let fl := s.fl q
    let act := fl.active h q.lanes
    let ix := fl.src h.lit b
    match indexTrap fl q act len n ix with
    | some t => .error t
    | none =>
        let bad := s.struckOf q (.rdx h len d n b)
        if bad ≠ 0 then .error (cEcc, bad) else
        qOp h d (fun s q _ l => (s.fl q).getV (n + (ix l).toNat) l) q
          (s.bankRead q ((lanesOf act).map fun l => n + (ix l).toNat))) s
/-- WRX (R131): no push. -/
def execWrx (h : LHdr) (len : Nat) (n : Nat) (a b : LSrc) (s : State) :
    Host.Outcome State Fault Refusal :=
  issue (.wrx h len n a b) (fun q s =>
    let fl := s.fl q
    let act := fl.active h q.lanes
    let ix := fl.src h.lit b
    match indexTrap fl q act len n ix with
    | some t => .error t
    | none =>
        let bad := s.struckOf q (.wrx h len n a b)
        if bad ≠ 0 then .error (cEcc, bad) else
        .ok (s.setFl q fun fl => (regRange n len).foldl (fun g r =>
          let m := maskOf fun l => act.getLsbD l && n + (ix l).toNat == r
          if m = 0 then g else g.setV r m fun l => fl.src h.lit a l) fl, 0)) s

/-! ### Predicates (R129, R133 to R137) -/

/-- ELECT (R129). -/
def execElect (h : LHdr) (p : Nat) (s : State) : Host.Outcome State Fault Refusal :=
  issue (.elect h p) (pOp h p fun _ _ act l => (lanesOf act).headD 32 == l) s
/-- The outcome combined with P[l][C] XOR CN (R133). -/
def combineP (fl : Flock) (cc : CmpC) (x : Bool) (l : Nat) : Bool :=
  combine cc.comb x (fl.getP cc.c l != cc.cn)
/-- ICMP (R133, R134). -/
def execIcmp (h : LHdr) (cond : ICond) (cc : CmpC) (p : Nat) (a b : LSrc) (s : State) :
    Host.Outcome State Fault Refusal :=
  issue (.icmp h cond cc p a b) (pOp h p fun s q _ l =>
    combineP (s.fl q) cc (icondW cond ((s.fl q).src h.lit a l) ((s.fl q).src h.lit b l)) l) s
/-- A comparison of floating-point values: ARITH when an Active lane raises an enabled NV, and
otherwise NV in FFLAGS and the predicates (R135). -/
def cmpOp (h : LHdr) (f : Nat → Flg) (w : Flock → Mask → Flock) (q : Iss) (s : State) : Eff :=
  let fl := s.fl q
  let act := fl.active h q.lanes
  if trapLanes fl act f ≠ 0 then .error (cArith, trapLanes fl act f)
  else .ok ((s.flags q (orFlags act f)).setFl q fun fl => w fl act, 0)
/-- FCMP (R133, R135). -/
def execFcmp (h : LHdr) (cond : FCond) (cc : CmpC) (ftz : Bool) (p : Nat) (a b : LSrc) (s : State) :
    Host.Outcome State Fault Refusal :=
  issue (.fcmp h cond cc ftz p a b) (fun q s =>
    let fl := s.fl q
    let r := fun l => fcmpW cond ftz (fl.src h.lit a l) (fl.src h.lit b l)
    cmpOp h (fun l => (r l).2)
      (fun g act => g.setP p act fun l => combineP fl cc (r l).1 l) q s) s
/-- HCMP2 (R133, R135): the low halves into P[d], the high halves into P[d + 1]. -/
def execHcmp2 (h : LHdr) (bf : Bool) (cond : FCond) (cc : CmpC) (ftz : Bool) (p : Nat) (a b : LSrc)
    (s : State) : Host.Outcome State Fault Refusal :=
  issue (.hcmp2 h bf cond cc ftz p a b) (fun q s =>
    let fl := s.fl q
    let r := fun i l => hcmpW bf cond ftz i (fl.srcH bf h.lit a l) (fl.srcH bf h.lit b l)
    cmpOp h (fun l => (r 0 l).2 ||| (r 1 l).2)
      (fun g act => (g.setP p act fun l => combineP fl cc (r 0 l).1 l).setP (p + 1) act fun l =>
        combineP fl cc (r 1 l).1 l) q s) s
/-- PLOP (R136). -/
def execPlop (h : LHdr) (tab d a b c : Nat) (s : State) : Host.Outcome State Fault Refusal :=
  issue (.plop h tab d a b c) (pOp h d fun s q _ l =>
    tableBit tab ((s.fl q).getP a l) ((s.fl q).getP b l) ((s.fl q).getP c l)) s
/-- PPACK (R137). -/
def execPpack (h : LHdr) (d : LDst) (f : Nat) (s : State) : Host.Outcome State Fault Refusal :=
  issue (.ppack h d f) (qOp h d fun s q _ l => maskOf fun i => (s.fl q).getP (f + i) l) s
/-- PUNPK (R137). -/
def execPunpk (h : LHdr) (count f : Nat) (a : LSrc) (s : State) : Host.Outcome State Fault Refusal :=
  issue (.punpk h count f a) (fun q s =>
    let fl := s.fl q
    let act := fl.active h q.lanes
    .ok (s.setFl q fun g => (List.range count).foldl (fun g i =>
      g.setP (f + i) act fun l => (fl.src h.lit a l).getLsbD i) g, 0)) s

end Sys2Proof.Machine
end

