-- ==== Sys2Proof/Machine/Uniform.lean ====
section
/-! DEFINITION. The uniform scalar group (R138 to R142): settled results in s registers and uniform
predicates, one meaning each. -/
namespace Sys2Proof.Machine

/-- A result from the values of A, and of A and B. -/
def uon1 (h : UHdr) (a : USrc) (f : Word → Word) (s : State) (q : Iss) : Word := f (s.uni q h.lit a)
def uon2 (h : UHdr) (a b : USrc) (f : Word → Word → Word) (s : State) (q : Iss) : Word :=
  f (s.uni q h.lit a) (s.uni q h.lit b)
/-- A result from the old value of D and the values of A and B. -/
def uon3 (h : UHdr) (d : Nat) (a b : USrc) (f : Word → Word → Word → Word) (s : State) (q : Iss) :
    Word :=
  f ((s.fl q).getS d) (s.uni q h.lit a) (s.uni q h.lit b)

/-- SADD (R138). -/
def execSadd (h : UHdr) (d : Nat) (a b : USrc) (s : State) : Host.Outcome State Fault Refusal :=
  issue (.sadd h d a b) (sOp h d (uon2 h a b addW)) s
/-- SSUB (R138). -/
def execSsub (h : UHdr) (d : Nat) (a b : USrc) (s : State) : Host.Outcome State Fault Refusal :=
  issue (.ssub h d a b) (sOp h d (uon2 h a b subW)) s
/-- SMUL (R138). -/
def execSmul (h : UHdr) (d : Nat) (a b : USrc) (s : State) : Host.Outcome State Fault Refusal :=
  issue (.smul h d a b) (sOp h d (uon2 h a b mulW)) s
/-- SMULH (R138). -/
def execSmulh (h : UHdr) (u : Bool) (d : Nat) (a b : USrc) (s : State) : Host.Outcome State Fault Refusal :=
  issue (.smulh h u d a b) (sOp h d (uon2 h a b (mulhW u))) s
/-- SMAD (R138). -/
def execSmad (h : UHdr) (d : Nat) (a b : USrc) (s : State) : Host.Outcome State Fault Refusal :=
  issue (.smad h d a b) (sOp h d (uon3 h d a b (fun d x y => madW x y d))) s
/-- SAND (R138). -/
def execSand (h : UHdr) (d : Nat) (a b : USrc) (s : State) : Host.Outcome State Fault Refusal :=
  issue (.sand h d a b) (sOp h d (uon2 h a b (· &&& ·))) s
/-- SOR (R138). -/
def execSor (h : UHdr) (d : Nat) (a b : USrc) (s : State) : Host.Outcome State Fault Refusal :=
  issue (.sor h d a b) (sOp h d (uon2 h a b (· ||| ·))) s
/-- SXOR (R138). -/
def execSxor (h : UHdr) (d : Nat) (a b : USrc) (s : State) : Host.Outcome State Fault Refusal :=
  issue (.sxor h d a b) (sOp h d (uon2 h a b (· ^^^ ·))) s
/-- SSHL (R138). -/
def execSshl (h : UHdr) (d : Nat) (a b : USrc) (s : State) : Host.Outcome State Fault Refusal :=
  issue (.sshl h d a b) (sOp h d (uon2 h a b (shlW false))) s
/-- SSHR (R138). -/
def execSshr (h : UHdr) (d : Nat) (a b : USrc) (s : State) : Host.Outcome State Fault Refusal :=
  issue (.sshr h d a b) (sOp h d (uon2 h a b (shrW false))) s
/-- SSAR (R138). -/
def execSsar (h : UHdr) (d : Nat) (a b : USrc) (s : State) : Host.Outcome State Fault Refusal :=
  issue (.ssar h d a b) (sOp h d (uon2 h a b (sarW false))) s
/-- SMIN (R138). -/
def execSmin (h : UHdr) (u : Bool) (d : Nat) (a b : USrc) (s : State) : Host.Outcome State Fault Refusal :=
  issue (.smin h u d a b) (sOp h d (uon2 h a b (minW u))) s
/-- SMAX (R138). -/
def execSmax (h : UHdr) (u : Bool) (d : Nat) (a b : USrc) (s : State) : Host.Outcome State Fault Refusal :=
  issue (.smax h u d a b) (sOp h d (uon2 h a b (maxW u))) s
/-- SSEL (R138). -/
def execSsel (h : UHdr) (d : Nat) (a b : USrc) (s : State) : Host.Outcome State Fault Refusal :=
  issue (.ssel h d a b) (sOp h d (uon3 h d a b (fun d x y => if d ≠ 0 then x else y))) s
/-- SMOV (R138). -/
def execSmov (h : UHdr) (d : Nat) (a : USrc) (s : State) : Host.Outcome State Fault Refusal :=
  issue (.smov h d a) (sOp h d (uon1 h a id)) s
/-- SLEA (R138). -/
def execSlea (h : UHdr) (x8 : Bool) (d : Nat) (a b : USrc) (s : State) : Host.Outcome State Fault Refusal :=
  issue (.slea h x8 d a b) (sOp h d (uon2 h a b (leaW (if x8 then 3 else 2)))) s

/-- A 64-bit source of SADD64: an even register and its pair, or a constant or literal sign-extended
(R139). -/
def State.uni64 (s : State) (q : Iss) (lit : Word) (x : USrc) : DWord :=
  match x with
  | .s n => (s.fl q).getS (n + 1) ++ (s.fl q).getS n
  | x => (s.uni q lit x).signExtend 64
/-- A 64-bit value written to a pair of s registers, both halves at once (R139, R412). -/
def Flock.setS2 (fl : Flock) (d : Nat) (x : DWord) : Flock :=
  (fl.setS d (x.truncate 32)).setS (d + 1) ((x >>> 32).truncate 32)
/-- SADD64 (R139). -/
def execSadd64 (h : UHdr) (d : Nat) (a b : USrc) (s : State) : Host.Outcome State Fault Refusal :=
  issue (.sadd64 h d a b) (uOp h fun q s =>
    .ok (s.setFl q fun fl => fl.setS2 d (s.uni64 q h.lit a + s.uni64 q h.lit b), 0)) s
/-- SCMP (R140): equality in K[d], less-than in K[d + 1]. -/
def execScmp (h : UHdr) (u : Bool) (d : Nat) (a b : USrc) (s : State) :
    Host.Outcome State Fault Refusal :=
  issue (.scmp h u d a b) (uOp h fun q s =>
    let x := s.uni q h.lit a
    let y := s.uni q h.lit b
    .ok (s.setFl q fun fl => (fl.setK d (x == y)).setK (d + 1) (ltW u x y), 0)) s
/-- KLOP (R141). -/
def execKlop (h : UHdr) (tab d ka kb : Nat) (s : State) : Host.Outcome State Fault Refusal :=
  issue (.klop h tab d ka kb) (uOp h fun q s =>
    let fl := s.fl q
    .ok (s.setFl q fun f => f.setK d (bitOf tab (2 * bit (fl.getK ka) + bit (fl.getK kb))), 0)) s
/-- SLI (R142). -/
def execSli (e : Bool) (d imm : Nat) (s : State) : Host.Outcome State Fault Refusal :=
  issue (.sli e d imm) (fun q s => .ok (s.setFl q fun fl => fl.setS d (iword (sext imm 17)), 0)) s
/-- SLIH (R142). -/
def execSlih (e : Bool) (d imm : Nat) (s : State) : Host.Outcome State Fault Refusal :=
  issue (.slih e d imm) (fun q s =>
    .ok (s.setFl q fun fl => fl.setS d (wd (imm * 2 ^ 15 + (fl.getS d).toNat % 2 ^ 15)), 0)) s

end Sys2Proof.Machine
end

