-- ==== Sys2Proof/Machine/Special.lean ====
section
/-! DEFINITION. Special registers (R407 to R409), counts (R411, R412), performance counters (R368)
and user trace records (R367). -/
namespace Sys2Proof.Machine

/-- The held flags of the executing band's latches: A, B, C in bits 2, 1, 0 (R407). -/
def State.holdStat (s : State) (q : Iss) : Nat :=
  match (s.stageOf q.core q.stage).turn.bind fun t => if q.bandB then t.b else t.a with
  | some b =>
      let held := fun (x : Latch) => match x with
        | some (_, true) => 1
        | _ => 0
      4 * held b.la + 2 * held b.lb + held b.lc
  | none => 0

/-- The value of a special register (R407). -/
def State.special (s : State) (q : Iss) (n : Nat) : Word :=
  let fl := s.fl q
  let fo := s.fo q
  match n with
  | 0 => wd fo.index
  | 1 => wd (fo.core * 65536 + fl.stage * 8192 + fl.slot * 256 + q.flock)
  | 2 => wd (s.droveIdOf fo)
  | 3 => s.uni q 0 .depth
  | 4 => wd (vdField fo.paddock fo.vd * 256 + fo.paddock)
  | 5 => wd fo.sect
  | 6 => fl.cause
  | 7 => wd (s.tbaseOf fo)
  | 8 => fl.tpc
  | 9 => fl.tlanes
  | 10 => fl.fflags
  | 11 => fl.ftrapen
  | 12 => wd (s.holdStat q)
  | 13 => fl.watch
  | _ => 0
/-- RDSR (R408). -/
def execRdsr (h : UHdr) (d reg : Nat) (s : State) : Host.Outcome State Fault Refusal :=
  issue (.rdsr h d reg) (sOp h d fun s q => s.special q reg) s

/-- A value that WRSR refuses with DECODE: a nonzero reserved field, or SPACE 2 or 3 (R408). -/
def wrsrBad (reg : Nat) (w : Word) : Bool :=
  match reg with
  | 6 => decide (2 ^ 20 ≤ w.toNat)
  | 7 | 8 => w.toNat % 4 != 0
  | 10 => decide (2 ^ 7 ≤ w.toNat)
  | 11 => decide (2 ^ 5 ≤ w.toNat)
  | 13 => bitOf w.toNat 3
  | _ => false
/-- Flags that band A raised in the cycle in which band B issues (R104). -/
def State.cycleFlags (s : State) (q : Iss) : Flg :=
  if q.bandB then
    match (s.stageOf q.core q.stage).turn with
    | some t => t.flags
    | none => 0
  else 0
/-- The effect of a WRSR (R104, R408, R409). -/
def State.setSpecial (s : State) (q : Iss) (reg : Nat) (w : Word) : State :=
  let fo := s.fo q
  match reg with
  | 6 => s.setFl q fun fl => { fl with cause := fl.cause &&& ~~~w }
  | 7 => if fo.paddock = 0 then s.modPad 0 fun p => { p with tbase := w }
         else s.modVd fo.vd fun v => { v with tbase := w }
  | 8 => s.setFl q fun fl => { fl with tpc := w }
  | 10 => s.setFl q fun fl => { fl with fflags := w ||| s.cycleFlags q }
  | 11 => s.setFl q fun fl => { fl with ftrapen := w }
  | 13 => s.setFl q fun fl => { fl with watch := w }
  | _ => s
/-- WRSR (R408). -/
def execWrsr (h : UHdr) (reg : Nat) (a : USrc) (s : State) : Host.Outcome State Fault Refusal :=
  issue (.wrsr h reg a) (uOp h fun q s =>
    let w := s.uni q h.lit a
    if wrsrBad reg w then .error (cDecode, q.lanes) else .ok (s.setSpecial q reg w, 0)) s

/-- RDCLK (R412). -/
def execRdclk (h : UHdr) (cyc : Bool) (d : Nat) (s : State) : Host.Outcome State Fault Refusal :=
  issue (.rdclk h cyc d) (uOp h fun q s =>
    let die := s.die (dieOf q.core)
    .ok (s.setFl q fun fl =>
      fl.setS2 d (BitVec.ofNat 64 (if cyc then die.cycles else die.refs)), 0)) s

/-- The paddock that RDPERF's B names, or `none` for ENGPARAM (R368). -/
def perfPad (own b : Nat) : Option Nat :=
  if b = 0 then some own
  else if 32 ≤ b then none
  else if own = 0 || b = own then some b
  else none
/-- RDPERF (R368). A low read latches the value; `.HI` returns the latch's high half. -/
def execRdperf (h : UHdr) (hi : Bool) (d : Nat) (a b : USrc) (s : State) :
    Host.Outcome State Fault Refusal :=
  issue (.rdperf h hi d a b) (uOp h fun q s =>
    let n := (s.uni q h.lit a).toNat
    match perfPad (s.fo q).paddock (s.uni q h.lit b).toNat with
    | none => .error (cEngparam, q.lanes)
    | some p =>
        if 12 ≤ n then .error (cEngparam, q.lanes)
        else if hi then .ok (s.setFl q fun fl => fl.setS d ((fl.perf >>> 32).truncate 32), 0)
        else
          let x := s.counter p (dieOf q.core) n
          .ok (s.setFl q fun fl => { fl.setS d (x.truncate 32) with perf := x }, 0)) s

/-- TRACE (R367). -/
def execTrace (h : UHdr) (tag : Nat) (a b : USrc) (s : State) :
    Host.Outcome State Fault Refusal :=
  issue (.trace h tag a b) (uOp h fun q s =>
    .ok (s.traceFl (s.fo q) q.flock 0 0 tag q.pc (s.uni q h.lit a) (s.uni q h.lit b), 0)) s

end Sys2Proof.Machine
end

