-- ==== Sys2Proof/Machine/Dispatch.lean ====
section
/-! DEFINITION. The meaning of every instruction and event: one arm for each row of the opcode
table. -/
namespace Sys2Proof.Machine
open Sys2Proof

def exec (i : Instr) (s : State) : Host.Outcome State Fault Refusal :=
  match i with
  | .iadd h d a b => Sys2Proof.Machine.execIadd h d a b s
  | .isub h d a b => Sys2Proof.Machine.execIsub h d a b s
  | .imul h d a b => Sys2Proof.Machine.execImul h d a b s
  | .imulh h u d a b => Sys2Proof.Machine.execImulh h u d a b s
  | .imad h d a b c => Sys2Proof.Machine.execImad h d a b c s
  | .iadds h u d a b => Sys2Proof.Machine.execIadds h u d a b s
  | .isubs h u d a b => Sys2Proof.Machine.execIsubs h u d a b s
  | .imin h u d a b => Sys2Proof.Machine.execImin h u d a b s
  | .imax h u d a b => Sys2Proof.Machine.execImax h u d a b s
  | .iabs h sat d a => Sys2Proof.Machine.execIabs h sat d a s
  | .iabsd h u d a b => Sys2Proof.Machine.execIabsd h u d a b s
  | .and h d a b => Sys2Proof.Machine.execAnd h d a b s
  | .or h d a b => Sys2Proof.Machine.execOr h d a b s
  | .xor h d a b => Sys2Proof.Machine.execXor h d a b s
  | .andn h d a b => Sys2Proof.Machine.execAndn h d a b s
  | .lop3 h tab d a b c => Sys2Proof.Machine.execLop3 h tab d a b c s
  | .shl h w d a b => Sys2Proof.Machine.execShl h w d a b s
  | .shr h w d a b => Sys2Proof.Machine.execShr h w d a b s
  | .sar h w d a b => Sys2Proof.Machine.execSar h w d a b s
  | .rol h d a b => Sys2Proof.Machine.execRol h d a b s
  | .popc h d a => Sys2Proof.Machine.execPopc h d a s
  | .clz h d a => Sys2Proof.Machine.execClz h d a s
  | .brev h d a => Sys2Proof.Machine.execBrev h d a s
  | .bfx h sx d a b => Sys2Proof.Machine.execBfx h sx d a b s
  | .bfi h d a b c => Sys2Proof.Machine.execBfi h d a b c s
  | .lea h sh d a b => Sys2Proof.Machine.execLea h sh d a b s
  | .idot4 h ua ub sat d a b c => Sys2Proof.Machine.execIdot4 h ua ub sat d a b c s
  | .idot2 h ua ub sat d a b c => Sys2Proof.Machine.execIdot2 h ua ub sat d a b c s
  | .fadd h f r d a b => Sys2Proof.Machine.execFadd h f r d a b s
  | .fsub h f r d a b => Sys2Proof.Machine.execFsub h f r d a b s
  | .fmul h f r d a b => Sys2Proof.Machine.execFmul h f r d a b s
  | .ffma h f r d a b c => Sys2Proof.Machine.execFfma h f r d a b c s
  | .fmin h f d a b => Sys2Proof.Machine.execFmin h f d a b s
  | .fmax h f d a b => Sys2Proof.Machine.execFmax h f d a b s
  | .fdiv h f r d a b => Sys2Proof.Machine.execFdiv h f r d a b s
  | .frcp h f d a => Sys2Proof.Machine.execFrcp h f d a s
  | .frsq h f d a => Sys2Proof.Machine.execFrsq h f d a s
  | .fsqrt h f r d a => Sys2Proof.Machine.execFsqrt h f r d a s
  | .fexp2 h f d a => Sys2Proof.Machine.execFexp2 h f d a s
  | .flog2 h f d a => Sys2Proof.Machine.execFlog2 h f d a s
  | .fsin h f d a => Sys2Proof.Machine.execFsin h f d a s
  | .fcos h f d a => Sys2Proof.Machine.execFcos h f d a s
  | .ftanh h f d a => Sys2Proof.Machine.execFtanh h f d a s
  | .fexs h f d a b => Sys2Proof.Machine.execFexs h f d a b s
  | .fscale h f r d a b => Sys2Proof.Machine.execFscale h f r d a b s
  | .ffrac h f d a => Sys2Proof.Machine.execFfrac h f d a s
  | .frint h f r d a => Sys2Proof.Machine.execFrint h f r d a s
  | .fclass h d a => Sys2Proof.Machine.execFclass h d a s
  | .fcopys h sg d a b => Sys2Proof.Machine.execFcopys h sg d a b s
  | .hadd2 h bf f r d a b => Sys2Proof.Machine.execHadd2 h bf f r d a b s
  | .hmul2 h bf f r d a b => Sys2Proof.Machine.execHmul2 h bf f r d a b s
  | .hfma2 h bf f r d a b c => Sys2Proof.Machine.execHfma2 h bf f r d a b c s
  | .hmin2 h bf f d a b => Sys2Proof.Machine.execHmin2 h bf f d a b s
  | .hmax2 h bf f d a b => Sys2Proof.Machine.execHmax2 h bf f d a b s
  | .fdot2 h bf f r d a b c => Sys2Proof.Machine.execFdot2 h bf f r d a b c s
  | .fdot4 h fa fb nc r d a b c => Sys2Proof.Machine.execFdot4 h fa fb nc r d a b c s
  | .cvt h dst src u r slot d a c => Sys2Proof.Machine.execCvt h dst src u r slot d a c s
  | .cvt2 h dst src u r slot d a b c => Sys2Proof.Machine.execCvt2 h dst src u r slot d a b c s
  | .cvt4 h dst src u r slot d a b c => Sys2Proof.Machine.execCvt4 h dst src u r slot d a b c s
  | .unpk2 h fmt hi d a => Sys2Proof.Machine.execUnpk2 h fmt hi d a s
  | .unpk4 h fmt ix d a => Sys2Proof.Machine.execUnpk4 h fmt ix d a s
  | .xpand h b hi slot d a => Sys2Proof.Machine.execXpand h b hi slot d a s
  | .sqz4 h r slot d a c => Sys2Proof.Machine.execSqz4 h r slot d a c s
  | .sqz8 h r slot d a c => Sys2Proof.Machine.execSqz8 h r slot d a c s
  | .sround h fmt r slot d a c => Sys2Proof.Machine.execSround h fmt r slot d a c s
  | .scaleof h f4 slot d a => Sys2Proof.Machine.execScaleof h f4 slot d a s
  | .mov h d a => Sys2Proof.Machine.execMov h d a s
  | .sel h neg d a b p => Sys2Proof.Machine.execSel h neg d a b p s
  | .shfl h w z d a b => Sys2Proof.Machine.execShfl h w z d a b s
  | .shflu h w z d a b => Sys2Proof.Machine.execShflu h w z d a b s
  | .shfld h w z d a b => Sys2Proof.Machine.execShfld h w z d a b s
  | .shflx h w z d a b => Sys2Proof.Machine.execShflx h w z d a b s
  | .vote h mode neg d p => Sys2Proof.Machine.execVote h mode neg d p s
  | .matchv h mode d a => Sys2Proof.Machine.execMatchv h mode d a s
  | .prmt h d a b c => Sys2Proof.Machine.execPrmt h d a b c s
  | .rdx h len d n b => Sys2Proof.Machine.execRdx h len d n b s
  | .wrx h len n a b => Sys2Proof.Machine.execWrx h len n a b s
  | .elect h p => Sys2Proof.Machine.execElect h p s
  | .icmp h cond cc p a b => Sys2Proof.Machine.execIcmp h cond cc p a b s
  | .fcmp h cond cc ftz p a b => Sys2Proof.Machine.execFcmp h cond cc ftz p a b s
  | .hcmp2 h bf cond cc ftz p a b => Sys2Proof.Machine.execHcmp2 h bf cond cc ftz p a b s
  | .plop h tab d a b c => Sys2Proof.Machine.execPlop h tab d a b c s
  | .ppack h d f => Sys2Proof.Machine.execPpack h d f s
  | .punpk h count f a => Sys2Proof.Machine.execPunpk h count f a s
  | .lds h sz o d a b => Sys2Proof.Machine.execLds h sz o d a b s
  | .sts h sz o a b c => Sys2Proof.Machine.execSts h sz o a b c s
  | .ldsm h n st d a b => Sys2Proof.Machine.execLdsm h n st d a b s
  | .stsm h n st a b c => Sys2Proof.Machine.execStsm h n st a b c s
  | .atoms h op sh o d a b => Sys2Proof.Machine.execAtoms h op sh o d a b s
  | .cass h dbl o d a b c => Sys2Proof.Machine.execCass h dbl o d a b c s
  | .ldc h sz o d a b => Sys2Proof.Machine.execLdc h sz o d a b s
  | .stc h sz o a b c => Sys2Proof.Machine.execStc h sz o a b c s
  | .atomc h op sh o d a b => Sys2Proof.Machine.execAtomc h op sh o d a b s
  | .casc h dbl o d a b c => Sys2Proof.Machine.execCasc h dbl o d a b c s
  | .redc h op sh a b => Sys2Proof.Machine.execRedc h op sh a b s
  | .fence h ord scope => Sys2Proof.Machine.execFence h ord scope s
  | .chko h p a b => Sys2Proof.Machine.execChko h p a b s
  | .brl e p pn disp => Sys2Proof.Machine.execBrl e p pn disp s
  | .brxl h a => Sys2Proof.Machine.execBrxl h a s
  | .join h a => Sys2Proof.Machine.execJoin h a s
  | .lexit h => Sys2Proof.Machine.execLexit h s
  | .crook h n slot mx d a b c => Sys2Proof.Machine.execCrook h n slot mx d a b c s
  | .sadd h d a b => Sys2Proof.Machine.execSadd h d a b s
  | .ssub h d a b => Sys2Proof.Machine.execSsub h d a b s
  | .smul h d a b => Sys2Proof.Machine.execSmul h d a b s
  | .smulh h u d a b => Sys2Proof.Machine.execSmulh h u d a b s
  | .smad h d a b => Sys2Proof.Machine.execSmad h d a b s
  | .sand h d a b => Sys2Proof.Machine.execSand h d a b s
  | .sor h d a b => Sys2Proof.Machine.execSor h d a b s
  | .sxor h d a b => Sys2Proof.Machine.execSxor h d a b s
  | .sshl h d a b => Sys2Proof.Machine.execSshl h d a b s
  | .sshr h d a b => Sys2Proof.Machine.execSshr h d a b s
  | .ssar h d a b => Sys2Proof.Machine.execSsar h d a b s
  | .smin h u d a b => Sys2Proof.Machine.execSmin h u d a b s
  | .smax h u d a b => Sys2Proof.Machine.execSmax h u d a b s
  | .scmp h u d a b => Sys2Proof.Machine.execScmp h u d a b s
  | .ssel h d a b => Sys2Proof.Machine.execSsel h d a b s
  | .smov h d a => Sys2Proof.Machine.execSmov h d a s
  | .sli e d imm => Sys2Proof.Machine.execSli e d imm s
  | .slih e d imm => Sys2Proof.Machine.execSlih e d imm s
  | .slea h x8 d a b => Sys2Proof.Machine.execSlea h x8 d a b s
  | .sadd64 h d a b => Sys2Proof.Machine.execSadd64 h d a b s
  | .bra e k kn disp => Sys2Proof.Machine.execBra e k kn disp s
  | .brk e k kn disp => Sys2Proof.Machine.execBrk e k kn disp s
  | .call e k kn disp => Sys2Proof.Machine.execCall e k kn disp s
  | .ret h a => Sys2Proof.Machine.execRet h a s
  | .brx h a b => Sys2Proof.Machine.execBrx h a b s
  | .exit h => Sys2Proof.Machine.execExit h s
  | .nop h => Sys2Proof.Machine.execNop h s
  | .trap h code => Sys2Proof.Machine.execTrap h code s
  | .rett h skip a => Sys2Proof.Machine.execRett h skip a s
  | .klop h tab d ka kb => Sys2Proof.Machine.execKlop h tab d ka kb s
  | .sget h sp d a b => Sys2Proof.Machine.execSget h sp d a b s
  | .bar h b => Sys2Proof.Machine.execBar h b s
  | .barSw e b => Sys2Proof.Machine.execBarSw e b s
  | .bara h b => Sys2Proof.Machine.execBara h b s
  | .barw h b => Sys2Proof.Machine.execBarw h b s
  | .acquire e => Sys2Proof.Machine.execAcquire e s
  | .trywait h any d a b => Sys2Proof.Machine.execTrywait h any d a b s
  | .trywaitTimeout fold flock => Sys2Proof.Machine.execTrywaitTimeout fold flock s
  | .launch h a group => Sys2Proof.Machine.execLaunch h a group s
  | .launchRecordRead op droveId => Sys2Proof.Machine.execLaunchRecordRead op droveId s
  | .cwait h a => Sys2Proof.Machine.execCwait h a s
  | .tcopyLoad h t a => Sys2Proof.Machine.execTcopyLoad h t a s
  | .tcopyStore h t a => Sys2Proof.Machine.execTcopyStore h t a s
  | .tcopyFill h t a => Sys2Proof.Machine.execTcopyFill h t a s
  | .tcopyGather h t a => Sys2Proof.Machine.execTcopyGather h t a s
  | .tcopyScatter h t a => Sys2Proof.Machine.execTcopyScatter h t a s
  | .tcopyColl h t a => Sys2Proof.Machine.execTcopyColl h t a s
  | .mma h a tile slot => Sys2Proof.Machine.execMma h a tile slot s
  | .mdrain h tile slot raw z r => Sys2Proof.Machine.execMdrain h tile slot raw z r s
  | .mzero h mask => Sys2Proof.Machine.execMzero h mask s
  | .mloadLoad h tile => Sys2Proof.Machine.execMloadLoad h tile s
  | .mloadAdd h tile => Sys2Proof.Machine.execMloadAdd h tile s
  | .mloadAddv h tile slot => Sys2Proof.Machine.execMloadAddv h tile slot s
  | .matrixCommandStart core => Sys2Proof.Machine.execMatrixCommandStart core s
  | .tstat h d a => Sys2Proof.Machine.execTstat h d a s
  | .rdsr h d reg => Sys2Proof.Machine.execRdsr h d reg s
  | .wrsr h reg a => Sys2Proof.Machine.execWrsr h reg a s
  | .rdclk h cyc d => Sys2Proof.Machine.execRdclk h cyc d s
  | .rdperf h hi d a b => Sys2Proof.Machine.execRdperf h hi d a b s
  | .trace h tag a b => Sys2Proof.Machine.execTrace h tag a b s
  | .flushh h => Sys2Proof.Machine.execFlushh h s
  | .flushhComplete op => Sys2Proof.Machine.execFlushhComplete op s
  | .pcfgPctl h a => Sys2Proof.Machine.execPcfgPctl h a s
  | .pcfgCores h a => Sys2Proof.Machine.execPcfgCores h a s
  | .pcfgChans h a => Sys2Proof.Machine.execPcfgChans h a s
  | .pcfgCommons h a => Sys2Proof.Machine.execPcfgCommons h a s
  | .pcfgStreams h a => Sys2Proof.Machine.execPcfgStreams h a s
  | .pcfgKeys h a => Sys2Proof.Machine.execPcfgKeys h a s
  | .pcfgCrook h a => Sys2Proof.Machine.execPcfgCrook h a s
  | .pcfgTracebuf h a => Sys2Proof.Machine.execPcfgTracebuf h a s
  | .pcfgDrover h a => Sys2Proof.Machine.execPcfgDrover h a s
  | .pcfgFaultq h a => Sys2Proof.Machine.execPcfgFaultq h a s
  | .pcfgEvq h a => Sys2Proof.Machine.execPcfgEvq h a s
  | .pcfgStopHold h a => Sys2Proof.Machine.execPcfgStopHold h a s
  | .pcfgStopReset h a => Sys2Proof.Machine.execPcfgStopReset h a s
  | .pcfgStopRelease h a => Sys2Proof.Machine.execPcfgStopRelease h a s
  | .pcfgDeadline h a => Sys2Proof.Machine.execPcfgDeadline h a s
  | .pcfgNetred h a => Sys2Proof.Machine.execPcfgNetred h a s
  | .pcfgCode h a => Sys2Proof.Machine.execPcfgCode h a s
  | .pcfgGrouptab h a => Sys2Proof.Machine.execPcfgGrouptab h a s
  | .pcfgSavearea h a => Sys2Proof.Machine.execPcfgSavearea h a s
  | .pcfgVctl h a => Sys2Proof.Machine.execPcfgVctl h a s
  | .pcfgS2root h a => Sys2Proof.Machine.execPcfgS2root h a s
  | .pcfgS1root h a => Sys2Proof.Machine.execPcfgS1root h a s
  | .pcfgHwin h a => Sys2Proof.Machine.execPcfgHwin h a s
  | .pcfgVdn h a => Sys2Proof.Machine.execPcfgVdn h a s
  | .pcfgTracectl h a => Sys2Proof.Machine.execPcfgTracectl h a s
  | .pcfgHot h a => Sys2Proof.Machine.execPcfgHot h a s
  | .pcfgQwin h a => Sys2Proof.Machine.execPcfgQwin h a s
  | .pcfgRd h a tgt reg => Sys2Proof.Machine.execPcfgRd h a tgt reg s
  | .configWriteComplete op => Sys2Proof.Machine.execConfigWriteComplete op s
  | .pkeyGen h a => Sys2Proof.Machine.execPkeyGen h a s
  | .pkeyLoad h a => Sys2Proof.Machine.execPkeyLoad h a s
  | .pkeyErase h a => Sys2Proof.Machine.execPkeyErase h a s
  | .pmap h a lvl => Sys2Proof.Machine.execPmap h a lvl s
  | .tlbiVd h a => Sys2Proof.Machine.execTlbiVd h a s
  | .tlbiPage h a b => Sys2Proof.Machine.execTlbiPage h a b s
  | .tlbiPad h a => Sys2Proof.Machine.execTlbiPad h a s
  | .tlbiAll h a => Sys2Proof.Machine.execTlbiAll h a s
  | .vdnset h a b => Sys2Proof.Machine.execVdnset h a b s
  | .slice h a entry => Sys2Proof.Machine.execSlice h a entry s
  | .qossetBw h a => Sys2Proof.Machine.execQossetBw h a s
  | .qossetWays h a => Sys2Proof.Machine.execQossetWays h a s
  | .wayHandover die way => Sys2Proof.Machine.execWayHandover die way s
  | .clearp h a b => Sys2Proof.Machine.execClearp h a b s
  | .privilegedCompletion op => Sys2Proof.Machine.execPrivilegedCompletion op s
  | .crkloadLoad h a crn => Sys2Proof.Machine.execCrkloadLoad h a crn s
  | .crkloadUnbind h a crn => Sys2Proof.Machine.execCrkloadUnbind h a crn s
  | .crkloadEvict h a crn => Sys2Proof.Machine.execCrkloadEvict h a crn s
  | .shepBegin h a => Sys2Proof.Machine.execShepBegin h a s
  | .shepRound h a => Sys2Proof.Machine.execShepRound h a s
  | .shepStop h a => Sys2Proof.Machine.execShepStop h a s
  | .shepAbort h a => Sys2Proof.Machine.execShepAbort h a s
  | .shepAccept h a => Sys2Proof.Machine.execShepAccept h a s
  | .migrationSwitch vd => Sys2Proof.Machine.execMigrationSwitch vd s
  | .granuleReceive vd granule bytes => Sys2Proof.Machine.execGranuleReceive vd granule bytes s
  | .savexSave h a => Sys2Proof.Machine.execSavexSave h a s
  | .savexThaw h a => Sys2Proof.Machine.execSavexThaw h a s
  | .savexDiscard h a => Sys2Proof.Machine.execSavexDiscard h a s
  | .loadx h a => Sys2Proof.Machine.execLoadx h a s
  | .msg h a dest => Sys2Proof.Machine.execMsg h a dest s
  | .codemv h a => Sys2Proof.Machine.execCodemv h a s
  | .forwardingEntryRetire paddock entry => Sys2Proof.Machine.execForwardingEntryRetire paddock entry s
  | .turnSelect core stage => Sys2Proof.Machine.execTurnSelect core stage s
  | .unpark fold flock => Sys2Proof.Machine.execUnpark fold flock s
  | .resultReturn op => Sys2Proof.Machine.execResultReturn op s
  | .commonsOperation op lane => Sys2Proof.Machine.execCommonsOperation op lane s
  | .promotionEnd op lane => Sys2Proof.Machine.execPromotionEnd op lane s
  | .chunkReturn core chunk => Sys2Proof.Machine.execChunkReturn core chunk s
  | .copyStart op => Sys2Proof.Machine.execCopyStart op s
  | .copyComplete op => Sys2Proof.Machine.execCopyComplete op s
  | .copyFault op sub => Sys2Proof.Machine.execCopyFault op sub s
  | .translationFault op => Sys2Proof.Machine.execTranslationFault op s
  | .stage2Resolve op fixed => Sys2Proof.Machine.execStage2Resolve op fixed s
  | .collectiveStart op peers => Sys2Proof.Machine.execCollectiveStart op peers s
  | .stagingCopy fold region => Sys2Proof.Machine.execStagingCopy fold region s
  | .foldAdmit drove core segs => Sys2Proof.Machine.execFoldAdmit drove core segs s
  | .foldRestore fold core segs => Sys2Proof.Machine.execFoldRestore fold core segs s
  | .foldEnd fold => Sys2Proof.Machine.execFoldEnd fold s
  | .resourceClear core => Sys2Proof.Machine.execResourceClear core s
  | .droveRetire drove => Sys2Proof.Machine.execDroveRetire drove s
  | .completionEntryWrite vd queue => Sys2Proof.Machine.execCompletionEntryWrite vd queue s
  | .launchEntryRead vd queue droveId => Sys2Proof.Machine.execLaunchEntryRead vd queue droveId s
  | .prioAging drove => Sys2Proof.Machine.execPrioAging drove s
  | .shrinkRequest fold => Sys2Proof.Machine.execShrinkRequest fold s
  | .childStop fold => Sys2Proof.Machine.execChildStop fold s
  | .stopRequest fold => Sys2Proof.Machine.execStopRequest fold s
  | .pointSave fold => Sys2Proof.Machine.execPointSave fold s
  | .deadlineT1 paddock => Sys2Proof.Machine.execDeadlineT1 paddock s
  | .instructionBoundarySave fold => Sys2Proof.Machine.execInstructionBoundarySave fold s
  | .forcedReset paddock => Sys2Proof.Machine.execForcedReset paddock s
  | .sliceEnd paddock => Sys2Proof.Machine.execSliceEnd paddock s
  | .sliceSwitch paddock => Sys2Proof.Machine.execSliceSwitch paddock s
  | .standbyTakeover lea => Sys2Proof.Machine.execStandbyTakeover lea s
  | .configRequest vd words => Sys2Proof.Machine.execConfigRequest vd words s
  | .hostWindowAccess port vf addr wr bytes => Sys2Proof.Machine.execHostWindowAccess port vf addr wr bytes s
  | .peerAccess vdn src gpa wr bytes => Sys2Proof.Machine.execPeerAccess vdn src gpa wr bytes s
  | .movedRefusal vdn op => Sys2Proof.Machine.execMovedRefusal vdn op s
  | .movedRetry op => Sys2Proof.Machine.execMovedRetry op s
  | .forwardingExpiry vdn => Sys2Proof.Machine.execForwardingExpiry vdn s
  | .eventRecord src payload => Sys2Proof.Machine.execEventRecord src payload s
  | .eventQueuePoll => Sys2Proof.Machine.execEventQueuePoll s
  | .faultRecordWrite paddock => Sys2Proof.Machine.execFaultRecordWrite paddock s
  | .faultQueuePoll paddock => Sys2Proof.Machine.execFaultQueuePoll paddock s
  | .hostAssistRecord vd => Sys2Proof.Machine.execHostAssistRecord vd s
  | .lqnotify vd queue value => Sys2Proof.Machine.execLqnotify vd queue value s
  | .cqhead vd queue value => Sys2Proof.Machine.execCqhead vd queue value s
  | .tlbinv vd value => Sys2Proof.Machine.execTlbinv vd value s
  | .gfqans vd value => Sys2Proof.Machine.execGfqans vd value s
  | .shadow vd queue value => Sys2Proof.Machine.execShadow vd queue value s
  | .cfgans port value => Sys2Proof.Machine.execCfgans port value s
  | .hacons port value => Sys2Proof.Machine.execHacons port value s
  | .shepcmd port value => Sys2Proof.Machine.execShepcmd port value s
  | .registerWrite port vf offset value => Sys2Proof.Machine.execRegisterWrite port vf offset value s
  | .bandwidthWindow die => Sys2Proof.Machine.execBandwidthWindow die s
  | .hotMark core temp droop => Sys2Proof.Machine.execHotMark core temp droop s
  | .clockStep die up => Sys2Proof.Machine.execClockStep die up s
  | .thermalReset die => Sys2Proof.Machine.execThermalReset die s
  | .scrub die addr bad => Sys2Proof.Machine.execScrub die addr bad s
  | .resourceRetire kind ix => Sys2Proof.Machine.execResourceRetire kind ix s
  | .start code savearea => Sys2Proof.Machine.execStart code savearea s
  | .attestationRequest nonce => Sys2Proof.Machine.execAttestationRequest nonce s
  | .i3cRead reg => Sys2Proof.Machine.execI3cRead reg s
  | .i3cSetPowerLimit value => Sys2Proof.Machine.execI3cSetPowerLimit value s
  | .i3cHoldReset on => Sys2Proof.Machine.execI3cHoldReset on s
  | .fetchDecode core stage band => Sys2Proof.Machine.execFetchDecode core stage band s
  | .roundAcknowledged vd refused => Sys2Proof.Machine.execRoundAcknowledged vd refused s
  | .transferFailure vd refused => Sys2Proof.Machine.execTransferFailure vd refused s
  | .streamReceive vd bytes => Sys2Proof.Machine.execStreamReceive vd bytes s
  | .traceRecordWrite paddock die => Sys2Proof.Machine.execTraceRecordWrite paddock die s
  | .s1rootWrite vd value => Sys2Proof.Machine.execS1rootWrite vd value s

end Sys2Proof.Machine
end

