-- ==== Sys2Proof/Machine/Interleave.lean ====
section
/-! DEFINITION. A crook that runs wave by wave (R380): its scratchpad accesses take their places in the cycles of its
waves, among those of the other band, of the other issue stage, of engines and of owner-bit flips. -/
namespace Sys2Proof.Machine

/-! ### What waits for a crook (R382) -/

/-- What stops, slices and migrations change of a fold, of its paddock and of its virtual device. -/
structure RunMark where
  status : FoldStatus
  place : Nat × Nat × List Nat
  stop : Nat × Nat × Nat
  slice : Nat × Option SliceEnt × Bool
  held : Bool × Nat
  deriving DecidableEq, Repr
/-- The mark of a fold. -/
def State.runMark (s : State) (f : Fold) : RunMark :=
  { status := f.status, place := (f.core, f.sect, f.segs), stop := (f.stopWanted, f.stopT1, f.stopT2)
    slice := ((s.pad f.paddock).running, (s.pad f.paddock).runEnt, (s.pad f.paddock).switching)
    held := ((s.vd f.vd).frozen, (s.vd f.vd).shep) }
/-- The crooks that run and the marks of their folds. -/
def State.crookMarks (s : State) : List (Nat × Option CrookRun × Option RunMark) :=
  s.crooks.map fun e => (e.1, e.2.run, (kget s.folds e.2.fold).map s.runMark)
/-- A move falls beside every crook that runs: none of them is stopped, saved, moved or lost by it (R382). -/
def State.besideCrooks (s t : State) : Bool := s.crookMarks.all fun m => t.crookMarks.contains m
/-- What a move that is no wave of a crook gives: one that would not fall beside the crooks that run is not made until
they have ended. -/
def State.keepCrooks (s : State) (o : Host.Outcome State Fault Refusal) : Host.Outcome State Fault Refusal :=
  if s.crooks.isEmpty then o
  else match o with
    | .next t => if s.besideCrooks t then o else .next s
    | e => e

/-! ### Wave by wave (R378, R379, R380) -/

/-- The band about to issue a bound crook whose operands are readable: the crook before its first micro-operation. -/
def State.crookReady (s : State) (q : Iss) (i : Instr) : Option CrookRun :=
  match i with
  | .crook h n _ _ _ a b c =>
      match kget (s.pad (s.fo q).paddock).binds (16 * s.activeSet (s.fo q).paddock + n) with
      | none => none
      | some bd =>
          let ws := s.crookWords (s.fo q).paddock q.core bd
          let bad := s.crookStruck (s.fo q).paddock q.core bd
          let fl := s.fl q
          if bd.len = 0 || (precheck s q i).isSome || unsettled s q i || s.struckOf q i != 0
              || s.crookHeld q ws || fl.active h q.lanes == 0 then none
          else
            some
              { i := i, bandB := q.bandB, lanes := q.lanes, pc := q.pc, count := q.count, act := fl.active h q.lanes
                ops := (List.range 32).map fun l => [fl.src h.lit a l, fl.src h.lit b l, fl.src h.lit c l]
                run := CrkRun.start, left := if bad.isSome then ws.take (bad.getD 0) else ws, parts := none
                bad := bad.isSome }
  | _ => none
/-- The band of a crook that runs. -/
def CrookRun.iss (c : CrookRun) (core stage : Nat) (t : Turn) : Iss :=
  { core := core, stage := stage, fold := t.fold, flock := t.flock, bandB := c.bandB, lanes := c.lanes, pc := c.pc
    count := c.count }
/-- The slot and the MOD field that its micro-operations see, and its destination. -/
def CrookRun.slotMod (c : CrookRun) : Nat × Nat :=
  match c.i with
  | .crook h _ slot mx .. => if h.x then (slot, mx) else (0, 0)
  | _ => (0, 0)
def CrookRun.dest (c : CrookRun) : LDst :=
  match c.i with
  | .crook _ _ _ _ d .. => d
  | _ => .q0
/-- A crook's turn with it. -/
def State.setRun (s : State) (q : Iss) (c : Option CrookRun) : State := s.modTurn q fun t => { t with run := c }
/-- It is abandoned (R381), its instruction trapping. -/
def State.crookTrap (s : State) (q : Iss) (t : Nat × Mask) : State := (s.setRun q none).trapAt q t.1 t.2 false
/-- The lanes of a list of waves. -/
def wavesLanes (ms : List Mask) : Mask := ms.foldl (· ||| ·) 0
/-- One wave of COMMIT: its checks with the first, its store, and with the last the rest of its effect. -/
def State.crookCommitWave (s : State) (q : Iss) (c : CrookRun) (com : Micro) : State :=
  let v := microVal c.run (fun l => c.ops.getD l []) c.slotMod.2 0
  let acc := commitAcc com v
  let st := bitOf com.md 0
  let stop := if c.parts.isNone then commitTrap (s.fo q) c.act acc st c.run q s else none
  match stop with
  | some t => s.crookTrap q t
  | none =>
      let ms := c.parts.getD (if st then accParts c.act acc else [])
      let s := match ms with
        | [] => s
        | m :: _ => commitStore (s.fo q) m acc q s
      if ms.length ≤ 1 then
        let e := commitEnd c.act acc st c.dest com v c.run q ((s.setRun q none).advance q c.i)
        e.1.retire q c.i e.2
      else s.setRun q (some { c with parts := some ms.tail })
/-- One wave, or one micro-operation without waves, of the crook of a turn. -/
def State.crookStep (s : State) (q : Iss) (c : CrookRun) : State :=
  let ops := fun l => c.ops.getD l []
  match c.left with
  | [] => s.crookTrap q (cEcc, c.act)
  | w :: ws =>
      let x := microOf w
      if ws.isEmpty && !c.bad then s.crookCommitWave q c x
      else if x.op = 0x54 then
        let acc := ldsAcc c.run ops c.slotMod.2 x
        let ms := c.parts.getD (accParts c.act acc)
        match ldsWave s q (ms.headD 0) (wavesLanes ms) acc c.run x with
        | .error t => s.crookTrap q t
        | .ok r =>
            if ms.length ≤ 1 then s.setRun q (some { c with run := r, left := ws, parts := none })
            else s.setRun q (some { c with run := r, parts := some ms.tail })
      else match microStep s q c.act ops c.slotMod.2 c.slotMod.1 c.run x with
        | .error t => s.crookTrap q t
        | .ok r => s.setRun q (some { c with run := r, left := ws })
/-- Band B still has an instruction to issue in the first cycle of band A's crook; a crook of its own follows band A's
(R379). -/
def State.besideWaits (s : State) (core stage : Nat) : Bool :=
  let t := { s with focus := some (core, stage) }
  match t.issuer with
  | none => false
  | some q => match fetchInstr t q with
      | some i => !isCrook i
      | none => true
/-- The next wave of the crook that a stage runs. -/
def State.crookWave (s : State) (core stage : Nat) : State :=
  match (s.stageOf core stage).turn with
  | none => s
  | some t => match t.run with
      | none => s
      | some c => if s.besideWaits core stage then s else s.crookStep (c.iss core stage t) c
/-- The band's crook begins: its first wave, or first micro-operation, in its first cycle, with which band B may issue
another instruction. -/
def State.crookBegin (s : State) (q : Iss) (c : CrookRun) : State :=
  (s.modTurn q fun t =>
    { t with run := some c, nextB := !q.bandB && !bandDone (s.fl q) t.b, ahead := false }).crookStep q c
/-- The stage runs a crook. -/
def State.crookOn (s : State) (core stage : Nat) : Bool := (s.stageOf core stage).turn.any fun t => t.run.isSome
/-- What else issues or runs beside a crook that begins now: band B, or a crook of the core's other stage. -/
def State.crookBeside (s : State) (q : Iss) : Bool :=
  s.crookOn q.core (1 - q.stage)
    || (!q.bandB && (s.stageOf q.core q.stage).turn.any fun t => !bandDone (s.fl q) t.b)
/-- The issue of an instruction that has been fetched. A crook runs wave by wave where something goes on beside it or the
schedule says so (`waves`); one of band B waits for the end of band A's (R379). -/
def State.issueOf (s : State) (q : Iss) (i : Instr) (waves : Bool) : Host.Outcome State Fault Refusal :=
  if !isCrook i then exec i (s.fetchPass q)
  else if s.crookOn q.core q.stage then .next s
  else match if waves || s.crookBeside q then (s.fetchPass q).crookReady q i else none with
    | none => exec i (s.fetchPass q)
    | some c => .next ((s.fetchPass q).crookBegin q c)

end Sys2Proof.Machine
end

