-- ==== Sys2Proof/Machine/Step.lean ====
section
/-! DEFINITION. One step of the device: the next move of its schedule is made (log 1). An issue
fetches and runs the instruction of the band whose turn it is; an event runs its own row. -/
namespace Sys2Proof.Machine

/-- The issue of one instruction by an issue stage: nothing where no band has a turn, the trap of the fetch where no
instruction is fetched (R60), and otherwise the instruction itself, once its words have passed the memory-side cache
(R76). -/
def stepIssue (s : State) (core stage : Nat) (waves : Bool) : Host.Outcome State Fault Refusal :=
  let s := s.attend core stage
  match s.issuer with
  | none => .next s
  | some q =>
      match fetchInstr s q with
      | some i => s.issueOf q i waves
      | none => .next s.fetchDecode

/-- The issue of an instruction under which the bank ALUs of its core fail twice in some lanes (R445). -/
def stepBank (s : State) (core stage : Nat) (m : Mask) : Host.Outcome State Fault Refusal :=
  match stepIssue ((s.attend core stage).setAlu core stage m) core stage false with
  | .next t => .next (t.setAlu core stage 0)
  | e => e

/-- What a move does. -/
def State.makeMove (s : State) (mv : Move) : Host.Outcome State Fault Refusal :=
  match mv with
  | .issue core stage => stepIssue s core stage false
  | .crook core stage => stepIssue s core stage true
  | .wave core stage => .next (s.crookWave core stage)
  | .event i => if i.encoded then .next s else exec i s
  | .elapse die refs => .next ((s.noteWaits die).elapse die refs)
  | .hostStore a bs => .next (s.hostPut a bs)
  | .load p o ws => .next (s.loadCode p o ws)
  | .eccIssue core stage m => .next (s.eccIssue core stage m)
  | .eccBank core stage m => stepBank s core stage m
  | .eccResult op lane => .next (s.eccResult op lane)
  | .eccMatrix core => .next (s.eccMatrix core)
  | .eccReduce op => .next (s.eccReduce op)
  | .upsetReg f k c m => .next (s.upsetReg f k c m)
  | .upsetMem a => .next (s.upsetMem a)
  | .upsetCache a => .next (s.upsetCache a)
  | .upsetTile core tile word => .next (s.upsetTile core tile word)
  | .upsetLatch core stage band latch m => .next (s.upsetLatch core stage band latch m)
  | .upsetStore core slot => .next (s.upsetStore core slot)
  | .power d w => .next (s.modDie d fun x => { x with power := w })
  | .flash i img => .next { s with images := kset s.images i img }
  | .bootFault i part m => .next { s with bootFaults := s.bootFaults ++ [(i, part, m)] }
  | .peerAnswer op refused => .next (s.peerAnswer op refused)
  | .peerRead op vdn => .next (s.memberRead op vdn)
  | .regRead port vf off => .next (s.regRead port vf off)
  | .journalRead port ix => .next (s.journalRead port ix)

/-- The move is a wave of a crook. -/
def Move.isWave : Move → Bool
  | .wave .. => true
  | _ => false
/-- One step. -/
def step (s : State) : Host.Outcome State Fault Refusal :=
  match s.agenda with
  | [] => .next s
  | mv :: rest =>
      let s := { s with agenda := rest }
      if !s.moves mv then .next s
      else if mv.isWave then s.makeMove mv
      else s.keepCrooks (s.makeMove mv)

/-- The instruction of the table's word placed where the next step fetches it. -/
def State.withFetchWord (s : State) (nbits w : Nat) : State := s.placeWords (tableWords nbits w)

end Sys2Proof.Machine
end

