-- ==== Sys2Proof/Safety.lean ====
section
/-! DEFINITION. The terms that claims use: a band that issues an instruction with nothing to stop it,
what an issued instruction leaves as it was, and what each kind of result leaves (R77). -/
namespace Sys2Proof.Machine

/-- A step ends in a next state: no fault and no refusal. -/
def Runs (o : Host.Outcome State Fault Refusal) : Prop := ∃ t, o = .next t

/-- The invariant of the machine's memory: its canonical form. -/
def Sound (s : State) : Prop := s.mem.wf = true

/-! ### A band issues an instruction -/

/-- The stage has a turn, and neither band of it holds a trap for the turn's end (R398). -/
def State.turnClear (s : State) (q : Iss) : Bool :=
  match (s.stageOf q.core q.stage).turn with
  | some t => t.trapA.isNone && t.trapB.isNone
  | none => false

/-- Band `q` issues `i`: it is its turn, its flock is there, the checks of R61 up to UNSETTLED pass,
and no trap waits for the end of the turn. -/
def issues (s : State) (q : Iss) (i : Instr) : Bool :=
  s.issuer == some q && precheck s q i == none && (s.flock? q.fold q.flock).isSome && s.turnClear q

/-- The same as a statement on the turn. -/
def TurnFree (s : State) (q : Iss) : Prop :=
  ∃ t, (s.stageOf q.core q.stage).turn = some t ∧ t.trapA = none ∧ t.trapB = none

/-- Lane `l` is Active for an LR instruction with this header (R11). -/
def act (s : State) (q : Iss) (h : LHdr) (l : Nat) : Bool := ((s.fl q).active h q.lanes).getLsbD l

/-- The value of a lane source operand in a lane. -/
def val (s : State) (q : Iss) (h : LHdr) (x : LSrc) (l : Nat) : Word := (s.fl q).src h.lit x l

/-- The value of an operand in a packed 16-bit position (R52). -/
def hval (s : State) (q : Iss) (h : LHdr) (bf : Bool) (x : LSrc) (l : Nat) : Word :=
  (s.fl q).srcH bf h.lit x l

/-- The PC to which the lanes of a band move: after its instruction. -/
def pcAfter (s : State) (q : Iss) (i : Instr) (l : Nat) : Nat :=
  if q.lanes.getLsbD l then nextPc q i else (s.fl q).pc l

/-! ### What an issued instruction leaves -/

/-- Beside the flock that issued, `t` is `u` but for performance counters and the turns of the
issuing core: every byte of memory, every other flock and fold, every register of the device. -/
structure Quiet (u t : State) (q : Iss) : Prop where
  rest : t = { u with folds := t.folds, cores := t.cores, counters := t.counters }
  bytes : ∀ a, memGet t.mem a = memGet u.mem a
  folds : ∀ f, f ≠ q.fold → kget t.folds f = kget u.folds f
  fold : t.fo q = { u.fo q with flocks := (t.fo q).flocks }
  flocks : ∀ k, k ≠ q.flock → t.flock? q.fold k = u.flock? q.fold k
  cores : ∀ c, t.core c = { u.core c with st0 := (t.core c).st0, st1 := (t.core c).st1 }
  slots : ∀ c st, (t.stageOf c st).slots = (u.stageOf c st).slots
  away : ∀ c, c ≠ q.core → t.core c = u.core c

/-- The PCs of a band that goes on after its instruction; every other lane's PC is as it was. -/
def GoesOn (s t : State) (q : Iss) (i : Instr) : Prop := ∀ l < 32, (t.fl q).pc l = pcAfter s q i l

/-- A result of kind Q (R77, R116): `f` in D and on the queue of every Active lane, and the flags `g`
joined to FFLAGS. Every other register, predicate, queue entry and flag is as it was. A word that is written
is no longer one that an error has struck (`bad`, R446), and no word becomes one. -/
structure ResultQ (s t : State) (q : Iss) (i : Instr) (h : LHdr) (d : LDst) (f : Nat → Word)
    (g : Nat → Flg) : Prop where
  quiet : Quiet s t q
  keep : t.fl q = { s.fl q with
    v := (t.fl q).v, q := (t.fl q).q, pcs := (t.fl q).pcs, fflags := (t.fl q).fflags
    parked := (t.fl q).parked, bad := (t.fl q).bad }
  clean : (s.fl q).bad = [] → (t.fl q).bad = []
  goes : GoesOn s t q i
  dest : ∀ n, d = .v n → ∀ l < 32, (t.fl q).getV n l = if act s q h l then f l else (s.fl q).getV n l
  other : ∀ n, d ≠ .v n → ∀ l < 32, (t.fl q).getV n l = (s.fl q).getV n l
  push : ∀ l < 32, act s q h l = true → (t.fl q).getQ 0 l = f l ∧
    ∀ a < 15, (t.fl q).getQ (a + 1) l = (s.fl q).getQ a l
  noPush : ∀ l < 32, act s q h l = false → ∀ a, (t.fl q).getQ a l = (s.fl q).getQ a l
  flags : (t.fl q).fflags = (s.fl q).fflags ||| orFlags ((s.fl q).active h q.lanes) g

/-- A result in named registers without a push (WRX, R131): lane `l` of register `n` where `w` names
it. -/
structure ResultV (s t : State) (q : Iss) (i : Instr) (w : Nat → Nat → Option Word) : Prop where
  quiet : Quiet s t q
  keep : t.fl q = { s.fl q with
    v := (t.fl q).v, pcs := (t.fl q).pcs, parked := (t.fl q).parked, bad := (t.fl q).bad }
  clean : (s.fl q).bad = [] → (t.fl q).bad = []
  goes : GoesOn s t q i
  regs : ∀ n l, l < 32 → (t.fl q).getV n l = (w n l).getD ((s.fl q).getV n l)

/-- A result of kind P (R77, R115): predicate `n` of an Active lane becomes what `f` names; p0 reads
true. The flags `g` join FFLAGS. -/
structure ResultP (s t : State) (q : Iss) (i : Instr) (h : LHdr) (f : Nat → Nat → Option Bool)
    (g : Nat → Flg) : Prop where
  quiet : Quiet s t q
  keep : t.fl q = { s.fl q with
    p := (t.fl q).p, pcs := (t.fl q).pcs, fflags := (t.fl q).fflags, parked := (t.fl q).parked }
  goes : GoesOn s t q i
  zero : ∀ l, (t.fl q).getP 0 l = true
  preds : ∀ n, n ≠ 0 → ∀ l < 32, (t.fl q).getP n l =
    if act s q h l then (f n l).getD ((s.fl q).getP n l) else (s.fl q).getP n l
  flags : (t.fl q).fflags = (s.fl q).fflags ||| orFlags ((s.fl q).active h q.lanes) g

/-- A deferred result of kind D (R77, R147): the register is pending, and the values stand in an
operation of the flock until they return. Nothing happens where no lane is Active. -/
structure ResultD (s t : State) (q : Iss) (i : Instr) (h : LHdr) (d : Nat) (f : Nat → Word)
    (g : Nat → Flg) : Prop where
  goes : GoesOn s t q i
  idle : (s.fl q).active h q.lanes = 0 → Quiet s t q ∧
    t.fl q = { s.fl q with pcs := (t.fl q).pcs, parked := (t.fl q).parked }
  quiet : (s.fl q).active h q.lanes ≠ 0 →
    Quiet { s with ops := t.ops, nextId := s.nextId + 1 } t q ∧
    (∀ n, n ≠ s.nextId → kget t.ops n = kget s.ops n) ∧
    t.fl q = { s.fl q with
      pendV := pendSet (s.fl q).pendV d, pcs := (t.fl q).pcs
      fflags := (s.fl q).fflags ||| orFlags ((s.fl q).active h q.lanes) g, parked := (t.fl q).parked } ∧
    ∃ o, kget t.ops s.nextId = some o ∧ o.kind = .arith ∧ o.fold = q.fold ∧ o.flock = q.flock ∧
      o.dst = d ∧ o.nreg = 1 ∧ o.counts = true ∧ o.uni = false ∧ o.todo = [] ∧
      ∀ l < 32, kget o.res l = if act s q h l then some [f l] else none

/-- The guard of a uniform instruction holds (R57). -/
def guardOk (s : State) (q : Iss) (h : UHdr) : Bool := (s.fl q).guardK h.k h.kn
/-- The value of a uniform source operand (R58). -/
def uop (s : State) (q : Iss) (h : UHdr) (x : USrc) : Word := s.uni q h.lit x

/-- A settled result in uniform registers and predicates (R77, kinds S and U): the registers and
predicates that `w` and `b` name, where the guard holds; nothing else, and nothing where it fails. -/
structure ResultS (s t : State) (q : Iss) (i : Instr) (go : Bool) (w : Nat → Option Word)
    (b : Nat → Option Bool) : Prop where
  quiet : Quiet s t q
  keep : t.fl q = { s.fl q with
    s := (t.fl q).s, k := (t.fl q).k, pcs := (t.fl q).pcs, parked := (t.fl q).parked
    bad := (t.fl q).bad }
  clean : (s.fl q).bad = [] → (t.fl q).bad = []
  goes : GoesOn s t q i
  regs : ∀ n, (t.fl q).getS n = if go then (w n).getD ((s.fl q).getS n) else (s.fl q).getS n
  zero : (t.fl q).getK 0 = true
  preds : ∀ n, n ≠ 0 → n < 8 →
    (t.fl q).getK n = if go then (b n).getD ((s.fl q).getK n) else (s.fl q).getK n

/-- An effect outside the flock: beside counters and turns the device is `u`, and the flock has only
moved on. -/
structure Leaves (s u t : State) (q : Iss) (i : Instr) : Prop where
  quiet : Quiet u t q
  keep : t.fl q = { u.fl q with pcs := (t.fl q).pcs, parked := (t.fl q).parked }
  goes : GoesOn s t q i

/-- `exec i s` answers a next state of which `P` holds. -/
def Next (i : Instr) (s : State) (P : State → Prop) : Prop := ∃ t, exec i s = .next t ∧ P t

/-- An instruction of kind Q gives `f` in every Active lane, with flags `g`, wherever it issues and no
Active lane raises an enabled flag (R103). -/
def GivesF (i : Instr) (h : LHdr) (d : LDst) (f : State → Iss → Nat → Word)
    (g : State → Iss → Nat → Flg) : Prop :=
  ∀ s q, issues s q i = true → trapLanes (s.fl q) ((s.fl q).active h q.lanes) (g s q) = 0 →
    Next i s fun t => ResultQ s t q i h d (f s q) (g s q)
/-- An instruction of kind Q without flags. -/
def GivesQ (i : Instr) (h : LHdr) (d : LDst) (f : State → Iss → Nat → Word) : Prop :=
  ∀ s q, issues s q i = true → Next i s fun t => ResultQ s t q i h d (f s q) fun _ => 0
/-- A deferred instruction (R147). -/
def GivesD (i : Instr) (h : LHdr) (d : Nat) (f : State → Iss → Nat → Word)
    (g : State → Iss → Nat → Flg) : Prop :=
  ∀ s q, issues s q i = true → trapLanes (s.fl q) ((s.fl q).active h q.lanes) (g s q) = 0 →
    Next i s fun t => ResultD s t q i h d (f s q) (g s q)
/-- Where some Active lane raises an enabled flag, the instruction raises ARITH for those lanes and writes nothing
(R103). -/
def TrapsF (i : Instr) (h : LHdr) (g : State → Iss → Nat → Flg) : Prop :=
  ∀ s q m, issues s q i = true → trapLanes (s.fl q) ((s.fl q).active h q.lanes) (g s q) = m → m ≠ 0 →
    exec i s = .next (s.trapAt q cArith m false)
/-- The instruction raises a trap for the lanes of a failed check, and does nothing else. -/
def Traps (i : Instr) (s : State) (q : Iss) (t : Nat × Mask) : Prop := exec i s = .next (s.trapAt q t.1 t.2 false)
/-- A uniform instruction of kind S that writes one register. -/
def GivesS (i : Instr) (h : UHdr) (d : Nat) (f : State → Iss → Word) : Prop :=
  ∀ s q, issues s q i = true →
    Next i s fun t => ResultS s t q i (guardOk s q h) (fun n => if n = d then some (f s q) else none)
      fun _ => none

/-- Lane values from those of one, two and three operands. -/
def f1 (h : LHdr) (a : LSrc) (f : Word → Word) (s : State) (q : Iss) (l : Nat) : Word := f (val s q h a l)
def f2 (h : LHdr) (a b : LSrc) (f : Word → Word → Word) (s : State) (q : Iss) (l : Nat) : Word :=
  f (val s q h a l) (val s q h b l)
def f3 (h : LHdr) (a b c : LSrc) (f : Word → Word → Word → Word) (s : State) (q : Iss) (l : Nat) : Word :=
  f (val s q h a l) (val s q h b l) (val s q h c l)
/-- Uniform values from those of one and two operands. -/
def u1 (h : UHdr) (a : USrc) (f : Word → Word) (s : State) (q : Iss) : Word := f (uop s q h a)
def u2 (h : UHdr) (a b : USrc) (f : Word → Word → Word) (s : State) (q : Iss) : Word :=
  f (uop s q h a) (uop s q h b)

/-- `i` issues, its own part leaves `u`, and `w` are the lanes that touched the watched block: after it
come the count of the instruction, the latches, E, and WATCH (`retire`). -/
def Ends (i : Instr) (s : State) (q : Iss) (u : State) (w : Mask) : Prop :=
  exec i s = .next (u.retire q i w)

/-- A control transfer: lane `l` of the flock stands at `pc l`; nothing else of the flock changes. -/
structure Jumps (u t : State) (q : Iss) (pc : Nat → Nat) : Prop where
  quiet : Quiet u t q
  keep : t.fl q = { u.fl q with pcs := (t.fl q).pcs, parked := (t.fl q).parked }
  goes : ∀ l < 32, (t.fl q).pc l = pc l

/-- A lane's value under a lane exchange from lane `src` (R125): its own, or 0 under `.Z`, where the
source is not Active. -/
def exch (h : LHdr) (z : Bool) (a : LSrc) (src : State → Iss → Nat → Nat) (s : State) (q : Iss) (l : Nat) :
    Word :=
  if act s q h (src s q l) then val s q h a (src s q l) else if z then 0 else val s q h a l

/-- A privileged operation `o` joins its unit under the next number; it counts as outstanding of its
flock where `counts` says so (R338, R464). Beside it the device is `u`. -/
structure Submits (u t : State) (q : Iss) (i : Instr) (o : PrivOp) (counts : Bool) : Prop where
  quiet : Quiet
    { u with
      privs := kset u.privs u.nextId (o.issuedBy q u)
      ops := t.ops, nextId := u.nextId + 1 } t q
  keep : t.fl q = { u.fl q with pcs := (t.fl q).pcs, parked := (t.fl q).parked }
  goes : GoesOn u t q i
  counted : if counts then ∃ e, kget t.ops u.nextId = some e ∧ e.kind = .priv ∧ e.counts = true
      ∧ e.fold = q.fold ∧ e.flock = q.flock
    else t.ops = u.ops
/-- An operand word of a UE instruction as a number: A, and the parameter words as substituted. -/
def ueA (s : State) (q : Iss) (h : EHdr) (a : USrc) : Nat := (s.uni q h.lit a).toNat
def ueP (s : State) (q : Iss) (p : Param) : Nat := (s.param q p).toNat
/-- The notification that parameter word 3 names is allowed (R247), and where it lies. -/
def noteOk (s : State) (q : Iss) (h : EHdr) : Bool := !s.noteBad (s.fo q) (ueP s q h.p3)
def noted (s : State) (q : Iss) (h : EHdr) (o : PrivOp) : PrivOp :=
  { o with naddr := s.notePlace (s.fo q) (ueP s q h.p3), note := ueP s q h.p3 % 4 }
/-- The eight bytes at `p` are commons bytes of the fold's paddock. -/
def inCommons (s : State) (q : Iss) (p n : Nat) : Bool :=
  selOf p == 0 && !s.commonsBad (s.fo q) p && !s.commonsBad (s.fo q) (p + n - 1)

/-! ### Memory -/

/-- The bytes that a word access puts at an address, lowest first. -/
def cellsOf (a n : Nat) (w : Word) : List (Nat × Byte) :=
  (List.range n).map fun k => (a + k, BitVec.ofNat 8 (w.toNat / 2 ^ (8 * k)))
/-- The bytes that a scratchpad store stores, in order: by Active lane, and in a lane by word. -/
def storedCells (s : State) (q : Iss) (m : Mask) (x : Acc) : List (Nat × Byte) :=
  (lanesOf m).flatMap fun l => ((x.at_ l).zip (x.data l)).flatMap fun p =>
    cellsOf (((s.fo q).place p.1).getD 0) x.bytes p.2
/-- A byte after stores in order: the last one to its address, or what it was. -/
def afterCells (cs : List (Nat × Byte)) (a : Nat) (old : Byte) : Byte :=
  ((cs.reverse.find? fun c => c.1 == a).map Prod.snd).getD old

/-- Every byte of memory is as it was. -/
def SameBytes (s t : State) : Prop := ∀ a, memGet t.mem a = memGet s.mem a

/-- The bytes that stand from an address on. -/
def BytesAt (t : State) (a : Nat) (bs : List Byte) : Prop := ∀ k < bs.length, memGet t.mem (a + k) = bs.getD k 0
/-- Every byte outside a range is as it was. -/
def OnlyBytes (s t : State) (a n : Nat) : Prop := ∀ y, y < a ∨ a + n ≤ y → memGet t.mem y = memGet s.mem y

/-! ### Rounded results (R89, R97 to R100) -/

/-- The magnitude that a pattern without its sign stands for, in units of the format's least subnormal value; a pattern
above the largest finite value stands for what it would be if the exponent had no bound (R97). -/
def FP.mag (f : FP) (b : Nat) : Nat :=
  if b / 2 ^ f.mb = 0 then b else (b % 2 ^ f.mb + 2 ^ f.mb) * 2 ^ (b / 2 ^ f.mb - 1)
/-- The pattern has its sign bit set. -/
def FP.sign (f : FP) (b : Nat) : Bool := b.testBit (f.eb + f.mb)
/-- The pattern without its sign. -/
def FP.abs (f : FP) (b : Nat) : Nat := b % 2 ^ (f.eb + f.mb)
/-- The value of a finite pattern, in units of the least subnormal value. -/
def FP.val (f : FP) (b : Nat) : Int := if f.sign b then -(f.mag (f.abs b) : Int) else f.mag (f.abs b)
/-- The pattern is one of a finite value. -/
def FP.isFinite (f : FP) (b : Nat) : Prop := b < 2 ^ (f.eb + f.mb + 1) ∧ f.abs b ≤ f.maxBits
/-- The sign of a result as the weight that it adds to a pattern. -/
def FP.signed (f : FP) (neg : Bool) (b : Nat) : Nat := (if neg then 2 ^ (f.eb + f.mb) else 0) + b
/-- How far two numbers are apart. -/
def apart (a b : Nat) : Nat := (a - b) + (b - a)

/-- `B` is the number to which a mode rounds the magnitude X/u of a sign, of numbers whose magnitudes are `g B`, which
rise (R97, R98). -/
def Rounded (g : Nat → Nat) (mode : RMode) (neg : Bool) (X u B : Nat) : Prop :=
  match mode with
  | .rne => ∀ C, apart (g B * u) X ≤ apart (g C * u) X ∧
      (apart (g B * u) X = apart (g C * u) X → C = B ∨ B % 2 = 0)
  | .rna => ∀ C, apart (g B * u) X ≤ apart (g C * u) X ∧ (apart (g B * u) X = apart (g C * u) X → C ≤ B)
  | .rtz => g B * u ≤ X ∧ X < g (B + 1) * u
  | .rup => if neg then g B * u ≤ X ∧ X < g (B + 1) * u else X ≤ g B * u ∧ ∀ C < B, g C * u < X
  | .rdn => if neg then X ≤ g B * u ∧ ∀ C < B, g C * u < X else g B * u ≤ X ∧ X < g (B + 1) * u
  | .sr w r => ∃ T, g T * u ≤ X ∧ X < g (T + 1) * u ∧
      B = if 2 ^ w ≤ (X - g T * u) * 2 ^ w / ((g (T + 1) - g T) * u) + r then T + 1 else T
/-- A mode as instructions form it: at most 16 random bits (R98). -/
def RMode.ok : RMode → Prop
  | .sr w r => w ≤ 16 ∧ r < 2 ^ w
  | _ => True
/-- The modes without random bits. -/
def RMode.plain : RMode → Prop
  | .sr _ _ => False
  | _ => True
/-- Where a mode gives infinity for an overflow in the IEEE column of R99. -/
def RMode.overflows (neg : Bool) : RMode → Bool
  | .rtz => false
  | .rup => !neg
  | .rdn => neg
  | _ => true
/-- What R99 delivers for an overflow. -/
def FP.overflow (f : FP) (sat : Bool) (mode : RMode) (neg : Bool) : Nat :=
  if sat && mode.overflows neg then
    match f.kind with
    | .ieee => f.signed neg ((2 ^ f.eb - 1) * 2 ^ f.mb)
    | .e4m3 => 0x7F
    | .finite => f.signed neg f.maxBits
  else f.signed neg f.maxBits
/-- The magnitude X/u, rounded to the precision with an exponent that has no bound below, lies below the least normal
value (R91): in half units, one binade more has the full precision. -/
def Tiny (f : FP) (mode : RMode) (neg : Bool) (X u : Nat) : Prop :=
  ∃ B, Rounded f.mag mode neg (2 * X) u B ∧ B < 2 ^ (f.mb + 1)
/-- A pattern and flags are what Round of R13 and R99 gives for the magnitude X/u, in units of the least subnormal
value, of a sign. `sat`: the IEEE column. -/
def Delivers (f : FP) (sat : Bool) (mode : RMode) (neg : Bool) (X u : Nat) (r : Nat × Flg) : Prop :=
  ∃ B, Rounded f.mag mode neg X u B ∧
    (f.maxBits < B → r = (f.overflow sat mode neg, fOF ||| fNX)) ∧
    (B ≤ f.maxBits → r.1 = f.signed neg B ∧ (f.mag B * u = X → r.2 = 0) ∧
      (f.mag B * u ≠ X → (Tiny f mode neg X u → r.2 = fUF ||| fNX) ∧ (¬ Tiny f mode neg X u → r.2 = fNX)))
/-- An exact sum or product, as an integer over `u`, rounded: an exact 0 has the sign given. -/
def DeliversInt (f : FP) (mode : RMode) (S : Int) (u : Nat) (zneg : Bool) (r : Nat × Flg) : Prop :=
  (S = 0 → r = (f.signed zneg 0, 0)) ∧ (S ≠ 0 → Delivers f true mode (decide (S < 0)) S.natAbs u r)
/-- The order of patterns that are no NaN, with −0 below +0 (R149), and with the two equal (R135). -/
def FP.key (f : FP) (b : Nat) : Int := if f.sign b then -(f.abs b : Int) - 1 else f.abs b
def FP.rank (f : FP) (b : Nat) : Int := if f.sign b then -(f.abs b : Int) else f.abs b
/-- The pattern of an infinity. -/
def FP.infinite (f : FP) (neg : Bool) : Nat := f.signed neg ((2 ^ f.eb - 1) * 2 ^ f.mb)

/-- Element `i` of `w` bits of a word, signed or unsigned, and the word of an integer dot product (R123). -/
def dotElem (w : Nat) (u : Bool) (x : Word) (i : Nat) : Int :=
  if u then ((x >>> (w * i)).setWidth w).toNat else ((x >>> (w * i)).setWidth w).toInt
def dotWord (sat : Bool) (sum : Int) : Word :=
  BitVec.ofInt 32 (if sat then max (-2 ^ 31) (min (2 ^ 31 - 1) sum) else sum)

/-! ### Atomics -/

/-- The bytes of a word access of an atomic as words, before it is performed. -/
def wordsOfMem (g : Nat → Byte) (as : List Nat) : List Word :=
  as.map fun a => BitVec.ofNat 32 (leNat ((List.range 4).map fun k => g (a + k)))
/-- Memory, as bytes by address, after words are stored. -/
def putWords (g : Nat → Byte) (as : List Nat) (ws : List Word) : Nat → Byte :=
  fun y => afterCells ((as.zip ws).flatMap fun p => cellsOf p.1 4 p.2) y (g y)
/-- Memory after the lanes of a list have each, in turn, replaced the words at its addresses by `f old data`. -/
def lanesApply (f : List Word → List Word → List Word) (as : Nat → List Nat) (data : Nat → List Word) :
    List Nat → (Nat → Byte) → Nat → Byte
  | [], g => g
  | l :: ls, g => lanesApply f as data ls (putWords g (as l) (f (wordsOfMem g (as l)) (data l)))
/-- What a compare-and-swap leaves: the data are the compare words and then the swap words (R217). -/
def casNew (old data : List Word) : List Word := if old = data.take old.length then data.drop old.length else old

/-! ### Turns -/

/-- The lanes of a set whose PC is the one given. -/
def group (fl : Flock) (m : Mask) (pc : Nat) : Mask := maskOf fun l => m.getLsbD l && fl.pc l == pc
/-- The lanes of the largest group of a set, or of the one with the lowest PC where several are equally
large (R271). -/
def largestOf (fl : Flock) (m b : Mask) : Prop :=
  ∃ pc, b = group fl m pc ∧ b ≠ 0 ∧ ∀ x, popcount (group fl m x) < popcount b ∨
    popcount (group fl m x) = popcount b ∧ (group fl m x ≠ 0 → pc ≤ x)

end Sys2Proof.Machine
end

