-- ==== Sys2Proof/Certificates/Slice0/Obligations.lean ====
section
/-! DEFINITION. The statements for the provers, from the numbered rules of spec/: encodings, the step,
results of each instruction, traps, memory, engines, the privileged instructions and the events. Where
a statement names a choice of the model, its docstring says so. -/
open Sys2Proof Sys2Proof.Machine

/-! ### Encodings, reset and the step -/

/-- R43 to R60, R78 to R87: the words of every legal instruction decode to it, whatever words follow. -/
def Obligations.DecodeEncode : Prop :=
  ∀ (i : Instr) (rest : List Word), i.legal = true → decode (encode i ++ rest) = some (i, rest)

/-- R61, R78: what decodes is legal, and its words are the only ones that decode to it. -/
def Obligations.EncodeDecode : Prop :=
  ∀ (ws rest : List Word) (i : Instr), decode ws = some (i, rest) → i.legal = true ∧ encode i ++ rest = ws

/-- The invariant of the model's memory (log 2) holds at reset. -/
def Obligations.ResetSound : Prop := Sound State.reset

/-- Every step keeps the canonical form of memory, so that equal memories are equal data (log 2). -/
def Obligations.StepSound : Prop :=
  ∀ s t : State, Sound s → step s = .next t → Sound t

/-- A step in which the schedule issues from a stage is `exec` of the instruction that the words at the
issuing band's PC decode to (R60, R271; the schedule is the model's, log 1), once they have passed the memory-side
cache (R76; what the cache does is the model's, log 72), where the device has started and is not held in reset (R450,
R453), no crook runs wave by wave, and the instruction is no crook beside which something runs (R380, log 74). -/
def Obligations.StepRunsDecoded : Prop :=
  ∀ (s : State) (core stage : Nat) (rest : List Move) (q : Iss) (ws : List Word) (i : Instr) (more : List Word),
    s.agenda = .issue core stage :: rest → s.holdReset = false → s.started = true → s.crooks = [] →
    ({ s with agenda := rest }.attend core stage).issuer = some q →
    ({ s with agenda := rest }.attend core stage).fetchStruck
      (({ s with agenda := rest }.attend core stage).fo q).paddock q.pc = false →
    ({ s with agenda := rest }.attend core stage).fetch
      (({ s with agenda := rest }.attend core stage).fo q).paddock q.pc = some ws →
    decode ws = some (i, more) →
    (isCrook i = false ∨ ({ s with agenda := rest }.attend core stage).crookBeside q = false) →
    step s = exec i (({ s with agenda := rest }.attend core stage).fetchPass q)

/-- What reset leaves (R335, R360): nothing is resident, the control paddock holds core 0.0 to 15.39, every
channel and every cache way, its COMMONS, STREAMS, KEYS, CROOK and DROVER read the whole extent, no tenant holds
anything, and every MIN is 0 and every CAP 1,024. That key slots 1 to 4,095 are EMPTY is the model's choice: R335
states no reset state for them (log 4). -/
def Obligations.ResetLeaves : Prop :=
  State.reset.started = false ∧ State.reset.folds = [] ∧ State.reset.droves = [] ∧
  State.reset.kind 0 = 1 ∧ (∀ p, p ≠ 0 → State.reset.kind p = 0) ∧
  (∀ c < 640, State.reset.holdsCore 0 c = true ∧ ∀ p, p ≠ 0 → State.reset.holdsCore p c = false) ∧
  (∀ d, State.reset.reg 0 0 0x02 d = 2 ^ 32 - 1 ∧ State.reset.reg 0 0 0x03 d = 1024 * 2 ^ 16 ∧
    State.reset.reg 0 0 0x04 d = 256 * 2 ^ 8 ∧ State.reset.reg 0 0 0x05 d = 4096 * 2 ^ 16 ∧
    State.reset.reg 0 0 0x06 d = 2048 * 2 ^ 16 ∧ State.reset.reg 0 0 0x08 d = 32 ∧
    State.reset.ways 0 d = 65535) ∧
  (∀ p d, p ≠ 0 → State.reset.ways p d = 0 ∧
    ∀ r ∈ [0x01, 0x02, 0x03, 0x04, 0x05, 0x06, 0x08], State.reset.reg 0 p r d = 0) ∧
  (∀ p st, State.reset.minOf p st = 0 ∧ State.reset.capOf p st = 1024) ∧
  (∀ v, State.reset.vdValid v = false) ∧
  State.reset.keyLive 0 = true ∧ (∀ k, k ≠ 0 → State.reset.keyLive k = false) ∧
  (∀ p, State.reset.reg 0 p 0x0C 0 = 50 * 65536 + 100) ∧
  (∀ d, State.reset.reg 2 d 0x00 0 = 95 ∧ State.reset.reg 2 d 0x01 0 = 65536) ∧
  (∀ f, (State.reset.flock f 0).fflags = 0)

/-- Words written out from the encodings of 02_instruction_words and 03_opcode_map. -/
def Obligations.DecodeWords : Prop :=
  decode [0x9C063000#32] = some (.rdsr { e := false, k := 0, kn := false, lit := 0 } 3 6, []) ∧
  decode [0x9C8E2000#32] = some (.wrsr { e := false, k := 0, kn := false, lit := 0 } 7 (.s 4), []) ∧
  decode [0xCD8A0000#32] = some (.trap { e := true, k := 0, kn := false, lit := 0 } 5, []) ∧
  decode [0x9D0C0000#32] = some (.rdclk { e := false, k := 0, kn := false, lit := 0 } false 6, [])

/-! ### Integer, logic, shift and bit-field instructions -/

/-- R117: the integer arithmetic instructions compute their results in every Active lane and call WriteQ
(R116); nothing else of the flock, of memory or of the device changes but counters and the turn. -/
def Obligations.IntegerArithmetic : Prop :=
  (∀ h d a b, GivesQ (.iadd h d a b) h d (f2 h a b fun x y => x + y)) ∧
  (∀ h d a b, GivesQ (.isub h d a b) h d (f2 h a b fun x y => x - y)) ∧
  (∀ h d a b, GivesQ (.imul h d a b) h d (f2 h a b fun x y => BitVec.ofNat 32 (x.toNat * y.toNat))) ∧
  (∀ h u d a b, GivesQ (.imulh h u d a b) h d (f2 h a b fun x y =>
    if u then BitVec.ofNat 32 (x.toNat * y.toNat / 2 ^ 32) else BitVec.ofInt 32 (x.toInt * y.toInt / 2 ^ 32))) ∧
  (∀ h d a b c, GivesQ (.imad h d a b c) h d (f3 h a b c fun x y z =>
    BitVec.ofNat 32 (x.toNat * y.toNat + z.toNat))) ∧
  (∀ h u d a b, GivesQ (.iadds h u d a b) h d (f2 h a b fun x y =>
    if u then BitVec.ofNat 32 (min (x.toNat + y.toNat) (2 ^ 32 - 1))
    else BitVec.ofInt 32 (max (-2 ^ 31) (min (2 ^ 31 - 1) (x.toInt + y.toInt))))) ∧
  (∀ h u d a b, GivesQ (.isubs h u d a b) h d (f2 h a b fun x y =>
    if u then BitVec.ofInt 32 (max 0 ((x.toNat : Int) - y.toNat))
    else BitVec.ofInt 32 (max (-2 ^ 31) (min (2 ^ 31 - 1) (x.toInt - y.toInt))))) ∧
  (∀ h u d a b, GivesQ (.imin h u d a b) h d (f2 h a b fun x y =>
    if (if u then x.toNat ≤ y.toNat else x.toInt ≤ y.toInt) then x else y)) ∧
  (∀ h u d a b, GivesQ (.imax h u d a b) h d (f2 h a b fun x y =>
    if (if u then y.toNat ≤ x.toNat else y.toInt ≤ x.toInt) then x else y)) ∧
  (∀ h sat d a, GivesQ (.iabs h sat d a) h d (f1 h a fun x =>
    if sat = true ∧ x = 0x80000000#32 then 0x7FFFFFFF#32 else if x.toInt < 0 then 0 - x else x)) ∧
  (∀ h u d a b, GivesQ (.iabsd h u d a b) h d (f2 h a b fun x y =>
    BitVec.ofNat 32 (if u then (x.toNat : Int) - y.toNat else x.toInt - y.toInt).natAbs))

/-- R118, R119: logic, and shifts by the whole operand or, under `.W`, by its low five bits. -/
def Obligations.LogicAndShift : Prop :=
  (∀ h d a b, GivesQ (.and h d a b) h d (f2 h a b fun x y => x &&& y)) ∧
  (∀ h d a b, GivesQ (.or h d a b) h d (f2 h a b fun x y => x ||| y)) ∧
  (∀ h d a b, GivesQ (.xor h d a b) h d (f2 h a b fun x y => x ^^^ y)) ∧
  (∀ h d a b, GivesQ (.andn h d a b) h d (f2 h a b fun x y => x &&& ~~~y)) ∧
  (∀ h tab d a b c s q, issues s q (.lop3 h tab d a b c) = true → ∃ f : Nat → Word,
    (∀ l, ∀ i < 32, (f l).getLsbD i = tab.testBit (((val s q h a l).getLsbD i).toNat
      + 2 * ((val s q h b l).getLsbD i).toNat + 4 * ((val s q h c l).getLsbD i).toNat)) ∧
    Next (.lop3 h tab d a b c) s fun t => ResultQ s t q (.lop3 h tab d a b c) h d f fun _ => 0) ∧
  (∀ h w d a b, GivesQ (.shl h w d a b) h d (f2 h a b fun x y =>
    x <<< (if w then y.toNat % 32 else y.toNat))) ∧
  (∀ h w d a b, GivesQ (.shr h w d a b) h d (f2 h a b fun x y =>
    x >>> (if w then y.toNat % 32 else y.toNat))) ∧
  (∀ h w d a b, GivesQ (.sar h w d a b) h d (f2 h a b fun x y =>
    BitVec.ofInt 32 (x.toInt / 2 ^ (min (if w then y.toNat % 32 else y.toNat) 32)))) ∧
  (∀ h d a b, GivesQ (.rol h d a b) h d (f2 h a b fun x y =>
    x <<< (y.toNat % 32) ||| x >>> ((32 - y.toNat % 32) % 33)))

/-- R120 to R123: bit counts, bit fields, LEA and the integer dot products. -/
def Obligations.BitsAndDots : Prop :=
  (∀ h d a, GivesQ (.popc h d a) h d (f1 h a fun x =>
    BitVec.ofNat 32 ((List.range 32).filter fun i => x.getLsbD i).length)) ∧
  (∀ h d a s q, issues s q (.clz h d a) = true → ∃ f : Nat → Word,
    (∀ l, (f l).toNat ≤ 32 ∧ (val s q h a l).toNat < 2 ^ (32 - (f l).toNat) ∧
      ((f l).toNat < 32 → 2 ^ (31 - (f l).toNat) ≤ (val s q h a l).toNat)) ∧
    Next (.clz h d a) s fun t => ResultQ s t q (.clz h d a) h d f fun _ => 0) ∧
  (∀ h d a s q, issues s q (.brev h d a) = true → ∃ f : Nat → Word,
    (∀ l, ∀ i < 32, (f l).getLsbD i = (val s q h a l).getLsbD (31 - i)) ∧
    Next (.brev h d a) s fun t => ResultQ s t q (.brev h d a) h d f fun _ => 0) ∧
  (∀ h sx d a b s q, issues s q (.bfx h sx d a b) = true → ∃ f : Nat → Word,
    (∀ l, ∀ lo hi : Nat, (val s q h b l).toNat % 32 = lo → (val s q h b l).toNat / 256 % 32 = hi →
      (hi < lo → f l = 0) ∧
      (lo ≤ hi → ∀ i < 32, (f l).getLsbD i = if i ≤ hi - lo then (val s q h a l).getLsbD (lo + i)
        else sx && (val s q h a l).getLsbD hi)) ∧
    Next (.bfx h sx d a b) s fun t => ResultQ s t q (.bfx h sx d a b) h d f fun _ => 0) ∧
  (∀ h d a b c s q, issues s q (.bfi h d a b c) = true → ∃ f : Nat → Word,
    (∀ l, ∀ lo hi : Nat, (val s q h c l).toNat % 32 = lo → (val s q h c l).toNat / 256 % 32 = hi →
      (hi < lo → f l = val s q h a l) ∧
      (lo ≤ hi → ∀ i < 32, (f l).getLsbD i = if lo ≤ i ∧ i ≤ hi then (val s q h b l).getLsbD (i - lo)
        else (val s q h a l).getLsbD i)) ∧
    Next (.bfi h d a b c) s fun t => ResultQ s t q (.bfi h d a b c) h d f fun _ => 0) ∧
  (∀ h sh d a b, GivesQ (.lea h sh d a b) h d (f2 h a b fun x y =>
    BitVec.ofNat 32 (x.toNat + y.toNat * 2 ^ sh))) ∧
  (∀ h ua ub sat d a b c, GivesQ (.idot4 h ua ub sat d a b c) h d (f3 h a b c fun x y z =>
    dotWord sat (z.toInt + dotElem 8 ua x 0 * dotElem 8 ub y 0 + dotElem 8 ua x 1 * dotElem 8 ub y 1
      + dotElem 8 ua x 2 * dotElem 8 ub y 2 + dotElem 8 ua x 3 * dotElem 8 ub y 3))) ∧
  (∀ h ua ub sat d a b c, GivesQ (.idot2 h ua ub sat d a b c) h d (f3 h a b c fun x y z =>
    dotWord sat (z.toInt + dotElem 16 ua x 0 * dotElem 16 ub y 0 + dotElem 16 ua x 1 * dotElem 16 ub y 1)))

/-! ### Floating point and conversions -/

/-- R148, R149, R153 to R155: where no Active lane raises an enabled flag, the results of the lane
functions with their flags. -/
def Obligations.FloatArithmetic : Prop :=
  (∀ h f r d a b, GivesF (.fadd h f r d a b) h d (f2 h a b fun x y => (faddW f r x y).1)
    fun s q l => (faddW f r (val s q h a l) (val s q h b l)).2) ∧
  (∀ h f r d a b, GivesF (.fsub h f r d a b) h d (f2 h a b fun x y => (fsubW f r x y).1)
    fun s q l => (fsubW f r (val s q h a l) (val s q h b l)).2) ∧
  (∀ h f r d a b, GivesF (.fmul h f r d a b) h d (f2 h a b fun x y => (fmulW f r x y).1)
    fun s q l => (fmulW f r (val s q h a l) (val s q h b l)).2) ∧
  (∀ h f r d a b c, GivesF (.ffma h f r d a b c) h d (f3 h a b c fun x y z => (ffmaW f r x y z).1)
    fun s q l => (ffmaW f r (val s q h a l) (val s q h b l) (val s q h c l)).2) ∧
  (∀ h f d a b, GivesF (.fmin h f d a b) h d (f2 h a b fun x y => (fminW f x y).1)
    fun s q l => (fminW f (val s q h a l) (val s q h b l)).2) ∧
  (∀ h f d a b, GivesF (.fmax h f d a b) h d (f2 h a b fun x y => (fmaxW f x y).1)
    fun s q l => (fmaxW f (val s q h a l) (val s q h b l)).2) ∧
  (∀ h f r d a b, GivesF (.fscale h f r d a b) h d (f2 h a b fun x y => (fscaleW f r x y).1)
    fun s q l => (fscaleW f r (val s q h a l) (val s q h b l)).2) ∧
  (∀ h f d a, GivesF (.ffrac h f d a) h d (f1 h a fun x => (ffracW f x).1)
    fun s q l => (ffracW f (val s q h a l)).2) ∧
  (∀ h f r d a, GivesF (.frint h f r d a) h d (f1 h a fun x => (frintW f r x).1)
    fun s q l => (frintW f r (val s q h a l)).2) ∧
  (∀ h d a, GivesQ (.fclass h d a) h d (f1 h a fclassW)) ∧
  (∀ h sg d a b, GivesQ (.fcopys h sg d a b) h d (f2 h a b fun x y =>
    BitVec.ofNat 32 (x.toNat % 2 ^ 31) ||| (match sg with
      | .copy => y &&& 0x80000000#32
      | .neg => ~~~y &&& 0x80000000#32
      | .xor => (x ^^^ y) &&& 0x80000000#32)))

/-- R150 to R152: the deferred instructions hold their destination pending and their value in an
operation of the flock; their flags are raised at issue. -/
def Obligations.FloatDeferred : Prop :=
  (∀ h f r d a b, GivesD (.fdiv h f r d a b) h d (f2 h a b fun x y => (fdivW f r x y).1)
    fun s q l => (fdivW f r (val s q h a l) (val s q h b l)).2) ∧
  (∀ h f d a, GivesD (.frcp h f d a) h d (f1 h a fun x => (frcpW f x).1)
    fun s q l => (frcpW f (val s q h a l)).2) ∧
  (∀ h f d a, GivesD (.frsq h f d a) h d (f1 h a fun x => (frsqW f x).1)
    fun s q l => (frsqW f (val s q h a l)).2) ∧
  (∀ h f r d a, GivesD (.fsqrt h f r d a) h d (f1 h a fun x => (fsqrtW f r x).1)
    fun s q l => (fsqrtW f r (val s q h a l)).2) ∧
  (∀ h f d a, GivesD (.fexp2 h f d a) h d (f1 h a fun x => (fexp2W f x).1)
    fun s q l => (fexp2W f (val s q h a l)).2) ∧
  (∀ h f d a, GivesD (.flog2 h f d a) h d (f1 h a fun x => (flog2W f x).1)
    fun s q l => (flog2W f (val s q h a l)).2) ∧
  (∀ h f d a, GivesD (.fsin h f d a) h d (f1 h a fun x => (fsinW f x).1)
    fun s q l => (fsinW f (val s q h a l)).2) ∧
  (∀ h f d a, GivesD (.fcos h f d a) h d (f1 h a fun x => (fcosW f x).1)
    fun s q l => (fcosW f (val s q h a l)).2) ∧
  (∀ h f d a, GivesD (.ftanh h f d a) h d (f1 h a fun x => (ftanhW f x).1)
    fun s q l => (ftanhW f (val s q h a l)).2) ∧
  (∀ h f d a b, GivesD (.fexs h f d a b) h d (f2 h a b fun x y => (fexsW f x y).1)
    fun s q l => (fexsW f (val s q h a l) (val s q h b l)).2)

/-- R89 to R91, R97 to R100, R146, R148, R150, R157: every value of a format by its pattern; Round of a finite value
under each mode, with overflow, tininess after rounding and NX as R99 has them, and of NaNs and infinities; the exact
sums, products, quotients and square roots rounded once, zeros with their signs, and the special values; source
modifiers and `.FTZ`. -/
def Obligations.Rounding : Prop :=
  ([fp32, fp16, bf16, e5m2, e4m3, e3m2, e2m3, e2m1].map fun f => (f.maxBits, f.minLsb)) =
    [(0x7F7FFFFF, -149), (0x7BFF, -24), (0x7F7F, -133), (0x7B, -16), (0x7E, -9), (0x1F, -4), (0x1F, -3), (0x7, -1)] ∧
  ([fp32, fp16, bf16, e5m2, e4m3].map FP.nanBits) = [0x7FC00000, 0x7E00, 0x7FC0, 0x7E, 0x7F] ∧
  (∀ f ∈ [fp32, fp16, bf16, e5m2, e4m3, e3m2, e2m3, e2m1], ∀ b < 2 ^ (f.eb + f.mb + 1),
    (f.abs b ≤ f.maxBits → ∃ m e, f.decode b = .fin (f.sign b) m e ∧ f.minLsb ≤ e ∧
      m * 2 ^ (e - f.minLsb).toNat = f.mag (f.abs b)) ∧
    (f.maxBits < f.abs b → f.decode b =
      if f.kind = .ieee ∧ b = f.infinite (f.sign b) then .inf (f.sign b)
      else .nan (decide (f ∈ [fp32, fp16, bf16]) && !b.testBit (f.mb - 1)))) ∧
  (∀ f ∈ [fp32, fp16, bf16, e5m2, e4m3, e3m2, e2m3, e2m1], ∀ (sat : Bool) (mode : RMode),
    (∀ (neg : Bool) (m : Nat) (e : Int), mode.ok → m ≠ 0 → Delivers f sat mode neg (m * 2 ^ (e - f.minLsb).toNat)
      (2 ^ (f.minLsb - e).toNat) (roundFP f sat mode (.fin neg m e))) ∧
    (∀ (neg : Bool) (e : Int), roundFP f sat mode (.fin neg 0 e) = (f.signed neg 0, 0)) ∧
    (∀ sig : Bool, roundFP f sat mode (.nan sig) =
      if f.kind = .finite then (0, fNV) else (f.nanBits, if sig then fNV else 0)) ∧
    (∀ neg : Bool, roundFP f sat mode (.inf neg) =
      if f.kind = .ieee ∧ sat = true then (f.infinite neg, 0)
      else if f.kind = .e4m3 ∧ sat = true then (0x7F, fNV) else (f.signed neg f.maxBits, fNV))) ∧
  (∀ f ∈ [fp32, fp16, bf16], ∀ (mode : RMode) (x y z : Nat), mode.ok → f.isFinite x → f.isFinite y → f.isFinite z →
    DeliversInt f mode (f.val x + f.val y) 1 (if f.sign x = f.sign y then f.sign x else decide (mode = .rdn))
      (addF f mode (f.decode x) (f.decode y)) ∧
    DeliversInt f mode (f.val x - f.val y) 1 (if f.sign x = !f.sign y then f.sign x else decide (mode = .rdn))
      (addF f mode (f.decode x) (f.decode y).neg) ∧
    DeliversInt f mode (f.val x * f.val y) (2 ^ (-f.minLsb).toNat) (f.sign x != f.sign y)
      (mulF f mode (f.decode x) (f.decode y)) ∧
    DeliversInt f mode (f.val x * f.val y + f.val z * 2 ^ (-f.minLsb).toNat) (2 ^ (-f.minLsb).toNat)
      (if (f.sign x != f.sign y) = f.sign z then f.sign z else decide (mode = .rdn))
      (fmaF f mode (f.decode x) (f.decode y) (f.decode z))) ∧
  (∀ f ∈ [fp32, fp16, bf16], ∀ (mode : RMode) (x y z : FV),
    (x.isNan = true ∨ y.isNan = true → addF f mode x y = (f.nanBits, if x.isSig || y.isSig then fNV else 0) ∧
      mulF f mode x y = (f.nanBits, if x.isSig || y.isSig then fNV else 0) ∧
      divF f mode x y = (f.nanBits, if x.isSig || y.isSig then fNV else 0)) ∧
    (x.isNan = true → sqrtF f mode x = (f.nanBits, if x.isSig then fNV else 0)) ∧
    ((x.isInf = true ∧ y.isZero = true ∨ x.isZero = true ∧ y.isInf = true) →
      mulF f mode x y = (f.nanBits, fNV) ∧ fmaF f mode x y z = (f.nanBits, fNV)) ∧
    (¬ (x.isInf = true ∧ y.isZero = true ∨ x.isZero = true ∧ y.isInf = true) →
      x.isNan = true ∨ y.isNan = true ∨ z.isNan = true →
      fmaF f mode x y z = (f.nanBits, if x.isSig || y.isSig || z.isSig then fNV else 0)) ∧
    (∀ a b, x = .inf a → y = .inf b →
      addF f mode x y = (if a = b then (f.infinite a, 0) else (f.nanBits, fNV)) ∧
      mulF f mode x y = (f.infinite (a != b), 0) ∧ divF f mode x y = (f.nanBits, fNV)) ∧
    (∀ a n m e, x = .inf a → y = .fin n m e →
      addF f mode x y = (f.infinite a, 0) ∧ addF f mode y x = (f.infinite a, 0) ∧
      (m ≠ 0 → mulF f mode x y = (f.infinite (a != n), 0) ∧ mulF f mode y x = (f.infinite (n != a), 0)) ∧
      divF f mode x y = (f.infinite (a != n), 0) ∧ divF f mode y x = (f.signed (n != a) 0, 0) ∧
      fmaF f mode y y x = (f.infinite a, 0) ∧
      (m ≠ 0 → ∀ n' m' e', z = .fin n' m' e' → fmaF f mode x y z = (f.infinite (a != n), 0)) ∧
      (m ≠ 0 → ∀ b, z = .inf b → fmaF f mode x y z =
        if (a != n) = b then (f.infinite b, 0) else (f.nanBits, fNV)))) ∧
  (∀ (mode : RMode) (x y : Nat), mode.plain → fp32.isFinite x → fp32.isFinite y →
    (fp32.val y = 0 → divF fp32 mode (fp32.decode x) (fp32.decode y) =
      if fp32.val x = 0 then (fp32.nanBits, fNV) else (fp32.infinite (fp32.sign x != fp32.sign y), fDZ)) ∧
    (fp32.val y ≠ 0 → fp32.val x = 0 →
      divF fp32 mode (fp32.decode x) (fp32.decode y) = (fp32.signed (fp32.sign x != fp32.sign y) 0, 0)) ∧
    (fp32.val y ≠ 0 → fp32.val x ≠ 0 → Delivers fp32 true mode (fp32.sign x != fp32.sign y)
      ((fp32.val x).natAbs * 2 ^ 149) (fp32.val y).natAbs (divF fp32 mode (fp32.decode x) (fp32.decode y))) ∧
    (fp32.val x = 0 → sqrtF fp32 mode (fp32.decode x) = (x, 0)) ∧
    (fp32.val x < 0 → sqrtF fp32 mode (fp32.decode x) = (fp32.nanBits, fNV)) ∧
    (∀ V, fp32.val x * 2 ^ 149 = (V : Int) → V ≠ 0 → ∃ B, sqrtF fp32 mode (fp32.decode x) =
        (B, if fp32.mag B ^ 2 = V then 0 else fNX) ∧
      (mode = .rtz ∨ mode = .rdn → fp32.mag B ^ 2 ≤ V ∧ V < fp32.mag (B + 1) ^ 2) ∧
      (mode = .rup → V ≤ fp32.mag B ^ 2 ∧ fp32.mag (B - 1) ^ 2 < V) ∧
      (mode = .rne ∨ mode = .rna →
        (fp32.mag (B - 1) + fp32.mag B) ^ 2 ≤ 4 * V ∧ 4 * V ≤ (fp32.mag B + fp32.mag (B + 1)) ^ 2))) ∧
  (∀ (mode : RMode), sqrtF fp32 mode (.inf false) = (fp32.infinite false, 0) ∧
    sqrtF fp32 mode (.inf true) = (fp32.nanBits, fNV)) ∧
  (∀ f ∈ [fp32, fp16, bf16], ∀ (ftz ab neg : Bool) (b : Nat) (g : Flg), b < 2 ^ (f.eb + f.mb + 1) →
    readMods f ftz ab neg b = f.signed ((f.sign b && !ab) != neg)
      (if ftz = true ∧ f.abs b < 2 ^ f.mb then 0 else f.abs b) ∧
    ftzRes f ftz (b, g) = if ftz = true ∧ 0 < f.abs b ∧ f.abs b < 2 ^ f.mb then
      (f.signed (f.sign b) 0, g ||| fUF ||| fNX) else (b, g))

/-- R101, R135, R148 to R150, R153, R154, R156, R157, R160 to R166, R205: the lane functions as the rounded values of
their operands as read: the arithmetic, minimum and maximum, comparisons, FSCALE, FFRAC, FRINT and FCLASS, packed
halves and dot products, conversions between formats, expansion, SROUND, and block scales and elements. -/
def Obligations.LaneValues : Prop :=
  (∀ (f : FMods) (r : Rnd) (a b c : Word) (x y z : FV) (w : Nat × Flg → Word × Flg),
    x = fp32.decode (readMods fp32 f.ftz f.aa f.na a.toNat) → y = fp32.decode (readMods fp32 f.ftz f.ab f.nb b.toNat) →
    z = fp32.decode (readMods fp32 f.ftz false f.nc c.toNat) →
    w = (fun p => (BitVec.ofNat 32 (ftzRes fp32 f.ftz p).1, (ftzRes fp32 f.ftz p).2)) →
    faddW f r a b = w (addF fp32 (modeOf r .rne) x y) ∧ fsubW f r a b = w (addF fp32 (modeOf r .rne) x y.neg) ∧
    fmulW f r a b = w (mulF fp32 (modeOf r .rne) x y) ∧ ffmaW f r a b c = w (fmaF fp32 (modeOf r .rne) x y z) ∧
    fdivW f r a b = w (divF fp32 (modeOf r .rne) x y) ∧ fsqrtW f r a = w (sqrtF fp32 (modeOf r .rne) x) ∧
    (∀ n m e, x = .fin n m e → m ≠ 0 → ∃ p, fscaleW f r a b = w p ∧ Delivers fp32 true (modeOf r .rne) n
      (fp32.mag (fp32.abs (readMods fp32 f.ftz f.aa f.na a.toNat)) * 2 ^ b.toInt.toNat) (2 ^ (-b.toInt).toNat) p) ∧
    (∀ n e, x = .fin n 0 e → fscaleW f r a b = w (fp32.signed n 0, 0)) ∧
    (∀ g, x = .nan g → fscaleW f r a b = w (fp32.nanBits, if g then fNV else 0) ∧
      ffracW f a = w (fp32.nanBits, if g then fNV else 0) ∧
      frintW f r a = (BitVec.ofNat 32 fp32.nanBits, if g then fNV else 0)) ∧
    (∀ n, x = .inf n → fscaleW f r a b = w (fp32.infinite n, 0) ∧ ffracW f a = w (fp32.nanBits, fNV) ∧
      frintW f r a = (BitVec.ofNat 32 (fp32.infinite n), 0)) ∧
    (∀ n m e, x = .fin n m e →
      (∃ p, ffracW f a = w (fp32.signed n p, 0) ∧ p < 2 ^ 31 ∧
        fp32.mag p = fp32.mag (fp32.abs (readMods fp32 f.ftz f.aa f.na a.toNat)) % 2 ^ 149) ∧
      (∃ p B, frintW f r a = (BitVec.ofNat 32 (fp32.signed n p), 0) ∧ p < 2 ^ 31 ∧ fp32.mag p = B * 2 ^ 149 ∧
        Rounded id (modeOf r .rne) n (fp32.mag (fp32.abs (readMods fp32 f.ftz f.aa f.na a.toNat))) (2 ^ 149) B))) ∧
  (∀ f ∈ [fp32, fp16, bf16], ∀ (max : Bool) (a b : Nat), a < 2 ^ (f.eb + f.mb + 1) → b < 2 ^ (f.eb + f.mb + 1) →
    minMaxF f max a b =
      if (f.decode a).isNan = true ∧ (f.decode b).isNan = true then
        (f.nanBits, if (f.decode a).isSig || (f.decode b).isSig then fNV else 0)
      else if (f.decode a).isNan = true then (b, if (f.decode a).isSig then fNV else 0)
      else if (f.decode b).isNan = true then (a, if (f.decode b).isSig then fNV else 0)
      else (if max = true then (if f.key a < f.key b then b else a) else if f.key b < f.key a then b else a, 0)) ∧
  (∀ (f : FMods) (a b : Word), ∀ x y, x = readMods fp32 f.ftz f.aa f.na a.toNat →
    y = readMods fp32 f.ftz f.ab f.nb b.toNat →
    fminW f a b = (BitVec.ofNat 32 (minMaxF fp32 false x y).1, (minMaxF fp32 false x y).2) ∧
    fmaxW f a b = (BitVec.ofNat 32 (minMaxF fp32 true x y).1, (minMaxF fp32 true x y).2)) ∧
  (∀ f ∈ [fp32, fp16, bf16], ∀ (c : FCond) (a b : Nat), a < 2 ^ (f.eb + f.mb + 1) → b < 2 ^ (f.eb + f.mb + 1) →
    ((f.decode a).isNan = true ∨ (f.decode b).isNan = true →
      fcondV c (f.decode a) (f.decode b) = (decide (c ∈ [.nan, .equ, .neu, .ltu, .leu, .gtu, .geu]),
        (f.decode a).isSig || (f.decode b).isSig || decide (c ∈ [.lt, .le, .gt, .ge]))) ∧
    ((f.decode a).isNan = false → (f.decode b).isNan = false →
      fcondV c (f.decode a) (f.decode b) = (match c with
        | .eq | .equ => decide (f.rank a = f.rank b)
        | .ne | .neu => decide (f.rank a ≠ f.rank b)
        | .lt | .ltu => decide (f.rank a < f.rank b)
        | .le | .leu => decide (f.rank a ≤ f.rank b)
        | .gt | .gtu => decide (f.rank b < f.rank a)
        | .ge | .geu => decide (f.rank b ≤ f.rank a)
        | .num => true
        | .nan => false, false))) ∧
  (∀ (c : FCond) (bf ftz : Bool) (i : Nat) (a b : Word), ∀ o p : Bool × Bool,
    o = fcondV c (fp32.decode (readMods fp32 ftz false false a.toNat))
      (fp32.decode (readMods fp32 ftz false false b.toNat)) →
    p = fcondV c ((halfFP bf).decode (readMods (halfFP bf) ftz false false (a.toNat / 2 ^ (16 * i) % 2 ^ 16)))
      ((halfFP bf).decode (readMods (halfFP bf) ftz false false (b.toNat / 2 ^ (16 * i) % 2 ^ 16))) →
    fcmpW c ftz a b = (o.1, if o.2 then fNV else 0) ∧ hcmpW bf c ftz i a b = (p.1, if p.2 then fNV else 0)) ∧
  (∀ a : Word, fclassW a = if (fp32.decode a.toNat).isNan = true then (if a.getLsbD 22 then 0x200 else 0x100)
    else if fp32.abs a.toNat = 0x7F800000 then (if a.getLsbD 31 then 0x001 else 0x080)
    else if fp32.abs a.toNat = 0 then (if a.getLsbD 31 then 0x008 else 0x010)
    else if fp32.abs a.toNat < 2 ^ 23 then (if a.getLsbD 31 then 0x004 else 0x020)
    else if a.getLsbD 31 then 0x002 else 0x040) ∧
  (∀ (bf : Bool) (f : FMods) (r : Rnd) (a b c : Word) (g : FP) (x y z : Nat → Nat) (w : Nat × Flg → Nat × Flg),
    g = (if bf then bf16 else fp16) →
    x = (fun i => readMods g f.ftz f.aa f.na (a.toNat / 2 ^ (16 * i) % 2 ^ 16)) →
    y = (fun i => readMods g f.ftz f.ab f.nb (b.toNat / 2 ^ (16 * i) % 2 ^ 16)) →
    z = (fun i => readMods g f.ftz false f.nc (c.toNat / 2 ^ (16 * i) % 2 ^ 16)) → w = ftzRes g f.ftz →
    ∀ (res : Word × Flg) (h : Nat → Nat × Flg),
      (res = hadd2W bf f r a b ∧ h = (fun i => w (addF g (modeOf r .rne) (g.decode (x i)) (g.decode (y i)))) ∨
        res = hmul2W bf f r a b ∧ h = (fun i => w (mulF g (modeOf r .rne) (g.decode (x i)) (g.decode (y i)))) ∨
        res = hfma2W bf f r a b c ∧
          h = (fun i => w (fmaF g (modeOf r .rne) (g.decode (x i)) (g.decode (y i)) (g.decode (z i)))) ∨
        ∃ max, res = hminmax2W bf max f a b ∧ h = fun i => minMaxF g max (x i) (y i)) →
      res.2 = (h 0).2 ||| (h 1).2 ∧ ∀ i < 2, res.1.toNat / 2 ^ (16 * i) % 2 ^ 16 = (h i).1) ∧
  (∀ (mode : RMode) (f g : FP) (xs ys : List Nat) (z : Nat) (ps : List Int) (signs : List Bool),
    (f, g) ∈ [(fp16, fp16), (bf16, bf16), (e4m3, e4m3), (e4m3, e5m2), (e5m2, e4m3), (e5m2, e5m2)] → mode.ok →
    xs.length = ys.length → (∀ x ∈ xs, f.isFinite x) → (∀ y ∈ ys, g.isFinite y) → fp32.isFinite z →
    ps = List.zipWith (fun x y => f.val x * g.val y) xs ys →
    signs = fp32.sign z :: List.zipWith (fun x y => f.sign x != g.sign y) xs ys →
    DeliversInt fp32 mode (ps.foldl (· + ·) 0 * 2 ^ 149 + fp32.val z * 2 ^ (-f.minLsb - g.minLsb).toNat)
      (2 ^ (-f.minLsb - g.minLsb).toNat) (signs.all id || decide (mode = .rdn))
      (dotF mode (xs.map f.decode) (ys.map g.decode) (fp32.decode z))) ∧
  (∀ (mode : RMode) (xs ys : List FV) (z : FV) (ts : List FV), xs.length = ys.length →
    ts = z :: List.zipWith mulX xs ys →
    ((∃ v ∈ z :: xs ++ ys, v.isNan = true) → dotF mode xs ys z =
      (fp32.nanBits, if (z :: xs ++ ys).any FV.isSig then fNV else 0)) ∧
    ((∀ v ∈ z :: xs ++ ys, v.isNan = false) →
      ((∃ p ∈ xs.zip ys, p.1.isInf = true ∧ p.2.isZero = true ∨ p.1.isZero = true ∧ p.2.isInf = true) ∨
        .inf true ∈ ts ∧ .inf false ∈ ts → dotF mode xs ys z = (fp32.nanBits, fNV)) ∧
      ((∀ p ∈ xs.zip ys, ¬ (p.1.isInf = true ∧ p.2.isZero = true ∨ p.1.isZero = true ∧ p.2.isInf = true)) →
        ∀ n, .inf n ∈ ts → .inf (!n) ∉ ts → dotF mode xs ys z = (fp32.infinite n, 0)))) ∧
  (∀ (bf fa fb nc : Bool) (f : FMods) (r : Rnd) (a b c : Word) (x y : Nat → FV) (e : FP), e = (if bf then bf16 else fp16) →
    x = (fun i => e.decode (readMods e f.ftz false f.na (a.toNat / 2 ^ (16 * i) % 2 ^ 16))) →
    y = (fun i => e.decode (readMods e f.ftz false f.nb (b.toNat / 2 ^ (16 * i) % 2 ^ 16))) →
    (∀ p, p = ftzRes fp32 f.ftz (dotF (modeOf r .rne) [x 0, x 1] [y 0, y 1]
      (fp32.decode (readMods fp32 f.ftz false f.nc c.toNat))) → fdot2W bf f r a b c = (BitVec.ofNat 32 p.1, p.2)) ∧
    (∀ p, p = dotF (modeOf r .rne)
      ([0, 1, 2, 3].map fun i => (if fa then e5m2 else e4m3).decode (a.toNat / 2 ^ (8 * i) % 2 ^ 8))
      ([0, 1, 2, 3].map fun i => (if fb then e5m2 else e4m3).decode (b.toNat / 2 ^ (8 * i) % 2 ^ 8))
      (fp32.decode (readMods fp32 false false nc c.toNat)) → fdot4W fa fb nc r a b c = (BitVec.ofNat 32 p.1, p.2))) ∧
  (∀ (lo hi : Int) (mode : RMode), mode.ok → lo ≤ 0 → 0 < hi → -(2 ^ 64 : Int) ≤ lo → hi ≤ 2 ^ 64 →
    (∀ sig, roundInt lo hi mode (.nan sig) = (0, fNV)) ∧
    (∀ n, roundInt lo hi mode (.inf n) = (if n then lo else hi, fNV)) ∧
    (∀ (n : Bool) (m : Nat) (e : Int), ∃ B, Rounded id mode n (m * 2 ^ e.toNat) (2 ^ (-e).toNat) B ∧
      ∀ N : Int, N = (if n then -(B : Int) else B) → roundInt lo hi mode (.fin n m e) =
        if N < lo then (lo, fNV) else if hi < N then (hi, fNV)
        else (N, if B * 2 ^ (-e).toNat = m * 2 ^ e.toNat then 0 else fNX))) ∧
  (∀ (dst src : Fmt) (u sat : Bool) (mode : RMode) (b : Nat), dst ≠ .lut4 → src ≠ .lut4 →
    (∀ f g, fpOf dst = some f → fpOf src = some g → convElem dst src u sat mode b =
      roundFP f (sat || f.kind == .ieee && decide (g.eb ≤ f.eb) && decide (g.mb ≤ f.mb)) mode
        (g.decode (b % 2 ^ (g.eb + g.mb + 1)))) ∧
    (∀ f, ∀ x : Int, fpOf dst = some f → fpOf src = none →
      x = (if u then ((b % 2 ^ src.width : Nat) : Int) else (BitVec.ofNat src.width b).toInt) →
      convElem dst src u sat mode b = roundFP f sat mode (.fin (decide (x < 0)) x.natAbs 0)) ∧
    (∀ g, ∀ r : Int × Flg, fpOf dst = none → fpOf src = some g →
      r = roundInt (if u then 0 else -((2 : Int) ^ (dst.width - 1)))
        (if u then (2 : Int) ^ dst.width - 1 else (2 : Int) ^ (dst.width - 1) - 1) mode
        (g.decode (b % 2 ^ (g.eb + g.mb + 1))) →
      convElem dst src u sat mode b = ((BitVec.ofInt dst.width r.1).toNat, r.2)) ∧
    (∀ x lo hi : Int, fpOf dst = none → fpOf src = none →
      x = (if u then ((b % 2 ^ src.width : Nat) : Int) else (BitVec.ofNat src.width b).toInt) →
      lo = (if u then 0 else -((2 : Int) ^ (dst.width - 1))) →
      hi = (if u then (2 : Int) ^ dst.width - 1 else (2 : Int) ^ (dst.width - 1) - 1) →
      convElem dst src u sat mode b = ((BitVec.ofInt dst.width
        (if sat = true ∨ src.width ≤ dst.width then x else max lo (min hi x))).toNat, 0))) ∧
  (∀ (dst src : Fmt) (u : Bool) (sl : DWord) (r : Rnd) (a b c : Word) (mode : Nat → Nat → RMode), dst.isInt = false ∨ u = true →
    mode = (fun w i => if r = .dflt then slotMode sl else if r = .sr then .sr w (c.toNat / 2 ^ (w * i) % 2 ^ w)
      else modeOf r .rne) →
    (∀ e, e = convElem dst src u (slotSat sl) (mode 16 0) a.toNat → cvtW dst src u sl r a c = (BitVec.ofNat 32 e.1, e.2)) ∧
    (∀ e : Nat → Nat × Flg, e = (fun i => convElem dst src u (slotSat sl) (mode 16 i) (if i = 0 then a else b).toNat) →
      dst.width ≤ 16 → (cvt2W dst src u sl r a b c).2 = (e 0).2 ||| (e 1).2 ∧
      ∀ k, k = (if dst.width = 16 then 16 else if dst.width = 4 then 4 else 8) →
        (cvt2W dst src u sl r a b c).1.toNat = (e 0).1 + (e 1).1 * 2 ^ k) ∧
    (∀ e : Nat → Nat × Flg, e = (fun i => convElem dst src u (slotSat sl) (mode 8 i)
        ((if i < 2 then a else b).toNat / 2 ^ (16 * (i % 2)) % 2 ^ 16)) →
      dst.width ≤ 8 → (cvt4W dst src u sl r a b c).2 = (e 0).2 ||| (e 1).2 ||| (e 2).2 ||| (e 3).2 ∧
      ∀ k, k = (if dst.width = 4 then 4 else 8) →
        (cvt4W dst src u sl r a b c).1.toNat =
          (e 0).1 + (e 1).1 * 2 ^ k + (e 2).1 * 2 ^ (2 * k) + (e 3).1 * 2 ^ (3 * k))) ∧
  (∀ (dst src : Fmt) (sl : DWord) (r : Rnd) (a c : Word), dst.isInt = true → fpOf dst = none → dst ≠ .lut4 →
    (cvtW dst src false sl r a c).1 = (BitVec.ofNat dst.width (convElem dst src false (slotSat sl)
      (if r = .dflt then slotMode sl else modeOf r (.sr 16 (c.toNat % 2 ^ 16))) a.toNat).1).signExtend 32) ∧
  (∀ (t : Fmt) (b : Nat), t ≠ .lut4 →
    (fpOf t = none → widenElem t b = ((BitVec.ofNat t.width b).signExtend 32, 0)) ∧
    (∀ f, fpOf t = some f → ∀ x, x = b % 2 ^ (f.eb + f.mb + 1) →
      (∀ g, f.decode x = .nan g → widenElem t b = (0x7FC00000, if g then fNV else 0)) ∧
      (∀ n, f.decode x = .inf n → widenElem t b = (BitVec.ofNat 32 (fp32.infinite n), 0)) ∧
      (f.abs x ≤ f.maxBits → ∃ p, widenElem t b = (BitVec.ofNat 32 (fp32.signed (f.sign x) p), 0) ∧ p ≤ 0x7F7FFFFF ∧
        fp32.mag p = f.mag (f.abs x) * 2 ^ (f.minLsb + 149).toNat))) ∧
  (∀ (lut : List Byte) (c : Nat), (c < 16 → expandCode .lut4 lut c = (lut.getD c 0).toNat) ∧
    (∀ t f, (t, f) ∈ [(Fmt.e2m1, e2m1), (.e3m2, e3m2), (.e2m3, e2m3)] → c < 2 ^ (f.eb + f.mb + 1) →
      e4m3.isFinite (expandCode t lut c) ∧ e4m3.sign (expandCode t lut c) = f.sign c ∧
      e4m3.mag (e4m3.abs (expandCode t lut c)) = f.mag (f.abs c) * 2 ^ (f.minLsb + 9).toNat) ∧
    (c < 16 → e4m3.isFinite (expandCode .int4 lut c) ∧
      e4m3.val (expandCode .int4 lut c) = (BitVec.ofNat 4 c).toInt * 2 ^ 9)) ∧
  (∀ (t : Fmt) (f : FP) (sl : DWord) (r : Rnd) (a c : Word) (mode : RMode) (p : Nat × Flg), fpOf t = some f →
    mode = (if r = .dflt then slotMode sl else modeOf r (.sr 16 (c.toNat % 2 ^ 16))) →
    p = roundFP f (slotSat sl) mode (fp32.decode a.toNat) →
    sroundW t sl r a c = ((widenElem t p.1).1, p.2)) ∧
  (∀ (t : Fmt) (bs : List Nat) (x : Int), (∀ b ∈ bs, b < 2 ^ 32) →
    x = (match t with | .e4m3 => 8 | .e5m2 => 15 | .e3m2 => 4 | _ => 2) →
    ((∃ b ∈ bs, fp32.maxBits < fp32.abs b) → scaleOf t (bs.map fp32.decode) = 0xFF) ∧
    ((∀ b ∈ bs, fp32.abs b = 0) → scaleOf t (bs.map fp32.decode) = 0) ∧
    ((∀ b ∈ bs, fp32.abs b ≤ fp32.maxBits) → ∀ m, (∃ b ∈ bs, fp32.mag (fp32.abs b) = m) → m ≠ 0 →
      (∀ b ∈ bs, fp32.mag (fp32.abs b) ≤ m) →
      (scaleOf t (bs.map fp32.decode) : Int) = min (max ((Nat.log2 m : Int) - 149 - x) (-127)) 127 + 127)) ∧
  (∀ (t : Fmt) (f : FP) (sl : DWord) (r : Rnd) (scale : Nat) (a c : Word) (mode : RMode), fpOf t = some f →
    mode = (if r = .dflt then slotMode sl else modeOf r (.sr 16 (c.toNat % 2 ^ 16))) →
    fp32.abs a.toNat ≤ fp32.maxBits → scale < 255 →
    (fp32.abs a.toNat = 0 → sqzElem t sl r scale a c = (f.signed (fp32.sign a.toNat) 0, 0)) ∧
    (fp32.abs a.toNat ≠ 0 → Delivers f (slotSat sl) mode (fp32.sign a.toNat)
      (fp32.mag (fp32.abs a.toNat) * 2 ^ (-22 - (scale : Int) - f.minLsb).toNat)
      (2 ^ (22 + (scale : Int) + f.minLsb).toNat) (sqzElem t sl r scale a c)))

/-- R156, R157: packed halves and the floating-point dot products; constants in packed positions are
halves (R52). -/
def Obligations.PackedHalves : Prop :=
  (∀ h bf f r d a b, GivesF (.hadd2 h bf f r d a b) h d
    (fun s q l => (hadd2W bf f r (hval s q h bf a l) (hval s q h bf b l)).1)
    fun s q l => (hadd2W bf f r (hval s q h bf a l) (hval s q h bf b l)).2) ∧
  (∀ h bf f r d a b, GivesF (.hmul2 h bf f r d a b) h d
    (fun s q l => (hmul2W bf f r (hval s q h bf a l) (hval s q h bf b l)).1)
    fun s q l => (hmul2W bf f r (hval s q h bf a l) (hval s q h bf b l)).2) ∧
  (∀ h bf f r d a b c, GivesF (.hfma2 h bf f r d a b c) h d
    (fun s q l => (hfma2W bf f r (hval s q h bf a l) (hval s q h bf b l) (hval s q h bf c l)).1)
    fun s q l => (hfma2W bf f r (hval s q h bf a l) (hval s q h bf b l) (hval s q h bf c l)).2) ∧
  (∀ h bf f d a b, GivesF (.hmin2 h bf f d a b) h d
    (fun s q l => (hminmax2W bf false f (hval s q h bf a l) (hval s q h bf b l)).1)
    fun s q l => (hminmax2W bf false f (hval s q h bf a l) (hval s q h bf b l)).2) ∧
  (∀ h bf f d a b, GivesF (.hmax2 h bf f d a b) h d
    (fun s q l => (hminmax2W bf true f (hval s q h bf a l) (hval s q h bf b l)).1)
    fun s q l => (hminmax2W bf true f (hval s q h bf a l) (hval s q h bf b l)).2) ∧
  (∀ h bf f r d a b c, GivesF (.fdot2 h bf f r d a b c) h d
    (fun s q l => (fdot2W bf f r (hval s q h bf a l) (hval s q h bf b l) (val s q h c l)).1)
    fun s q l => (fdot2W bf f r (hval s q h bf a l) (hval s q h bf b l) (val s q h c l)).2) ∧
  (∀ h fa fb nc r d a b c, GivesF (.fdot4 h fa fb nc r d a b c) h d
    (f3 h a b c fun x y z => (fdot4W fa fb nc r x y z).1)
    fun s q l => (fdot4W fa fb nc r (val s q h a l) (val s q h b l) (val s q h c l)).2)

/-- R158 to R166: conversions under the format slots of the drove, and the block operations over the
Active lanes. XPAND reads its table only from chunks that the threads own; that it waits while an earlier access,
acquire or fence would hold an LDS of the band there is the model's reading of R162 and R202, which do not say that
XPAND waits (log 18). A table word that an error has struck raises ECC for the Active lanes (R447). -/
def Obligations.Conversions : Prop :=
  (∀ h dst src u r sl d a c, GivesF (.cvt h dst src u r sl d a c) h d
    (fun s q l => (cvtW dst src u (s.slotVal q sl) r (val s q h a l) (randOf (s.fl q) h c l)).1)
    fun s q l => (cvtW dst src u (s.slotVal q sl) r (val s q h a l) (randOf (s.fl q) h c l)).2) ∧
  (∀ h dst src u r sl d a b c, GivesF (.cvt2 h dst src u r sl d a b c) h d
    (fun s q l => (cvt2W dst src u (s.slotVal q sl) r (val s q h a l) (val s q h b l)
      (randOf (s.fl q) h c l)).1)
    fun s q l => (cvt2W dst src u (s.slotVal q sl) r (val s q h a l) (val s q h b l)
      (randOf (s.fl q) h c l)).2) ∧
  (∀ h dst src u r sl d a b c, GivesF (.cvt4 h dst src u r sl d a b c) h d
    (fun s q l => (cvt4W dst src u (s.slotVal q sl) r (val s q h a l) (val s q h b l)
      (randOf (s.fl q) h c l)).1)
    fun s q l => (cvt4W dst src u (s.slotVal q sl) r (val s q h a l) (val s q h b l)
      (randOf (s.fl q) h c l)).2) ∧
  (∀ h fmt hi d a, GivesF (.unpk2 h fmt hi d a) h d (f1 h a fun x => (unpk2W fmt hi x).1)
    fun s q l => (unpk2W fmt hi (val s q h a l)).2) ∧
  (∀ h fmt ix d a, GivesF (.unpk4 h fmt ix d a) h d (f1 h a fun x => (unpk4W fmt ix x).1)
    fun s q l => (unpk4W fmt ix (val s q h a l)).2) ∧
  (∀ h b hi sl d a s q, issues s q (.xpand h b hi sl d a) = true → xpandTrap s q b sl = none →
    (s.xpandHeld q b sl = false →
      ((s.fl q).active h q.lanes ≠ 0 → xpandSrc s q b sl = .lut4 → xpandStruck s q sl = false) →
      xpandWatch s q b sl ((s.fl q).active h q.lanes) = 0 →
      Next (.xpand h b hi sl d a) s fun t => ResultQ s t q (.xpand h b hi sl d a) h d
        (fun l => xpandW (xpandSrc s q b sl) hi (xpandLut s q sl) (val s q h a l)) fun _ => 0) ∧
    (s.xpandHeld q b sl = true → exec (.xpand h b hi sl d a) s = .next s) ∧
    (s.xpandHeld q b sl = false → (s.fl q).active h q.lanes ≠ 0 → xpandSrc s q b sl = .lut4 →
      xpandStruck s q sl = true →
      exec (.xpand h b hi sl d a) s = .next (s.trapAt q cEcc ((s.fl q).active h q.lanes) false))) ∧
  (∀ h fmt r sl d a c, GivesF (.sround h fmt r sl d a c) h d
    (fun s q l => (sroundW fmt (s.slotVal q sl) r (val s q h a l) (randOf (s.fl q) h c l)).1)
    fun s q l => (sroundW fmt (s.slotVal q sl) r (val s q h a l) (randOf (s.fl q) h c l)).2) ∧
  (∀ h f4 sl d a, GivesF (.scaleof h f4 sl d a) h d
    (fun s q _ => BitVec.ofNat 32 (blockScale s q h a
      (if f4 then .e2m1 else (slotDfmt (s.slotVal q sl)).getD .e4m3) ((s.fl q).active h q.lanes)))
    fun s q l => scaleNV s q h a l) ∧
  (∀ h r sl d a c, GivesF (.sqz4 h r sl d a c) h d
    (fun s q l => (sqzLane h .e2m1 8 r sl a c (blockScale s q h a .e2m1 ((s.fl q).active h q.lanes)) s q
      ((s.fl q).active h q.lanes) l).1)
    fun s q l => (sqzLane h .e2m1 8 r sl a c (blockScale s q h a .e2m1 ((s.fl q).active h q.lanes)) s q
      ((s.fl q).active h q.lanes) l).2) ∧
  (∀ h r sl d a c, GivesF (.sqz8 h r sl d a c) h d
    (fun s q l => (sqzLane h ((slotDfmt (s.slotVal q sl)).getD .e4m3) 4 r sl a c (blockScale s q h a
      ((slotDfmt (s.slotVal q sl)).getD .e4m3) ((s.fl q).active h q.lanes)) s q
      ((s.fl q).active h q.lanes) l).1)
    fun s q l => (sqzLane h ((slotDfmt (s.slotVal q sl)).getD .e4m3) 4 r sl a c (blockScale s q h a
      ((slotDfmt (s.slotVal q sl)).getD .e4m3) ((s.fl q).active h q.lanes)) s q
      ((s.fl q).active h q.lanes) l).2)

/-! ### Moves, lane exchange, indexed access and predicates -/

/-- R124 to R128, R137: moves, lane exchange within segments of 32 over 2 to the W lanes, votes, matches,
byte permutation and PPACK. -/
def Obligations.MovesAndExchange : Prop :=
  (∀ h d a, GivesQ (.mov h d a) h d (f1 h a id)) ∧
  (∀ h neg d a b p, GivesQ (.sel h neg d a b p) h d fun s q l =>
    if (s.fl q).getP p l != neg then val s q h a l else val s q h b l) ∧
  (∀ h w z d a b, GivesQ (.shfl h w z d a b) h d (exch h z a fun s q l =>
    l - l % (32 / 2 ^ w) + (val s q h b l).toNat % (32 / 2 ^ w))) ∧
  (∀ h w z d a b, GivesQ (.shflu h w z d a b) h d (exch h z a fun s q l =>
    l - l % (32 / 2 ^ w)
      + (l % (32 / 2 ^ w) + 32 / 2 ^ w - (val s q h b l).toNat % (32 / 2 ^ w)) % (32 / 2 ^ w))) ∧
  (∀ h w z d a b, GivesQ (.shfld h w z d a b) h d (exch h z a fun s q l =>
    l - l % (32 / 2 ^ w)
      + (l % (32 / 2 ^ w) + (val s q h b l).toNat % (32 / 2 ^ w)) % (32 / 2 ^ w))) ∧
  (∀ h w z d a b, GivesQ (.shflx h w z d a b) h d (exch h z a fun s q l =>
    l - l % (32 / 2 ^ w) + (l % (32 / 2 ^ w) ^^^ (val s q h b l).toNat % (32 / 2 ^ w)))) ∧
  (∀ h mode neg d p s q, issues s q (.vote h mode neg d p) = true → ∀ (yes : Nat → Bool),
    yes = (fun j => act s q h j && ((s.fl q).getP p j != neg)) → ∃ w : Word,
    (mode = .ballot → ∀ j < 32, w.getLsbD j = yes j) ∧
    (mode = .count → w.toNat = ((List.range 32).filter yes).length) ∧
    (mode = .first → w.toNat = ((List.range 32).find? yes).getD 32) ∧
    (mode = .last → w.toNat = ((List.range 32).reverse.find? yes).getD 32) ∧
    (mode = .any → w = if (List.range 32).any yes then 1 else 0) ∧
    (mode = .all → w = if (List.range 32).all fun j => !act s q h j || yes j then 1 else 0) ∧
    (mode = .agree → w = if ((List.range 32).all fun j => !act s q h j || yes j) || !(List.range 32).any yes
      then 1 else 0) ∧
    Next (.vote h mode neg d p) s fun t => ResultQ s t q (.vote h mode neg d p) h d (fun _ => w) fun _ => 0) ∧
  (∀ h mode d a s q, issues s q (.matchv h mode d a) = true → ∃ f : Nat → Word,
    (∀ l < 32, act s q h l = true → ∀ (e : Nat → Bool),
      e = (fun j => act s q h j && val s q h a j == val s q h a l) →
      (mode = .eq → ∀ j < 32, (f l).getLsbD j = e j) ∧
      (mode = .rank → (f l).toNat = ((List.range l).filter e).length) ∧
      (mode = .lead → some (f l).toNat = (List.range 32).find? e) ∧
      (mode = .uni → ∀ j < 32, (f l).getLsbD j =
        (act s q h j && (List.range 32).all fun k => !act s q h k || e k))) ∧
    Next (.matchv h mode d a) s fun t => ResultQ s t q (.matchv h mode d a) h d f fun _ => 0) ∧
  (∀ h d a b c s q, issues s q (.prmt h d a b c) = true → ∃ f : Nat → Word,
    (∀ l, ∀ i < 4, ∀ k < 8, ∀ (ctl : Word) (src bit : Nat), ctl = val s q h c l >>> (8 * i) → src = ctl.toNat % 8 →
      bit = (if ctl.getLsbD 5 then 7 - k else k) →
      (f l).getLsbD (8 * i + k) = (!ctl.getLsbD 3 && (ctl.getLsbD 4 !=
        if src < 4 then (val s q h a l).getLsbD (8 * src + bit) else (val s q h b l).getLsbD (8 * (src - 4) + bit)))) ∧
    Next (.prmt h d a b c) s fun t => ResultQ s t q (.prmt h d a b c) h d f fun _ => 0) ∧
  (∀ h d f s q, issues s q (.ppack h d f) = true → ∃ g : Nat → Word,
    (∀ l, ∀ i < 32, (g l).getLsbD i = (s.fl q).getP (f + i) l) ∧
    Next (.ppack h d f) s fun t => ResultQ s t q (.ppack h d f) h d g fun _ => 0)

/-- R131: RDX reads, and WRX writes without a push, the register of the window that each Active lane's
index selects. An index outside the window in some Active lane raises INDEX for the lanes that have one; an
index that selects a pending register raises UNSETTLED for the band; a word that an error has struck raises ECC for
the lanes that read it (R447; its place after the other two is the model's, log 55). -/
def Obligations.IndexedAccess : Prop :=
  (∀ h len d n b s q, issues s q (.rdx h len d n b) = true →
    (∀ l < 32, act s q h l = true → (val s q h b l).toNat < len ∧
      (s.fl q).pendV.getLsbD (n + (val s q h b l).toNat) = false) →
    (s.struckOf q (.rdx h len d n b) = 0 →
      Next (.rdx h len d n b) s fun t => ResultQ s t q (.rdx h len d n b) h d
        (fun l => (s.fl q).getV (n + (val s q h b l).toNat) l) fun _ => 0) ∧
    (s.struckOf q (.rdx h len d n b) ≠ 0 →
      exec (.rdx h len d n b) s = .next (s.trapAt q cEcc (s.struckOf q (.rdx h len d n b)) false))) ∧
  (∀ h len n a b s q, issues s q (.wrx h len n a b) = true →
    (∀ l < 32, act s q h l = true → (val s q h b l).toNat < len ∧
      (s.fl q).pendV.getLsbD (n + (val s q h b l).toNat) = false) →
    (s.struckOf q (.wrx h len n a b) = 0 →
      Next (.wrx h len n a b) s fun t => ResultV s t q (.wrx h len n a b) fun r l =>
        if act s q h l = true ∧ n + (val s q h b l).toNat = r then some (val s q h a l) else none) ∧
    (s.struckOf q (.wrx h len n a b) ≠ 0 →
      exec (.wrx h len n a b) s = .next (s.trapAt q cEcc (s.struckOf q (.wrx h len n a b)) false))) ∧
  (∀ (h : LHdr) (len n : Nat) (d : LDst) (a b : LSrc) (s : State) (q : Iss) (i : Instr),
    i = .rdx h len d n b ∨ i = .wrx h len n a b → issues s q i = true →
    ((∃ l < 32, act s q h l = true ∧ len ≤ (val s q h b l).toNat) →
      exec i s = .next (s.trapAt q cIndex
        (maskOf fun l => act s q h l && decide (len ≤ (val s q h b l).toNat)) false)) ∧
    ((∀ l < 32, act s q h l = true → (val s q h b l).toNat < len) →
      (∃ l < 32, act s q h l = true ∧ (s.fl q).pendV.getLsbD (n + (val s q h b l).toNat) = true) →
      exec i s = .next (s.trapAt q cUnsettled q.lanes false)))

/-- R129, R133 to R137, R219: the instructions that write predicates; p0 keeps reading true (R115). -/
def Obligations.Predicates : Prop :=
  (∀ h p s q, issues s q (.elect h p) = true →
    Next (.elect h p) s fun t => ResultP s t q (.elect h p) h
      (fun n l => if n = p then some (decide (∀ j < l, act s q h j = false)) else none) fun _ => 0) ∧
  (∀ h cond cc p a b s q, issues s q (.icmp h cond cc p a b) = true →
    Next (.icmp h cond cc p a b) s fun t => ResultP s t q (.icmp h cond cc p a b) h
      (fun n l => if n = p then some (combine cc.comb (match cond with
          | .eq => val s q h a l == val s q h b l
          | .ne => val s q h a l != val s q h b l
          | .lt => (val s q h a l).slt (val s q h b l)
          | .le => (val s q h a l).sle (val s q h b l)
          | .gt => (val s q h b l).slt (val s q h a l)
          | .ge => (val s q h b l).sle (val s q h a l)
          | .ltu => (val s q h a l).ult (val s q h b l)
          | .leu => (val s q h a l).ule (val s q h b l)
          | .gtu => (val s q h b l).ult (val s q h a l)
          | .geu => (val s q h b l).ule (val s q h a l))
        ((s.fl q).getP cc.c l != cc.cn)) else none) fun _ => 0) ∧
  (∀ h cond cc ftz p a b s q, issues s q (.fcmp h cond cc ftz p a b) = true →
    trapLanes (s.fl q) ((s.fl q).active h q.lanes)
      (fun l => (fcmpW cond ftz (val s q h a l) (val s q h b l)).2) = 0 →
    Next (.fcmp h cond cc ftz p a b) s fun t => ResultP s t q (.fcmp h cond cc ftz p a b) h
      (fun n l => if n = p then some (combine cc.comb (fcmpW cond ftz (val s q h a l) (val s q h b l)).1
        ((s.fl q).getP cc.c l != cc.cn)) else none)
      fun l => (fcmpW cond ftz (val s q h a l) (val s q h b l)).2) ∧
  (∀ h bf cond cc ftz p a b s q, issues s q (.hcmp2 h bf cond cc ftz p a b) = true →
    trapLanes (s.fl q) ((s.fl q).active h q.lanes) (fun l =>
      (hcmpW bf cond ftz 0 (hval s q h bf a l) (hval s q h bf b l)).2 |||
      (hcmpW bf cond ftz 1 (hval s q h bf a l) (hval s q h bf b l)).2) = 0 →
    Next (.hcmp2 h bf cond cc ftz p a b) s fun t => ResultP s t q (.hcmp2 h bf cond cc ftz p a b) h
      (fun n l => if n = p + 1 then
          some (combine cc.comb (hcmpW bf cond ftz 1 (hval s q h bf a l) (hval s q h bf b l)).1
            ((s.fl q).getP cc.c l != cc.cn))
        else if n = p then
          some (combine cc.comb (hcmpW bf cond ftz 0 (hval s q h bf a l) (hval s q h bf b l)).1
            ((s.fl q).getP cc.c l != cc.cn))
        else none)
      fun l => (hcmpW bf cond ftz 0 (hval s q h bf a l) (hval s q h bf b l)).2 |||
        (hcmpW bf cond ftz 1 (hval s q h bf a l) (hval s q h bf b l)).2) ∧
  (∀ h tab d a b c s q, issues s q (.plop h tab d a b c) = true →
    Next (.plop h tab d a b c) s fun t => ResultP s t q (.plop h tab d a b c) h
      (fun n l => if n = d then some (tab.testBit (((s.fl q).getP a l).toNat
        + 2 * ((s.fl q).getP b l).toNat + 4 * ((s.fl q).getP c l).toNat)) else none) fun _ => 0) ∧
  (∀ h count f a s q, issues s q (.punpk h count f a) = true →
    Next (.punpk h count f a) s fun t => ResultP s t q (.punpk h count f a) h
      (fun n l => if f ≤ n ∧ n < f + count then some ((val s q h a l).getLsbD (n - f)) else none)
      fun _ => 0) ∧
  (∀ h p a b s q, issues s q (.chko h p a b) = true →
    (∀ l < 32, act s q h l = true → (val s q h b l).toNat = 0 ∨
      (val s q h a l).toNat / 512 + (val s q h b l).toNat ≤ 64 * (s.fo q).segs.length) →
    Next (.chko h p a b) s fun t => ResultP s t q (.chko h p a b) h
      (fun n l => if n = p then some (decide (∀ ch < 64 * (s.fo q).segs.length,
        (val s q h a l).toNat / 512 ≤ ch → ch < (val s q h a l).toNat / 512 + (val s q h b l).toNat →
        s.engineOwned (s.fo q) ch = false)) else none) fun _ => 0)

/-! ### Uniform instructions -/

/-- R138 to R142: the uniform group writes s registers and uniform predicates at once, where the guard
holds; k0 keeps reading true. -/
def Obligations.UniformArithmetic : Prop :=
  (∀ h d a b, GivesS (.sadd h d a b) h d (u2 h a b fun x y => x + y)) ∧
  (∀ h d a b, GivesS (.ssub h d a b) h d (u2 h a b fun x y => x - y)) ∧
  (∀ h d a b, GivesS (.smul h d a b) h d (u2 h a b fun x y => BitVec.ofNat 32 (x.toNat * y.toNat))) ∧
  (∀ h u d a b, GivesS (.smulh h u d a b) h d (u2 h a b fun x y =>
    if u then BitVec.ofNat 32 (x.toNat * y.toNat / 2 ^ 32) else BitVec.ofInt 32 (x.toInt * y.toInt / 2 ^ 32))) ∧
  (∀ h d a b, GivesS (.smad h d a b) h d fun s q =>
    BitVec.ofNat 32 ((uop s q h a).toNat * (uop s q h b).toNat + ((s.fl q).getS d).toNat)) ∧
  (∀ h d a b, GivesS (.sand h d a b) h d (u2 h a b fun x y => x &&& y)) ∧
  (∀ h d a b, GivesS (.sor h d a b) h d (u2 h a b fun x y => x ||| y)) ∧
  (∀ h d a b, GivesS (.sxor h d a b) h d (u2 h a b fun x y => x ^^^ y)) ∧
  (∀ h d a b, GivesS (.sshl h d a b) h d (u2 h a b fun x y => x <<< y.toNat)) ∧
  (∀ h d a b, GivesS (.sshr h d a b) h d (u2 h a b fun x y => x >>> y.toNat)) ∧
  (∀ h d a b, GivesS (.ssar h d a b) h d (u2 h a b fun x y =>
    BitVec.ofInt 32 (x.toInt / 2 ^ (min y.toNat 32)))) ∧
  (∀ h u d a b, GivesS (.smin h u d a b) h d (u2 h a b fun x y =>
    if (if u then x.toNat ≤ y.toNat else x.toInt ≤ y.toInt) then x else y)) ∧
  (∀ h u d a b, GivesS (.smax h u d a b) h d (u2 h a b fun x y =>
    if (if u then y.toNat ≤ x.toNat else y.toInt ≤ x.toInt) then x else y)) ∧
  (∀ h d a b, GivesS (.ssel h d a b) h d fun s q =>
    if (s.fl q).getS d = 0 then uop s q h b else uop s q h a) ∧
  (∀ h d a, GivesS (.smov h d a) h d (u1 h a id)) ∧
  (∀ h x8 d a b, GivesS (.slea h x8 d a b) h d (u2 h a b fun x y =>
    BitVec.ofNat 32 (x.toNat + (if x8 then 8 else 4) * y.toNat))) ∧
  (∀ e d imm s q, issues s q (.sli e d imm) = true →
    Next (.sli e d imm) s fun t => ResultS s t q (.sli e d imm) true
      (fun n => if n = d then some ((BitVec.ofNat 17 imm).signExtend 32) else none) fun _ => none) ∧
  (∀ e d imm s q, issues s q (.slih e d imm) = true →
    Next (.slih e d imm) s fun t => ResultS s t q (.slih e d imm) true
      (fun n => if n = d then some (BitVec.ofNat 17 imm ++ ((s.fl q).getS d).extractLsb' 0 15) else none)
      fun _ => none) ∧
  (∀ h d a b s q, issues s q (.sadd64 h d a b) = true →
    Next (.sadd64 h d a b) s fun t => ResultS s t q (.sadd64 h d a b) (guardOk s q h)
      (fun n => if n = d + 1 then some (((s.uni64 q h.lit a + s.uni64 q h.lit b) >>> 32).truncate 32)
        else if n = d then some ((s.uni64 q h.lit a + s.uni64 q h.lit b).truncate 32) else none)
      fun _ => none) ∧
  (∀ h u d a b s q, issues s q (.scmp h u d a b) = true →
    Next (.scmp h u d a b) s fun t => ResultS s t q (.scmp h u d a b) (guardOk s q h) (fun _ => none)
      fun n => if n = d + 1 then some (if u then decide ((uop s q h a).toNat < (uop s q h b).toNat)
          else decide ((uop s q h a).toInt < (uop s q h b).toInt))
        else if n = d then some (decide (uop s q h a = uop s q h b)) else none) ∧
  (∀ h tab d ka kb s q, issues s q (.klop h tab d ka kb) = true →
    Next (.klop h tab d ka kb) s fun t => ResultS s t q (.klop h tab d ka kb) (guardOk s q h)
      (fun _ => none) fun n => if n = d then some (tab.testBit (2 * ((s.fl q).getK ka).toNat
        + ((s.fl q).getK kb).toNat)) else none)

/-! ### Special registers, counts and records -/

/-- R407, R408: RDSR reads each special register as R407 lays it out; the words of RDSR with a register number of 14
to 63, and of WRSR with such a one or with a register that is only read, do not decode. -/
def Obligations.ReadSpecial : Prop :=
  (∀ (w : Word) (rest : List Word), w.getLsbD 31 = true →
    (w.extractLsb' 23 7 = 0x38#7 → 14 ≤ (w.extractLsb' 11 6).toNat → decode (w :: rest) = none) ∧
    (w.extractLsb' 23 7 = 0x39#7 → (w.extractLsb' 17 6).toNat ∉ [6, 7, 8, 10, 11, 13] →
      decode (w :: rest) = none)) ∧
  ∀ h d reg, GivesS (.rdsr h d reg) h d fun s q =>
    match reg with
    | 0 => BitVec.ofNat 32 (s.fo q).index
    | 1 => BitVec.ofNat 32
        ((s.fo q).core * 65536 + (s.fl q).stage * 8192 + (s.fl q).slot * 256 + q.flock)
    | 2 => BitVec.ofNat 32 (s.droveIdOf (s.fo q))
    | 3 => BitVec.ofNat 32 (((kget s.droves (s.fo q).drove).map Drove.depth).getD 0)
    | 4 => BitVec.ofNat 32 ((if (s.fo q).paddock = 0 then 127 else (s.fo q).vd) * 256 + (s.fo q).paddock)
    | 5 => BitVec.ofNat 32 (s.fo q).sect
    | 6 => (s.fl q).cause
    | 7 => if (s.fo q).paddock = 0 then (s.pad 0).tbase else (s.vd (s.fo q).vd).tbase
    | 8 => (s.fl q).tpc
    | 9 => (s.fl q).tlanes
    | 10 => (s.fl q).fflags
    | 11 => (s.fl q).ftrapen
    | 12 => BitVec.ofNat 32 (s.holdStat q)
    | 13 => (s.fl q).watch
    | _ => 0

/-- R61, R104, R408, R409: a WRSR whose guard holds and whose value has no reserved bit set writes its register
and no other: CAUSE loses the bits that the value names, FFLAGS keeps what band A raised in the cycle,
and TBASE is the virtual device's, or the control paddock's. A value with a nonzero reserved field raises
DECODE; with the guard off WRSR only goes on. That DECODE of a value is raised only where the guard holds is the model's
reading of R57 (log 11). -/
def Obligations.WriteSpecial : Prop :=
  (∀ (h : UHdr) (reg : Nat) (a : USrc) (s : State) (q : Iss),
    issues s q (.wrsr h reg a) = true → guardOk s q h = true → wrsrBad reg (uop s q h a) = false →
    Next (.wrsr h reg a) s fun t =>
      GoesOn s t q (.wrsr h reg a) ∧
      Quiet (if reg = 7 then s.setSpecial q 7 (uop s q h a) else s) t q ∧
      (reg = 7 → t.tbaseOf (s.fo q) = (uop s q h a).toNat) ∧
      t.fl q = { s.fl q with
        cause := if reg = 6 then (s.fl q).cause &&& ~~~(uop s q h a) else (s.fl q).cause
        tpc := if reg = 8 then uop s q h a else (s.fl q).tpc
        fflags := if reg = 10 then uop s q h a ||| s.cycleFlags q else (s.fl q).fflags
        ftrapen := if reg = 11 then uop s q h a else (s.fl q).ftrapen
        watch := if reg = 13 then uop s q h a else (s.fl q).watch
        pcs := (t.fl q).pcs, parked := (t.fl q).parked }) ∧
  (∀ (h : UHdr) (reg : Nat) (a : USrc) (s : State) (q : Iss), issues s q (.wrsr h reg a) = true →
    (guardOk s q h = true → wrsrBad reg (uop s q h a) = true →
      exec (.wrsr h reg a) s = .next (s.trapAt q cDecode q.lanes false)) ∧
    (guardOk s q h = false → Next (.wrsr h reg a) s fun t => Leaves s s t q (.wrsr h reg a)))

/-- R411, R412, R368, R367, R257: RDCLK reads a count of the die, RDPERF a counter and its latch, TRACE stages a
record, and TSTAT reads a queue. R411 gives each core a cycle count: that the cores of a die have one in common is the
model's choice (log 43). -/
def Obligations.CountsAndRecords : Prop :=
  (∀ h cyc d s q, issues s q (.rdclk h cyc d) = true →
    Next (.rdclk h cyc d) s fun t => ResultS s t q (.rdclk h cyc d) (guardOk s q h)
      (fun n => if n = d + 1 then some (BitVec.ofNat 32
          ((if cyc then (s.die (dieOf q.core)).cycles else (s.die (dieOf q.core)).refs) / 2 ^ 32))
        else if n = d then some (BitVec.ofNat 32
          (if cyc then (s.die (dieOf q.core)).cycles else (s.die (dieOf q.core)).refs)) else none)
      fun _ => none) ∧
  (∀ h hi d a b s q p, issues s q (.rdperf h hi d a b) = true → guardOk s q h = true →
    (uop s q h a).toNat < 12 → perfPad (s.fo q).paddock (uop s q h b).toNat = some p →
    Next (.rdperf h hi d a b) s fun t => GoesOn s t q (.rdperf h hi d a b) ∧
      Quiet s t q ∧
      (hi = true →
        t.fl q = { (s.fl q).setS d (((s.fl q).perf >>> 32).truncate 32) with
          pcs := (t.fl q).pcs, parked := (t.fl q).parked }) ∧
      (hi = false →
        t.fl q = { (s.fl q).setS d ((s.counter p (dieOf q.core) (uop s q h a).toNat).truncate 32) with
          perf := s.counter p (dieOf q.core) (uop s q h a).toNat
          pcs := (t.fl q).pcs, parked := (t.fl q).parked })) ∧
  (∀ h tag a b s q, issues s q (.trace h tag a b) = true →
    Next (.trace h tag a b) s fun t => Leaves s (if guardOk s q h then
      s.traceFl (s.fo q) q.flock 0 0 tag q.pc (uop s q h a) (uop s q h b) else s) t q (.trace h tag a b)) ∧
  (∀ h d a s q, issues s q (.tstat h d a) = true → (guardOk s q h = true → (uop s q h a).toNat < 16) →
    Next (.tstat h d a) s fun t => ResultS s t q (.tstat h d a) (guardOk s q h)
      (fun n => if n = d then some (s.copyStatus q (uop s q h a).toNat) else none) fun _ => none)

/-! ### Checks and traps -/

/-- R61: the first of the checks from DECODE to UNSETTLED that an encoded instruction fails is its trap,
for every lane of the executing band, and the instruction has no effect of its own. Where none fails and a lane
consumes a register word that an error has struck, ECC is its trap for those lanes (R395, R447; its place after
the checks is the model's, log 55; of a crook, and of the words that RDX and WRX read by index, see CrookRuns and
IndexedAccess). Each check stands here with the earlier ones passed: DECODE, PRIV, RUNLEN where 23 have issued in the
run (R275), REGBUDGET, UNSETTLED (R86, R276; with the lane and the uniform addition as examples). Check 2 as far as it
depends on more than the words: a handler-illegal instruction in handler mode (R400), RETT outside it (R406), and a
slot format that XPAND (R162), SQZ8 (R166) or SCALEOF (R165) does not take, and nothing else. -/
def Obligations.CheckOrder : Prop :=
  (∀ (i : Instr) (s : State) (q : Iss), i.encoded = true → s.issuer = some q →
    (decodeBad s q i = true → exec i s = .next (s.trapAt q cDecode q.lanes (isRett i))) ∧
    (decodeBad s q i = false →
      (privileged i = true → (s.fo q).paddock ≠ 0 → exec i s = .next (s.trapAt q cPriv q.lanes (isRett i))) ∧
      ((privileged i = false ∨ (s.fo q).paddock = 0) →
        (i.ebit = false → (needsE i = true ∨ 23 ≤ q.count) →
          exec i s = .next (s.trapAt q cRunlen q.lanes (isRett i))) ∧
        ((i.ebit = true ∨ needsE i = false ∧ q.count < 23) →
          ((∃ n ∈ instrVregs i ++ instrWindow i, (s.budget (s.fo q)).regs ≤ n) →
            exec i s = .next (s.trapAt q cRegbudget q.lanes (isRett i))) ∧
          ((∀ n ∈ instrVregs i ++ instrWindow i, n < (s.budget (s.fo q)).regs) →
            (isCrook i = false → ((∃ n ∈ instrVregs i, (s.fl q).pendV.getLsbD n = true) ∨
                ∃ n ∈ settledSregs s q i, (s.fl q).pendS.getLsbD n = true) →
              exec i s = .next (s.trapAt q cUnsettled q.lanes (isRett i))) ∧
            ((isCrook i = true ∨ (∀ n ∈ instrVregs i, (s.fl q).pendV.getLsbD n = false) ∧
                ∀ n ∈ settledSregs s q i, (s.fl q).pendS.getLsbD n = false) → s.struckEarly q i ≠ 0 →
              exec i s = .next (s.trapAt q cEcc (s.struckEarly q i) (isRett i)))))))) ∧
  (∀ i : Instr, (privileged i = true ↔ 0xC8 ≤ i.opc ∧ i.opc ≤ 0xD5) ∧ (needsE i = true ↔
    i.opc ∈ [0x64, 0x65, 0x66, 0x67, 0x94, 0x95, 0x96, 0x97, 0x98, 0x99, 0x9B, 0x9C, 0xA0, 0xA1, 0xA2, 0xA3, 0xA4,
      0xA6])) ∧
  (∀ (i : Instr) (h : UHdr) (e : Bool) (b : Nat) (a : USrc) (s : State) (q : Iss), s.issuer = some q →
    i = .bar h b ∨ i = .barSw e b ∨ i = .bara h b ∨ i = .barw h b ∨ i = .acquire e ∨ i = .cwait h a →
    (s.fl q).handler = true → exec i s = .next (s.trapAt q cDecode q.lanes false)) ∧
  (∀ h skip a s q, s.issuer = some q → (s.fl q).handler = false →
    exec (.rett h skip a) s = .next (s.trapAt q cDecode q.lanes true)) ∧
  (∀ h b hi sl d a s q, s.issuer = some q →
    (∀ f ∈ [Fmt.e2m1, .e3m2, .e2m3, .int4, .lut4],
      (if b then slotBfmt (s.slotVal q sl) else slotAfmt (s.slotVal q sl)) ≠ some f) →
    exec (.xpand h b hi sl d a) s = .next (s.trapAt q cDecode q.lanes false)) ∧
  (∀ h b sl d a s q, s.issuer = some q →
    (∃ f ∈ [Fmt.e3m2, .e2m3], (if b then slotBfmt (s.slotVal q sl) else slotAfmt (s.slotVal q sl)) = some f) →
    exec (.xpand h b true sl d a) s = .next (s.trapAt q cDecode q.lanes false)) ∧
  (∀ h r sl d a c s q, s.issuer = some q →
    (∀ f ∈ [Fmt.e4m3, .e5m2, .e3m2, .e2m3], slotDfmt (s.slotVal q sl) ≠ some f) →
    exec (.sqz8 h r sl d a c) s = .next (s.trapAt q cDecode q.lanes false) ∧
    exec (.scaleof h false sl d a) s = .next (s.trapAt q cDecode q.lanes false)) ∧
  (∀ (i : Instr) (s : State) (q : Iss), decodeBad s q i = true →
    (∃ h b, i = .bar h b) ∨ (∃ e b, i = .barSw e b) ∨ (∃ h b, i = .bara h b) ∨ (∃ h b, i = .barw h b) ∨
      (∃ e, i = .acquire e) ∨ (∃ h a, i = .cwait h a) ∨ (∃ h k a, i = .rett h k a) ∨
      (∃ h b hi sl d a, i = .xpand h b hi sl d a) ∨ (∃ h r sl d a c, i = .sqz8 h r sl d a c) ∨
      ∃ h sl d a, i = .scaleof h false sl d a) ∧
  (∀ (i : Instr) (s : State) (q : Iss), i.encoded = true → s.issuer = some q → decodeBad s q i = false →
    (privileged i = false ∨ (s.fo q).paddock = 0) → i.ebit = false → (needsE i = true ∨ 23 ≤ q.count) →
    exec i s = .next (s.trapAt q cRunlen q.lanes (isRett i))) ∧
  (∀ (h : LHdr) (n : Nat) (a b : LSrc) (s : State) (q : Iss), s.issuer = some q →
    (Instr.iadd h (.v n) a b).legal = true →
    precheck s q (.iadd h (.v n) a b) ≠ some cRunlen → precheck s q (.iadd h (.v n) a b) ≠ some cRegbudget →
    (s.fl q).pendV.getLsbD n = true →
    exec (.iadd h (.v n) a b) s = .next (s.trapAt q cUnsettled q.lanes false)) ∧
  (∀ (h : UHdr) (d : Nat) (a b : USrc) (s : State) (q : Iss), s.issuer = some q →
    (Instr.sadd h d a b).legal = true → precheck s q (.sadd h d a b) ≠ some cRunlen →
    (s.fl q).pendS.getLsbD d = true →
    exec (.sadd h d a b) s = .next (s.trapAt q cUnsettled q.lanes false))

/-- R82: outside the control paddock every privileged instruction that decodes raises PRIV for the
executing band and does nothing. -/
def Obligations.Privilege : Prop :=
  (∀ (i : Instr) (s : State) (q : Iss), i.encoded = true → privileged i = true → s.issuer = some q →
    (s.fo q).paddock ≠ 0 → exec i s = .next (s.trapAt q cPriv q.lanes false)) ∧
  (∀ h a, privileged (.pcfgPctl h a) = true ∧ privileged (.pcfgCores h a) = true ∧
    privileged (.pcfgCode h a) = true ∧ privileged (.pkeyGen h a) = true ∧
    privileged (.pkeyLoad h a) = true ∧ privileged (.pkeyErase h a) = true ∧
    privileged (.qossetBw h a) = true ∧ privileged (.qossetWays h a) = true ∧
    privileged (.shepBegin h a) = true ∧ privileged (.shepStop h a) = true ∧
    privileged (.savexSave h a) = true ∧ privileged (.loadx h a) = true ∧
    privileged (.codemv h a) = true) ∧
  (∀ h a b, privileged (.tlbiPage h a b) = true ∧ privileged (.vdnset h a b) = true ∧
    privileged (.clearp h a b) = true)

/-- R103, R147: where some Active lane raises a flag that FTRAPEN enables, an instruction that raises flags in its
lanes, at issue, raises ARITH for those lanes and writes nothing. Here is every such instruction but the crooks
(CrookRuns); UNPK4 raises no flag (R161), and MDRAIN no ARITH (R186). -/
def Obligations.ArithTraps : Prop :=
  (∀ h f r d a b, TrapsF (.fadd h f r d a b) h fun s q l => (faddW f r (val s q h a l) (val s q h b l)).2) ∧
  (∀ h f r d a b, TrapsF (.fsub h f r d a b) h fun s q l => (fsubW f r (val s q h a l) (val s q h b l)).2) ∧
  (∀ h f r d a b, TrapsF (.fmul h f r d a b) h fun s q l => (fmulW f r (val s q h a l) (val s q h b l)).2) ∧
  (∀ h f r d a b c, TrapsF (.ffma h f r d a b c) h fun s q l =>
    (ffmaW f r (val s q h a l) (val s q h b l) (val s q h c l)).2) ∧
  (∀ h f d a b, TrapsF (.fmin h f d a b) h fun s q l => (fminW f (val s q h a l) (val s q h b l)).2) ∧
  (∀ h f d a b, TrapsF (.fmax h f d a b) h fun s q l => (fmaxW f (val s q h a l) (val s q h b l)).2) ∧
  (∀ h f r d a b, TrapsF (.fscale h f r d a b) h fun s q l =>
    (fscaleW f r (val s q h a l) (val s q h b l)).2) ∧
  (∀ h f d a, TrapsF (.ffrac h f d a) h fun s q l => (ffracW f (val s q h a l)).2) ∧
  (∀ h f r d a, TrapsF (.frint h f r d a) h fun s q l => (frintW f r (val s q h a l)).2) ∧
  (∀ h f r d a b, TrapsF (.fdiv h f r d a b) h fun s q l => (fdivW f r (val s q h a l) (val s q h b l)).2) ∧
  (∀ h f d a, TrapsF (.frcp h f d a) h fun s q l => (frcpW f (val s q h a l)).2) ∧
  (∀ h f d a, TrapsF (.frsq h f d a) h fun s q l => (frsqW f (val s q h a l)).2) ∧
  (∀ h f r d a, TrapsF (.fsqrt h f r d a) h fun s q l => (fsqrtW f r (val s q h a l)).2) ∧
  (∀ h f d a, TrapsF (.fexp2 h f d a) h fun s q l => (fexp2W f (val s q h a l)).2) ∧
  (∀ h f d a, TrapsF (.flog2 h f d a) h fun s q l => (flog2W f (val s q h a l)).2) ∧
  (∀ h f d a, TrapsF (.fsin h f d a) h fun s q l => (fsinW f (val s q h a l)).2) ∧
  (∀ h f d a, TrapsF (.fcos h f d a) h fun s q l => (fcosW f (val s q h a l)).2) ∧
  (∀ h f d a, TrapsF (.ftanh h f d a) h fun s q l => (ftanhW f (val s q h a l)).2) ∧
  (∀ h f d a b, TrapsF (.fexs h f d a b) h fun s q l => (fexsW f (val s q h a l) (val s q h b l)).2) ∧
  (∀ h bf f r d a b, TrapsF (.hadd2 h bf f r d a b) h fun s q l =>
    (hadd2W bf f r (hval s q h bf a l) (hval s q h bf b l)).2) ∧
  (∀ h bf f r d a b, TrapsF (.hmul2 h bf f r d a b) h fun s q l =>
    (hmul2W bf f r (hval s q h bf a l) (hval s q h bf b l)).2) ∧
  (∀ h bf f r d a b c, TrapsF (.hfma2 h bf f r d a b c) h fun s q l =>
    (hfma2W bf f r (hval s q h bf a l) (hval s q h bf b l) (hval s q h bf c l)).2) ∧
  (∀ h bf f d a b, TrapsF (.hmin2 h bf f d a b) h fun s q l =>
    (hminmax2W bf false f (hval s q h bf a l) (hval s q h bf b l)).2) ∧
  (∀ h bf f d a b, TrapsF (.hmax2 h bf f d a b) h fun s q l =>
    (hminmax2W bf true f (hval s q h bf a l) (hval s q h bf b l)).2) ∧
  (∀ h bf f r d a b c, TrapsF (.fdot2 h bf f r d a b c) h fun s q l =>
    (fdot2W bf f r (hval s q h bf a l) (hval s q h bf b l) (val s q h c l)).2) ∧
  (∀ h fa fb nc r d a b c, TrapsF (.fdot4 h fa fb nc r d a b c) h fun s q l =>
    (fdot4W fa fb nc r (val s q h a l) (val s q h b l) (val s q h c l)).2) ∧
  (∀ h dst src u r sl d a c, TrapsF (.cvt h dst src u r sl d a c) h fun s q l =>
    (cvtW dst src u (s.slotVal q sl) r (val s q h a l) (randOf (s.fl q) h c l)).2) ∧
  (∀ h dst src u r sl d a b c, TrapsF (.cvt2 h dst src u r sl d a b c) h fun s q l =>
    (cvt2W dst src u (s.slotVal q sl) r (val s q h a l) (val s q h b l) (randOf (s.fl q) h c l)).2) ∧
  (∀ h dst src u r sl d a b c, TrapsF (.cvt4 h dst src u r sl d a b c) h fun s q l =>
    (cvt4W dst src u (s.slotVal q sl) r (val s q h a l) (val s q h b l) (randOf (s.fl q) h c l)).2) ∧
  (∀ h fmt hi d a, TrapsF (.unpk2 h fmt hi d a) h fun s q l => (unpk2W fmt hi (val s q h a l)).2) ∧
  (∀ h fmt r sl d a c, TrapsF (.sround h fmt r sl d a c) h fun s q l =>
    (sroundW fmt (s.slotVal q sl) r (val s q h a l) (randOf (s.fl q) h c l)).2) ∧
  (∀ h f4 sl d a, TrapsF (.scaleof h f4 sl d a) h fun s q l => scaleNV s q h a l) ∧
  (∀ h r sl d a c, TrapsF (.sqz4 h r sl d a c) h fun s q l =>
    (sqzLane h .e2m1 8 r sl a c (blockScale s q h a .e2m1 ((s.fl q).active h q.lanes)) s q
      ((s.fl q).active h q.lanes) l).2) ∧
  (∀ h r sl d a c, TrapsF (.sqz8 h r sl d a c) h fun s q l =>
    (sqzLane h ((slotDfmt (s.slotVal q sl)).getD .e4m3) 4 r sl a c (blockScale s q h a
      ((slotDfmt (s.slotVal q sl)).getD .e4m3) ((s.fl q).active h q.lanes)) s q
      ((s.fl q).active h q.lanes) l).2) ∧
  (∀ h cond cc ftz p a b, TrapsF (.fcmp h cond cc ftz p a b) h fun s q l =>
    (fcmpW cond ftz (val s q h a l) (val s q h b l)).2) ∧
  (∀ h bf cond cc ftz p a b, TrapsF (.hcmp2 h bf cond cc ftz p a b) h fun s q l =>
    (hcmpW bf cond ftz 0 (hval s q h bf a l) (hval s q h bf b l)).2 |||
      (hcmpW bf cond ftz 1 (hval s q h bf a l) (hval s q h bf b l)).2)

/-- R398, R403: when a turn ends with a trap of band A, or of band B alone, and a handler exists, the flock's
CAUSE, TPC and TLANES are written, a cause delivered before sets its bit too, the lanes of TLANES stand at TBASE
in handler mode, and every other lane that has not exited is parked by the trap. No register and no byte of memory
changes. R399, R401, R402: without a handler, and at a double fault (a trap of a flock in handler mode that is not
masked), a fault record of kind 3 is written for the flock, with the address of the trapping instruction, where the
paddock's fault queue has a size, and every lane of the flock exits; the other flocks, memory and every operation under
way stay as they are, until the joins and phases that wait for those lanes complete (R268). -/
def Obligations.TrapEntry : Prop :=
  (∀ (s : State) (core stage : Nat) (t : Turn) (tr : TrapRec) (fo : Fold),
    (t.trapA = some tr ∨ t.trapA = none ∧ t.trapB = some tr) → kget s.folds t.fold = some fo →
    (s.flock? t.fold t.flock).isSome = true → s.handled fo = true → (s.flock t.fold t.flock).handler = false →
    SameBytes s (s.endTurn core stage t) ∧
    ((s.endTurn core stage t).stageOf core stage).turn = none ∧
    (s.endTurn core stage t).flock t.fold t.flock =
      { ((s.flock t.fold t.flock).movePc tr.lanes fun _ => s.tbaseOf fo).setWait tr.lanes fun _ => none with
        cause := (s.flock t.fold t.flock).cause ||| causeBit tr.cause ||| (s.flock t.fold t.flock).deliver
        deliver := 0, tpc := BitVec.ofNat 32 tr.pc, tlanes := tr.lanes, handler := true
        trapParked := ~~~(s.flock t.fold t.flock).exited &&& ~~~tr.lanes, parked := true } ∧
    ∀ k, k ≠ t.flock → (s.endTurn core stage t).flock? t.fold k = s.flock? t.fold k) ∧
  (∀ (s : State) (fid k : Nat) (tr : TrapRec) (fo : Fold), kget s.folds fid = some fo →
    (s.handled fo = false ∨ (s.flock fid k).handler = true) →
    (bits (s.reg 0 fo.paddock 0x09 0) 59 48 ≠ 0 →
      ((s.takeTrap fid k tr).pad fo.paddock).faultNew = (s.pad fo.paddock).faultNew ++
        [faultRec 3 tr.cause 0 fo.paddock (vdField fo.paddock fo.vd) (s.droveIdOf fo) fo.index fo.core 0 0 k
          tr.at_ 0 (s.die (dieOf fo.core)).refs]) ∧
    ((s.flock? fid k).isSome = true → ∃ u : State, s.takeTrap fid k tr = u.settle fid ∧ SameBytes s u ∧
      u.ops = s.ops ∧ (u.flock fid k).live = 0 ∧ (∀ l < 32, (u.flock fid k).wait l = none) ∧
      (∀ l, (s.flock fid k).exited.getLsbD l = true → (u.flock fid k).exited.getLsbD l = true) ∧
      ∀ j, j ≠ k → u.flock? fid j = s.flock? fid j))

/-- R14, R278, R398: a trap outside handler mode, in a turn whose other band goes on, is only recorded in
the turn: the flock, memory and every operation under way are as they were. R401: in handler mode a trap whose
cause is not in CAUSE is masked: its bit is set and the band's lanes go on after the instruction, or at TBASE
where the length of the instruction is not known. -/
def Obligations.TrapsInTurn : Prop :=
  (∀ (s : State) (q : Iss) (c : Nat) (m : Mask) (toBase : Bool) (t : Turn), s.issuer = some q →
    (s.stageOf q.core q.stage).turn = some t →
    ((s.fl q).handler = false ∨ (s.fl q).cause &&& causeBit c ≠ 0) →
    bandDone (s.fl q) (if q.bandB then t.a else t.b) = false →
    SameBytes s (s.trapAt q c m toBase) ∧ (s.trapAt q c m toBase).folds = s.folds ∧
    (s.trapAt q c m toBase).ops = s.ops ∧
    ∃ t', ((s.trapAt q c m toBase).stageOf q.core q.stage).turn = some t' ∧
      (if q.bandB then t'.trapB else t'.trapA) = some ⟨c, q.pc, m, q.pc⟩) ∧
  (∀ (s : State) (q : Iss) (c : Nat) (m : Mask) (toBase : Bool) (l : Nat), s.issuer = some q →
    (s.flock? q.fold q.flock).isSome = true → TurnFree s q → (s.fl q).handler = true →
    (s.fl q).cause &&& causeBit c = 0 → l < 32 → q.lanes.getLsbD l = true →
    ((s.trapAt q c m toBase).fl q).cause = (s.fl q).cause ||| causeBit c ∧
    ((s.trapAt q c m toBase).fl q).handler = true ∧
    ((s.trapAt q c m toBase).fl q).pc l = (if toBase then s.tbaseOf (s.fo q)
      else (q.pc + s.lenAt (s.fo q).paddock q.pc) % 2 ^ 32))

/-- R406: when every lane of TLANES has met RETT, the causes that A names are cleared; with none left the
lanes of TLANES go on at TPC, or after the instruction there, handler mode ends and the parked lanes
become ready; with some left they go on at TBASE. -/
def Obligations.TrapReturn : Prop :=
  ∀ (s : State) (fid k : Nat) (a : Word) (skip : Bool) (fo : Fold), kget s.folds fid = some fo →
    (s.flock? fid k).isSome = true →
    ((s.flock fid k).cause &&& ~~~a = 0 →
      ((s.returnTrap fid k a skip).flock fid k).handler = false ∧
      ((s.returnTrap fid k a skip).flock fid k).cause = 0 ∧
      ((s.returnTrap fid k a skip).flock fid k).trapParked = 0 ∧
      ∀ l < 32, (s.flock fid k).tlanes.getLsbD l = true → (s.flock fid k).exited.getLsbD l = false →
        ((s.returnTrap fid k a skip).flock fid k).wait l = none ∧
        (skip = false → ((s.returnTrap fid k a skip).flock fid k).pc l = (s.flock fid k).tpc.toNat) ∧
        (skip = true → s.forward fo.paddock (s.flock fid k).tpc.toNat = (s.flock fid k).tpc.toNat →
          ((s.returnTrap fid k a skip).flock fid k).pc l =
            ((s.flock fid k).tpc.toNat + s.lenAt fo.paddock (s.flock fid k).tpc.toNat) % 2 ^ 32)) ∧
    ((s.flock fid k).cause &&& ~~~a ≠ 0 →
      ((s.returnTrap fid k a skip).flock fid k).handler = (s.flock fid k).handler ∧
      ((s.returnTrap fid k a skip).flock fid k).cause = (s.flock fid k).cause &&& ~~~a ∧
      ∀ l < 32, (s.flock fid k).tlanes.getLsbD l = true → (s.flock fid k).exited.getLsbD l = false →
        ((s.returnTrap fid k a skip).flock fid k).pc l = s.tbaseOf fo)

/-- R288, R410: BRK and TRAP whose guard holds take their trap for the executing band; that is their
effect. -/
def Obligations.SoftwareTraps : Prop :=
  (∀ e k kn disp s q, issues s q (.brk e k kn disp) = true → (s.fl q).guardK k kn = true →
    exec (.brk e k kn disp) s = .next (s.trapAt q cBreak q.lanes false)) ∧
  (∀ h code s q, issues s q (.trap h code) = true → guardOk s q h = true →
    exec (.trap h code) s = .next (s.trapAt q cSoft q.lanes false)) ∧
  (∀ e k kn disp s q, issues s q (.brk e k kn disp) = true → (s.fl q).guardK k kn = false →
    Next (.brk e k kn disp) s fun t => Leaves s s t q (.brk e k kn disp)) ∧
  (∀ h code s q, issues s q (.trap h code) = true → guardOk s q h = false →
    Next (.trap h code) s fun t => Leaves s s t q (.trap h code))

/-! ### Control flow -/

/-- R284, R288, R366: branches move the lanes of the band, or those whose predicate holds, and nothing else;
displacements count words from the next word. CALL writes the address of the next word into s31 (a pending s31
traps: log 7), RET goes to its operand; each stages a trace record of class 3. -/
def Obligations.ControlTransfers : Prop :=
  (∀ e p pn disp s q, issues s q (.brl e p pn disp) = true →
    Next (.brl e p pn disp) s fun t => Jumps s t q fun l =>
      if q.lanes.getLsbD l && ((s.fl q).getP p l != pn) then
        (BitVec.ofNat 32 (q.pc + 4) + 4 * (BitVec.ofNat 15 disp).signExtend 32).toNat
      else pcAfter s q (.brl e p pn disp) l) ∧
  (∀ h a s q, issues s q (.brxl h a) = true →
    (∀ l < 32, act s q h l = true → (val s q h a l).toNat % 4 = 0) →
    Next (.brxl h a) s fun t => Jumps s t q fun l =>
      if act s q h l then (val s q h a l).toNat else pcAfter s q (.brxl h a) l) ∧
  (∀ e k kn disp s q, issues s q (.bra e k kn disp) = true →
    Next (.bra e k kn disp) s fun t => Jumps s t q fun l =>
      if q.lanes.getLsbD l && (s.fl q).guardK k kn then
        (BitVec.ofNat 32 (q.pc + 4) + 4 * (BitVec.ofNat 19 disp).signExtend 32).toNat
      else pcAfter s q (.bra e k kn disp) l) ∧
  (∀ h a b s q, issues s q (.brx h a b) = true →
    (guardOk s q h = true → (uop s q h a + uop s q h b).toNat % 4 = 0) →
    Next (.brx h a b) s fun t => Jumps s t q fun l =>
      if q.lanes.getLsbD l && guardOk s q h then (uop s q h a + uop s q h b).toNat
      else pcAfter s q (.brx h a b) l) ∧
  (∀ h s q, issues s q (.nop h) = true → Next (.nop h) s fun t => Leaves s s t q (.nop h)) ∧
  (∀ e k kn disp s q tgt, issues s q (.call e k kn disp) = true → (s.fl q).guardK k kn = true →
    (s.fl q).pendS.getLsbD 31 = false →
    tgt = (BitVec.ofNat 32 (q.pc + 4) + 4 * (BitVec.ofNat 19 disp).signExtend 32).toNat →
    Next (.call e k kn disp) s fun t => Quiet (s.traceFl (s.fo q) q.flock 3 4 0 tgt 0 0) t q ∧
      t.fl q = { (s.fl q).setS 31 (BitVec.ofNat 32 (q.pc + 4)) with
        pcs := (t.fl q).pcs, parked := (t.fl q).parked } ∧
      ∀ l < 32, (t.fl q).pc l = if q.lanes.getLsbD l then tgt else (s.fl q).pc l) ∧
  (∀ e k kn disp s q, issues s q (.call e k kn disp) = true → (s.fl q).guardK k kn = false →
    Next (.call e k kn disp) s fun t => Leaves s s t q (.call e k kn disp)) ∧
  (∀ h a s q, issues s q (.ret h a) = true → guardOk s q h = true → (uop s q h a).toNat % 4 = 0 →
    Next (.ret h a) s fun t => Jumps (s.traceFl (s.fo q) q.flock 3 5 0 (uop s q h a).toNat 0 0) t q fun l =>
      if q.lanes.getLsbD l then (uop s q h a).toNat else (s.fl q).pc l) ∧
  (∀ h a s q, issues s q (.ret h a) = true → guardOk s q h = true → (uop s q h a).toNat % 4 ≠ 0 →
    exec (.ret h a) s = .next (s.trapAt q cAlign q.lanes false))

/-- R268, R285, R286, R288, R406: JOIN, LEXIT, EXIT and RETT end with their lanes waiting or exited, and
with what the arrivals and exits of the cycle complete. -/
def Obligations.WaitsAndExits : Prop :=
  (∀ h a s q, issues s q (.join h a) = true →
    Ends (.join h a) s q (((s.advance q (.join h a)).waitAt q ((s.fl q).active h q.lanes) fun l =>
        .join q.pc (val s q h a l) (pcAfter s q (.join h a) l)).settle q.fold) 0) ∧
  (∀ h s q, issues s q (.lexit h) = true →
    Ends (.lexit h) s q ((((s.advance q (.lexit h)).setFl q fun fl =>
      fl.exitLanes ((s.fl q).active h q.lanes)).settle q.fold).settleRett q.fold q.flock) 0) ∧
  (∀ h s q, issues s q (.exit h) = true → Ends (.exit h) s q (if guardOk s q h then
      (((s.advance q (.exit h)).setFl q fun fl => fl.exitLanes q.lanes).settle q.fold).settleRett q.fold q.flock
    else s.advance q (.exit h)) 0) ∧
  (∀ h skip a s q, issues s q (.rett h skip a) = true → guardOk s q h = true →
    Ends (.rett h skip a) s q ((((s.advance q (.rett h skip a)).waitAt q q.lanes fun _ => .rett).setFl q fun fl =>
      { fl with rettA := uop s q h a, rettSkip := skip }).settleRett q.fold q.flock) 0) ∧
  (∀ (s : State) (f k : Nat), (s.flock f k).handler = true → (s.flock f k).tlanes &&& (s.flock f k).live ≠ 0 →
    (∀ l < 32, (s.flock f k).tlanes.getLsbD l = true → (s.flock f k).exited.getLsbD l = false →
      (s.flock f k).wait l = some .rett) →
    s.settleRett f k = s.returnTrap f k (s.flock f k).rettA (s.flock f k).rettSkip) ∧
  (∀ (s : State) (f k : Nat), ((s.flock f k).handler = false ∨ (s.flock f k).tlanes &&& (s.flock f k).live = 0 ∨
      ∃ l < 32, (s.flock f k).tlanes.getLsbD l = true ∧ (s.flock f k).exited.getLsbD l = false ∧
        (s.flock f k).wait l ≠ some .rett) →
    s.settleRett f k = s)

/-- R285: the lanes of a flock whose JOIN is complete, every lane that the mask names having exited or
waiting at a JOIN at the same PC, or joined there in the same cycle, move on together; every other lane stays as it was.
R290, R413: a phase completes exactly when every lane that has not exited, of every flock, has arrived, and no stop is
wanted: the phase flips, arrivals clear, and the lanes waiting at the barrier go on; the other lanes wait as they did.
R308, R309, R311, R313, R314: a completed ACQUIRE or BAR.SW with an index grants a variant. The candidates are those
whose flock count is kept or whose point keeps no lane register, and that cut no engine-owned chunk; a pending shrink
takes the highest candidate, else the lowest that fits, else an ACQUIRE the highest, and a switch leaves the variant as
it is. Segments and chunks that both hold keep their places; a flock kept goes on after the ACQUIRE's entry or at the
variant's switch offset with the registers that the point's live map keeps, or with all of them where neither variant
nor flock count changes; a new flock starts with the s and k registers of flock 0 that the map keeps, and zeros. -/
def Obligations.PhasesComplete : Prop :=
  (∀ (fl : Flock) (just : List (Nat × Mask)) (l w n : Nat) (m : Mask), l < 32 → fl.wait l = some (.join w m n) →
    ((∀ j < 32, m.getLsbD j = true → fl.exited.getLsbD j = true ∨ (∃ e ∈ just, e.1 = w ∧ e.2.getLsbD j = true) ∨
        ∃ m' n', fl.wait j = some (.join w m' n')) →
      (fl.settleJoins just).wait l = none ∧ (fl.settleJoins just).pc l = n) ∧
    ((∃ j < 32, m.getLsbD j = true ∧ fl.exited.getLsbD j = false ∧ (∀ e ∈ just, e.1 = w → e.2.getLsbD j = false) ∧
        ∀ m' n', fl.wait j ≠ some (.join w m' n')) →
      (fl.settleJoins just).wait l = some (.join w m n) ∧ (fl.settleJoins just).pc l = fl.pc l)) ∧
  (∀ (s : State) (fid b : Nat) (fo : Fold), kget s.folds fid = some fo → b < 16 →
    (fo.barrier b).sw = none ∨ (fo.barrier b).sw = some none →
    (fo.stopWanted = 0 → fo.phaseDone b = true → ∃ f, kget (s.settleBar fid b).folds fid = some f ∧
      (f.barrier b).phase = 1 - (fo.barrier b).phase ∧ (f.barrier b).arrived = [] ∧
      ∀ (k l : Nat) (fl : Flock), fo.flocks[k]? = some fl → l < 32 → ∃ fl', f.flocks[k]? = some fl' ∧
        (∀ pc n, fl.wait l = some (.bar b pc n) → fl'.wait l = none ∧ fl'.pc l = n) ∧
        ((∀ pc n, fl.wait l ≠ some (.bar b pc n)) → fl'.wait l = fl.wait l ∧ fl'.pc l = fl.pc l)) ∧
    (fo.stopWanted ≠ 0 ∨ fo.phaseDone b = false → s.settleBar fid b = s)) ∧
  (∀ (s : State) (fid b ix : Nat) (fo : Fold) (o : CodeObj) (lm : LiveMap) (ok : Nat → Variant → Prop),
    kget s.folds fid = some fo → o = s.objOf fo → fo.stopWanted = 0 → fo.phaseDone b = true →
    (b < 16 ∧ (fo.barrier b).sw = some (some ix) ∧ lm = o.switchMap fo.sect 2 ix ∨
      b = acquirePoint ∧ fo.anyLive = true ∧ fo.sect = 4 ∧ lm = o.switchMap 4 0 0) →
    (∀ i x, ok i x ↔ o.variants[i]? = some x ∧ (x.flocks = fo.flocks.length ∨ lm.v = 0 ∧ lm.p = 0) ∧
      ∀ ch < 64 * fo.segs.length, s.engineOwned fo ch = true → ch < 64 * x.segs) →
    (∃ i x, ok i x) →
    ∃ v f, kget (s.settleBar fid b).folds fid = some f ∧ f.sect = v ∧ f.shrink = false ∧
      f.flocks.length = (o.section v).flocks ∧ (f.barrier b).phase = 1 - (fo.barrier b).phase ∧
      (f.barrier b).arrived = [] ∧
      (fo.shrink = true → (∃ x, ok v x) ∧ ∀ i x, ok i x → i ≤ v) ∧
      (fo.shrink = false → (∃ i x, ok i x ∧ s.fits fid fo x = true) →
        (∃ x, ok v x ∧ s.fits fid fo x = true) ∧ ∀ i x, ok i x → s.fits fid fo x = true → v ≤ i) ∧
      (fo.shrink = false → (∀ i x, ok i x → s.fits fid fo x = false) →
        (b = acquirePoint → (∃ x, ok v x) ∧ ∀ i x, ok i x → i ≤ v) ∧ (b < 16 → fo.sect ≠ 4 → v = fo.sect)) ∧
      (∀ i < min fo.segs.length (o.section v).segs, f.segs[i]? = fo.segs[i]?) ∧
      (∀ (k : Nat) (fl : Flock), fo.flocks[k]? = some fl → k < (o.section v).flocks →
        ∃ g, f.flocks[k]? = some g ∧ g.fflags = fl.fflags ∧ g.ftrapen = fl.ftrapen ∧
          ((o.section v).flocks ≠ fo.flocks.length → g.exited = 0) ∧
          ((o.section v).flocks = fo.flocks.length → g.exited = fl.exited) ∧
          (∀ l < 32, g.exited.getLsbD l = false → g.wait l = none ∧
            g.pc l = if b = acquirePoint then o.base + (o.section v).off else o.switchPc v ix) ∧
          ((o.section v).flocks = fo.flocks.length → (b = acquirePoint ∨ v = fo.sect) →
            g.v = fl.v ∧ g.p = fl.p ∧ g.s = fl.s ∧ g.k = fl.k) ∧
          ((o.section v).flocks ≠ fo.flocks.length ∨ b < 16 ∧ fo.sect ≠ 4 ∧ v ≠ fo.sect → ∀ n l,
            g.getV n l = (if bitOf lm.v n then fl.getV n l else 0) ∧
            (n ≠ 0 → g.getP n l = (bitOf lm.p n && fl.getP n l)) ∧
            g.getS n = (if bitOf lm.s n then fl.getS n else 0) ∧
            (n ≠ 0 → n < 8 → g.getK n = (bitOf lm.k n && fl.getK n)))) ∧
      ∀ k, fo.flocks.length ≤ k → k < (o.section v).flocks → ∃ g, f.flocks[k]? = some g ∧ g.exited = 0 ∧
        g.ix = k ∧ (∀ n l, g.getV n l = 0 ∧ (l < 32 → g.wait l = none ∧
          g.pc l = if b = acquirePoint then o.base + (o.section v).off else o.switchPc v ix)) ∧
        ∀ n, g.getS n = (if bitOf lm.s n then (fo.flocks.headD Flock.empty).getS n else 0) ∧
          (n ≠ 0 → n < 8 → g.getK n = (bitOf lm.k n && (fo.flocks.headD Flock.empty).getK n)))

/-- R290, R313, R314: every barrier instruction and ACQUIRE that issues empties the queues of its band's lanes
(R68); where its guard holds they arrive, with BAR.SW's index from the table, and wait unless BARA, to go on at the
instruction after their own; where it fails nobody arrives. ACQUIRE stands at the point beside barriers 0 to 15. -/
def Obligations.BarrierInstructions : Prop :=
  (∀ h b s q, issues s q (.bar h b) = true →
    exec (.bar h b) s = .next (State.retire (if guardOk s q h
      then ((s.advance q (.bar h b)).emptyQueues q).arriveAt q b none (some (.bar b q.pc (nextPc q (.bar h b))))
      else (s.advance q (.bar h b)).emptyQueues q) q (.bar h b) 0)) ∧
  (∀ e b s q ix, issues s q (.barSw e b) = true →
    ix = (((s.objOf (s.fo q)).pointAt q.pc).map fun p => p.sw).getD 0 →
    exec (.barSw e b) s = .next ((((s.advance q (.barSw e b)).emptyQueues q).arriveAt q b (some ix)
      (some (.bar b q.pc (nextPc q (.barSw e b))))).retire q (.barSw e b) 0)) ∧
  (∀ h b s q, issues s q (.bara h b) = true →
    exec (.bara h b) s = .next (State.retire (if guardOk s q h
      then ((s.advance q (.bara h b)).emptyQueues q).arriveAt q b none none
      else (s.advance q (.bara h b)).emptyQueues q) q (.bara h b) 0)) ∧
  (∀ h b s q, issues s q (.barw h b) = true →
    exec (.barw h b) s = .next (State.retire (if guardOk s q h
      then ((s.advance q (.barw h b)).emptyQueues q).arriveAt q b none
        (some (.bar b q.pc (nextPc q (.barw h b))))
      else (s.advance q (.barw h b)).emptyQueues q) q (.barw h b) 0)) ∧
  (∀ e s q, issues s q (.acquire e) = true →
    exec (.acquire e) s = .next ((((s.advance q (.acquire e)).emptyQueues q).arriveAt q acquirePoint none
      (some (.acquire q.pc (nextPc q (.acquire e))))).retire q (.acquire e) 0))

/-- R293, R294, R256: LAUNCH leaves a launch to be read with the fields that its words give; CWAIT goes on
where no child of its groups is left and no stop request stands (R413), and else waits; TRYWAIT writes its predicate where its chunks are ready. -/
def Obligations.LaunchAndWaits : Prop :=
  (∀ h a group s q, issues s q (.launch h a group) = true → launchTrap s q h (ueA s q h a) = none →
    Next (.launch h a group) s fun t => SameBytes s t ∧
      t.fl q = { s.fl q with pcs := (t.fl q).pcs, parked := (t.fl q).parked } ∧
      GoesOn s t q (.launch h a group) ∧
      t.launches = kset s.launches s.nextId
        { fold := q.fold, drove := (s.fo q).drove, paddock := (s.fo q).paddock, vd := (s.fo q).vd
          die := dieOf q.core, core := q.core, flock := q.flock, pc := q.pc
          addr := s.cmPlace (s.fo q) (ueA s q h a), group := group, gx := ueP s q h.p0
          gy := ueP s q h.p1 % 65536, gz := ueP s q h.p1 / 65536, pool := s.nextId, ix := (s.fo q).index
          did := s.droveIdOf (s.fo q) } ∧
      (kget t.ops s.nextId).map MemOp.kind = some .launch) ∧
  (∀ h a s q, issues s q (.cwait h a) = true →
    (guardOk s q h = false ∨ s.children q.fold ((uop s q h a).toNat % 65536) = [] ∧ (s.fo q).stopWanted = 0 →
      Ends (.cwait h a) s q ((s.advance q (.cwait h a)).emptyQueues q) 0) ∧
    (guardOk s q h = true → (s.children q.fold ((uop s q h a).toNat % 65536) ≠ [] ∨ (s.fo q).stopWanted ≠ 0) →
      Ends (.cwait h a) s q ((((s.advance q (.cwait h a)).emptyQueues q).waitAt q q.lanes fun _ =>
        .cwait (s.children q.fold ((uop s q h a).toNat % 65536)) q.pc (nextPc q (.cwait h a))).settle q.fold) 0)) ∧
  (∀ h any d a b s q, issues s q (.trywait h any d a b) = true →
    (guardOk s q h = true → tryBad (s.fo q) ((uop s q h a).toNat % 2048) (uop s q h b) = false ∧
      (s.tryReady (s.fo q) ((uop s q h a).toNat % 2048) (uop s q h b) any = true ∨ (s.fo q).stopWanted ≠ 0)) →
    Next (.trywait h any d a b) s fun t => ResultS s t q (.trywait h any d a b) (guardOk s q h)
      (fun _ => none) fun n => if n = d then
        some (s.tryReady (s.fo q) ((uop s q h a).toNat % 2048) (uop s q h b) any) else none)

/-! ### Memory -/

/-- R192, R210 to R217: a scratchpad instruction whose Active lanes pass every check issues, and its
accesses join those under way, from its first destination register on. The instructions on the commons space leave
their accesses under way, each lane's to be performed by COMMONS_OPERATION; at issue no byte of memory changes. -/
def Obligations.AccessIssue : Prop :=
  (∀ h sz o d a b s q x, issues s q (.lds h sz o d a b) = true →
    x = sizeAcc h sz a b (fun _ _ => []) (s.fl q) →
    s.spTrap (s.fo q) ((s.fl q).active h q.lanes) x = none →
    Ends (.lds h sz o d a b) s q (((s.advance q (.lds h sz o d a b)).addWaves q
      (accWaves ((s.fl q).active h q.lanes) x false)).start q ((s.fl q).active h q.lanes) x true .load sz o d
        sz.words) (watched (s.fl q) ((s.fl q).active h q.lanes) x 0 false)) ∧
  (∀ h sz o a b c s q x, issues s q (.sts h sz o a b c) = true →
    x = sizeAcc h sz a b (fun fl => dataWords fl h c sz.words) (s.fl q) →
    s.spTrap (s.fo q) ((s.fl q).active h q.lanes) x = none →
    Ends (.sts h sz o a b c) s q (((s.advance q (.sts h sz o a b c)).addWaves q
      (accWaves ((s.fl q).active h q.lanes) x false)).start q ((s.fl q).active h q.lanes) x true .store sz o
        0 0) (watched (s.fl q) ((s.fl q).active h q.lanes) x 0 true)) ∧
  (∀ h n st d a b s q x, issues s q (.ldsm h n st d a b) = true → x = strideAcc h n st a b (s.fl q) →
    s.spTrap (s.fo q) ((s.fl q).active h q.lanes) x = none →
    Ends (.ldsm h n st d a b) s q (((s.advance q (.ldsm h n st d a b)).addWaves q
      (strideWaves ((s.fl q).active h q.lanes) x n)).start q ((s.fl q).active h q.lanes) x true .load .w
        plain d n) (watched (s.fl q) ((s.fl q).active h q.lanes) x 0 false)) ∧
  (∀ h op sh o d a b s q x, issues s q (.atoms h op sh o d a b) = true → x = atomAcc h sh a b (s.fl q) →
    s.spTrap (s.fo q) ((s.fl q).active h q.lanes) x = none →
    Ends (.atoms h op sh o d a b) s q (((s.advance q (.atoms h op sh o d a b)).addWaves q
      (accWaves ((s.fl q).active h q.lanes) x true)).start q ((s.fl q).active h q.lanes) x true
        (.atom op sh) .w o d sh.words) (watched (s.fl q) ((s.fl q).active h q.lanes) x 0 true)) ∧
  (∀ h dbl o d a b c s q x, issues s q (.cass h dbl o d a b c) = true →
    x = casAcc h dbl a b c (s.fl q) → s.spTrap (s.fo q) ((s.fl q).active h q.lanes) x = none →
    Ends (.cass h dbl o d a b c) s q (((s.advance q (.cass h dbl o d a b c)).addWaves q
      (accWaves ((s.fl q).active h q.lanes) x true)).start q ((s.fl q).active h q.lanes) x true (.cas dbl)
        .w o d (if dbl then 2 else 1)) (watched (s.fl q) ((s.fl q).active h q.lanes) x 0 true)) ∧
  (∀ h sz o d a b s q x, issues s q (.ldc h sz o d a b) = true →
    x = sizeAcc h sz a b (fun _ _ => []) (s.fl q) →
    s.cmTrap (s.fo q) ((s.fl q).active h q.lanes) x = none →
    Ends (.ldc h sz o d a b) s q ((s.advance q (.ldc h sz o d a b)).start q ((s.fl q).active h q.lanes) x
      false .load sz o d sz.words) (watched (s.fl q) ((s.fl q).active h q.lanes) x 1 false)) ∧
  (∀ h sz o a b c s q x, issues s q (.stc h sz o a b c) = true →
    x = sizeAcc h sz a b (fun fl => dataWords fl h c sz.words) (s.fl q) →
    s.cmTrap (s.fo q) ((s.fl q).active h q.lanes) x = none →
    Ends (.stc h sz o a b c) s q ((s.advance q (.stc h sz o a b c)).start q ((s.fl q).active h q.lanes) x
      false .store sz o 0 0) (watched (s.fl q) ((s.fl q).active h q.lanes) x 1 true)) ∧
  (∀ h op sh o d a b s q x, issues s q (.atomc h op sh o d a b) = true → x = atomAcc h sh a b (s.fl q) →
    s.cmTrap (s.fo q) ((s.fl q).active h q.lanes) x = none →
    Ends (.atomc h op sh o d a b) s q ((s.advance q (.atomc h op sh o d a b)).start q
      ((s.fl q).active h q.lanes) x false (.atom op sh) .w o d sh.words)
      (watched (s.fl q) ((s.fl q).active h q.lanes) x 1 true)) ∧
  (∀ h dbl o d a b c s q x, issues s q (.casc h dbl o d a b c) = true →
    x = casAcc h dbl a b c (s.fl q) → s.cmTrap (s.fo q) ((s.fl q).active h q.lanes) x = none →
    Ends (.casc h dbl o d a b c) s q ((s.advance q (.casc h dbl o d a b c)).start q
      ((s.fl q).active h q.lanes) x false (.cas dbl) .w o d (if dbl then 2 else 1))
      (watched (s.fl q) ((s.fl q).active h q.lanes) x 1 true)) ∧
  (∀ h op sh a b s q x, issues s q (.redc h op sh a b) = true → x = atomAcc h sh a b (s.fl q) →
    s.cmTrap (s.fo q) ((s.fl q).active h q.lanes) x = none →
    Ends (.redc h op sh a b) s q ((s.advance q (.redc h op sh a b)).start q ((s.fl q).active h q.lanes) x
      false (.atom op sh) .w plain 0 0) (watched (s.fl q) ((s.fl q).active h q.lanes) x 1 true)) ∧
  (∀ (s : State) (q : Iss) (m : Mask) (x : Acc) (k : OpKind) (sz : MSize) (o : MOrder) (d n : Nat),
    SameBytes s (s.start q m x false k sz o d n))

/-- R143, R218, R240: SGET for the band as a whole, FENCE, and FLUSHH. -/
def Obligations.OtherAccesses : Prop :=
  (∀ h sp d a b s q l x, issues s q (.sget h sp d a b) = true → guardOk s q h = true →
    l = (lanesOf q.lanes).headD 0 → x = sgetAcc (uop s q h a + uop s q h b).toNat →
    (if sp then s.spTrap (s.fo q) (BitVec.ofNat 32 (2 ^ l)) x
      else s.cmTrap (s.fo q) (BitVec.ofNat 32 (2 ^ l)) x) = none →
    watched (s.fl q) (BitVec.ofNat 32 (2 ^ l)) x (if sp then 0 else 1) false = 0 →
    Next (.sget h sp d a b) s fun t => SameBytes s t ∧ GoesOn s t q (.sget h sp d a b) ∧
      t.fl q = { s.fl q with
        pendS := pendSet (s.fl q).pendS d, pcs := (t.fl q).pcs, parked := (t.fl q).parked } ∧
      ∃ o, kget t.ops s.nextId = some o ∧ o.kind = .load ∧ o.uni = true ∧ o.dst = d ∧ o.nreg = 1 ∧
        o.fold = q.fold ∧ o.flock = q.flock ∧ o.whose = q.lanes ∧ o.counts = true) ∧
  (∀ h ord scope s q, issues s q (.fence h ord scope) = true →
    Ends (.fence h ord scope) s q
      ((s.advance q (.fence h ord scope)).fence q ((s.fl q).active h q.lanes) ord scope) 0) ∧
  (∀ h s q, issues s q (.flushh h) = true → guardOk s q h = true →
    Next (.flushh h) s fun t => SameBytes s t ∧ GoesOn s t q (.flushh h) ∧
      t.fl q = { s.fl q with pcs := (t.fl q).pcs, parked := (t.fl q).parked } ∧
      ∃ o, kget t.ops s.nextId = some o ∧ o.kind = .flushh ∧ o.counts = true ∧ o.fold = q.fold ∧
        o.flock = q.flock ∧ o.todo = [])

/-- R197, R202, R213, R214: with no access under way and no word struck by an error, STS and STSM store at once: every byte of memory
afterwards is the last that the Active lanes store there, in the order of the words of STSM and of the
lanes, or what it was. The stored addresses are those that the meanings compute. In every state a byte at no
address that an Active lane of a scratchpad access names keeps its value, whatever else is under way. -/
def Obligations.ScratchpadStores : Prop :=
  (∀ h sz o a b c s q x, issues s q (.sts h sz o a b c) = true → Sound s → s.ops = [] → s.upsets = [] →
    x = sizeAcc h sz a b (fun fl => dataWords fl h c sz.words) (s.fl q) →
    s.spTrap (s.fo q) ((s.fl q).active h q.lanes) x = none →
    watched (s.fl q) ((s.fl q).active h q.lanes) x 0 true = 0 →
    Next (.sts h sz o a b c) s fun t => t.ops = [] ∧ GoesOn s t q (.sts h sz o a b c) ∧
      t.fl q = { s.fl q with pcs := (t.fl q).pcs, parked := (t.fl q).parked } ∧
      ∀ y, memGet t.mem y = afterCells (storedCells s q ((s.fl q).active h q.lanes) x) y (memGet s.mem y)) ∧
  (∀ h n st a b c s q x, issues s q (.stsm h n st a b c) = true → Sound s → s.ops = [] → s.upsets = [] →
    x = strideAcc h n st a b (s.fl q) →
    s.spTrap (s.fo q) ((s.fl q).active h q.lanes) x = none →
    watched (s.fl q) ((s.fl q).active h q.lanes) x 0 true = 0 →
    Next (.stsm h n st a b c) s fun t => t.ops = [] ∧ GoesOn s t q (.stsm h n st a b c) ∧
      t.fl q = { s.fl q with pcs := (t.fl q).pcs, parked := (t.fl q).parked } ∧
      ∀ y, memGet t.mem y = afterCells ((List.range n).flatMap fun i =>
        storedCells s q ((s.fl q).active h q.lanes)
          { x with at_ := fun l => [(x.at_ l).getD i 0], data := fun l => [(s.fl q).getV (c + i) l] })
        y (memGet s.mem y)) ∧
  (∀ (s : State) (q : Iss) (m : Mask) (x : Acc) (k : OpKind) (sz : MSize) (o : MOrder) (d n y : Nat),
    Sound s →
    (∀ l < 32, m.getLsbD l = true → ∀ e ∈ x.at_ l,
      y < ((s.fo q).place e).getD 0 ∨ ((s.fo q).place e).getD 0 + x.bytes ≤ y) →
    memGet (s.start q m x true k sz o d n).mem y = memGet s.mem y)

/-- R194, R197, R202, R212, R214: with no access under way, LDS and LDSM find their words at once: no byte
changes, the destinations are pending, and the words, extended as SIZE says, stand in the operation, where no error
has struck a word (R447). -/
def Obligations.ScratchpadLoads : Prop :=
  (∀ h sz o d a b s q x, issues s q (.lds h sz o d a b) = true → s.ops = [] → s.upsets = [] →
    (s.fl q).active h q.lanes ≠ 0 → x = sizeAcc h sz a b (fun _ _ => []) (s.fl q) →
    s.spTrap (s.fo q) ((s.fl q).active h q.lanes) x = none →
    watched (s.fl q) ((s.fl q).active h q.lanes) x 0 false = 0 →
    Next (.lds h sz o d a b) s fun t => SameBytes s t ∧ GoesOn s t q (.lds h sz o d a b) ∧
      t.fl q = { (s.fl q).pendRange d sz.words with pcs := (t.fl q).pcs, parked := (t.fl q).parked } ∧
      ∃ e, kget t.ops s.nextId = some e ∧ e.todo = [] ∧ e.dst = d ∧ e.nreg = sz.words ∧
        ∀ l < 32, kget e.res l = if act s q h l then some ((x.at_ l).map fun y =>
          extendWord sz (leNat (memRead s.mem (((s.fo q).place y).getD 0) x.bytes))) else none) ∧
  (∀ h n st d a b s q x, issues s q (.ldsm h n st d a b) = true → s.ops = [] → s.upsets = [] →
    (s.fl q).active h q.lanes ≠ 0 → n ≠ 0 → x = strideAcc h n st a b (s.fl q) →
    s.spTrap (s.fo q) ((s.fl q).active h q.lanes) x = none →
    watched (s.fl q) ((s.fl q).active h q.lanes) x 0 false = 0 →
    Next (.ldsm h n st d a b) s fun t => SameBytes s t ∧ GoesOn s t q (.ldsm h n st d a b) ∧
      t.fl q = { (s.fl q).pendRange d n with pcs := (t.fl q).pcs, parked := (t.fl q).parked } ∧
      ∃ e, kget t.ops s.nextId = some e ∧ e.todo = [] ∧ e.dst = d ∧ e.nreg = n ∧
        ∀ l < 32, kget e.res l = if act s q h l then some ((x.at_ l).map fun y =>
          BitVec.ofNat 32 (leNat (memRead s.mem (((s.fo q).place y).getD 0) 4))) else none)

/-- R143, R170, R180, R210, R249: the checks of every scratchpad access (LDS, STS, LDSM, STSM, ATOMS, CASS) and of
every commons-space access (LDC, STC, ATOMC, CASC, REDC) in their order, for the Active lanes that fail the first one:
ALIGN, then SPBOUNDS beyond the allocation and SPOWNER at an engine-owned chunk, or COMMONS and HOSTWIN; of SGET for the
band. Every matrix instruction of a fold that does not hold the accumulator set, or with a reserved bit, a slot or a
count that is not allowed, raises ENGPARAM, then SPBOUNDS or SPOWNER, and each kind of copy that fails a check
ENGPARAM, SPBOUNDS or SPOWNER; nothing is accessed or handed over. That a matrix instruction raises SPOWNER only for a
chunk that a copy engine holds is the model's reading of R180 (log 69). -/
def Obligations.AccessTraps : Prop :=
  (∀ (h : LHdr) (sz : MSize) (o : MOrder) (d : Nat) (a b : LSrc) (s : State) (q : Iss) (at_ : Nat → Nat),
    issues s q (.lds h sz o d a b) = true →
    (∀ l, at_ l = (val s q h a l + val s q h b l).toNat) →
    ((∃ l < 32, act s q h l = true ∧ at_ l % (elemBytes sz * sz.words) ≠ 0) →
      exec (.lds h sz o d a b) s = .next (s.trapAt q cAlign (maskOf fun l =>
        act s q h l && at_ l % (elemBytes sz * sz.words) != 0) false)) ∧
    ((∀ l < 32, act s q h l = true → at_ l % (elemBytes sz * sz.words) = 0) →
      (∃ l < 32, act s q h l = true ∧ 32768 * (s.fo q).segs.length < at_ l + elemBytes sz * sz.words) →
      exec (.lds h sz o d a b) s = .next (s.trapAt q cSpbounds (maskOf fun l =>
        act s q h l && decide (32768 * (s.fo q).segs.length < at_ l + elemBytes sz * sz.words)) false)) ∧
    ((∀ l < 32, act s q h l = true → at_ l % (elemBytes sz * sz.words) = 0 ∧
        at_ l + elemBytes sz * sz.words ≤ 32768 * (s.fo q).segs.length) →
      (∃ l < 32, act s q h l = true ∧ s.engineOwned (s.fo q) (at_ l / 512) = true) →
      exec (.lds h sz o d a b) s = .next (s.trapAt q cSpowner (maskOf fun l =>
        act s q h l && s.engineOwned (s.fo q) (at_ l / 512)) false))) ∧
  (∀ (s : State) (fo : Fold) (m : Mask) (x : Acc) (c : Nat) (bad : Mask),
    (s.spTrap fo m x = some (c, bad) → bad ≠ 0 ∧
      (c = cAlign ∧ bad = misaligned m x ∨
        misaligned m x = 0 ∧ c = cSpbounds ∧
          bad = (badLanes m x fun a => decide (32768 * fo.segs.length < a + x.bytes)) ∨
        misaligned m x = 0 ∧ (badLanes m x fun a => decide (32768 * fo.segs.length < a + x.bytes)) = 0 ∧
          c = cSpowner ∧ bad = badLanes m x fun a => s.engineOwned fo (a / 512))) ∧
    (s.cmTrap fo m x = some (c, bad) → bad ≠ 0 ∧
      (c = cAlign ∧ bad = misaligned m x ∨
        misaligned m x = 0 ∧ c = cCommons ∧ bad = (badLanes m x fun a => s.commonsBad fo a) ∨
        misaligned m x = 0 ∧ (badLanes m x fun a => s.commonsBad fo a) = 0 ∧ c = cHostwin ∧
          bad = badLanes m x fun a => s.windowBad fo a || (x.wide && selOf a != 0)))) ∧
  (∀ (i : Instr) (h : LHdr) (x : Flock → Acc) (s : State) (q : Iss) (t : Nat × Mask), issues s q i = true →
    ((∃ sz o d a b, i = .lds h sz o d a b ∧ x = sizeAcc h sz a b fun _ _ => []) ∨
      (∃ sz o a b c, i = .sts h sz o a b c ∧ x = sizeAcc h sz a b fun fl => dataWords fl h c sz.words) ∨
      (∃ n st d a b, i = .ldsm h n st d a b ∧ x = strideAcc h n st a b) ∨
      (∃ n st a b c, i = .stsm h n st a b c ∧ x = strideAcc h n st a b) ∨
      (∃ op sh o d a b, i = .atoms h op sh o d a b ∧ x = atomAcc h sh a b) ∨
      ∃ dbl o d a b c, i = .cass h dbl o d a b c ∧ x = casAcc h dbl a b c) →
    s.spTrap (s.fo q) ((s.fl q).active h q.lanes) (x (s.fl q)) = some t → Traps i s q t) ∧
  (∀ (i : Instr) (h : LHdr) (x : Flock → Acc) (s : State) (q : Iss) (t : Nat × Mask), issues s q i = true →
    ((∃ sz o d a b, i = .ldc h sz o d a b ∧ x = sizeAcc h sz a b fun _ _ => []) ∨
      (∃ sz o a b c, i = .stc h sz o a b c ∧ x = sizeAcc h sz a b fun fl => dataWords fl h c sz.words) ∨
      (∃ op sh o d a b, i = .atomc h op sh o d a b ∧ x = atomAcc h sh a b) ∨
      (∃ op sh a b, i = .redc h op sh a b ∧ x = atomAcc h sh a b) ∨
      ∃ dbl o d a b c, i = .casc h dbl o d a b c ∧ x = casAcc h dbl a b c) →
    s.cmTrap (s.fo q) ((s.fl q).active h q.lanes) (x (s.fl q)) = some t → Traps i s q t) ∧
  (∀ h sp d a b s q c m x, issues s q (.sget h sp d a b) = true → guardOk s q h = true →
    x = sgetAcc (uop s q h a + uop s q h b).toNat →
    (if sp then s.spTrap (s.fo q) (BitVec.ofNat 32 (2 ^ (lanesOf q.lanes).headD 0)) x
      else s.cmTrap (s.fo q) (BitVec.ofNat 32 (2 ^ (lanesOf q.lanes).headD 0)) x) = some (c, m) →
    Traps (.sget h sp d a b) s q (c, q.lanes)) ∧
  (∀ (i : Instr) (h : EHdr) (s : State) (q : Iss), issues s q i = true → (s.core q.core).accFold ≠ some q.fold →
    ((∃ a tile slot, i = .mma h a tile slot) ∨ (∃ tile slot raw z r, i = .mdrain h tile slot raw z r) ∨
      (∃ tile, i = .mloadLoad h tile) ∨ (∃ tile, i = .mloadAdd h tile) ∨ ∃ tile slot, i = .mloadAddv h tile slot) →
    Traps i s q (cEngparam, q.lanes)) ∧
  (∀ (h : UHdr) (mask : Nat) (s : State) (q : Iss), issues s q (.mzero h mask) = true → guardOk s q h = true →
    (s.core q.core).accFold ≠ some q.fold → Traps (.mzero h mask) s q (cEngparam, q.lanes)) ∧
  (∀ (i : Instr) (h : EHdr) (s : State) (q : Iss) (x : Nat) (chunks : List Nat) (reserved slotBad countBad : Bool),
    issues s q i = true → matTrap s q reserved slotBad countBad chunks = some x →
    ((∃ a tile slot, i = .mma h a tile slot ∧
        reserved = (decide (2 ^ 11 ≤ ueP s q h.p0) || decide (2 ^ 11 ≤ ueP s q h.p1)
          || bits (ueP s q h.p2) 31 29 != 0 || bits (ueP s q h.p2) 15 13 != 0 || ueP s q h.p3 != 0) ∧
        slotBad = (!mmaPair (s.slotVal q slot)) ∧
        countBad = (ueA s q h a % 32 != 0 || ueA s q h a == 0 || decide (4096 < ueA s q h a)) ∧
        chunks = mmaChunks (s.slotVal q slot) (ueA s q h a) (ueP s q h.p0) (ueP s q h.p1)
          (bits (ueP s q h.p2) 12 0) (bits (ueP s q h.p2) 28 16)) ∨
      (∃ tile slot raw z r, i = .mdrain h tile slot raw z r ∧ reserved = oneChunkBad s q h ∧ countBad = false ∧
        slotBad = (!raw && !(match slotDfmt (s.slotVal q slot) with
          | some t => drainFmt t
          | none => false)) ∧
        chunks = chunkRun (ueP s q h.p0)
          (2 * if raw then 24 else fmtBytes ((slotDfmt (s.slotVal q slot)).getD .f32))) ∨
      ((∃ tile, i = .mloadLoad h tile ∨ i = .mloadAdd h tile) ∧ reserved = oneChunkBad s q h ∧ slotBad = false ∧
        countBad = false ∧ chunks = chunkRun (ueP s q h.p0) 48) ∨
      ∃ tile slot, i = .mloadAddv h tile slot ∧ reserved = oneChunkBad s q h ∧ countBad = false ∧
        slotBad = (!(match slotDfmt (s.slotVal q slot) with
          | some t => addvFmt t
          | none => false)) ∧
        chunks = chunkRun (ueP s q h.p0) (2 * fmtBytes ((slotDfmt (s.slotVal q slot)).getD .f32))) →
    Traps i s q (x, q.lanes)) ∧
  (∀ (s : State) (q : Iss) (reserved slotBad countBad : Bool) (chunks : List Nat), matTrap s q reserved slotBad
      countBad chunks = if (s.core q.core).accFold ≠ some q.fold ∨ reserved = true ∨ slotBad = true ∨ countBad = true
        then some cEngparam
      else if ∃ ch ∈ chunks, 64 * (s.fo q).segs.length ≤ ch then some cSpbounds
      else if ∃ ch ∈ chunks, s.copyHolds (s.fo q) ch = true then some cSpowner else none) ∧
  (∀ (h : EHdr) (c : TcHdr) (a : USrc) (s : State) (q : Iss) (kind x : Nat) (i : Instr),
    i = .tcopyLoad h c a ∧ kind = 0 ∨ i = .tcopyStore h c a ∧ kind = 1 ∨ i = .tcopyFill h c a ∧ kind = 2 ∨
      i = .tcopyGather h c a ∧ kind = 3 ∨ i = .tcopyScatter h c a ∧ kind = 4 ∨
      i = .tcopyColl h c a ∧ kind = 5 →
    issues s q i = true →
    copyTrap s q kind c.rlog (ueA s q h a) (ueP s q h.p0) (ueP s q h.p1) (ueP s q h.p2) (ueP s q h.p3) = some x →
    Traps i s q (x, q.lanes) ∧ (x = cEngparam ∨ x = cSpbounds ∨ x = cSpowner)) ∧
  (∀ (s : State) (q : Iss) (rlog a p0 p1 p2 p3 : Nat) (chunks : List Nat),
    chunks = chunkRun (bits p2 10 0) (bits p2 26 16 + 1) →
    (copyTrap s q 0 rlog a p0 p1 p2 p3 = some cSpbounds → ∃ ch ∈ chunks, 64 * (s.fo q).segs.length ≤ ch) ∧
    (copyTrap s q 0 rlog a p0 p1 p2 p3 = some cSpowner → (∀ ch ∈ chunks, ch < 64 * (s.fo q).segs.length) ∧
      ∃ ch ∈ chunks, s.engineOwned (s.fo q) ch = true))

/-- R204 to R206, R212, R213, R234: COMMONS_OPERATION performs one lane's access that nothing holds back,
with the lanes of a load that one operation of the bank serves (all of one load at its bytes: log 75). With no other
entry under way, a store changes exactly its bytes, a load none and takes its words, and an atomic, a reduction and a
compare-and-swap store their new words and take the old ones (R205, R215 to R217), where no error has struck a word and
no ALU of the bank has failed (R445). An operation that needs promotions asks for them and is not performed, unless a
release still owes an access at its bytes, for which it waits (log 62). PROMOTION_END performs the operation once
every promotion that it asked for has ended; where the bank's record then names other cores, it asks for theirs. -/
def Obligations.CommonsPerform : Prop :=
  (∀ (o : MemOp) (l m : Nat), m ∈ o.served l ↔ (kget o.todo m).isSome = true ∧ (m = l ∨ o.kind = .load ∧
    isCommons ((o.addrs l).headD 0) = true ∧ o.addrs m ≠ [] ∧ (o.addrs m).headD 0 / 16 = (o.addrs l).headD 0 / 16)) ∧
  (∀ (s : State) (op l : Nat) (o : MemOp) (as : List Nat) (data : List Word), s.ops = [(op, o)] → Sound s →
    o.kind = .store → o.sp = false → kget o.todo l = some (as, data) → s.mayPerform op o l = true →
    o.promo = [] → s.promoFor o l = none → s.upsets = [] → o.alu = 0 →
    Next (.commonsOperation op l) s fun t =>
      (∀ y, memGet t.mem y = afterCells ((as.zip data).flatMap fun p => cellsOf p.1 o.bytes p.2) y
        (memGet s.mem y)) ∧
      ∀ e, kget t.ops op = some e → kget e.todo l = none) ∧
  (∀ (s : State) (op l : Nat) (o : MemOp), s.ops = [(op, o)] →
    o.kind = .load → o.sp = false → o.nreg ≠ 0 → o.counts = true → s.mayPerform op o l = true → o.promo = [] →
    (∀ m ∈ o.served l, s.promoFor o m = none) → s.upsets = [] → o.alu = 0 →
    Next (.commonsOperation op l) s fun t => SameBytes s t ∧ ∃ e, kget t.ops op = some e ∧
      kget e.todo l = none ∧ ∀ m ∈ o.served l, kget e.todo m = none ∧
        kget e.res m = some ((o.addrs m).map fun y => extendWord o.size (leNat (memRead s.mem y o.bytes)))) ∧
  (∀ (s : State) (op l : Nat) (o : MemOp) (as : List Nat) (data old new : List Word), s.ops = [(op, o)] → Sound s →
    o.sp = false → o.size = .w → o.bytes = 4 → kget o.todo l = some (as, data) → s.mayPerform op o l = true →
    o.promo = [] → s.promoFor o l = none → s.upsets = [] → o.alu = 0 → old = wordsOfMem (memGet s.mem) as →
    (∃ aop sh, o.kind = .atom aop sh ∧ new = atomNew aop sh old data) ∨
      (∃ dbl, o.kind = .cas dbl ∧ new = casNew old data) →
    Next (.commonsOperation op l) s fun t => (∀ y, memGet t.mem y = putWords (memGet s.mem) as new y) ∧
      (o.counts = true → ∃ e, kget t.ops op = some e ∧ kget e.todo l = none ∧
        (o.nreg ≠ 0 → kget e.res l = some old)) ∧
      (o.counts = false → ∀ e, kget t.ops op = some e → kget e.todo l = none)) ∧
  (∀ (s : State) (op l : Nat) (o : MemOp) (ps : List (Nat × Nat)), kget s.ops op = some o →
    s.mayPerform op o l = true → (∀ m ∈ o.served l, kget o.promo m = none) → s.promosOf o l = ps → ps ≠ [] →
    ((∀ m ∈ o.served l, s.owedAt (o.addrs m) o.bytes = false) →
      Next (.commonsOperation op l) s fun t => t = { s with ops := t.ops } ∧
        (∃ e, kget t.ops op = some e ∧ e = { o with promo := e.promo } ∧
          (∀ m c, (m, c) ∈ ps → kget e.promo m = some (c, s.nextId)) ∧
          ∀ m, (∀ c, (m, c) ∉ ps) → kget e.promo m = kget o.promo m) ∧
        ∀ j, j ≠ op → kget t.ops j = kget s.ops j) ∧
    ((∃ m ∈ o.served l, s.owedAt (o.addrs m) o.bytes = true) → exec (.commonsOperation op l) s = .next s)) ∧
  (∀ (s : State) (o : MemOp) (l m c : Nat), (m, c) ∈ s.promosOf o l ↔
    m ∈ o.served l ∧ s.promoFor o m = some c ∧ ∀ r, kget o.promo m ≠ some (c, r)) ∧
  (∀ m x : Word, atomNew .add .w1 [m] [x] = [m + x] ∧ atomNew .smin .w1 [m] [x] = [if x.slt m then x else m] ∧
    atomNew .smax .w1 [m] [x] = [if m.slt x then x else m] ∧ atomNew .umin .w1 [m] [x] = [if x.ult m then x else m] ∧
    atomNew .umax .w1 [m] [x] = [if m.ult x then x else m] ∧ atomNew .and .w1 [m] [x] = [m &&& x] ∧
    atomNew .or .w1 [m] [x] = [m ||| x] ∧ atomNew .xor .w1 [m] [x] = [m ^^^ x] ∧ atomNew .xchg .w1 [m] [x] = [x] ∧
    atomNew .fadd .w1 [m] [x] =
      [BitVec.ofNat 32 (addF fp32 .rne (fp32.decode m.toNat) (fp32.decode x.toNat)).1] ∧
    atomNew .fmax .w1 [m] [x] = [BitVec.ofNat 32 (minMaxF fp32 true m.toNat x.toNat).1] ∧
    ∃ w, atomNew .badd2 .w1 [m] [x] = [w] ∧ ∀ i < 2, w.toNat / 2 ^ (16 * i) % 2 ^ 16 =
      (addF bf16 .rne (bf16.decode (m.toNat / 2 ^ (16 * i) % 2 ^ 16))
        (bf16.decode (x.toNat / 2 ^ (16 * i) % 2 ^ 16))).1) ∧
  (∀ (op : AtomOp) (ms xs : List Word), ms.length = xs.length →
    (atomNew op .v2 ms xs).length = ms.length ∧ atomNew op .v4 ms xs = atomNew op .v2 ms xs ∧
    ∀ i < ms.length, atomNew op .w1 [ms.getD i 0] [xs.getD i 0] = [(atomNew op .v2 ms xs).getD i 0]) ∧
  (∀ (op : AtomOp) (a b x y : Word) (m v n : DWord), op ∉ [.fadd, .badd2, .fmax] → m = b ++ a → v = y ++ x →
    n = (match op with
      | .add => m + v
      | .smin => if v.slt m then v else m
      | .smax => if m.slt v then v else m
      | .umin => if v.ult m then v else m
      | .umax => if m.ult v then v else m
      | .and => m &&& v
      | .or => m ||| v
      | .xor => m ^^^ v
      | _ => v) →
    atomNew op .d64 [a, b] [x, y] = [n.setWidth 32, (n >>> 32).setWidth 32]) ∧
  (∀ (i : Instr) (h : LHdr) (s : State) (q : Iss) (x : Acc) (d : Nat) (m : Mask) (n : Nat)
      (f : List Word → List Word → List Word) (at_ : Nat → List Nat),
    ((∃ op sh o a b, i = .atoms h op sh o d a b ∧ x = atomAcc h sh a b (s.fl q) ∧ f = atomNew op sh ∧ n = sh.words) ∨
      ∃ dbl o a b c, i = .cass h dbl o d a b c ∧ x = casAcc h dbl a b c (s.fl q) ∧ f = casNew ∧
        n = if dbl then 2 else 1) →
    issues s q i = true → Sound s → s.ops = [] → s.upsets = [] → m = (s.fl q).active h q.lanes → m ≠ 0 →
    (∀ t, (s.stageOf q.core q.stage).turn = some t → t.alu = 0) →
    s.spTrap (s.fo q) m x = none → watched (s.fl q) m x 0 true = 0 →
    at_ = (fun l => (x.at_ l).map fun e => ((s.fo q).place e).getD 0) →
    Next i s fun t => GoesOn s t q i ∧
      (∀ y, memGet t.mem y = lanesApply f at_ x.data (lanesOf m) (memGet s.mem) y) ∧
      t.fl q = { (s.fl q).pendRange d n with pcs := (t.fl q).pcs, parked := (t.fl q).parked } ∧
      ∃ e, kget t.ops s.nextId = some e ∧ e.todo = [] ∧ e.dst = d ∧ e.nreg = n ∧
        ∀ l < 32, kget e.res l = if m.getLsbD l then some (wordsOfMem
          (lanesApply f at_ x.data ((lanesOf m).filter fun j => decide (j < l)) (memGet s.mem)) (at_ l)) else none) ∧
  (∀ (s : State) (core req : Nat), s.promoted core req = true ↔ ∀ e ∈ s.ops, ∀ w ∈ e.2.owed, e.2.core = core →
    (kget e.2.todo w.1).isSome = true → ∀ n, kget e.2.owed w.1 = some n → req < n) ∧
  (∀ (s : State) (op l : Nat) (o : MemOp), s.ops = [(op, o)] → s.mayPerform op o l = true → o.counts = true →
    o.sp = false → (∃ p ∈ o.promo, p.1 ∈ o.served l) →
    ((∀ p ∈ o.promo, p.1 ∈ o.served l → s.promoted p.2.1 p.2.2 = true) →
      (s.promosOf o l = [] → Next (.promotionEnd op l) s fun t => ∃ e, kget t.ops op = some e ∧
        ∀ m ∈ o.served l, kget e.todo m = none ∧ kget e.promo m = none) ∧
      (s.promosOf o l ≠ [] → (∀ m ∈ o.served l, s.owedAt (o.addrs m) o.bytes = false) →
        Next (.promotionEnd op l) s fun t => t = { s with ops := t.ops } ∧ ∃ e, kget t.ops op = some e ∧
          ∀ m c, (m, c) ∈ s.promosOf o l → kget e.promo m = some (c, s.nextId))) ∧
    ((∃ p ∈ o.promo, p.1 ∈ o.served l ∧ s.promoted p.2.1 p.2.2 = false) →
      exec (.promotionEnd op l) s = .next s))

/-- R144, R276, R286, R404: RESULT_RETURN, once every access is performed and the flock's turn is over, writes the
values of each destination register into the lanes that have not exited, or a uniform result into its s register, ends
their pending state, and removes the operation; no byte of memory changes. An s register that a load of the other band
makes pending too stays so. Where an access met an uncorrectable error, the destinations keep their values, ECC is
delivered to the flock (R403, R404, R447), and the rest is as above. A flock that another one of its index has replaced
since takes nothing (R186, R286). -/
def Obligations.ResultReturns : Prop :=
  ∀ (s : State) (id : Nat) (o : MemOp), kget s.ops id = some o → o.todo = [] → o.nreg ≠ 0 → o.dst + o.nreg ≤ 64 →
    s.inTurn o.core o.fold o.flock = false → (s.flock? o.fold o.flock).isSome = true →
    ((s.flock o.fold o.flock).born ≠ o.born → Next (.resultReturn id) s fun t => SameBytes s t ∧
      kget t.ops id = none ∧ t.flock o.fold o.flock = s.flock o.fold o.flock) ∧
    ((s.flock o.fold o.flock).born = o.born → Next (.resultReturn id) s fun t => SameBytes s t ∧
      kget t.ops id = none ∧
      (o.failed = true → (s.flock o.fold o.flock).handler = false → (s.flock o.fold o.flock).live ≠ 0 →
        (t.flock o.fold o.flock).deliver = (s.flock o.fold o.flock).deliver ||| causeBit cEcc) ∧
      (o.uni = false → (t.flock o.fold o.flock).s = (s.flock o.fold o.flock).s ∧
        (∀ n < 64, (t.flock o.fold o.flock).pendV.getLsbD n =
          ((s.flock o.fold o.flock).pendV.getLsbD n && !(decide (o.dst ≤ n) && decide (n < o.dst + o.nreg)))) ∧
        (o.failed = true → (t.flock o.fold o.flock).v = (s.flock o.fold o.flock).v) ∧
        (o.failed = false → ∀ n, ∀ l < 32, (t.flock o.fold o.flock).getV n l =
          if o.dst ≤ n ∧ n < o.dst + o.nreg ∧ (s.flock o.fold o.flock).exited.getLsbD l = false then
            match kget o.res l with
            | some r => r.getD (n - o.dst) 0
            | none => (s.flock o.fold o.flock).getV n l
          else (s.flock o.fold o.flock).getV n l)) ∧
      (o.uni = true → (t.flock o.fold o.flock).v = (s.flock o.fold o.flock).v ∧
        (o.failed = true → (t.flock o.fold o.flock).s = (s.flock o.fold o.flock).s) ∧
        (o.failed = false → ∀ n, (t.flock o.fold o.flock).getS n =
          if o.dst ≤ n ∧ n < o.dst + o.nreg then ((o.res.headD (0, [])).2).getD (n - o.dst) 0
          else (s.flock o.fold o.flock).getS n) ∧
        ((∃ e ∈ s.ops, e.1 ≠ id ∧ e.2.fold = o.fold ∧ e.2.flock = o.flock ∧ e.2.uni = true ∧ e.2.nreg ≠ 0 ∧
          e.2.dst = o.dst) → (t.flock o.fold o.flock).pendS = (s.flock o.fold o.flock).pendS) ∧
        ((∀ e ∈ s.ops, e.1 ≠ id → e.2.fold = o.fold → e.2.flock = o.flock → e.2.uni = true → e.2.dst = o.dst →
            e.2.nreg = 0) → ∀ n < 64, (t.flock o.fold o.flock).pendS.getLsbD n =
          ((s.flock o.fold o.flock).pendS.getLsbD n && !(decide (o.dst ≤ n) && decide (n < o.dst + o.nreg))))))

/-! ### Matrix unit -/

/-- R179 to R188: a matrix command that passes the checks of R180 joins the queue of the core with its
chunks engine-owned; nothing else happens at issue. -/
def Obligations.MatrixIssue : Prop :=
  (∀ h a tile slot s q, issues s q (.mma h a tile slot) = true →
    matTrap s q (decide (2 ^ 11 ≤ ueP s q h.p0) || decide (2 ^ 11 ≤ ueP s q h.p1)
        || bits (ueP s q h.p2) 31 29 != 0 || bits (ueP s q h.p2) 15 13 != 0 || ueP s q h.p3 != 0)
      (!mmaPair (s.slotVal q slot))
      (ueA s q h a % 32 != 0 || ueA s q h a == 0 || decide (4096 < ueA s q h a))
      (mmaChunks (s.slotVal q slot) (ueA s q h a) (ueP s q h.p0) (ueP s q h.p1)
        (bits (ueP s q h.p2) 12 0) (bits (ueP s q h.p2) 28 16)) = none →
    Next (.mma h a tile slot) s fun t => Leaves s (s.queueMat q
      { matCmd s q 0 tile (mmaChunks (s.slotVal q slot) (ueA s q h a) (ueP s q h.p0) (ueP s q h.p1)
          (bits (ueP s q h.p2) 12 0) (bits (ueP s q h.p2) 28 16)) with
        slot := s.slotVal q slot, k := ueA s q h a, a := ueP s q h.p0, b := ueP s q h.p1
        aoff := bits (ueP s q h.p2) 12 0, boff := bits (ueP s q h.p2) 28 16 }) t q (.mma h a tile slot)) ∧
  (∀ h mask s q, issues s q (.mzero h mask) = true → guardOk s q h = true →
    (s.core q.core).accFold = some q.fold →
    Next (.mzero h mask) s fun t => Leaves s (s.queueMat q (matCmd s q 1 mask [])) t q (.mzero h mask)) ∧
  (∀ h tile slot raw z r s q w, issues s q (.mdrain h tile slot raw z r) = true →
    w = (if raw then 24 else fmtBytes ((slotDfmt (s.slotVal q slot)).getD .f32)) →
    matTrap s q (oneChunkBad s q h) (!raw && !(match slotDfmt (s.slotVal q slot) with
      | some t => drainFmt t
      | none => false)) false (chunkRun (ueP s q h.p0) (2 * w)) = none →
    Next (.mdrain h tile slot raw z r) s fun t => Leaves s (s.queueMat q
      { matCmd s q 2 tile (chunkRun (ueP s q h.p0) (2 * w)) with
        slot := s.slotVal q slot, a := ueP s q h.p0, raw := raw, z := z, rnd := r }) t q
      (.mdrain h tile slot raw z r)) ∧
  (∀ h tile s q, issues s q (.mloadLoad h tile) = true →
    matTrap s q (oneChunkBad s q h) false false (chunkRun (ueP s q h.p0) 48) = none →
    Next (.mloadLoad h tile) s fun t => Leaves s (s.queueMat q
      { matCmd s q 3 tile (chunkRun (ueP s q h.p0) 48) with slot := 0, a := ueP s q h.p0 }) t q
      (.mloadLoad h tile)) ∧
  (∀ h tile s q, issues s q (.mloadAdd h tile) = true →
    matTrap s q (oneChunkBad s q h) false false (chunkRun (ueP s q h.p0) 48) = none →
    Next (.mloadAdd h tile) s fun t => Leaves s (s.queueMat q
      { matCmd s q 4 tile (chunkRun (ueP s q h.p0) 48) with slot := 0, a := ueP s q h.p0 }) t q
      (.mloadAdd h tile)) ∧
  (∀ h tile slot s q f, issues s q (.mloadAddv h tile slot) = true →
    slotDfmt (s.slotVal q slot) = some f → addvFmt f = true →
    matTrap s q (oneChunkBad s q h) false false (chunkRun (ueP s q h.p0) (2 * fmtBytes f)) = none →
    Next (.mloadAddv h tile slot) s fun t => Leaves s (s.queueMat q
      { matCmd s q 5 tile (chunkRun (ueP s q h.p0) (2 * fmtBytes f)) with
        slot := s.slotVal q slot, a := ueP s q h.p0 }) t q (.mloadAddv h tile slot))

/-- R173, R179, R182, R184 to R188, R201: the unit takes the oldest command once no held scratchpad access
touches its chunks and nothing that its issue came after holds it (R229): MMA adds into its tile, MZERO zeroes the
tiles of its mask, MDRAIN stores the raw or rounded elements and merges its flags into FFLAGS of the flock that issued
it, MLOAD fills or adds; the command leaves the queue. A command that reads a word that an error has struck changes no
tile (R447). -/
def Obligations.MatrixCommand : Prop :=
  ∀ (s : State) (core : Nat) (c : MatCmd) (rest : List MatCmd), (s.core core).mq = c :: rest →
    s.matReady core c = true →
    (s.matBad core c = true → Next (.matrixCommandStart core) s fun t => SameBytes s t ∧
      (t.core core).mq = rest ∧ (t.core core).tiles = (s.core core).tiles) ∧
    (s.matBad core c = false → Next (.matrixCommandStart core) s fun t => (t.core core).mq = rest ∧
      (c.op ≠ 2 → SameBytes s t) ∧
      (c.op = 0 → (t.core core).tile c.tile = mmaTile (s.segRead core c.segs) c.slot c.k c.a c.b c.aoff c.boff
        ((s.core core).tile c.tile)) ∧
      (c.op = 1 → ∀ i < 4, (t.core core).tile i =
        if bitOf c.tile i then Tile.zero else (s.core core).tile i) ∧
      (c.op = 2 → ∀ (bs : List Byte) (g : Flg), (bs, g) = (if c.raw then (drainRaw ((s.core core).tile c.tile), 0)
          else drainBytes ((slotDfmt c.slot).getD .f32) c.slot (slotRnd c.slot c.rnd .rne)
            ((s.core core).tile c.tile)) →
        t.mem = (s.segWrite core c.segs (512 * c.a) bs).mem ∧
        (t.core core).tile c.tile = (if c.z then Tile.zero else (s.core core).tile c.tile) ∧
        ((s.flock? c.fold c.flock).isSome = true → (s.flock c.fold c.flock).born = c.born →
          (s.flock c.fold c.flock).live ≠ 0 → t.flock c.fold c.flock = { s.flock c.fold c.flock with
            fflags := (s.flock c.fold c.flock).fflags ||| (g ||| tileFlags ((s.core core).tile c.tile)) }) ∧
        ((s.flock c.fold c.flock).born ≠ c.born → t.folds = s.folds)) ∧
      (c.op = 3 → (t.core core).tile c.tile = mloadLoadTile (s.segRead core c.segs) c.a) ∧
      (c.op = 4 → (t.core core).tile c.tile = mloadAddTile (s.segRead core c.segs) c.a
        ((s.core core).tile c.tile)) ∧
      (c.op = 5 → (t.core core).tile c.tile = mloadAddvTile (s.segRead core c.segs) c.slot c.a
        ((s.core core).tile c.tile)))

/-! ### Tile copies -/

/-- R243, R247 to R250, R260: a TCOPY that passes its checks joins its queue unstarted, with its chunks
engine-owned, the queue bound to a stream at its first use. -/
def Obligations.CopyIssue : Prop :=
  ∀ (h : EHdr) (c : TcHdr) (a : USrc) (s : State) (q : Iss) (kind : Nat) (i : Instr),
    i = .tcopyLoad h c a ∧ kind = 0 ∨ i = .tcopyStore h c a ∧ kind = 1 ∨ i = .tcopyFill h c a ∧ kind = 2 ∨
      i = .tcopyGather h c a ∧ kind = 3 ∨ i = .tcopyScatter h c a ∧ kind = 4 ∨
      i = .tcopyColl h c a ∧ kind = 5 →
    issues s q i = true →
    copyTrap s q kind c.rlog (ueA s q h a) (ueP s q h.p0) (ueP s q h.p1) (ueP s q h.p2) (ueP s q h.p3) = none →
    Next i s fun t => SameBytes s t ∧ GoesOn s t q i ∧
      t.fl q = { s.fl q with pcs := (t.fl q).pcs, parked := (t.fl q).parked } ∧
      (∃ o, kget t.copies s.nextId = some o ∧ o.kind = kind ∧ o.phase = 0 ∧ o.fold = q.fold ∧
        o.flock = q.flock ∧ o.qn = c.qn ∧ o.addr = bits (ueP s q h.p1) 19 0 * 2 ^ 32 + ueP s q h.p0 ∧
        o.pitch = ueA s q h a ∧ o.first = bits (ueP s q h.p2) 10 0 ∧
        o.count = bits (ueP s q h.p2) 26 16 + 1 ∧ o.note = ueP s q h.p3 % 4 ∧
        ∀ ch ∈ o.chunks, kget (t.core (s.fo q).core).own (segChunk (s.fo q).segs ch) = some (.copy s.nextId)) ∧
      (kget (t.fo q).queues c.qn).isSome = true ∧
      ∀ id, id ≠ s.nextId → kget t.copies id = kget s.copies id

/-! ### Privileged instructions of the control paddock -/

/-- R334 to R338: a PCFG of an element, index and value that the register has, which R336 does not refuse,
joins the configuration unit with its old value; one that fails a check raises ENGPARAM, as every write of SAVEAREA does. PCFG.RD asks the unit to store the register's value
at the commons-space address of parameter word 3. That R336 is judged against the registers as every earlier write leaves
them, completed or not, is the model's choice (log 23): the rule judges against the configuration as it then stands. -/
def Obligations.ConfigCommands : Prop :=
  (∀ (h : EHdr) (a : USrc) (i : Instr) (tgt reg v : Nat) (s : State) (q : Iss),
    (i, tgt, reg) ∈ [(Instr.pcfgPctl h a, 0, 0x00), (.pcfgCores h a, 0, 0x01), (.pcfgChans h a, 0, 0x02),
      (.pcfgCommons h a, 0, 0x03), (.pcfgStreams h a, 0, 0x04), (.pcfgKeys h a, 0, 0x05),
      (.pcfgCrook h a, 0, 0x06), (.pcfgTracebuf h a, 0, 0x07), (.pcfgDrover h a, 0, 0x08),
      (.pcfgFaultq h a, 0, 0x09), (.pcfgStopHold h a, 0, 0x0A), (.pcfgStopReset h a, 0, 0x0A),
      (.pcfgStopRelease h a, 0, 0x0A), (.pcfgEvq h a, 0, 0x0B), (.pcfgDeadline h a, 0, 0x0C),
      (.pcfgNetred h a, 0, 0x0D), (.pcfgCode h a, 0, 0x0E), (.pcfgGrouptab h a, 0, 0x0F),
      (.pcfgVctl h a, 1, 0x00), (.pcfgS2root h a, 1, 0x01),
      (.pcfgS1root h a, 1, 0x02), (.pcfgHwin h a, 1, 0x03), (.pcfgVdn h a, 1, 0x04),
      (.pcfgTracectl h a, 1, 0x05), (.pcfgHot h a, 2, 0x00), (.pcfgQwin h a, 2, 0x01)] →
    issues s q i = true → v = ueP s q h.p0 + 2 ^ 32 * ueP s q h.p1 →
    ((ueA s q h a < cfgElems tgt ∧ ueP s q h.p2 < cfgIndexes tgt reg ∧ cfgFieldOk tgt reg v = true ∧
        s.cfgView.cfgRefused tgt reg (ueA s q h a) (ueP s q h.p2) v = false ∧ noteOk s q h = true) →
      Next i s fun t => Submits s t q i (noted s q h
        { privOf 20 (ueA s q h a) [s.cfgView.reg tgt (ueA s q h a) reg (ueP s q h.p2)] with
          reg := 32 * tgt + reg, ix := ueP s q h.p2, val := v }) false) ∧
    (cfgElems tgt ≤ ueA s q h a ∨ cfgIndexes tgt reg ≤ ueP s q h.p2 ∨ cfgFieldOk tgt reg v = false ∨
        s.cfgView.cfgRefused tgt reg (ueA s q h a) (ueP s q h.p2) v = true ∨ noteOk s q h = false →
      exec i s = .next (s.trapAt q cEngparam q.lanes false))) ∧
  (∀ (h : EHdr) (a : USrc) (tgt reg : Nat) (s : State) (q : Iss), issues s q (.pcfgRd h a tgt reg) = true →
    ueA s q h a < cfgElems tgt → ueP s q h.p2 < cfgIndexes tgt reg → ueP s q h.p0 = 0 → ueP s q h.p1 = 0 →
    ueP s q h.p3 % 8 = 0 → s.commonsBad (s.fo q) (ueP s q h.p3) = false →
    s.windowBad (s.fo q) (ueP s q h.p3) = false →
    Next (.pcfgRd h a tgt reg) s fun t => Submits s t q (.pcfgRd h a tgt reg)
      { privOf 21 (ueA s q h a) [] with
        reg := 32 * tgt + reg, ix := ueP s q h.p2, naddr := s.cmPlace (s.fo q) (ueP s q h.p3) } false) ∧
  (∀ (h : EHdr) (a : USrc) (s : State) (q : Iss), issues s q (.pcfgSavearea h a) = true →
    exec (.pcfgSavearea h a) s = .next (s.trapAt q cEngparam q.lanes false))

/-- R350, R351: PKEY on a key slot: GEN and LOAD of one that is EMPTY, LOAD with 64 bytes of commons, ERASE of
one that is LIVE, which it makes ERASING, its lines gone from the caches. The material is told apart by a number (a
choice of the model, log 31); LOAD reads its bytes in the cycle of issue, and one that an error has struck raises ECC
(R404, R447).
R360, R363, R365: SLICE writes its entry at once; QOSSET and MSG join their units without being outstanding
operations of the flock. -/
def Obligations.KeyAndSharingCommands : Prop :=
  (∀ (h : EHdr) (a : USrc) (s : State) (q : Iss), 1 ≤ ueA s q h a → ueA s q h a < 4096 →
    ueP s q h.p1 = 0 → ueP s q h.p2 = 0 → noteOk s q h = true →
    (issues s q (.pkeyGen h a) = true → ueP s q h.p0 = 0 → s.slotFree (ueA s q h a) = true →
      Next (.pkeyGen h a) s fun t => Submits s t q (.pkeyGen h a)
        (noted s q h { privOf 10 (ueA s q h a) [] with val := 2 * s.nextId + 2 }) false) ∧
    (issues s q (.pkeyLoad h a) = true → ueP s q h.p0 % 64 = 0 → inCommons s q (ueP s q h.p0) 64 = true →
      s.slotFree (ueA s q h a) = true → s.struck (s.cmPlace (s.fo q) (ueP s q h.p0)) 64 = true →
      Traps (.pkeyLoad h a) s q (cEcc, q.lanes)) ∧
    (issues s q (.pkeyLoad h a) = true → ueP s q h.p0 % 64 = 0 → inCommons s q (ueP s q h.p0) 64 = true →
      s.slotFree (ueA s q h a) = true → s.struck (s.cmPlace (s.fo q) (ueP s q h.p0)) 64 = false →
      Next (.pkeyLoad h a) s fun t => Submits s t q (.pkeyLoad h a) (noted s q h
        { privOf 10 (ueA s q h a) [] with
          val := 2 * leNat (memRead s.mem (s.cmPlace (s.fo q) (ueP s q h.p0)) 64) + 1 }) false) ∧
    (issues s q (.pkeyErase h a) = true → ueP s q h.p0 = 0 → s.keyLive (ueA s q h a) = true →
      Next (.pkeyErase h a) s fun t => Submits
        (State.loseSlot { s with keys := kset s.keys (ueA s q h a) { s.key (ueA s q h a) with st := 2 } }
          (ueA s q h a)) t q (.pkeyErase h a)
        (noted s q h { privOf 11 (ueA s q h a) [] with val := 2 * s.nextId + 2 }) false)) ∧
  (∀ h a entry s q p x len, issues s q (.slice h a entry) = true → p = ueA s q h a → x = ueP s q h.p0 →
    len = ueP s q h.p1 → p < 32 → s.kind p = 2 → x < 256 → len < 2 ^ 24 → ueP s q h.p2 = 0 →
    noteOk s q h = true →
    (x.testBit 7 = true → s.vdValid (x % 128) = true ∧ s.vdPad (x % 128) = p ∧ len ≠ 0) →
    Next (.slice h a entry) s fun t => Submits
      (s.modPad p fun d => { d with slices := kset d.slices entry ⟨x.testBit 7, x % 128, len⟩ }) t q
      (.slice h a entry) (noted s q h (privOf 15 p [])) false) ∧
  (∀ h a s q p st x, issues s q (.qossetBw h a) = true → p = ueA s q h a → st = ueP s q h.p0 →
    x = ueP s q h.p1 → p < 32 → st < 16 → ueP s q h.p2 = 0 → noteOk s q h = true →
    x = bits x 10 0 + 65536 * bits x 26 16 → bits x 10 0 ≤ bits x 26 16 → 1 ≤ bits x 26 16 →
    bits x 26 16 ≤ 1024 → bits x 10 0 ≤ 32 * s.ownChans p st →
    bits x 10 0 + s.minSum st (otherPads p) ≤ s.capacity st →
    Next (.qossetBw h a) s fun t => Submits s t q (.qossetBw h a)
      (noted s q h { privOf 16 p [] with ix := st, val := x }) false) ∧
  (∀ h a s q, issues s q (.qossetWays h a) = true → ueA s q h a < 32 → ueP s q h.p0 < 16 →
    ueP s q h.p1 < 65536 → ueP s q h.p2 = 0 → noteOk s q h = true →
    Next (.qossetWays h a) s fun t => Submits s t q (.qossetWays h a)
      (noted s q h { privOf 17 (ueA s q h a) [] with ix := ueP s q h.p0, val := ueP s q h.p1 }) false) ∧
  (∀ h a dest s q, issues s q (.msg h a dest) = true →
    (if dest = 3 then s.vdValid (ueA s q h a) = true else a = .zero) →
    Next (.msg h a dest) s fun t => Submits s t q (.msg h a dest)
      { privOf 19 (if dest = 3 then ueA s q h a else 127 + dest)
          [ueP s q h.p0, ueP s q h.p1, ueP s q h.p2, ueP s q h.p3] with reg := dest } false)

/-- R345 to R348, R352: PMAP, TLBI, VDNSET and CLEARP that pass their checks are outstanding operations of the
flock at their unit. A PMAP whose checks meet a table that cannot be read raises ECC (R404, R447; that this stands
before the checks that hang on it is log 91). -/
def Obligations.TranslationCommands : Prop :=
  (∀ h a lvl s q e, issues s q (.pmap h a lvl) = true → ueA s q h a < 128 → ueP s q h.p0 < 2 ^ 31 →
    ueP s q h.p3 = 0 → e = ueP s q h.p1 + 2 ^ 32 * ueP s q h.p2 →
    (s.pmapUnread (ueA s q h a) (lvl + 1) (ueP s q h.p0 * 2 ^ 17) e = false →
      s.pmapBad (ueA s q h a) (lvl + 1) (ueP s q h.p0 * 2 ^ 17) e = false →
      Next (.pmap h a lvl) s fun t => Submits s t q (.pmap h a lvl)
        { privOf 12 (ueA s q h a) [] with reg := lvl + 1, ix := ueP s q h.p0 * 2 ^ 17, val := e } true) ∧
    (s.pmapOdd (ueA s q h a) (lvl + 1) (ueP s q h.p0 * 2 ^ 17) = false →
      s.pmapUnread (ueA s q h a) (lvl + 1) (ueP s q h.p0 * 2 ^ 17) e = true →
      Traps (.pmap h a lvl) s q (cEcc, q.lanes))) ∧
  (∀ h a b i s q, issues s q i = true → guardOk s q h = true →
    (i = .tlbiVd h a ∧ s.vdValid (uop s q h a).toNat = true ∨
      i = .tlbiPage h a b ∧ s.vdValid (uop s q h a).toNat = true ∧ (uop s q h b).toNat < 2 ^ 31 ∨
      i = .tlbiPad h a ∧ (uop s q h a).toNat < 32 ∨ i = .tlbiAll h a ∧ uop s q h a = 0) →
    Next i s fun t => Submits s t q i (privOf 13 0 []) true) ∧
  (∀ h a b s q, issues s q (.vdnset h a b) = true → guardOk s q h = true → (uop s q h a).toNat < 2 ^ 28 →
    (uop s q h b).toNat < 2 ^ 24 →
    (bits (uop s q h b).toNat 1 0 = 1 → s.vdValid (bits (uop s q h b).toNat 8 2) = true) →
    Next (.vdnset h a b) s fun t => Submits s t q (.vdnset h a b)
      { privOf 14 0 [] with
        ix := bits (uop s q h a).toNat 15 0, reg := bits (uop s q h a).toNat 27 16
        val := (uop s q h b).toNat } true) ∧
  (∀ h a b s q, issues s q (.clearp h a b) = true → guardOk s q h = true → (uop s q h b).toNat ≠ 0 →
    (uop s q h a).toNat + (uop s q h b).toNat ≤ 2 ^ 23 →
    (∀ e ∈ s.pages, (uop s q h a).toNat ≤ e.1 → e.1 < (uop s q h a).toNat + (uop s q h b).toNat →
      e.2.count = 0 ∧ e.2.table = false) →
    Next (.clearp h a b) s fun t => Submits s t q (.clearp h a b)
      { privOf 18 0 [] with ix := (uop s q h a).toNat, val := (uop s q h b).toNat } true)

/-- R385, R387, R404, R423, R424, R426, R433 to R437: CRKLOAD reads its words in the cycle of issue, and raises ECC
where an error has struck one; with CODEMV, SHEP,
SAVEX and LOADX that pass their checks it is an outstanding operation of the flock. SAVEX.SAVE freezes the
virtual device at once. -/
def Obligations.CodeAndMigrationCommands : Prop :=
  (∀ h a crn s q ws, issues s q (.crkloadLoad h a crn) = true →
    crkBad s q 0 crn (ueA s q h a) (ueP s q h.p0) (ueP s q h.p1) (ueP s q h.p2) (ueP s q h.p3) = false →
    ws = (List.range (bits (ueP s q h.p1) 4 0)).map (fun k =>
      leNat (memRead s.mem (s.cmPlace (s.fo q) (ueP s q h.p0 + 8 * k)) 8) % 2 ^ 64) →
    s.struck (s.cmPlace (s.fo q) (ueP s q h.p0)) (8 * bits (ueP s q h.p1) 4 0) = false →
    Next (.crkloadLoad h a crn) s fun t => Submits s t q (.crkloadLoad h a crn) (noted s q h
      { privOf 0 (bits (ueA s q h a) 4 0) ws with
        reg := 16 * bits (ueA s q h a) 10 8 + crn, ix := bits (ueP s q h.p1) 26 16, val := ueP s q h.p2 })
      true) ∧
  (∀ h a crn s q, issues s q (.crkloadLoad h a crn) = true →
    crkBad s q 0 crn (ueA s q h a) (ueP s q h.p0) (ueP s q h.p1) (ueP s q h.p2) (ueP s q h.p3) = false →
    s.struck (s.cmPlace (s.fo q) (ueP s q h.p0)) (8 * bits (ueP s q h.p1) 4 0) = true →
    Traps (.crkloadLoad h a crn) s q (cEcc, q.lanes)) ∧
  (∀ h a crn i k s q, i = .crkloadUnbind h a crn ∧ k = 1 ∨ i = .crkloadEvict h a crn ∧ k = 2 →
    issues s q i = true →
    crkBad s q k crn (ueA s q h a) (ueP s q h.p0) (ueP s q h.p1) (ueP s q h.p2) (ueP s q h.p3) = false →
    Next i s fun t => Submits s t q i (noted s q h
      { privOf k (bits (ueA s q h a) 4 0) [] with
        reg := 16 * bits (ueA s q h a) 10 8 + crn, ix := bits (ueP s q h.p1) 26 16, val := ueP s q h.p2 })
      true) ∧
  (∀ h a s q p old new len o, issues s q (.codemv h a) = true → p = ueA s q h a → old = ueP s q h.p0 →
    new = ueP s q h.p1 → len = ueP s q h.p2 → p < 32 → s.kind p ≠ 0 → old % 4096 = 0 → new % 4096 = 0 →
    len ≠ 0 → o ∈ (s.pad p).objs → o.2.base = old → o.2.span = len →
    (∀ e ∈ (s.pad p).objs, rangesMeet new len e.2.base e.2.span = false) →
    (∀ e ∈ (s.pad p).fwd, rangesMeet new len e.2.old e.2.len = false) → (s.pad p).fwd.length < 16 →
    noteOk s q h = true →
    Next (.codemv h a) s fun t => Submits s t q (.codemv h a)
      (noted s q h (privOf 44 p [old, new, len])) true) ∧
  (∀ h a i cmd s q u, (i, cmd) ∈ [(Instr.shepBegin h a, 0), (.shepRound h a, 1), (.shepStop h a, 2),
      (.shepAbort h a, 3), (.shepAccept h a, 4)] → issues s q i = true →
    u = (s.advance q i).shepArgsNow cmd (ueA s q h a) (ueP s q h.p0) (ueP s q h.p1) →
    s.shepBad cmd (ueA s q h a) (ueP s q h.p0) (ueP s q h.p1) false = false → ueP s q h.p2 % 32 = 0 →
    inCommons s q (ueP s q h.p2) 32 = true → noteOk s q h = true →
    (Next i s fun t => Submits { s with free := u.2.free } t q i (noted s q h
      { privOf (30 + cmd) (ueA s q h a) u.1 with
        reg := s.cmPlace (s.fo q) (ueP s q h.p2) }) true) ∧
    (cmd ≠ 2 → u.2.free = s.free ∧ u.1 = [ueP s q h.p0, ueP s q h.p1]) ∧
    (cmd = 2 → u.1 = [ueP s q h.p0, ueP s q h.p1, ((s.advance q i).predict (ueA s q h a)).1])) ∧
  (∀ h a i op s q v pa, (i, op) ∈ [(Instr.savexSave h a, 0), (.savexThaw h a, 1), (.savexDiscard h a, 2),
      (.loadx h a, 3)] → issues s q i = true → v = ueA s q h a →
    pa = ueP s q h.p0 + 2 ^ 32 * (ueP s q h.p1 % 4096) → s.vdValid v = true →
    (if op = 1 ∨ op = 2 then ueP s q h.p0 = 0 ∧ ueP s q h.p1 = 0
      else ueP s q h.p0 % 8 = 0 ∧ (isHbm pa = true ∨ isHostAddr pa = true)) →
    ueP s q h.p2 % 8 = 0 → s.commonsBad (s.fo q) (ueP s q h.p2) = false →
    s.windowBad (s.fo q) (ueP s q h.p2) = false → noteOk s q h = true →
    (s.vd v).frozen = (op == 1 || op == 2) → (op = 3 → s.drovesOf v = []) →
    Next i s fun t => Submits
      (if op = 0 then s.modVd v fun d => { d with frozen := true } else s) t q i (noted s q h
      { privOf (40 + op) v [pa, ueP s q h.p1 / 4096 * 4096] with
        reg := s.cmPlace (s.fo q) (ueP s q h.p2) }) true)

/-! ### Crooks -/

/-- R378, R381, R383: a crook with no binding raises CROOK, and one whose binding is evicted waits; then come UNSETTLED
and, for the lanes that read a word that an error has struck, ECC (R447, log 55); a bound one runs its micro-operations up to COMMIT in the Active lanes and gives operand A of COMMIT, and, where COMMIT
stores, stores operand C at the scratchpad address of operand B, without raising WATCH (R397). `advance` moves the
PCs only. R382: a step that is no wave of a crook leaves every crook that runs, and the fold, the core and the virtual
device that it runs on, as they stand (a move that would not is put off, log 74). -/
def Obligations.CrookRuns : Prop :=
  (∀ s t : State, (∀ core stage, s.agenda.head? ≠ some (.wave core stage)) → step s = .next t →
    ∀ m ∈ s.crookMarks, m ∈ t.crookMarks) ∧
  ∀ (h : LHdr) (n slot mx : Nat) (d : LDst) (a b c : LSrc) (s : State) (q : Iss) (i : Instr)
    (bind : Option CrkBind),
    i = .crook h n slot mx d a b c → issues s q i = true →
    bind = kget (s.pad (s.fo q).paddock).binds (16 * s.activeSet (s.fo q).paddock + n) →
    (bind = none → exec i s = .next (s.trapAt q cCrook q.lanes false)) ∧
    (∀ bd, bind = some bd → bd.len = 0 →
      exec i s = .next (s.crookWait q (s.fo q).paddock (16 * s.activeSet (s.fo q).paddock + n) bd)) ∧
    (∀ bd, bind = some bd → bd.len ≠ 0 → unsettled s q i = true → Traps i s q (cUnsettled, q.lanes)) ∧
    (∀ bd, bind = some bd → bd.len ≠ 0 → unsettled s q i = false → s.struckOf q i ≠ 0 →
      Traps i s q (cEcc, s.struckOf q i)) ∧
    (∀ bd (ws : List DWord) (r : CrkRun) (com : Micro), bind = some bd → bd.len ≠ 0 → bd.len ≤ 16 →
      unsettled s q i = false → s.struckOf q i = 0 → ws = s.crookWords (s.fo q).paddock q.core bd →
      s.crookHeld q ws = false → (s.fl q).active h q.lanes ≠ 0 → com = (ws.map microOf).getLastD (microOf 0) →
      s.crookStruck (s.fo q).paddock q.core bd = none →
      microRun (s.advance q i) q ((s.fl q).active h q.lanes) (fun l => [val s q h a l, val s q h b l, val s q h c l])
        (if h.x then mx else 0) (if h.x then slot else 0) CrkRun.start (ws.map microOf).dropLast = .ok r →
      (∀ m, trapLanes (s.fl q) ((s.fl q).active h q.lanes) (fun l => r.fl.getD l 0) = m → m ≠ 0 →
        Traps i s q (cArith, m)) ∧
      (r.watch = 0 →
      trapLanes (s.fl q) ((s.fl q).active h q.lanes) (fun l => r.fl.getD l 0) = 0 →
      com.md.testBit 3 = false →
      (com.md.testBit 0 = false → Next i s fun t => ResultQ s t q i h d
        (fun l => microVal r (fun l => [val s q h a l, val s q h b l, val s q h c l]) (if h.x then mx else 0) 0 l
          com.a) fun l => r.fl.getD l 0) ∧
      (com.md.testBit 0 = true → ∀ x : Acc, Sound s →
        x = commitAcc com (microVal r (fun l => [val s q h a l, val s q h b l, val s q h c l])
          (if h.x then mx else 0) 0) →
        s.spTrap (s.fo q) ((s.fl q).active h q.lanes) x = none → s.upsets = [] →
        Next i s fun t => GoesOn s t q i ∧
          (∀ l < 32, act s q h l = true → (t.fl q).getQ 0 l =
            microVal r (fun l => [val s q h a l, val s q h b l, val s q h c l]) (if h.x then mx else 0) 0 l com.a) ∧
          ∀ y, memGet t.mem y = afterCells (storedCells s q ((s.fl q).active h q.lanes) x) y
            (memGet s.mem y))))

/-! ### Scheduling -/

/-- R271, R273: TURN_SELECT of a stage without a turn gives one to the flock in the next slot that is ready,
which has no delivered cause: band A is the largest group of ready lanes of one PC, and band B the largest of the
others; no register changes. -/
def Obligations.TurnSelection : Prop :=
  ∀ (s : State) (core stage i f k : Nat), (s.stageOf core stage).turn = none →
    s.pickSlot (s.stageOf core stage) = some (i, f, k) → (s.flock f k).deliver = 0 →
    Next (.turnSelect core stage) s fun t => SameBytes s t ∧ t.folds = s.folds ∧
      (t.stageOf core stage).last = i ∧ ∃ tr ba, (t.stageOf core stage).turn = some tr ∧ tr.fold = f ∧
        tr.flock = k ∧ tr.a = some ba ∧ ba.count = 0 ∧ tr.nextB = false ∧ tr.trapA = none ∧ tr.trapB = none ∧
        largestOf (s.flock f k) (s.flock f k).readyLanes ba.lanes ∧
        (tr.b = none → (s.flock f k).readyLanes &&& ~~~ba.lanes = 0) ∧
        ∀ bb, tr.b = some bb →
          largestOf (s.flock f k) ((s.flock f k).readyLanes &&& ~~~ba.lanes) bb.lanes

/-- R256, R268, R274, R300 to R304, R310, R317: what ends the waits of a flock, how a fold comes to a core and
leaves it, piece by piece what it released is cleared, and when a drove ages and a fold is asked to shrink. How the
waits of R301 and R310 are counted (log 49) and the pieces of a clearing (log 22) are the model's choices. -/
def Obligations.FlocksAndFolds : Prop :=
  (∀ (s : State) (f k : Nat) (fo : Fold), kget s.folds f = some fo → (s.flock? f k).isSome = true →
    (s.flock f k).parked = true → (∀ e ∈ s.ops, e.2.fold = f → e.2.flock = k → e.2.counts = false) →
    ((s.core fo.core).mq.filter fun m => m.fold == f && m.flock == k).length ≤ 24 →
    ((s.copiesOf f).filter fun e => e.2.flock == k && e.2.phase == 0).length ≤ 40 →
    s.inTurn fo.core f k = false →
    Next (.unpark f k) s fun t => SameBytes s t ∧ t.ops = s.ops ∧
      t.flock f k = { s.flock f k with parked := false }) ∧
  (∀ (s : State) (f k l : Nat) (fo : Fold), kget s.folds f = some fo → (s.flock? f k).isSome = true → l < 32 →
    Next (.trywaitTimeout f k) s fun t => SameBytes s t ∧
      (∀ b kn first m any t0 n, (s.flock f k).wait l = some (.trywait b kn first m any t0 n) →
        (t0 + 2048 ≤ (s.die (dieOf fo.core)).cycles → (t.flock f k).wait l = none ∧ (t.flock f k).pc l = n) ∧
        ((s.die (dieOf fo.core)).cycles < t0 + 2048 → (t.flock f k).wait l = (s.flock f k).wait l))) ∧
  (∀ (s : State) (key core : Nat) (segs : List Nat) (d : Drove) (o : CodeObj), kget s.droves key = some d →
    kget (s.pad d.paddock).objs d.obj = some o → s.mayAdmit d = true → s.targetOf d = some core →
    (∀ e ∈ s.folds, (e.2.paddock = d.paddock → s.mayReturn e.2 = true → s.waitsOn e.2 (dieOf core) = false) ∧
      s.canReturn e.2 (dieOf core) = false) →
    (∀ e ∈ s.droves, e.1 ≠ key → s.mayAdmit e.2 = true → e.2.before d (dieOf core) = true →
      (s.targetOf e.2).map dieOf ≠ some (dieOf core)) →
    s.segsFree core o.prologue.segs segs = true →
    Next (.foldAdmit key core segs) s fun t => SameBytes s t ∧
      (kget t.droves key).map Drove.nextFold = some (d.nextFold + 1) ∧
      ∃ fo, kget t.folds s.nextId = some fo ∧ fo.drove = key ∧ fo.paddock = d.paddock ∧ fo.vd = d.vd ∧
        fo.index = d.nextFold ∧ fo.core = core ∧ fo.sect = 4 ∧ fo.segs = segs ∧
        fo.flocks.length = o.prologue.flocks ∧
        fo.status = (if o.regions.any fun r => r.src == 2 then .staging else .resident) ∧
        ∀ k < o.prologue.flocks, ∀ l < 32, (t.flock s.nextId k).pc l = o.base + o.prologue.off ∧
          (t.flock s.nextId k).exited = 0 ∧ (t.flock s.nextId k).wait l = none) ∧
  (∀ (s : State) (f core : Nat) (segs : List Nat) (fo : Fold), kget s.folds f = some fo →
    s.mayReturn fo = true → s.waitsOn fo (dieOf core) = true →
    (∀ e ∈ s.folds, e.1 ≠ f → s.canReturn e.2 (dieOf core) = true → fo.stopSeq ≤ e.2.stopSeq) →
    s.streamsOk fo.paddock (dieOf core) (s.objOf fo) = true →
    s.bestCore fo.paddock (dieOf core) (s.objOf fo) (s.returnNeed fo) = some core →
    s.segsFree core ((s.objOf fo).section (s.restoreSect fo)).segs segs = true →
    Next (.foldRestore f core segs) s fun t => ∃ g, kget t.folds f = some g ∧ g.core = core ∧
      g.onCore = true ∧ g.stopWanted = 0 ∧ g.savedChunks = [] ∧ g.ipoint = false) ∧
  (∀ (s : State) (f : Nat) (fo : Fold), kget s.folds f = some fo →
    (∀ k < fo.flocks.length, (s.flock f k).live = 0 ∧ (s.flock f k).parked = false) → s.copiesOf f = [] → s.spLeft f = false →
    (fo.onCore = true → s.matrixQuiet f fo = true) →
    Next (.foldEnd f) s fun t => SameBytes s t ∧ kget t.folds f = none ∧
      (∀ g, g ≠ f → kget t.folds g = kget s.folds g) ∧
      (fo.onCore = true → (t.core fo.core).dirtySegs = (s.core fo.core).dirtySegs ++ fo.segs) ∧
      (kget t.droves fo.drove).map Drove.ended = (kget s.droves fo.drove).map fun d => d.ended + 1) ∧
  (∀ (s : State) (core n : Nat), core < 640 →
    (Sound s → n ∈ (s.core core).dirtySegs → Next (.resourceClear ⟨core, 0, n⟩) s fun t =>
      (t.core core).dirtySegs = (s.core core).dirtySegs.filter (· ≠ n) ∧
      ∀ y, memGet t.mem y = if scratchAt core (32768 * n) ≤ y ∧ y < scratchAt core (32768 * n) + 32768
        then memDefault else memGet s.mem y) ∧
    (n ∉ (s.core core).dirtySegs → exec (.resourceClear ⟨core, 0, n⟩) s = .next s) ∧
    Next (.resourceClear ⟨core, 1, n⟩) s (fun t => t = { s with cores := t.cores } ∧ t.core core =
      { s.core core with dirtySlots := (s.core core).dirtySlots.filter (· ≠ n) }) ∧
    Next (.resourceClear ⟨core, 2, n⟩) s (fun t => t = { s with cores := t.cores } ∧ t.core core =
      { s.core core with dirty0 := (s.core core).dirty0 - n }) ∧
    Next (.resourceClear ⟨core, 3, n⟩) s fun t => t = { s with cores := t.cores } ∧ t.core core =
      { s.core core with dirty1 := (s.core core).dirty1 - n }) ∧
  (∀ (s : State) (key : Nat) (d : Drove), kget s.droves key = some d → d.pendingFold = true →
    Next (.prioAging key) s fun t => t = { s with droves := t.droves } ∧
      (∃ m, kget t.droves key = some { d with aged := m } ∧ ∀ i < 16, bitOf m i =
        (bitOf d.aged i || decide (d.since.getD i 0 + 2 ^ 20 ≤ (s.die i).total))) ∧
      (∀ j, j ≠ key → kget t.droves j = kget s.droves j)) ∧
  (∀ (s : State) (f : Nat) (fo : Fold), kget s.folds f = some fo → fo.onCore = true →
    ((∃ e ∈ s.droves, e.2.paddock = fo.paddock ∧ s.mayAdmit e.2 = true ∧
        e.2.since.getD (dieOf fo.core) 0 + 4096 ≤ (s.die (dieOf fo.core)).total) ∨
      ∃ e ∈ s.folds, e.2.paddock = fo.paddock ∧ s.mayReturn e.2 = true ∧ s.waitsOn e.2 (dieOf fo.core) = true ∧
        ∃ c, kget e.2.waitFrom (dieOf fo.core) = some c ∧ c + 4096 ≤ (s.die (dieOf fo.core)).total) →
    (s.objOf fo).floor.segs < (s.budget fo).segs →
    Next (.shrinkRequest f) s fun t => t = { s with folds := t.folds } ∧
      kget t.folds f = some { fo with shrink := true })

/-- R38, R229, R238, R268, R293, R299, R331: launch records that pass the dispatcher become droves once what orders
them is performed, and droves that have ended, with every access performed, retire with a completion entry; entries
that were withheld are released in the order of retirement, whatever queue each is for (log 80). -/
def Obligations.DrovesAndQueues : Prop :=
  (∀ (s : State) (id droveId : Nat) (l : LaunchOp) (o : MemOp) (r : LaunchRec), kget s.launches id = some l →
    kget s.ops id = some o → s.droveIdOk l.paddock droveId = true →
    (∀ e ∈ s.ops, e.1 < id → e.2.fold = o.fold → e.2.flock = o.flock →
      ∀ m < 32, o.whose.getLsbD m = true → e.2.stands m = false) →
    s.coverWaits id o ((lanesOf o.whose).headD 0) ⟨true, false, false, false⟩ false = false →
    s.owedWaits id o ⟨true, false, false, false⟩ = false → s.struck l.addr 256 = false →
    r = launchOf (memRead s.mem l.addr 256) → s.launchBad l.paddock true r = false →
    Next (.launchRecordRead id droveId) s fun t => kget t.launches id = none ∧ kget t.ops id = none ∧
      ∃ d, kget t.droves id = some d ∧ d.id = droveId ∧ d.paddock = l.paddock ∧ d.vd = l.vd ∧ d.host = false ∧
        d.parentFold = l.fold ∧ d.parentDrove = l.drove ∧ d.group = l.group ∧ d.obj = r.code ∧ d.gx = l.gx ∧
        d.gy = l.gy ∧ d.gz = l.gz ∧ d.args = r.args ∧ d.refused = false ∧ d.nextFold = 0) ∧
  (∀ (s : State) (v q droveId h : Nat) (r : LaunchRec), s.serves v = true → s.fnUp v = true → s.queueServed v q = true →
    s.unread v q ≠ 0 → s.droveIdOk (s.padOfFn v) droveId = true → h = s.bar v (lqReg q 1) →
    r = launchOf (memRead s.mem (ringAt v (s.bar v (lqReg q 0)) 256 h) 256) →
    s.launchBad (s.padOfFn v) false r = false →
    Next (.launchEntryRead v q droveId) s fun t => SameBytes s t ∧
      t.bar v (lqReg q 1) = (h + 1) % 2 ^ 32 ∧
      ∃ d, kget t.droves s.nextId = some d ∧ d.id = droveId ∧ d.paddock = s.padOfFn v ∧ d.host = true ∧
        d.queue = q ∧ d.cq = bits (s.bar v (lqReg q 3)) 3 0 ∧ d.obj = r.code ∧ d.gx = r.gx ∧ d.gy = r.gy ∧
        d.gz = r.gz ∧ d.tag = BitVec.ofNat 32 r.tag ∧ d.refused = false ∧ d.nextFold = 0) ∧
  (∀ (s : State) (key : Nat) (d : Drove), kget s.droves key = some d → d.retired = false →
    d.nextFold = d.gx * d.gy * d.gz → d.ended = d.gx * d.gy * d.gz →
    (∀ e ∈ s.droves, e.2.host = false → e.2.parentDrove = key → e.2.retired = true) →
    (∀ e ∈ s.launches, e.2.drove ≠ key) → (∀ e ∈ s.copies, e.2.drove ≠ key) → s.recordWaits d = false →
    (∀ e ∈ s.ops, e.2.drove = key → e.2.todo = []) →
    (d.host = true → 1024 ≤ (s.vd d.fn).withheldCount → exec (.droveRetire key) s = .next s) ∧
    ((d.host = true → (s.vd d.fn).withheldCount < 1024) →
      Next (.droveRetire key) s fun t => SameBytes s t ∧ kget t.droves key = none ∧
      (d.host = true → ∃ n, kgetD (t.vd d.fn).withheld d.cq [] = kgetD (s.vd d.fn).withheld d.cq [] ++
        [(n, key, [d.tag, BitVec.ofNat 32 (d.queue * 65536 + if d.refused then 1 else if d.faulted then 2 else 0),
          BitVec.ofNat 32 d.id, 0])]))) ∧
  (∀ (s : State) (v cq i key a tail : Nat) (e : List Word) (rest : List (Nat × Nat × List Word)), Sound s →
    kgetD (s.vd v).withheld cq [] = (i, key, e) :: rest → (s.vd v).inOrder i = true → s.runs v = true → s.fnUp v = true → cq < s.cqn v →
    s.bar v (cqReg cq 0) ≠ 0 → tail = s.bar v (cqReg cq 1) →
    (tail + 2 ^ 32 - s.bar v (cqReg cq 2) % 2 ^ 32) % 2 ^ 32 < 2 ^ bits (s.bar v (cqReg cq 0)) 3 0 →
    (∀ o ∈ s.ops, o.2.drove = key → o.2.writes = true → o.2.todo = []) →
    a = ringAt v (s.bar v (cqReg cq 0)) 16 tail →
    Next (.completionEntryWrite v cq) s fun t => BytesAt t a (wordsBytes e) ∧
      OnlyBytes s t a (wordsBytes e).length ∧ t.bar v (cqReg cq 1) = (tail + 1) % 2 ^ 32 ∧
      kgetD (t.vd v).withheld cq [] = rest ∧
      t.msix = s.msix ++ [(v, bits (s.bar v (cqReg cq 3)) 10 0)])

/-- R295, R361, R362, R413 to R418: stop requests and their deadlines, saves, the end of a stop, forced resets
and slices. That an idle slice is told once, at step 4 of R362 (log 51), that completions withheld before a slice leave in
one order (log 80), and where the search for the first slice starts (log 96), are the model's choices. -/
def Obligations.Stops : Prop :=
  (∀ (s : State) (f : Nat) (fo : Fold), kget s.folds f = some fo → fo.onCore = true → fo.stopWanted = 0 →
    s.stopDue fo = true →
    Next (.stopRequest f) s fun t => SameBytes s t ∧ ∃ g, kget t.folds f = some g ∧ g.stopWanted = 1 ∧
      g.stopT1 = (s.die (dieOf fo.core)).refs + 1000 * bits (s.reg 0 fo.paddock 0x0C 0) 15 0 ∧
      g.stopT2 = g.stopT1 + 1000 * bits (s.reg 0 fo.paddock 0x0C 0) 31 16 ∧
      ∀ (k l b kn first : Nat) (m : Word) (any : Bool) (t0 n : Nat), (s.flock? f k).isSome = true → l < 32 →
        (s.flock f k).wait l = some (.trywait b kn first m any t0 n) →
        (t.flock f k).wait l = none ∧ (t.flock f k).pc l = n) ∧
  (∀ (s : State) (p f : Nat) (fo : Fold), kget s.folds f = some fo → fo.paddock = p → fo.onCore = true →
    fo.stopWanted = 1 → fo.stopT1 ≤ (s.die (dieOf fo.core)).refs →
    Next (.deadlineT1 p) s fun t => (∃ g, kget t.folds f = some g ∧ g.stopWanted = 2 ∧ g.flocks = fo.flocks) ∧
      ∀ id o, kget s.copies id = some o → o.fold = f → o.phase = 1 ∨ o.phase = 2 → o.kind ≠ 5 → o.wrote = false →
        (o.kind = 2 ∨ o.kind = 7 ∨ (s.leftOf id o ≠ [] ∧ ∀ e ∈ s.copies, e.2.kind ≠ 7)) →
        ∃ o', kget t.copies id = some o' ∧ o'.phase = 3) ∧
  (∀ (s : State) (f k j : Nat) (fo : Fold) (fl fl' : Flock), kget s.folds f = some fo → fo.onCore = true →
    fo.flocks[k]? = some fl → fl.ix = k → fo.flocks[j]? = some fl' → j ≠ k → fl'.live ≠ 0 → fl'.saved = 0 →
    (fo.stopWanted ≠ 0 →
      (fo.flocks.find? fun x => s.savable f fo x && (x.atRest && !x.handler)) = some fl →
      Next (.pointSave f) s fun t => SameBytes s t ∧ t.flock f k = fl.pointSave (s.objOf fo) ∧
        ∀ i, i ≠ k → t.flock? f i = s.flock? f i) ∧
    (fo.stopWanted = 2 →
      (fo.flocks.find? fun x => s.savable f fo x && (!x.atRest && !x.handler)) = some fl →
      Next (.instructionBoundarySave f) s fun t => SameBytes s t ∧ t.flock f k = fl.boundarySave ∧
        ∀ i, i ≠ k → t.flock? f i = s.flock? f i)) ∧
  (∀ (s : State) (f : Nat) (fo : Fold) (st : FoldStatus), kget s.folds f = some fo → fo.onCore = true →
    fo.allSaved = true → s.matrixQuiet f fo = true → s.copiesStill f = true →
    (∀ e ∈ s.ops, e.2.fold = f → e.2.todo = []) →
    SameBytes s (s.finishStop f st) ∧ ∃ g, kget (s.finishStop f st).folds f = some g ∧ g.status = st ∧
      g.flocks = fo.flocks ∧ g.segs = [] ∧ g.stopWanted = 0 ∧
      ((∃ fl ∈ fo.flocks, fl.saved = 2) → ∀ ch < 64 * fo.segs.length, kget g.savedChunks ch =
        some ((List.range 512).map fun j => s.segRead fo.core fo.segs (512 * ch + j)))) ∧
  (∀ (s : State) (f : Nat) (fo : Fold), kget s.folds f = some fo → fo.status = .resident → fo.stopWanted = 0 →
    s.waitsForKids fo = true →
    (∀ fl ∈ fo.flocks, fl.atRest = true ∧ fl.handler = false ∧ (fl.live ≠ 0 → s.savable f fo fl = true)) →
    s.matrixQuiet f fo = true → s.copiesStill f = true → (∀ e ∈ s.ops, e.2.fold = f → e.2.todo = []) →
    Next (.childStop f) s fun t => SameBytes s t ∧ ∃ g, kget t.folds f = some g ∧ g.status = .stoppedChild ∧
      g.segs = [] ∧
      g.flocks = fo.flocks.map fun fl => if fl.live = 0 then fl else fl.pointSave (s.objOf fo)) ∧
  (∀ (s : State) (p f : Nat) (fo : Fold), kget s.folds f = some fo → fo.paddock = p → fo.onCore = true →
    fo.stopWanted = 2 → s.quiesced f fo = false → fo.stopT2 ≤ (s.die (dieOf fo.core)).refs →
    Next (.forcedReset p) s fun t => ((∀ e ∈ s.copies, e.2.phase = 0) → SameBytes s t) ∧
      (∀ e ∈ t.copies, e.2.fold ≠ f) ∧ ∃ g, kget t.folds f = some g ∧ g.failed = true ∧ g.stopWanted = 0 ∧ ∀ fl ∈ g.flocks, fl.live = 0) ∧
  (∀ (s : State) (p f : Nat) (fo : Fold), kget s.folds f = some fo → (∀ e ∈ s.folds, e.1 = f → e.2 = fo) →
    s.quiesced f fo = true → Next (.forcedReset p) s fun t =>
      ((∀ e ∈ s.copies, e.2.phase = 0) → SameBytes s t) ∧ kget t.folds f = some fo) ∧
  (∀ (s : State) (p : Nat) (e : SliceEnt), (s.pad p).runEnt = some e → s.kind p = 2 → (s.pad p).held = false →
    (s.pad p).switching = false →
    ((s.pad p).idle = true ∧ (s.vd e.vd).withheldCount = 0) ∨ e.len * 65536 ≤ (s.pad p).delivered →
    s.releasing e.vd = false → Next (.sliceEnd p) s fun t => SameBytes s t ∧ t.folds = s.folds ∧
      t.pad p = { s.pad p with switching := true }) ∧
  (∀ (s : State) (p i j : Nat) (e : SliceEnt), s.kind p = 2 → (s.pad p).held = false →
    ((s.pad p).switching = true ∨ (s.pad p).runEnt = none) →
    (∀ f ∈ s.folds, f.2.paddock = p → f.2.onCore = false) → s.nextSlice p = some (i, e) → j < 8 →
    (s.sliceEnt p j).valid = true →
    (s.vdIdle (s.sliceEnt p j).vd = false ∨ (s.vd (s.sliceEnt p j).vd).withheldCount ≠ 0) →
    Next (.sliceSwitch p) s fun t => SameBytes s t ∧ t.folds = s.folds ∧ (t.vd e.vd).heldTo = s.nextId ∧
      t.pad p = { s.pad p with
        running := i, runEnt := some e, idle := s.vdIdle e.vd, delivered := 0, switching := false })

/-! ### Engines and configuration -/

/-- R179, R240, R243, R250, R251, R254, R258, R261 to R264, R302: what copy operations and chunks do. Of a remnant in
several ranges the last one notifies (R421). FLUSHH stands, once complete, as a release fence of its lanes. The rows of
a chunk and of a whole operation move in one step (log 70), a collective's parts come as log 17 has them, a copy's ranges
stay within what a remnant's record holds (log 60), and FLUSHH is such a fence (log 73): these are the model's choices. -/
def Obligations.CopyEngine : Prop :=
  (∀ (s : State) (core ch : Nat), kget (s.core core).own ch = some .matrix → kget (s.core core).hold ch = none →
    Next (.chunkReturn core ch) s fun t => SameBytes s t ∧ kget (t.core core).own ch = none) ∧
  (∀ (s u : State) (ch id i n : Nat) (o : CopyOp) (bs : List Byte),
    kget (s.core o.core).own ch = some (.copy id) → kget s.copies id = some o → s.copyRuns o = true →
    o.kind = 0 ∨ o.kind = 3 →
    ((List.range o.count).find? fun i => segChunk o.segs (o.first + i) == ch) = some i →
    s.rangesFit id o i = true → s.loadRows o (o.chunkRows i) = .ok (bs, n, u) →
    Next (.chunkReturn o.core ch) s fun t => kget (t.core o.core).own ch = none ∧
      t.mem = (u.segPut o.core o.segs (512 * (o.first + i)) bs).mem) ∧
  (∀ (s : State) (id : Nat) (o : CopyOp), kget s.copies id = some o → o.phase = 0 →
    (∀ fo, kget s.folds o.fold = some fo → fo.stopWanted = 0) →
    (∀ e ∈ s.copies, e.1 < id → e.2.fold = o.fold → e.2.qn = o.qn → e.2.phase ≠ 0) →
    s.streamStalled o = false → s.engineFree o.fold o.flock id o.lanes = true →
    (∀ ch ∈ o.chunks, s.chunkQuiet o.core (segChunk o.segs ch) = true) →
    Next (.copyStart id) s fun t => SameBytes s t ∧ (∀ j, j ≠ id → kget t.copies j = kget s.copies j) ∧
      kget t.copies id = some (s.startCopy o) ∧ (s.startCopy o).phase = 1 ∧
      (o.kind ≠ 5 → o.indexed = false → s.startCopy o = { o with phase := 1, idx := [] }) ∧
      (o.kind = 5 → o.paddock ≠ 0 → ∀ ms, s.groupOf o.paddock o.lea o.pitch = some ms →
        (s.startCopy o).group = ms)) ∧
  (∀ (s : State) (id : Nat) (o : CopyOp), Sound s → kget s.copies id = some o → o.kind = 0 →
    s.copyRuns o = true → (∀ ch ∈ o.chunks, s.heldBy o.core id (segChunk o.segs ch) = false) → o.note = 1 →
    s.performedBefore o.fold o.flock id = true → s.noteReady o.naddr = true → o.acked = true →
    (s.restOf o = false → s.struck o.naddr 4 = false →
      Next (.copyComplete id) s fun t => kget t.copies id = none ∧ OnlyBytes s t o.naddr 4 ∧
        leNat (memRead t.mem o.naddr 4) = (leNat (memRead s.mem o.naddr 4) + 1) % 2 ^ 32) ∧
    (s.restOf o = true →
      Next (.copyComplete id) s fun t => kget t.copies id = none ∧ SameBytes s t)) ∧
  (∀ (s : State) (id sub : Nat) (o : CopyOp), kget s.copies id = some o → o.fail = some sub → o.kind ≠ 7 → o.phase ≠ 3 →
    (s.flock? o.fold o.flock).isSome = true → (s.flock o.fold o.flock).born = o.born → (s.flock o.fold o.flock).live ≠ 0 →
    (s.flock o.fold o.flock).handler = false →
    Next (.copyFault id sub) s fun t => kget t.copies id = none ∧
      (o.kind = 0 ∨ o.kind = 3 → Sound s → ∀ y < 2 ^ 47, memGet t.mem y = memGet s.mem y) ∧
      (∀ e ∈ (t.core o.core).own, e.2 ≠ .copy id) ∧
      (t.flock o.fold o.flock).deliver = (s.flock o.fold o.flock).deliver ||| causeBit cCopyfault) ∧
  (∀ (s : State) (id : Nat) (o : CopyOp) (wr : Bool) (e : AccErr), kget s.copies id = some o →
    s.copyErr id o = some (wr, e) → o.paddock ≠ 0 → s.faultAssist o = false → e.stage = 2 →
    s.copyRuns o = true →
    Next (.translationFault id) s fun t => SameBytes s t ∧ kget t.copies id =
      some { o with phase := 2, assist := false, fault := some (e.sub, e.stage, e.va, e.page) }) ∧
  (∀ (s : State) (id : Nat) (fixed : Bool) (o : CopyOp), kget s.copies id = some o → o.phase = 2 →
    o.assist = false → s.standby ≠ 1 →
    Next (.stage2Resolve id fixed) s fun t => t = { s with copies := t.copies } ∧ kget t.copies id =
      some { o with phase := 1, posted := none, fail := if fixed then none else o.fault.map fun x => x.1 }) ∧
  (∀ (s : State) (id pos : Nat) (o : CopyOp) (peers : List (List Byte)) (w sub : List Nat),
    kget s.copies id = some o → o.kind = 5 → s.copyRuns o = true → kget o.data 0 = none → w = s.shape o →
    (s.readsBad o.core o.segs [(512 * o.first, 64)] = true →
      Next (.collectiveStart id peers) s fun t =>
        t = { s with copies := t.copies } ∧ kget t.copies id = some { o with fail := some 5 }) ∧
    (s.readsBad o.core o.segs [(512 * o.first, 64)] = false → shapeBad w o.group.length (s.rankOf o) = true →
      Next (.collectiveStart id peers) s fun t =>
        t = { s with copies := t.copies, vds := t.vds } ∧ kget t.copies id = some { o with fail := some 7 }) ∧
    (s.readsBad o.core o.segs [(512 * o.first, 64)] = false → shapeBad w o.group.length (s.rankOf o) = false →
      sub = s.subOf o → pos = sub.findIdx (some · == s.ownVdn o.vd) →
      ∀ (u : State) (xs : List (List Nat × List Byte)),
      s.memberParts o (shapeBytes w) (sub.mapIdx fun i n => (n, peers.getD i [])) = some (xs, u) →
      ((∀ x ∈ xs, shapeMatch w x.1 = true) →
        Next (.collectiveStart id peers) s fun t => SameBytes u t ∧ ∃ o', kget t.copies id = some o' ∧
          o'.dst = w.getD 6 0 * 2 ^ 32 + w.getD 5 0 ∧
          kget o'.data 0 = some (collResult w pos (xs.map Prod.snd))) ∧
      ((∃ x ∈ xs, shapeMatch w x.1 = false) →
        exec (.collectiveStart id peers) s = .next (s.failMates o)))) ∧
  (∀ (s : State) (o : CopyOp) (w : List Nat) (vdn n : Nat) (came : List Byte),
    (s.memberHere o vdn = false → came.length = 64 + n →
      w = ((List.range 16).map fun j => leNat ((came.drop (4 * j)).take 4)) → shapeMatch (s.shape o) w = true →
      s.memberPart o vdn n came = some (w, came.drop 64, s)) ∧
    (∀ (id : Nat) (m : CopyOp) (bs : List Byte) (u : State), s.memberHere o vdn = true →
      s.mate o vdn = some (id, m) → s.copyRuns m = true → s.readsBad m.core m.segs [(512 * m.first, 64)] = false →
      w = s.shape m → shapeBad w o.group.length (o.group.findIdx (· == vdn)) = false →
      shapeMatch (s.shape o) w = true → s.copyRead m.keep m.paddock m.vd m.addr n = .ok (bs, u) →
      s.memberPart o vdn n came = some (w, bs, u))) ∧
  (∀ (s u : State) (f region id : Nat) (o : CopyOp) (fo : Fold) (bs : List Byte),
    (s.copies.filter fun e => e.2.fold == f && e.2.kind == 7 && e.2.qn == region) = [(id, o)] →
    s.copyRuns o = true → s.copyRead o.keep o.paddock o.vd o.addr (512 * o.count) = .ok (bs, u) →
    (∀ e ∈ s.copies, e.2.fold = f → e.2.kind = 7 → e.1 = id) → kget s.folds f = some fo →
    fo.status = .staging →
    Next (.stagingCopy f region) s fun t => kget t.copies id = none ∧
      t.mem = (u.segPut o.core o.segs (512 * o.first) bs).mem ∧
      (kget t.folds f).map Fold.status = some .resident) ∧
  (∀ (s : State) (id : Nat) (o : MemOp), kget s.ops id = some o → o.kind = .flushh →
    ((∀ e ∈ s.ops, e.1 < id → e.2.fold = o.fold → e.2.flock = o.flock → e.2.writes = false) → id < s.nextId →
      Next (.flushhComplete id) s fun t => kget t.ops id = none) ∧
    (s.ops = [(id, o)] → o.failed = false → o.held = [] → id < s.nextId →
      exec (.flushhComplete id) s = .next { s with ops := [], nextId := s.nextId + 1 }) ∧
    ((∃ e ∈ s.ops, e.1 < id ∧ e.2.fold = o.fold ∧ e.2.flock = o.flock ∧ e.2.writes = true ∧
        ∃ a ∈ e.2.addrsIn (~~~0), 2 ^ 46 ≤ a ∧ a < 2 ^ 47) →
      exec (.flushhComplete id) s = .next s))

/-- R60, R336, R338, R345 to R352, R359, R387, R424, R427, R428, R437: every write and read of the configuration
unit, the completions of PMAP, TLBI, VDNSET, PKEY, SLICE, QOSSET, CLEARP, MSG, CRKLOAD, CODEMV, SAVEX, LOADX and SHEP, ways,
forwarding entries, and ECC (R404, log 61) and DECODE at a fetch. These rest on choices of the model: VCTL and a virtual device made
or destroyed (logs 24, 26), pages that leave TABLE (log 25), when the values of QOSSET come into force (log 27), the
count in a mailbox record (log 28), what CODEMV moves (log 30), a key's material as a number (log 31), the states of a
migration (log 32), and status 4 and code 3 of a stream or a table that cannot be read (log 91). -/
def Obligations.UnitsComplete : Prop :=
  (∀ (s : State) (id : Nat) (o : PrivOp), (s.privs.find? fun e => e.2.what == 20 || e.2.what == 21) = some (id, o) →
    o.what = 20 → o.pool = 0 → o.note = 0 → s.cfgDrained o = true → s.cfgInRun id o = false →
    (0x20 ≤ o.reg → o.ix = 0) →
    (o.reg ∈ [0x00, 0x01, 0x02, 0x03, 0x04, 0x05, 0x06, 0x07, 0x08, 0x09, 0x0B, 0x0C, 0x0D, 0x0E, 0x0F, 0x21, 0x22,
        0x23, 0x24, 0x25, 0x40, 0x41] →
      Next (.configWriteComplete id) s fun t => kget t.privs id = none ∧
        t.reg (o.reg / 32) o.elem (o.reg % 32) o.ix = o.val % 2 ^ 64 ∧
        (o.reg ∉ [0x01, 0x03, 0x0E, 0x0F, 0x21, 0x23] ∨ (o.reg = 0x0E ∨ o.reg = 0x0F) ∧ o.leaves = [] ∨
          o.reg = 0x01 ∧ coresTaken o.ix (o.args.headD 0) o.val = [] ∨ o.reg = 0x21 ∧ bitOf o.val 0 = false →
          SameBytes s t) ∧
        (o.reg = 0x03 ∨ o.reg = 0x23 → Sound s → ∀ y, memGet t.mem y =
          if o.released.any (fun r => decide (r.1 ≤ y) && decide (y < r.1 + r.2)) then memDefault else memGet s.mem y) ∧
        (o.reg = 0x00 → bits (o.args.headD 0) 1 0 ≠ bits o.val 1 0 → (t.pad o.elem).runEnt = none ∧
          (t.pad o.elem).switching = false ∧ (t.pad o.elem).startDie = none) ∧
        (o.reg = 0x06 → (t.pad o.elem).binds = []) ∧
        (o.reg = 0x09 → bits o.val 59 48 = 0 → (t.pad o.elem).faultBuf = []) ∧
        (o.reg = 0x01 → ∀ c ∈ coresTaken o.ix (o.args.headD 0) o.val, (t.core c).store = []) ∧
        (o.reg = 0x0E → ∀ p ∈ spanPages (codeSpan o.val), (t.page p).table = true) ∧
        (o.reg = 0x0F → ∀ p ∈ spanPages (groupSpan o.val), (t.page p).table = true) ∧
        (o.reg = 0x25 → s.reg 1 o.elem 0x05 0 = 0 → o.val ≠ 0 → t.bar o.elem 0x30 = 0)) ∧
    (o.reg = 0x20 → o.elem < 128 → Next (.configWriteComplete id) s fun t => SameBytes s t ∧ kget t.privs id = none ∧
      t.reg 1 o.elem 0x00 0 = vctlValue (s.reg 1 o.elem 0x00 0) o.val % 2 ^ 64 ∧
      (bitOf (o.args.headD 0) 8 ≠ bitOf o.val 8 → t.vd o.elem = (s.newVd o.elem).vd o.elem)) ∧
    (o.reg = 0x0A →
      (o.val = 1 → Next (.configWriteComplete id) s fun t => SameBytes s t ∧ kget t.privs id = none ∧
        (t.pad o.elem).held = true) ∧
      (o.val = 3 → Next (.configWriteComplete id) s fun t => SameBytes s t ∧ kget t.privs id = none ∧
        (t.pad o.elem).held = false) ∧
      (o.val = 2 → Next (.configWriteComplete id) s fun t => kget t.privs id = none ∧
        ∀ f fo, kget s.folds f = some fo → fo.paddock = o.elem →
          ∃ g, kget t.folds f = some g ∧ g.failed = true ∧ ∀ fl ∈ g.flocks, fl.live = 0))) ∧
  (∀ (s : State) (id : Nat) (o : PrivOp), (s.privs.find? fun e => e.2.what == 20 || e.2.what == 21) = some (id, o) →
    o.what = 21 → Sound s → s.performedBefore o.fold o.flock id = true → s.noteReady o.naddr = true →
    Next (.configWriteComplete id) s fun t => kget t.privs id = none ∧ BytesAt t o.naddr (leBytes (s.cfgRead o) 8) ∧
      OnlyBytes s t o.naddr 8) ∧
  (∀ (s : State) (id : Nat) (o : PrivOp), kget s.privs id = some o → o.note = 0 →
    (o.what < 3 → s.crookRuns o.elem = true → exec (.privilegedCompletion id) s = .next s) ∧
    (o.what = 0 → s.crookRuns o.elem = false →
      o.ix + o.args.length ≤ bits (s.reg 0 o.elem 0x06 0) 27 16 → s.padCores o.elem ≠ [] →
      Next (.privilegedCompletion id) s fun t => SameBytes s t ∧ kget t.privs id = none ∧
        kget (t.pad o.elem).binds o.reg = some { first := o.ix, len := o.args.length, tag := o.val } ∧
        ∀ c ∈ s.padCores o.elem, ∀ i < o.args.length,
          kget (t.core c).store (bits (s.reg 0 o.elem 0x06 0) 10 0 + o.ix + i) =
            some (BitVec.ofNat 64 (o.args.getD i 0))) ∧
    (o.what = 1 → s.crookRuns o.elem = false →
      Next (.privilegedCompletion id) s fun t => SameBytes s t ∧ kget t.privs id = none ∧
        kget (t.pad o.elem).binds o.reg = none) ∧
    (o.what = 2 → s.crookRuns o.elem = false →
      ∀ b, kget (s.pad o.elem).binds o.reg = some b → Next (.privilegedCompletion id) s fun t =>
      SameBytes s t ∧ kget t.privs id = none ∧
        kget (t.pad o.elem).binds o.reg = some { b with first := 0, len := 0 }) ∧
    (o.what = 10 → Next (.privilegedCompletion id) s fun t => SameBytes s t ∧ kget t.privs id = none ∧
      t.key o.elem = { st := 1, gen := o.val }) ∧
    (o.what = 11 → Next (.privilegedCompletion id) s fun t => SameBytes s t ∧ kget t.privs id = none ∧
      (t.key o.elem).st = 0 ∧ ∀ e ∈ t.dies, ∀ l ∈ e.2.cache, ∀ c ∈ l.2, c.slot ≠ o.elem) ∧
    (o.what = 12 → ∀ a, s.entry2At o.elem o.ix o.reg = some a → Next (.privilegedCompletion id) s fun t =>
      kget t.privs id = none ∧
      (entryIs o.val 0 = true → bitOf (s.rd a 8) 0 = false → (t.page (tableAddr o.val / 2 ^ 17)).table = true) ∧
      (entryIs o.val 1 = true → ∀ p ∈ leafPages o.reg o.val, (t.page p).owner = s.vdPad o.elem ∧
        (t.page p).key = bits o.val 63 52) ∧
      (Sound s → s.upsets = [] → s.writeErr 0 a 8 = none → (entryIs o.val 0 = false ∨ bitOf (s.rd a 8) 0 = true) →
        BytesAt t a (leBytes o.val 8) ∧ OnlyBytes s t a 8)) ∧
    (o.what = 13 ∨ o.what = 15 ∨ (o.what = 17 ∧ s.waysLeft o = []) → exec (.privilegedCompletion id) s =
      .next { s with privs := kdel s.privs id, ops := kdel s.ops id }) ∧
    (o.what = 14 → Next (.privilegedCompletion id) s fun t => SameBytes s t ∧ kget t.privs id = none ∧
      ∃ e, kget t.vdns (o.ix % 4096) = some e ∧ e.st = bits o.val 1 0 ∧ e.tag = o.ix / 4096 ∧ e.group = o.reg ∧
        e.vd = bits o.val 8 2 ∧ e.device = bits o.val 23 9 ∧ e.expired = 0) ∧
    (o.what = 16 → Next (.privilegedCompletion id) s fun t => SameBytes s t ∧ kget t.privs id = none ∧
      ((s.setBw o.elem o.ix (bits o.val 10 0) (bits o.val 26 16)).bwBroken o.ix = false →
        t.minOf o.elem o.ix = bits o.val 10 0 ∧ t.capOf o.elem o.ix = bits o.val 26 16) ∧
      (∀ p < 32, t.minOf p o.ix ≤ 32 * t.ownChans p o.ix)) ∧
    (o.what = 18 → Sound s → Next (.privilegedCompletion id) s fun t => kget t.privs id = none ∧
      OnlyBytes s t (o.ix * 2 ^ 17) (o.val * 2 ^ 17) ∧
      (∀ y, o.ix * 2 ^ 17 ≤ y → y < o.ix * 2 ^ 17 + o.val * 2 ^ 17 → memGet t.mem y = memDefault) ∧
      ∀ p, o.ix ≤ p → p < o.ix + o.val → (t.page p).cleared = true ∧ (t.page p).bad = []) ∧
    (o.what = 19 → o.reg = 0 → s.msgReady id o = true → Next (.privilegedCompletion id) s fun t => SameBytes s t ∧
      kget t.privs id = none ∧ t.hvMail = s.hvMail ++
        [o.args.map (BitVec.ofNat 32) ++ [BitVec.ofNat 32 s.hvMail.length, 0, 0, 0]]) ∧
    (o.what = 44 → (∀ c ∈ s.cores, ∀ r, c.2.st0.turn = some r ∨ c.2.st1.turn = some r →
        ∀ fo, kget s.folds r.fold = some fo → fo.paddock ≠ o.elem) →
      ∀ old new len, old = o.args.getD 0 0 → new = o.args.getD 1 0 → len = o.args.getD 2 0 →
      Next (.privilegedCompletion id) s fun t => SameBytes s t ∧ kget t.privs id = none ∧
        (∀ k ob, kget (s.pad o.elem).objs k = some ob → kget (t.pad o.elem).objs k =
          some (if ob.base = old then { ob with base := new } else ob)) ∧
        (∃ fs, kget (t.pad o.elem).fwd (freeEntry (s.pad o.elem).fwd) = some ⟨old, new, len, fs⟩) ∧
        ∀ f fo, kget s.folds f = some fo → fo.paddock = o.elem → kget t.folds f =
          some { fo with flocks := fo.flocks.map (Flock.moved (movePC old new len)) })) ∧
  (∀ (s : State) (id : Nat) (o : PrivOp), kget s.privs id = some o → o.note = 0 → o.pool = 0 → Sound s →
    s.performedBefore o.fold o.flock id = true → s.noteReady o.reg = true →
    (o.what = 40 → s.vdStill o.elem = true → ∀ (u : State) (n : Nat),
      u = s.modPad (s.vdPad o.elem) (fun d => { d with saves := d.saves + 1 }) →
      n = (u.streamOf o.elem (u.pad (s.vdPad o.elem)).saves).length →
      Next (.privilegedCompletion id) s fun t => kget t.privs id = none ∧ t.vds = s.vds ∧
        leNat (memRead t.mem o.reg 8) = ((if o.args.getD 1 0 < n then 1 else 0) + 2 ^ 32 * n) % 2 ^ 64) ∧
    (o.what = 41 → Next (.privilegedCompletion id) s fun t => kget t.privs id = none ∧
      (t.vd o.elem).frozen = false ∧ (t.vd o.elem).heldTo = s.nextId ∧ BytesAt t o.reg (leBytes 0 8) ∧
      OnlyBytes s t o.reg 8) ∧
    (o.what = 42 → (∀ f ∈ s.folds, f.2.paddock ≠ 0 → f.2.vd = o.elem → f.2.onCore = false) →
      Next (.privilegedCompletion id) s fun t => kget t.privs id = none ∧ (t.vd o.elem).frozen = false ∧
        (∀ f ∈ t.folds, f.2.paddock = 0 ∨ f.2.vd ≠ o.elem) ∧ BytesAt t o.reg (leBytes 0 8) ∧
        OnlyBytes s t o.reg 8) ∧
    (o.what = 43 → ∀ (u : State × Nat × Nat × State) (rd : Reader) (bad : Option Nat × Nat),
      rd = (fun off n => s.rd (o.args.getD 0 0 + off) n) → bad = s.streamBad (o.args.getD 0 0) (o.args.getD 1 0) rd →
      u = (s.devGot 0 (o.args.getD 0 0) bad.2,
        (s.devGot 0 (o.args.getD 0 0) bad.2).loadStream o.elem (o.args.getD 1 0) rd) →
      (bad.1 = none → Next (.privilegedCompletion id) s fun t => kget t.privs id = none ∧ t.folds = u.2.2.2.folds ∧
        t.droves = u.2.2.2.droves ∧
        leNat (memRead t.mem o.reg 8) = (u.2.1 + 2 ^ 32 * u.2.2.1) % 2 ^ 64) ∧
      (∀ off, bad.1 = some off → Next (.privilegedCompletion id) s fun t => kget t.privs id = none ∧
        t.folds = s.folds ∧ leNat (memRead t.mem o.reg 8) = (4 + 2 ^ 32 * off) % 2 ^ 64)) ∧
    (o.what = 30 ∨ o.what = 31 ∧ o.ix = 0 → s.scanBad o.elem = true → Next (.privilegedCompletion id) s fun t =>
      kget t.privs id = none ∧ (t.vd o.elem).shep = (s.vd o.elem).shep) ∧
    (o.what = 30 → s.scanBad o.elem = false → Next (.privilegedCompletion id) s fun t =>
      kget t.privs id = none ∧ (t.vd o.elem).shep = 1 ∧ (t.vd o.elem).round = 0 ∧
      ∀ e ∈ (s.scan o.elem).pagesOfVd o.elem, (t.page e.1).track = true ∧ (t.page e.1).dirty = 2 ^ 64 - 1) ∧
    (o.what = 31 → o.ix = 0 → s.scanBad o.elem = false → Next (.privilegedCompletion id) s fun t =>
      SameBytes s t ∧ kget t.privs id = some { o with ix := 1, waiting := s.pageList o.elem }) ∧
    (o.what = 32 → o.ix = 0 →
      (1000 * o.args.getD 0 0 < o.args.getD 2 0 → Next (.privilegedCompletion id) s fun t =>
        kget t.privs id = none ∧ (t.vd o.elem).shep = (s.vd o.elem).shep ∧
        (t.vd o.elem).frozen = (s.vd o.elem).frozen) ∧
      (o.args.getD 2 0 ≤ 1000 * o.args.getD 0 0 → Next (.privilegedCompletion id) s fun t => SameBytes s t ∧
        (t.vd o.elem).shep = 2 ∧ (t.vd o.elem).frozen = true ∧ kget t.privs id = some { o with ix := 1 })) ∧
    (o.what = 33 → Next (.privilegedCompletion id) s fun t => kget t.privs id = none ∧ (t.vd o.elem).shep = 0 ∧
      ((s.vd o.elem).shep = 4 → (t.vd o.elem).frozen = false)) ∧
    (o.what = 34 → Next (.privilegedCompletion id) s fun t => kget t.privs id = none ∧ (t.vd o.elem).shep = 4 ∧
      (t.vd o.elem).frozen = true)) ∧
  (∀ (s : State) (die way id : Nat) (o : PrivOp), way < 16 → o.elem < 32 →
    (s.privs.find? fun e => e.2.what == 17 && e.2.ix == die && (s.waysLeft e.2).contains way) = some (id, o) →
    Next (.wayHandover die way) s fun t => SameBytes s t ∧ t.privs = s.privs ∧
      ∀ p < 32, bitOf (t.ways p die) way = (bitOf o.val way && p == o.elem)) ∧
  (∀ (s : State) (p i : Nat) (e : FwdEnt), kget (s.pad p).fwd i = some e →
    (∀ f ∈ e.set, kget s.folds f = none) →
    Next (.forwardingEntryRetire p i) s fun t => t = { s with pads := t.pads } ∧
      t.pad p = { s.pad p with fwd := kdel (s.pad p).fwd i }) ∧
  (∀ (s u : State) (core stage band : Nat) (q : Iss), u = s.attend core stage → u.issuer = some q →
    q.bandB = (band == 1) → fetchInstr u q = none →
    (u.fetchStruck (u.fo q).paddock q.pc = true →
      exec (.fetchDecode core stage band) s = .next ((u.fetchPass q).trapAt q cEcc q.lanes false)) ∧
    (u.fetchStruck (u.fo q).paddock q.pc = false →
      exec (.fetchDecode core stage band) s = .next ((u.fetchPass q).trapAt q cDecode q.lanes
        (match u.fetch (u.fo q).paddock q.pc with | none => true | some ws => rettWord (ws.headD 0)))))

/-! ### Hosts -/

/-- R208, R209, R329 to R333, R443: registers of BAR0, host windows and configuration requests, where the function's
port is up. The words of the answers that join the outbox (log 12), and that a host's read of a bad word gives a free
value and a record (log 93), are the model's choices. -/
def Obligations.HostRegisters : Prop :=
  (∀ (s : State) (v q : Nat) (x : DWord), s.visible v = true → q < s.lqn v → (s.vd v).shep ≠ 2 →
    (s.vd v).shep ≠ 3 →
    Next (.lqnotify v q x) s fun t => SameBytes s t ∧ t.bar v (lqReg q 2) = x.toNat % 2 ^ 32 ∧
      q ∉ (t.vd v).mute) ∧
  (∀ (s : State) (v q : Nat) (x : DWord), s.visible v = true →
    (q < s.cqn v → Next (.cqhead v q x) s fun t => t = { s with vds := t.vds } ∧
      t.bar v (cqReg q 2) = x.toNat % 2 ^ 32) ∧
    Next (.tlbinv v x) s fun t => t = { s with vds := t.vds } ∧ t.bar v 0x10 = 0) ∧
  (∀ (s : State) (v op : Nat) (x : DWord) (o : CopyOp), s.visible v = true →
    kget (s.vd v).gfOut (bits x.toNat 15 0) = some op → kget s.copies op = some o → o.phase = 2 →
    Next (.gfqans v x) s fun t => SameBytes s t ∧ kget (t.vd v).gfOut (bits x.toNat 15 0) = none ∧
      (o.posted = some (bits x.toNat 15 0) → kget t.copies op = some { o with
        phase := 1, posted := none, fail := if x.getLsbD 16 then some 8 else none }) ∧
      (o.posted ≠ some (bits x.toNat 15 0) → t.copies = s.copies)) ∧
  (∀ (s : State) (v q : Nat) (x : DWord), v < 128 → q < 16 → s.fnUp v = true →
    Next (.shadow v q x) s fun t => t = { s with vds := t.vds } ∧
      t.bar (128 + portOf v) (0x5000 + 128 * (v % 64) + 8 * q) = x.toNat % 2 ^ 32) ∧
  (∀ (s : State) (port tag v : Nat) (ws : List Word) (x : DWord), port < 2 → s.fnUp (128 + port) = true →
    ((s.vd (128 + port)).reqs.find? fun r => r.1 == bits x.toNat 15 0) = some (tag, v, ws) →
    Next (.cfgans port x) s fun t => SameBytes s t ∧ (∀ r ∈ (t.vd (128 + port)).reqs, r.1 ≠ tag) ∧
      t.outbox = s.outbox ++ [(hostDest (portOf v), [BitVec.ofNat 32 21, BitVec.ofNat 32 v,
        if x.getLsbD 16 then 1 else 0, x.extractLsb' 32 32])]) ∧
  (∀ (s : State) (port : Nat) (x : DWord), port < 2 → s.fnUp (128 + port) = true →
    Next (.hacons port x) s fun t => t = { s with vds := t.vds } ∧
      t.bar (128 + port) 0x90 = x.toNat % 2 ^ 32) ∧
  (∀ (s : State) (port v cmd : Nat) (x : DWord), v = bits x.toNat 6 0 → cmd = bits x.toNat 11 8 → cmd < 5 →
    s.fnUp (128 + port) = true → s.shepRuns port = false →
    s.shepBad cmd v (s.bar (128 + port) 0x9000 % 2 ^ 32) (s.bar (128 + port) 0x9000 / 2 ^ 32) true = false →
    ∀ y, y = s.shepArgsNow cmd v (s.bar (128 + port) 0x9000 % 2 ^ 32) (s.bar (128 + port) 0x9000 / 2 ^ 32) →
    Next (.shepcmd port x) s fun t => SameBytes s t ∧ t.bar (128 + port) 0x9018 = 65536 * (v + 1) ∧
      t.shepRuns port = true ∧ bitOf (t.shepStat port) 0 = true ∧
      kget t.privs y.2.nextId = some { privOf (30 + cmd) v y.1 with
        reg := hostPa port (s.bar (128 + port) 0x9008 / 32 * 32), pool := 1 + port }) ∧
  (∀ (s : State) (port vf off : Nat) (x : DWord), port < 2 → vf ≤ 64 → s.visible (fnOf port vf) = true →
    Next (.registerWrite port vf 0x38 x) s (fun t => t = { s with vds := t.vds } ∧
      t.bar (fnOf port vf) 0x38 = x.toNat / 4096 * 4096) ∧
    (∀ q < s.cqn (fnOf port vf), q < 128 → Next (.registerWrite port vf (cqReg q 3) x) s fun t =>
      t = { s with vds := t.vds } ∧ t.bar (fnOf port vf) (cqReg q 3) = x.toNat % 2 ^ 11) ∧
    (off % 8 ≠ 0 → exec (.registerWrite port vf off x) s = .next s)) ∧
  (∀ (s : State) (v : Nat) (x : DWord), v < 128 → s.visible v = true →
    Next (.s1rootWrite v x) s fun t => t = { s with cfg := t.cfg } ∧
      t.reg 1 v 0x02 0 = bits x.toNat 47 15 * 2 ^ 15 + x.toNat % 2) ∧
  (∀ (s : State) (v : Nat) (ws : List Word), v < 128 → bitOf s.portsDown (portOf v) = false →
    (s.standby = 1 → Next (.configRequest v ws) s fun t => t = { s with outbox := s.outbox ++
      [(hostDest (portOf v), [BitVec.ofNat 32 21, BitVec.ofNat 32 v, 2, 0])] }) ∧
    (s.standby ≠ 1 → s.vdValid v = true → s.mode (s.vdPad v) 6 = true →
      (s.vd (128 + portOf v)).reqs.length < 64 →
      Next (.configRequest v ws) s fun t => SameBytes s t ∧ t.outbox = s.outbox ∧
        ∃ tag, (t.vd (128 + portOf v)).reqs = (s.vd (128 + portOf v)).reqs ++ [(tag, v, ws)])) ∧
  (∀ (s : State) (port vf a n : Nat) (bs : List Byte) (v : Nat), Sound s → port < 2 → 1 ≤ vf → vf ≤ 64 →
    v = fnOf port vf → s.visible v = true → n = 4096 * s.hwinCount v - a →
    ((s.vd v).shep ≠ 2 → (s.vd v).shep ≠ 3 → Next (.hostWindowAccess port vf a true bs) s fun t =>
      BytesAt t (windowAt port (4096 * s.hwinFirst v + a)) (bs.take n) ∧
      OnlyBytes s t (windowAt port (4096 * s.hwinFirst v + a)) (bs.take n).length) ∧
    Next (.hostWindowAccess port vf a false bs) s fun t =>
      ∃ ws, t.outbox = s.outbox ++ [(hostDest port, BitVec.ofNat 32 20 :: BitVec.ofNat 32 a :: ws)] ∧
        ws.length = bs.length ∧ SameBytes s t ∧
        (s.struck (windowAt port (4096 * s.hwinFirst v + a)) (min bs.length n) = false →
          t = { s with outbox := t.outbox }) ∧
        (s.struck (windowAt port (4096 * s.hwinFirst v + a)) (min bs.length n) = true →
          (t.pad (s.vdPad v)).faultNew ≠ (s.pad (s.vdPad v)).faultNew ∨ s.fqSize (s.vdPad v) = 0) ∧
        ∀ k < bs.length, s.struck (windowAt port (4096 * s.hwinFirst v + a) + k) 1 = false →
          (ws.getD k 0).toNat = if a + k < 4096 * s.hwinCount v
            then (memGet s.mem (windowAt port (4096 * s.hwinFirst v + a) + k)).toNat else 0)

/-- R330, R333, R364, R366, R402: records that the device writes for hosts and for the control paddock. The takeover as
two events (log 32), where and how a trace record is staged and written (log 88), and that counts of a queue that cannot
be read show no room (log 93) are the model's choices. -/
def Obligations.RecordsWritten : Prop :=
  (∀ (s : State) (v a : Nat) (r : List Word) (rest : List (List Word)) (p : Nat), Sound s →
    p = 128 + portOfFn v → s.fnUp p = true → (s.vd p).assist = r :: rest → s.bar p 0x80 ≠ 0 →
    (s.bar p 0x88 + 2 ^ 32 - s.bar p 0x90 % 2 ^ 32) % 2 ^ 32 < 2 ^ bits (s.bar p 0x80) 3 0 →
    a = ringAt p (s.bar p 0x80) 32 (s.bar p 0x88) →
    Next (.hostAssistRecord v) s fun t => BytesAt t a (wordsBytes r) ∧ OnlyBytes s t a (wordsBytes r).length ∧
      (t.vd p).assist = rest ∧ t.bar p 0x88 = (s.bar p 0x88 + 1) % 2 ^ 32 ∧
      t.msix = s.msix ++ [(p, bits (s.bar p 0x98) 10 0)]) ∧
  (∀ (s : State) (lea : Nat),
    (s.standby = 0 → Next (.standbyTakeover lea) s fun t => t.standby = 1 ∧ SameBytes s t ∧
      t.evNew.length = s.evNew.length + 1) ∧
    (s.standby = 1 → (s.image 3).verifies = true → exec (.standbyTakeover lea) s =
      .next { s with standby := 2, loaded := kset s.loaded 5 (s.image 3) }) ∧
    (s.standby = 1 → (s.image 3).verifies = false → exec (.standbyTakeover lea) s = .next s)) ∧
  (∀ (s : State) (pay r : List Word) (rest : List (List Word)),
    (s.evNew = r :: rest → s.evSize = 0 → s.evBuf = [] →
      Next (.eventRecord 0 pay) s fun t => t = { s with evNew := rest, evBuf := [r] }) ∧
    (∀ src, 1 ≤ src → src < 4 → Next (.eventRecord src pay) s fun t => t = { s with evNew := t.evNew } ∧
      ∃ e, t.evNew = s.evNew ++ [e] ∧ e.take 2 = [BitVec.ofNat 32 src, 0] ∧
        (e.drop 2).take 4 = (pay ++ [0, 0, 0, 0]).take 4)) ∧
  (∀ (s : State) (r : List Word) (n : Nat), Sound s → s.evBuf = [r] → n = leNat (memRead s.mem s.evAt 4) →
    (s.evSize ≠ 0 → s.evBad = true → Next .eventQueuePoll s fun t => SameBytes s t ∧ t.evBuf = [r]) ∧
    (s.evBad = false → (n + 2 ^ 32 - leNat (memRead s.mem (s.evAt + 4) 4)) % 2 ^ 32 < s.evSize →
      Next .eventQueuePoll s fun t => t.evBuf = [] ∧ leNat (memRead t.mem s.evAt 4) = (n + 1) % 2 ^ 32 ∧
        BytesAt t (s.evAt + 32 + 32 * (n % s.evSize)) (wordsBytes r))) ∧
  (∀ (s : State) (p : Nat) (r : List Word) (rest : List (List Word)), (s.pad p).faultNew = r :: rest →
    (s.fqSize p = 0 → Next (.faultRecordWrite p) s fun t => t = { s with pads := t.pads } ∧
      t.pad p = { s.pad p with faultNew := rest, faultBuf := [] }) ∧
    (s.fqSize p ≠ 0 → (s.pad p).faultBuf = [] → s.upsets = [] →
      s.fqReads p 0 = false ∨ s.fqReads p 1 = false ∨
        s.fqSize p ≤ (s.fqWord p 0 + 2 ^ 32 - s.fqWord p 1) % 2 ^ 32 →
      Next (.faultRecordWrite p) s fun t => SameBytes s t ∧
        t.pad p = { s.pad p with faultNew := rest, faultBuf := [r] })) ∧
  (∀ (s u : State) (p : Nat) (r : List Word), (s.pad p).faultBuf = [r] → s.fqSize p ≠ 0 → u = s.fqPass p →
    u.fqReads p 0 = true → u.fqReads p 1 = true →
    (s.fqWord p 0 + 2 ^ 32 - s.fqWord p 1) % 2 ^ 32 < s.fqSize p →
    Next (.faultQueuePoll p) s fun t => t =
      ((u.modPad p fun d => { d with faultBuf := [] }).devPut 0
        (s.fqBase p + 32 + 32 * (s.fqWord p 0 % s.fqSize p)) (wordsBytes r)).devPut 0 (s.fqBase p)
        (leBytes ((s.fqWord p 0 + 1) % 2 ^ 32) 4)) ∧
  (∀ (s u : State) (p d v n : Nat) (r : List Word) (rest : List (List Word)),
    kgetD s.stage (p * 16 + d) [] = r :: rest → kgetD s.traceDrop (p * 16 + d) 0 = 0 →
    u = { s with stage := kset s.stage (p * 16 + d) rest } →
    v = wbits (r.headD 0) 22 16 → n = s.bar v 0x30 → bitOf (s.reg 0 p 0x07 0) 0 = true → (u.tracePart p v).2 ≠ 0 →
    (bitOf (s.reg 1 v 0x05 0) 8 = true ∨ n < (u.tracePart p v).2) →
    Next (.traceRecordWrite p d) s fun t =>
      t = (u.devPut p ((u.tracePart p v).1 + 32 * (n % (u.tracePart p v).2)) (wordsBytes r)).setBar v 0x30 (n + 1)) ∧
  (∀ (s : State) (p d : Nat), kgetD s.stage (p * 16 + d) [] = [] → kgetD s.traceDrop (p * 16 + d) 0 ≠ 0 →
    s.atCap p (s.traceDie p) = false → s.runningVd p < 128 →
    Next (.traceRecordWrite p d) s fun t => SameBytes s t ∧ kget t.traceDrop (p * 16 + d) = none ∧
      ∃ r, kgetD t.stage (p * 16 + d) [] = [r] ∧ wbits (r.headD 0) 7 0 = 8 ∧
        r.getD 4 0 = BitVec.ofNat 32 (kgetD s.traceDrop (p * 16 + d) 0))

/-! ### Housekeeping and migration -/

/-- R306, R354, R446, R448 to R453: windows, heat, clocks, errors, retirement, start, attestation and
the management interface. The words that join the outbox (log 12), what a thermal reset resets (log 35), the journal's
words and how a start goes on (log 36), what the hold reset leaves (log 37) and the scrubber's addresses and owners (log
58) are the model's choices. R394: a start goes on from the part at which the last one failed. -/
def Obligations.Housekeeping : Prop :=
  (∀ (s : State) (d : Nat), d < 16 → (s.die d).winAt + s.reg 2 d 0x01 0 ≤ (s.die d).refs →
    Next (.bandwidthWindow d) s fun t => t = { s with dies := t.dies } ∧ (t.die d).winAt = (s.die d).refs ∧
      ∀ p < 32, kget (t.die d).bwNow p = some (s.minOf p d, s.capOf p d)) ∧
  (∀ (s : State) (c temp droop : Nat), c < 640 → Next (.hotMark c temp droop) s fun t =>
    t = { s with cores := t.cores } ∧ t.core c = { s.core c with
      temp := temp, droop := droop
      hot := if s.reg 2 (dieOf c) 0 0 ≤ temp then true
        else if temp + 4 ≤ s.reg 2 (dieOf c) 0 0 then false else (s.core c).hot }) ∧
  (∀ (s : State) (d : Nat) (up : Bool), d < 16 → (s.die d).clockAt + 100000 ≤ (s.die d).refs →
    ((up = true → s.hottest d ≤ 105 ∧ (s.die d).power ≤ 190) →
      (up = false → 110 ≤ s.hottest d ∨ 190 < (s.die d).power) →
      Next (.clockStep d up) s fun t => t = { s with dies := t.dies } ∧ (t.die d).clockAt = (s.die d).refs ∧
        (t.die d).clock = if up then min 850 ((s.die d).clock + 50) else max 425 ((s.die d).clock - 50)) ∧
    (up = true → 105 < s.hottest d ∨ 190 < (s.die d).power → exec (.clockStep d up) s = .next s)) ∧
  (∀ (s : State) (d f : Nat) (fo : Fold), d < 16 → kget s.folds f = some fo → fo.onCore = true →
    dieOf fo.core = d →
    (125 ≤ s.hottest d → Next (.thermalReset d) s fun t => ((∀ e ∈ s.copies, e.2.phase = 0) → SameBytes s t) ∧
      (t.die d).refs = 0 ∧ (t.die d).cycles = 0 ∧ (t.die d).total = (s.die d).total ∧
      ∃ g, kget t.folds f = some g ∧ g.failed = true ∧ ∀ fl ∈ g.flocks, fl.live = 0) ∧
    (s.hottest d < 125 → exec (.thermalReset d) s = .next s)) ∧
  (∀ (s : State) (d a pa : Nat), d < 16 → pa = d * 2 ^ 36 + a →
    (a < 2 ^ 36 → Next (.scrub d a true) s fun t => SameBytes s t ∧
      (t.page (pa / 2 ^ 17)).cleared = (s.page (pa / 2 ^ 17)).cleared ∧
      kget (t.page (pa / 2 ^ 17)).bad (pa % 2 ^ 17 / 64) = some 0) ∧
    (2 ^ 36 ≤ a → a < 2 ^ 37 → Next (.scrub d a true) s fun t => SameBytes s t ∧
      t.struck (commonsAt d (a % 2 ^ 26)) 1 = true) ∧
    exec (.scrub d a false) s = .next s) ∧
  (∀ (s : State) (ix : Nat),
    (ix < 512 → bitOf (s.die (ix / 32)).retiredChans (ix % 32) = false → s.chanFails ix = true →
      Next (.resourceRetire 0 ix) s fun t => SameBytes s t ∧
        bitOf (t.die (ix / 32)).retiredChans (ix % 32) = true) ∧
    (ix < 640 → (s.core ix).retired = false → (s.core ix).fails = true → Next (.resourceRetire 1 ix) s fun t =>
      ((∀ e ∈ s.copies, e.2.phase = 0) → SameBytes s t) ∧
      (t.core ix).retired = true ∧ t.evNew.length = s.evNew.length + 1) ∧
    exec (.resourceRetire 2 ix) s = .next s) ∧
  (∀ (s : State) (code save : DWord), s.started = false → s.bootLeft = some (7, 0) →
    (∀ k ∈ [1, 5, 6], (kget s.loaded k).isSome = true) →
    Next (.start code save) s fun t => ∀ e ∈ t.journal, e.headD 0 < 7 → e ∈ s.journal) ∧
  (∀ (s : State) (code save : DWord), s.started = false → s.bootLeft = none →
    (∀ p, s.bootFailed p = false) → s.bootFaults = [] →
    (s.image 0).verifies = true → (s.image 2).verifies = true →
    ((s.image 4).verifies = true → Next (.start code save) s fun t => SameBytes s t ∧
      t.started = true ∧ t.reg 0 0 0x0E 0 = code.toNat ∧ t.reg 0 0 0x10 0 = save.toNat ∧
      t.journal.getLast? = some [8, 1, 0, 17] ∧ t.portsDown % 4 = 0 ∧ t.standby = 0 ∧
      t.loaded = kset (kset (kset s.loaded 1 (s.image 0)) 5 (s.image 2)) 6 (s.image 4)) ∧
    ((s.image 4).verifies = false → Next (.start code save) s fun t => SameBytes s t ∧ t.started = false ∧
      t.bootLeft = some (6, 0))) ∧
  (∀ (s : State) (port : Nat) (nonce : List Byte), port < 2 → s.fnUp (128 + port) = true → Next (.attestationRequest ⟨port, nonce⟩) s fun t =>
    t = { s with outbox := t.outbox } ∧
    ∃ ws, t.outbox = s.outbox ++ [(hostDest port, BitVec.ofNat 32 22 :: (s.report nonce ++ ws))]) ∧
  (∀ (s : State) (r : Nat),
    exec (.i3cRead 0) s = .next { s with outbox := s.outbox ++
      [(hostDest 2, [BitVec.ofNat 32 23, 0, BitVec.ofNat 32 s.powerDrawn])] } ∧
    (1 ≤ r → r ≤ 640 → exec (.i3cRead r) s = .next { s with outbox := s.outbox ++
      [(hostDest 2, [BitVec.ofNat 32 23, BitVec.ofNat 32 r, BitVec.ofNat 32 (s.core (r - 1)).temp])] }) ∧
    (1024 ≤ r → exec (.i3cRead r) s = .next { s with outbox := s.outbox ++
      [(hostDest 2, BitVec.ofNat 32 23 :: BitVec.ofNat 32 r
        :: (s.journal.getD (r - 1024) []).map fun x => BitVec.ofNat 32 x)] }) ∧
    exec (.i3cSetPowerLimit r) s =
      .next { s with powerLimit := if 1200 ≤ r ∧ r ≤ 3800 then r else s.powerLimit }) ∧
  (∀ s : State, exec (.i3cHoldReset false) s = .next { s with holdReset := false } ∧
    (Sound s → Next (.i3cHoldReset true) s fun t => t.holdReset = true ∧ t.folds = [] ∧ t.started = false ∧
      ∀ y, memGet t.mem y = if isHostAddr y then memGet s.mem y else memDefault))

/-- R347, R431, R437 to R441: the switch, granules and streams, the end of rounds and of failed transfers, and
accesses from other devices. The words that join the outbox (log 12), what a refused stream answers (log 32) and how
packets to a moved peer go out again (log 77) are the model's choices. R450: what comes or leaves through fabric ports
that are down does not. -/
def Obligations.MigrationEvents : Prop :=
  (∀ (s : State) (v id : Nat) (o : PrivOp), v < 128 → (s.vd v).shep = 2 → s.shepOp v 32 = some (id, o) →
    o.ix = 4 → Next (.migrationSwitch v) s fun t => (t.vd v).shep = 3 ∧ kget t.privs id = none ∧
      ∀ f ∈ t.folds, f.2.paddock = 0 ∨ f.2.vd ≠ v) ∧
  (∀ (s : State) (v : Nat), (s.vd v).shep = 4 → (s.vd v).got = true →
    Next (.migrationSwitch v) s fun t => SameBytes s t ∧ (t.vd v).shep = 0 ∧ (t.vd v).frozen = false ∧
      (t.vd v).mute = List.range (s.lqn v)) ∧
  (∀ (s : State) (v g src : Nat) (bs : List Byte), s.fabricUp (2 ^ 18 - 1) = false →
    exec (.granuleReceive ⟨v, src⟩ g bs) s = .next s ∧ exec (.streamReceive ⟨v, src⟩ bs) s = .next s) ∧
  (∀ (s : State) (v g src : Nat) (bs : List Byte), bs.length = 2048 → s.fabricUp (2 ^ 18 - 1) = true →
    s.leaves src = true →
    (s.receives v src = true → ∀ slot pa, Sound s → s.upsets = [] →
      s.walk2 v (2048 * g % 2 ^ 48) true = .mem slot pa → s.writeErr slot pa 2048 = none → Next (.granuleReceive ⟨v, src⟩ g bs) s fun t => BytesAt t pa bs ∧
        OnlyBytes s t pa 2048 ∧ t.outbox = s.outbox ++ [(src, [8, BitVec.ofNat 32 v, BitVec.ofNat 32 g])]) ∧
    (s.receives v src = false → exec (.granuleReceive ⟨v, src⟩ g bs) s = .next { s with
      outbox := s.outbox ++ [(src, [9, BitVec.ofNat 32 v, BitVec.ofNat 32 g])] })) ∧
  (∀ (s : State) (v src : Nat) (bs : List Byte), s.fabricUp (2 ^ 18 - 1) = true → s.leaves src = true →
    (s.receives v src = false ∨ (s.vd v).got = true → exec (.streamReceive ⟨v, src⟩ bs) s = .next { s with
      outbox := s.outbox ++ [(src, [11, BitVec.ofNat 32 v])] }) ∧
    (s.receives v src = true → (s.vd v).got = false → ∀ n u,
      s.loadStream v bs.length (fun off n => leNat ((bs.drop off).take n)) = (0, n, u) →
      Next (.streamReceive ⟨v, src⟩ bs) s fun t => t.folds = u.folds ∧ t.droves = u.droves ∧ t.mem = u.mem ∧
        t.vd v = { u.vd v with got := true } ∧ t.outbox = u.outbox ++ [(src, [10, BitVec.ofNat 32 v])])) ∧
  (∀ (s : State) (v id : Nat) (o : PrivOp), v < 128 →
    (s.shepOp v 31 = some (id, o) → o.ix = 2 → Next (.roundAcknowledged v false) s fun t =>
      (t.vd v).round = (s.vd v).round + 1 ∧ kget t.privs id = none) ∧
    (∀ refused, s.shepOp v 31 = none → s.shepOp v 32 = some (id, o) → 3 ≤ o.ix →
      Next (.transferFailure v refused) s fun t => (t.vd v).shep = 1 ∧ (t.vd v).frozen = false ∧
        (t.vd v).granules = [] ∧ kget t.privs id = none)) ∧
  (∀ (s : State) (vdn src gpa lea : Nat) (wr : Bool) (bs : List Byte), s.fabricUp (leaPorts lea) = false →
    exec (.peerAccess ⟨vdn, lea⟩ src gpa wr bs) s = .next s) ∧
  (∀ (s : State) (vdn src gpa lea : Nat) (wr : Bool) (bs : List Byte) (e : VdnEnt),
    s.fabricUp (leaPorts lea) = true → s.leaves (s.deviceOf src) = true →
    (s.vdnEnt vdn = some e → s.leaves e.device = true) →
    (s.vdnEnt vdn = none → Next (.peerAccess ⟨vdn, lea⟩ src gpa wr bs) s fun t => t = { s with outbox := t.outbox } ∧
      ∃ ws, t.outbox = s.outbox ++ [(s.deviceOf src, 4 :: ws)]) ∧
    (s.vdnEnt vdn = some e → e.st = 3 → Next (.peerAccess ⟨vdn, lea⟩ src gpa wr bs) s fun t =>
      t = { s with outbox := t.outbox } ∧ ∃ ws, t.outbox = s.outbox ++
        [if s.moveOver e (lea % 2) = true then (s.deviceOf src, 5 :: ws) else (e.device, 12 :: ws)]) ∧
    (s.vdnEnt vdn = some e → e.st = 1 → (s.vd e.vd).shep = 2 → exec (.peerAccess ⟨vdn, lea⟩ src gpa wr bs) s = .next s) ∧
    (s.vdnEnt vdn = some e → e.st = 1 → (s.vd e.vd).shep ≠ 2 → s.sameGroup src vdn = false →
      Next (.peerAccess ⟨vdn, lea⟩ src gpa wr bs) s fun t => t = { s with outbox := t.outbox } ∧
        ∃ ws, t.outbox = s.outbox ++ [(s.deviceOf src, 4 :: ws)]) ∧
    (s.vdnEnt vdn = some e → e.st = 1 → s.sameGroup src vdn = true → (s.vd e.vd).shep ≠ 2 →
      (∀ p ∈ piecesOf (gpa % 2 ^ 48) bs.length, s.peerPieceBad e.vd wr p = false) →
      (wr = false → Next (.peerAccess ⟨vdn, lea⟩ src gpa wr bs) s fun t => t = { s with
          outbox := t.outbox, free := t.free, counters := t.counters, pads := t.pads, dies := t.dies, pages := t.pages
          droves := t.droves, upsets := t.upsets } ∧
        ∃ ws, t.outbox = s.outbox ++ [(s.deviceOf src, 2 :: ws)]) ∧
      (wr = true → ∀ slot pa, Sound s → s.upsets = [] → bs ≠ [] → piecesOf (gpa % 2 ^ 48) bs.length = [(gpa % 2 ^ 48, bs.length)] →
        s.walk2 e.vd (gpa % 2 ^ 48) true = .mem slot pa →
        Next (.peerAccess ⟨vdn, lea⟩ src gpa wr bs) s fun t => BytesAt t pa bs ∧ OnlyBytes s t pa bs.length))) ∧
  (∀ (s : State) (vdn id : Nat) (o : CopyOp), kget s.copies id = some o →
    ((∀ x ∈ o.owed, x.1 ≠ vdn) → o.paddock ≠ 0 → o.phase = 1 → o.wrote = false → s.reaches o vdn = true →
      Next (.movedRefusal vdn id) s fun t => t = { s with copies := t.copies } ∧
        kget t.copies id = some { o with moved := some (s.die (16 + portOf o.vd)).refs }) ∧
    ((∃ x ∈ o.owed, x.1 = vdn) → Next (.movedRefusal vdn id) s fun t =>
      t = { s with copies := t.copies, free := t.free } ∧ ∃ i x, o.owed[i]? = some x ∧ x.1 = vdn ∧
        kget t.copies id = some { o with
          moved := some (s.die (16 + portOf o.vd)).refs, owed := o.owed.eraseIdx i, backs := o.backs ++ [x] }) ∧
    (∀ t0, o.moved = some t0 → t0 + 4096 ≤ (s.die (16 + portOf o.vd)).refs →
      (o.backs = [] → Next (.movedRetry id) s fun t =>
        t = { s with copies := t.copies } ∧ kget t.copies id = some { o with moved := none }) ∧
      (∀ v g bs w h, o.backs = [(v, g, bs)] → s.peerRoute o.vd v g true = .peer w h →
        s.leaves (s.deviceOf w) = true →
        Next (.movedRetry id) s fun t => SameBytes s t ∧
          kget t.copies id = some { o with moved := none, backs := [], owed := o.owed ++ [(v, g, bs)] } ∧
          ∃ ws, t.outbox = s.outbox ++ [(s.deviceOf w, BitVec.ofNat 32 1 :: ws)]))) ∧
  (∀ (s : State) (vdn : Nat) (e : VdnEnt), s.vdnEnt vdn = some e → e.st = 3 →
    Next (.forwardingExpiry vdn) s fun t => t = { s with vdns := t.vdns } ∧
      kget t.vdns (vdn % 4096) = some { e with
        expired := (if s.moveOver e 0 then 1 else 0) + if s.moveOver e 1 then 2 else 0 } ∧
      (bitOf e.expired 0 = true ∨ e.moved.1 + 1000000 ≤ (s.die 16).refs → s.moveOver e 0 = true) ∧
      (bitOf e.expired 1 = true ∨ e.moved.2 + 1000000 ≤ (s.die 17).refs → s.moveOver e 1 = true))
end

