-- ==== Sys2Proof/Laws/Map.lean ====
section
/-! SUPPORT. Maps by number, lists of flocks, lane vectors and masks: what reading gives after an
update. -/
namespace Sys2Proof.Machine

/-! ### Maps by number -/

@[simp] theorem kget_kset_self {α : Type} (m : SMap α) (n : Nat) (x : α) : kget (kset m n x) n = some x := by
  induction m with
  | nil => simp [kset, kget]
  | cons e m ih =>
    obtain ⟨k, v⟩ := e
    simp only [kset]
    split
    · simp [kget]
    · split
      · simp [kget]
      · rename_i h1 h2
        simp [kget, Ne.symm h2, ih]

theorem kget_kset_ne {α : Type} (m : SMap α) {n j : Nat} (x : α) (h : j ≠ n) :
    kget (kset m n x) j = kget m j := by
  induction m with
  | nil => simp [kset, kget, Ne.symm h]
  | cons e m ih =>
    obtain ⟨k, v⟩ := e
    simp only [kset]
    split
    · simp [kget, Ne.symm h]
    · split
      · rename_i h1 h2; subst h2; simp [kget, Ne.symm h]
      · simp only [kget, ih]

theorem kget_kset {α : Type} (m : SMap α) (n j : Nat) (x : α) :
    kget (kset m n x) j = if j = n then some x else kget m j := by
  split
  · subst_vars; simp
  · exact kget_kset_ne m x ‹_›

theorem kgetD_kset {α : Type} (m : SMap α) (n j : Nat) (x d : α) :
    kgetD (kset m n x) j d = if j = n then x else kgetD m j d := by
  simp only [kgetD, kget_kset]; split <;> simp

theorem kget_kmod {α : Type} (m : SMap α) (n j : Nat) (f : α → α) :
    kget (kmod m n f) j = if j = n then (kget m n).map f else kget m j := by
  unfold kmod
  split
  · rw [kget_kset]; simp [*]
  · split <;> simp_all

theorem kget_kdel {α : Type} (m : SMap α) (n j : Nat) :
    kget (kdel m n) j = if j = n then none else kget m j := by
  induction m with
  | nil => simp [kdel, kget]
  | cons e m ih =>
    obtain ⟨k, v⟩ := e
    simp only [kdel, List.filter_cons] at *
    by_cases hk : k = n
    · subst hk
      simp only [bne_self_eq_false, Bool.false_eq_true, if_false, ih, kget]
      split <;> simp_all [Ne.symm]
    · have : (k != n) = true := by simpa using hk
      simp only [this, if_true, kget, ih]
      split <;> split <;> simp_all

/-! ### Lists -/

theorem getElem?_lmod {α : Type} (l : List α) (i j : Nat) (f : α → α) :
    (lmod l i f)[j]? = if j = i then (l[i]?).map f else l[j]? := by
  unfold lmod
  split
  · rename_i x hx
    have hi : i < l.length := by
      rcases Nat.lt_or_ge i l.length with h | h
      · exact h
      · simp [List.getElem?_eq_none h] at hx
    by_cases h : j = i
    · subst h; rw [if_pos rfl, List.getElem?_set_self hi, hx]; rfl
    · rw [List.getElem?_set_ne (Ne.symm h)]; simp [h]
  · split <;> simp_all

/-! ### Lanes -/

theorem getD_map_range {α : Type} (f : Nat → α) (n i : Nat) (d : α) :
    ((List.range n).map f).getD i d = if i < n then f i else d := by
  by_cases h : i < n
  · simp [List.getD_eq_getElem?_getD, h]
  · simp [List.getD_eq_getElem?_getD, h]

theorem lane_tab (f : Nat → Word) (l : Nat) : lane (tab f) l = if l < 32 then f l else 0 :=
  getD_map_range f 32 l 0

theorem lane_blend (m : Mask) (x y : Nat → Word) (l : Nat) :
    lane (blend m x y) l = if l < 32 then (if m.getLsbD l then x l else y l) else 0 := lane_tab _ _

theorem maskOf_fold_getLsbD (f : Nat → Bool) (n l : Nat) (m : Mask) (hn : n ≤ 32) :
    ((List.range n).foldl (fun m l => if f l then m ||| BitVec.ofNat 32 (2 ^ l) else m) m).getLsbD l =
      (m.getLsbD l || (decide (l < n) && f l)) := by
  induction n with
  | zero => simp
  | succ n ih =>
    have hp : (BitVec.ofNat 32 (2 ^ n)).getLsbD l = decide (l = n) := by
      rw [BitVec.getLsbD_ofNat, Nat.testBit_two_pow]
      by_cases h : n = l
      · subst h; simp; omega
      · simp [h, Ne.symm h]
    rw [List.range_succ, List.foldl_append, List.foldl_cons, List.foldl_nil]
    by_cases hf : f n
    · rw [if_pos hf, BitVec.getLsbD_or, ih (by omega), hp]
      by_cases h : l = n
      · subst h; simp [hf]
      · have : decide (l < n + 1) = decide (l < n) := decide_eq_decide.mpr (by omega)
        rw [this]; simp [h]
    · rw [if_neg hf, ih (by omega)]
      by_cases h : l = n
      · subst h; simp [hf]
      · have : decide (l < n + 1) = decide (l < n) := decide_eq_decide.mpr (by omega)
        rw [this]

@[simp] theorem getLsbD_maskOf (f : Nat → Bool) (l : Nat) :
    (maskOf f).getLsbD l = (decide (l < 32) && f l) := by
  rw [maskOf, maskOf_fold_getLsbD f 32 l 0 (by omega)]; simp

theorem mem_lanesOf (m : Mask) (l : Nat) : l ∈ lanesOf m ↔ l < 32 ∧ m.getLsbD l = true := by
  simp [lanesOf]

end Sys2Proof.Machine
end

