-- ==== Sys2Proof/Laws/State.lean ====
section
/-! SUPPORT. One lemma for each field of the state and each update: what the update leaves as it was.
All hold by definition. -/
namespace Sys2Proof.Machine

/-! ### modCore -/

@[simp] theorem State.modCore_started (s : State) (c : Nat) (g : Core → Core) :
    (s.modCore c g).started = s.started := rfl
@[simp] theorem State.modCore_agenda (s : State) (c : Nat) (g : Core → Core) :
    (s.modCore c g).agenda = s.agenda := rfl
@[simp] theorem State.modCore_focus (s : State) (c : Nat) (g : Core → Core) :
    (s.modCore c g).focus = s.focus := rfl
@[simp] theorem State.modCore_nextId (s : State) (c : Nat) (g : Core → Core) :
    (s.modCore c g).nextId = s.nextId := rfl
@[simp] theorem State.modCore_free (s : State) (c : Nat) (g : Core → Core) :
    (s.modCore c g).free = s.free := rfl
@[simp] theorem State.modCore_mem (s : State) (c : Nat) (g : Core → Core) :
    (s.modCore c g).mem = s.mem := rfl
@[simp] theorem State.modCore_cfg (s : State) (c : Nat) (g : Core → Core) :
    (s.modCore c g).cfg = s.cfg := rfl
@[simp] theorem State.modCore_folds (s : State) (c : Nat) (g : Core → Core) :
    (s.modCore c g).folds = s.folds := rfl
@[simp] theorem State.modCore_droves (s : State) (c : Nat) (g : Core → Core) :
    (s.modCore c g).droves = s.droves := rfl
@[simp] theorem State.modCore_ops (s : State) (c : Nat) (g : Core → Core) :
    (s.modCore c g).ops = s.ops := rfl
@[simp] theorem State.modCore_copies (s : State) (c : Nat) (g : Core → Core) :
    (s.modCore c g).copies = s.copies := rfl
@[simp] theorem State.modCore_launches (s : State) (c : Nat) (g : Core → Core) :
    (s.modCore c g).launches = s.launches := rfl
@[simp] theorem State.modCore_privs (s : State) (c : Nat) (g : Core → Core) :
    (s.modCore c g).privs = s.privs := rfl
@[simp] theorem State.modCore_pads (s : State) (c : Nat) (g : Core → Core) :
    (s.modCore c g).pads = s.pads := rfl
@[simp] theorem State.modCore_vds (s : State) (c : Nat) (g : Core → Core) :
    (s.modCore c g).vds = s.vds := rfl
@[simp] theorem State.modCore_dies (s : State) (c : Nat) (g : Core → Core) :
    (s.modCore c g).dies = s.dies := rfl
@[simp] theorem State.modCore_pages (s : State) (c : Nat) (g : Core → Core) :
    (s.modCore c g).pages = s.pages := rfl
@[simp] theorem State.modCore_keys (s : State) (c : Nat) (g : Core → Core) :
    (s.modCore c g).keys = s.keys := rfl
@[simp] theorem State.modCore_vdns (s : State) (c : Nat) (g : Core → Core) :
    (s.modCore c g).vdns = s.vdns := rfl
@[simp] theorem State.modCore_counters (s : State) (c : Nat) (g : Core → Core) :
    (s.modCore c g).counters = s.counters := rfl
@[simp] theorem State.modCore_stage (s : State) (c : Nat) (g : Core → Core) :
    (s.modCore c g).stage = s.stage := rfl
@[simp] theorem State.modCore_traceDrop (s : State) (c : Nat) (g : Core → Core) :
    (s.modCore c g).traceDrop = s.traceDrop := rfl
@[simp] theorem State.modCore_evBuf (s : State) (c : Nat) (g : Core → Core) :
    (s.modCore c g).evBuf = s.evBuf := rfl
@[simp] theorem State.modCore_evNew (s : State) (c : Nat) (g : Core → Core) :
    (s.modCore c g).evNew = s.evNew := rfl
@[simp] theorem State.modCore_hvMail (s : State) (c : Nat) (g : Core → Core) :
    (s.modCore c g).hvMail = s.hvMail := rfl
@[simp] theorem State.modCore_msix (s : State) (c : Nat) (g : Core → Core) :
    (s.modCore c g).msix = s.msix := rfl
@[simp] theorem State.modCore_outbox (s : State) (c : Nat) (g : Core → Core) :
    (s.modCore c g).outbox = s.outbox := rfl
@[simp] theorem State.modCore_journal (s : State) (c : Nat) (g : Core → Core) :
    (s.modCore c g).journal = s.journal := rfl
@[simp] theorem State.modCore_upsets (s : State) (c : Nat) (g : Core → Core) :
    (s.modCore c g).upsets = s.upsets := rfl
@[simp] theorem State.modCore_images (s : State) (c : Nat) (g : Core → Core) :
    (s.modCore c g).images = s.images := rfl
@[simp] theorem State.modCore_bootFaults (s : State) (c : Nat) (g : Core → Core) :
    (s.modCore c g).bootFaults = s.bootFaults := rfl
@[simp] theorem State.modCore_portsDown (s : State) (c : Nat) (g : Core → Core) :
    (s.modCore c g).portsDown = s.portsDown := rfl
@[simp] theorem State.modCore_powerLimit (s : State) (c : Nat) (g : Core → Core) :
    (s.modCore c g).powerLimit = s.powerLimit := rfl
@[simp] theorem State.modCore_holdReset (s : State) (c : Nat) (g : Core → Core) :
    (s.modCore c g).holdReset = s.holdReset := rfl
@[simp] theorem State.modCore_standby (s : State) (c : Nat) (g : Core → Core) :
    (s.modCore c g).standby = s.standby := rfl
@[simp] theorem State.modCore_loaded (s : State) (c : Nat) (g : Core → Core) :
    (s.modCore c g).loaded = s.loaded := rfl

/-! ### modStage -/

@[simp] theorem State.modStage_started (s : State) (c st : Nat) (g : Stage → Stage) :
    (s.modStage c st g).started = s.started := rfl
@[simp] theorem State.modStage_agenda (s : State) (c st : Nat) (g : Stage → Stage) :
    (s.modStage c st g).agenda = s.agenda := rfl
@[simp] theorem State.modStage_focus (s : State) (c st : Nat) (g : Stage → Stage) :
    (s.modStage c st g).focus = s.focus := rfl
@[simp] theorem State.modStage_nextId (s : State) (c st : Nat) (g : Stage → Stage) :
    (s.modStage c st g).nextId = s.nextId := rfl
@[simp] theorem State.modStage_free (s : State) (c st : Nat) (g : Stage → Stage) :
    (s.modStage c st g).free = s.free := rfl
@[simp] theorem State.modStage_mem (s : State) (c st : Nat) (g : Stage → Stage) :
    (s.modStage c st g).mem = s.mem := rfl
@[simp] theorem State.modStage_cfg (s : State) (c st : Nat) (g : Stage → Stage) :
    (s.modStage c st g).cfg = s.cfg := rfl
@[simp] theorem State.modStage_folds (s : State) (c st : Nat) (g : Stage → Stage) :
    (s.modStage c st g).folds = s.folds := rfl
@[simp] theorem State.modStage_droves (s : State) (c st : Nat) (g : Stage → Stage) :
    (s.modStage c st g).droves = s.droves := rfl
@[simp] theorem State.modStage_ops (s : State) (c st : Nat) (g : Stage → Stage) :
    (s.modStage c st g).ops = s.ops := rfl
@[simp] theorem State.modStage_copies (s : State) (c st : Nat) (g : Stage → Stage) :
    (s.modStage c st g).copies = s.copies := rfl
@[simp] theorem State.modStage_launches (s : State) (c st : Nat) (g : Stage → Stage) :
    (s.modStage c st g).launches = s.launches := rfl
@[simp] theorem State.modStage_privs (s : State) (c st : Nat) (g : Stage → Stage) :
    (s.modStage c st g).privs = s.privs := rfl
@[simp] theorem State.modStage_pads (s : State) (c st : Nat) (g : Stage → Stage) :
    (s.modStage c st g).pads = s.pads := rfl
@[simp] theorem State.modStage_vds (s : State) (c st : Nat) (g : Stage → Stage) :
    (s.modStage c st g).vds = s.vds := rfl
@[simp] theorem State.modStage_dies (s : State) (c st : Nat) (g : Stage → Stage) :
    (s.modStage c st g).dies = s.dies := rfl
@[simp] theorem State.modStage_pages (s : State) (c st : Nat) (g : Stage → Stage) :
    (s.modStage c st g).pages = s.pages := rfl
@[simp] theorem State.modStage_keys (s : State) (c st : Nat) (g : Stage → Stage) :
    (s.modStage c st g).keys = s.keys := rfl
@[simp] theorem State.modStage_vdns (s : State) (c st : Nat) (g : Stage → Stage) :
    (s.modStage c st g).vdns = s.vdns := rfl
@[simp] theorem State.modStage_counters (s : State) (c st : Nat) (g : Stage → Stage) :
    (s.modStage c st g).counters = s.counters := rfl
@[simp] theorem State.modStage_stage (s : State) (c st : Nat) (g : Stage → Stage) :
    (s.modStage c st g).stage = s.stage := rfl
@[simp] theorem State.modStage_traceDrop (s : State) (c st : Nat) (g : Stage → Stage) :
    (s.modStage c st g).traceDrop = s.traceDrop := rfl
@[simp] theorem State.modStage_evBuf (s : State) (c st : Nat) (g : Stage → Stage) :
    (s.modStage c st g).evBuf = s.evBuf := rfl
@[simp] theorem State.modStage_evNew (s : State) (c st : Nat) (g : Stage → Stage) :
    (s.modStage c st g).evNew = s.evNew := rfl
@[simp] theorem State.modStage_hvMail (s : State) (c st : Nat) (g : Stage → Stage) :
    (s.modStage c st g).hvMail = s.hvMail := rfl
@[simp] theorem State.modStage_msix (s : State) (c st : Nat) (g : Stage → Stage) :
    (s.modStage c st g).msix = s.msix := rfl
@[simp] theorem State.modStage_outbox (s : State) (c st : Nat) (g : Stage → Stage) :
    (s.modStage c st g).outbox = s.outbox := rfl
@[simp] theorem State.modStage_journal (s : State) (c st : Nat) (g : Stage → Stage) :
    (s.modStage c st g).journal = s.journal := rfl
@[simp] theorem State.modStage_upsets (s : State) (c st : Nat) (g : Stage → Stage) :
    (s.modStage c st g).upsets = s.upsets := rfl
@[simp] theorem State.modStage_images (s : State) (c st : Nat) (g : Stage → Stage) :
    (s.modStage c st g).images = s.images := rfl
@[simp] theorem State.modStage_bootFaults (s : State) (c st : Nat) (g : Stage → Stage) :
    (s.modStage c st g).bootFaults = s.bootFaults := rfl
@[simp] theorem State.modStage_portsDown (s : State) (c st : Nat) (g : Stage → Stage) :
    (s.modStage c st g).portsDown = s.portsDown := rfl
@[simp] theorem State.modStage_powerLimit (s : State) (c st : Nat) (g : Stage → Stage) :
    (s.modStage c st g).powerLimit = s.powerLimit := rfl
@[simp] theorem State.modStage_holdReset (s : State) (c st : Nat) (g : Stage → Stage) :
    (s.modStage c st g).holdReset = s.holdReset := rfl
@[simp] theorem State.modStage_standby (s : State) (c st : Nat) (g : Stage → Stage) :
    (s.modStage c st g).standby = s.standby := rfl
@[simp] theorem State.modStage_loaded (s : State) (c st : Nat) (g : Stage → Stage) :
    (s.modStage c st g).loaded = s.loaded := rfl

/-! ### modFold -/

@[simp] theorem State.modFold_started (s : State) (f : Nat) (g : Fold → Fold) :
    (s.modFold f g).started = s.started := rfl
@[simp] theorem State.modFold_agenda (s : State) (f : Nat) (g : Fold → Fold) :
    (s.modFold f g).agenda = s.agenda := rfl
@[simp] theorem State.modFold_focus (s : State) (f : Nat) (g : Fold → Fold) :
    (s.modFold f g).focus = s.focus := rfl
@[simp] theorem State.modFold_nextId (s : State) (f : Nat) (g : Fold → Fold) :
    (s.modFold f g).nextId = s.nextId := rfl
@[simp] theorem State.modFold_free (s : State) (f : Nat) (g : Fold → Fold) :
    (s.modFold f g).free = s.free := rfl
@[simp] theorem State.modFold_mem (s : State) (f : Nat) (g : Fold → Fold) :
    (s.modFold f g).mem = s.mem := rfl
@[simp] theorem State.modFold_cfg (s : State) (f : Nat) (g : Fold → Fold) :
    (s.modFold f g).cfg = s.cfg := rfl
@[simp] theorem State.modFold_cores (s : State) (f : Nat) (g : Fold → Fold) :
    (s.modFold f g).cores = s.cores := rfl
@[simp] theorem State.modFold_droves (s : State) (f : Nat) (g : Fold → Fold) :
    (s.modFold f g).droves = s.droves := rfl
@[simp] theorem State.modFold_ops (s : State) (f : Nat) (g : Fold → Fold) :
    (s.modFold f g).ops = s.ops := rfl
@[simp] theorem State.modFold_copies (s : State) (f : Nat) (g : Fold → Fold) :
    (s.modFold f g).copies = s.copies := rfl
@[simp] theorem State.modFold_launches (s : State) (f : Nat) (g : Fold → Fold) :
    (s.modFold f g).launches = s.launches := rfl
@[simp] theorem State.modFold_privs (s : State) (f : Nat) (g : Fold → Fold) :
    (s.modFold f g).privs = s.privs := rfl
@[simp] theorem State.modFold_pads (s : State) (f : Nat) (g : Fold → Fold) :
    (s.modFold f g).pads = s.pads := rfl
@[simp] theorem State.modFold_vds (s : State) (f : Nat) (g : Fold → Fold) :
    (s.modFold f g).vds = s.vds := rfl
@[simp] theorem State.modFold_dies (s : State) (f : Nat) (g : Fold → Fold) :
    (s.modFold f g).dies = s.dies := rfl
@[simp] theorem State.modFold_pages (s : State) (f : Nat) (g : Fold → Fold) :
    (s.modFold f g).pages = s.pages := rfl
@[simp] theorem State.modFold_keys (s : State) (f : Nat) (g : Fold → Fold) :
    (s.modFold f g).keys = s.keys := rfl
@[simp] theorem State.modFold_vdns (s : State) (f : Nat) (g : Fold → Fold) :
    (s.modFold f g).vdns = s.vdns := rfl
@[simp] theorem State.modFold_counters (s : State) (f : Nat) (g : Fold → Fold) :
    (s.modFold f g).counters = s.counters := rfl
@[simp] theorem State.modFold_stage (s : State) (f : Nat) (g : Fold → Fold) :
    (s.modFold f g).stage = s.stage := rfl
@[simp] theorem State.modFold_traceDrop (s : State) (f : Nat) (g : Fold → Fold) :
    (s.modFold f g).traceDrop = s.traceDrop := rfl
@[simp] theorem State.modFold_evBuf (s : State) (f : Nat) (g : Fold → Fold) :
    (s.modFold f g).evBuf = s.evBuf := rfl
@[simp] theorem State.modFold_evNew (s : State) (f : Nat) (g : Fold → Fold) :
    (s.modFold f g).evNew = s.evNew := rfl
@[simp] theorem State.modFold_hvMail (s : State) (f : Nat) (g : Fold → Fold) :
    (s.modFold f g).hvMail = s.hvMail := rfl
@[simp] theorem State.modFold_msix (s : State) (f : Nat) (g : Fold → Fold) :
    (s.modFold f g).msix = s.msix := rfl
@[simp] theorem State.modFold_outbox (s : State) (f : Nat) (g : Fold → Fold) :
    (s.modFold f g).outbox = s.outbox := rfl
@[simp] theorem State.modFold_journal (s : State) (f : Nat) (g : Fold → Fold) :
    (s.modFold f g).journal = s.journal := rfl
@[simp] theorem State.modFold_upsets (s : State) (f : Nat) (g : Fold → Fold) :
    (s.modFold f g).upsets = s.upsets := rfl
@[simp] theorem State.modFold_images (s : State) (f : Nat) (g : Fold → Fold) :
    (s.modFold f g).images = s.images := rfl
@[simp] theorem State.modFold_bootFaults (s : State) (f : Nat) (g : Fold → Fold) :
    (s.modFold f g).bootFaults = s.bootFaults := rfl
@[simp] theorem State.modFold_portsDown (s : State) (f : Nat) (g : Fold → Fold) :
    (s.modFold f g).portsDown = s.portsDown := rfl
@[simp] theorem State.modFold_powerLimit (s : State) (f : Nat) (g : Fold → Fold) :
    (s.modFold f g).powerLimit = s.powerLimit := rfl
@[simp] theorem State.modFold_holdReset (s : State) (f : Nat) (g : Fold → Fold) :
    (s.modFold f g).holdReset = s.holdReset := rfl
@[simp] theorem State.modFold_standby (s : State) (f : Nat) (g : Fold → Fold) :
    (s.modFold f g).standby = s.standby := rfl
@[simp] theorem State.modFold_loaded (s : State) (f : Nat) (g : Fold → Fold) :
    (s.modFold f g).loaded = s.loaded := rfl

/-! ### modFlock -/

@[simp] theorem State.modFlock_started (s : State) (f k : Nat) (g : Flock → Flock) :
    (s.modFlock f k g).started = s.started := rfl
@[simp] theorem State.modFlock_agenda (s : State) (f k : Nat) (g : Flock → Flock) :
    (s.modFlock f k g).agenda = s.agenda := rfl
@[simp] theorem State.modFlock_focus (s : State) (f k : Nat) (g : Flock → Flock) :
    (s.modFlock f k g).focus = s.focus := rfl
@[simp] theorem State.modFlock_nextId (s : State) (f k : Nat) (g : Flock → Flock) :
    (s.modFlock f k g).nextId = s.nextId := rfl
@[simp] theorem State.modFlock_free (s : State) (f k : Nat) (g : Flock → Flock) :
    (s.modFlock f k g).free = s.free := rfl
@[simp] theorem State.modFlock_mem (s : State) (f k : Nat) (g : Flock → Flock) :
    (s.modFlock f k g).mem = s.mem := rfl
@[simp] theorem State.modFlock_cfg (s : State) (f k : Nat) (g : Flock → Flock) :
    (s.modFlock f k g).cfg = s.cfg := rfl
@[simp] theorem State.modFlock_cores (s : State) (f k : Nat) (g : Flock → Flock) :
    (s.modFlock f k g).cores = s.cores := rfl
@[simp] theorem State.modFlock_droves (s : State) (f k : Nat) (g : Flock → Flock) :
    (s.modFlock f k g).droves = s.droves := rfl
@[simp] theorem State.modFlock_ops (s : State) (f k : Nat) (g : Flock → Flock) :
    (s.modFlock f k g).ops = s.ops := rfl
@[simp] theorem State.modFlock_copies (s : State) (f k : Nat) (g : Flock → Flock) :
    (s.modFlock f k g).copies = s.copies := rfl
@[simp] theorem State.modFlock_launches (s : State) (f k : Nat) (g : Flock → Flock) :
    (s.modFlock f k g).launches = s.launches := rfl
@[simp] theorem State.modFlock_privs (s : State) (f k : Nat) (g : Flock → Flock) :
    (s.modFlock f k g).privs = s.privs := rfl
@[simp] theorem State.modFlock_pads (s : State) (f k : Nat) (g : Flock → Flock) :
    (s.modFlock f k g).pads = s.pads := rfl
@[simp] theorem State.modFlock_vds (s : State) (f k : Nat) (g : Flock → Flock) :
    (s.modFlock f k g).vds = s.vds := rfl
@[simp] theorem State.modFlock_dies (s : State) (f k : Nat) (g : Flock → Flock) :
    (s.modFlock f k g).dies = s.dies := rfl
@[simp] theorem State.modFlock_pages (s : State) (f k : Nat) (g : Flock → Flock) :
    (s.modFlock f k g).pages = s.pages := rfl
@[simp] theorem State.modFlock_keys (s : State) (f k : Nat) (g : Flock → Flock) :
    (s.modFlock f k g).keys = s.keys := rfl
@[simp] theorem State.modFlock_vdns (s : State) (f k : Nat) (g : Flock → Flock) :
    (s.modFlock f k g).vdns = s.vdns := rfl
@[simp] theorem State.modFlock_counters (s : State) (f k : Nat) (g : Flock → Flock) :
    (s.modFlock f k g).counters = s.counters := rfl
@[simp] theorem State.modFlock_stage (s : State) (f k : Nat) (g : Flock → Flock) :
    (s.modFlock f k g).stage = s.stage := rfl
@[simp] theorem State.modFlock_traceDrop (s : State) (f k : Nat) (g : Flock → Flock) :
    (s.modFlock f k g).traceDrop = s.traceDrop := rfl
@[simp] theorem State.modFlock_evBuf (s : State) (f k : Nat) (g : Flock → Flock) :
    (s.modFlock f k g).evBuf = s.evBuf := rfl
@[simp] theorem State.modFlock_evNew (s : State) (f k : Nat) (g : Flock → Flock) :
    (s.modFlock f k g).evNew = s.evNew := rfl
@[simp] theorem State.modFlock_hvMail (s : State) (f k : Nat) (g : Flock → Flock) :
    (s.modFlock f k g).hvMail = s.hvMail := rfl
@[simp] theorem State.modFlock_msix (s : State) (f k : Nat) (g : Flock → Flock) :
    (s.modFlock f k g).msix = s.msix := rfl
@[simp] theorem State.modFlock_outbox (s : State) (f k : Nat) (g : Flock → Flock) :
    (s.modFlock f k g).outbox = s.outbox := rfl
@[simp] theorem State.modFlock_journal (s : State) (f k : Nat) (g : Flock → Flock) :
    (s.modFlock f k g).journal = s.journal := rfl
@[simp] theorem State.modFlock_upsets (s : State) (f k : Nat) (g : Flock → Flock) :
    (s.modFlock f k g).upsets = s.upsets := rfl
@[simp] theorem State.modFlock_images (s : State) (f k : Nat) (g : Flock → Flock) :
    (s.modFlock f k g).images = s.images := rfl
@[simp] theorem State.modFlock_bootFaults (s : State) (f k : Nat) (g : Flock → Flock) :
    (s.modFlock f k g).bootFaults = s.bootFaults := rfl
@[simp] theorem State.modFlock_portsDown (s : State) (f k : Nat) (g : Flock → Flock) :
    (s.modFlock f k g).portsDown = s.portsDown := rfl
@[simp] theorem State.modFlock_powerLimit (s : State) (f k : Nat) (g : Flock → Flock) :
    (s.modFlock f k g).powerLimit = s.powerLimit := rfl
@[simp] theorem State.modFlock_holdReset (s : State) (f k : Nat) (g : Flock → Flock) :
    (s.modFlock f k g).holdReset = s.holdReset := rfl
@[simp] theorem State.modFlock_standby (s : State) (f k : Nat) (g : Flock → Flock) :
    (s.modFlock f k g).standby = s.standby := rfl
@[simp] theorem State.modFlock_loaded (s : State) (f k : Nat) (g : Flock → Flock) :
    (s.modFlock f k g).loaded = s.loaded := rfl

/-! ### setFl -/

@[simp] theorem State.setFl_started (s : State) (q : Iss) (g : Flock → Flock) :
    (s.setFl q g).started = s.started := rfl
@[simp] theorem State.setFl_agenda (s : State) (q : Iss) (g : Flock → Flock) :
    (s.setFl q g).agenda = s.agenda := rfl
@[simp] theorem State.setFl_focus (s : State) (q : Iss) (g : Flock → Flock) :
    (s.setFl q g).focus = s.focus := rfl
@[simp] theorem State.setFl_nextId (s : State) (q : Iss) (g : Flock → Flock) :
    (s.setFl q g).nextId = s.nextId := rfl
@[simp] theorem State.setFl_free (s : State) (q : Iss) (g : Flock → Flock) :
    (s.setFl q g).free = s.free := rfl
@[simp] theorem State.setFl_mem (s : State) (q : Iss) (g : Flock → Flock) :
    (s.setFl q g).mem = s.mem := rfl
@[simp] theorem State.setFl_cfg (s : State) (q : Iss) (g : Flock → Flock) :
    (s.setFl q g).cfg = s.cfg := rfl
@[simp] theorem State.setFl_cores (s : State) (q : Iss) (g : Flock → Flock) :
    (s.setFl q g).cores = s.cores := rfl
@[simp] theorem State.setFl_droves (s : State) (q : Iss) (g : Flock → Flock) :
    (s.setFl q g).droves = s.droves := rfl
@[simp] theorem State.setFl_ops (s : State) (q : Iss) (g : Flock → Flock) :
    (s.setFl q g).ops = s.ops := rfl
@[simp] theorem State.setFl_copies (s : State) (q : Iss) (g : Flock → Flock) :
    (s.setFl q g).copies = s.copies := rfl
@[simp] theorem State.setFl_launches (s : State) (q : Iss) (g : Flock → Flock) :
    (s.setFl q g).launches = s.launches := rfl
@[simp] theorem State.setFl_privs (s : State) (q : Iss) (g : Flock → Flock) :
    (s.setFl q g).privs = s.privs := rfl
@[simp] theorem State.setFl_pads (s : State) (q : Iss) (g : Flock → Flock) :
    (s.setFl q g).pads = s.pads := rfl
@[simp] theorem State.setFl_vds (s : State) (q : Iss) (g : Flock → Flock) :
    (s.setFl q g).vds = s.vds := rfl
@[simp] theorem State.setFl_dies (s : State) (q : Iss) (g : Flock → Flock) :
    (s.setFl q g).dies = s.dies := rfl
@[simp] theorem State.setFl_pages (s : State) (q : Iss) (g : Flock → Flock) :
    (s.setFl q g).pages = s.pages := rfl
@[simp] theorem State.setFl_keys (s : State) (q : Iss) (g : Flock → Flock) :
    (s.setFl q g).keys = s.keys := rfl
@[simp] theorem State.setFl_vdns (s : State) (q : Iss) (g : Flock → Flock) :
    (s.setFl q g).vdns = s.vdns := rfl
@[simp] theorem State.setFl_counters (s : State) (q : Iss) (g : Flock → Flock) :
    (s.setFl q g).counters = s.counters := rfl
@[simp] theorem State.setFl_stage (s : State) (q : Iss) (g : Flock → Flock) :
    (s.setFl q g).stage = s.stage := rfl
@[simp] theorem State.setFl_traceDrop (s : State) (q : Iss) (g : Flock → Flock) :
    (s.setFl q g).traceDrop = s.traceDrop := rfl
@[simp] theorem State.setFl_evBuf (s : State) (q : Iss) (g : Flock → Flock) :
    (s.setFl q g).evBuf = s.evBuf := rfl
@[simp] theorem State.setFl_evNew (s : State) (q : Iss) (g : Flock → Flock) :
    (s.setFl q g).evNew = s.evNew := rfl
@[simp] theorem State.setFl_hvMail (s : State) (q : Iss) (g : Flock → Flock) :
    (s.setFl q g).hvMail = s.hvMail := rfl
@[simp] theorem State.setFl_msix (s : State) (q : Iss) (g : Flock → Flock) :
    (s.setFl q g).msix = s.msix := rfl
@[simp] theorem State.setFl_outbox (s : State) (q : Iss) (g : Flock → Flock) :
    (s.setFl q g).outbox = s.outbox := rfl
@[simp] theorem State.setFl_journal (s : State) (q : Iss) (g : Flock → Flock) :
    (s.setFl q g).journal = s.journal := rfl
@[simp] theorem State.setFl_upsets (s : State) (q : Iss) (g : Flock → Flock) :
    (s.setFl q g).upsets = s.upsets := rfl
@[simp] theorem State.setFl_images (s : State) (q : Iss) (g : Flock → Flock) :
    (s.setFl q g).images = s.images := rfl
@[simp] theorem State.setFl_bootFaults (s : State) (q : Iss) (g : Flock → Flock) :
    (s.setFl q g).bootFaults = s.bootFaults := rfl
@[simp] theorem State.setFl_portsDown (s : State) (q : Iss) (g : Flock → Flock) :
    (s.setFl q g).portsDown = s.portsDown := rfl
@[simp] theorem State.setFl_powerLimit (s : State) (q : Iss) (g : Flock → Flock) :
    (s.setFl q g).powerLimit = s.powerLimit := rfl
@[simp] theorem State.setFl_holdReset (s : State) (q : Iss) (g : Flock → Flock) :
    (s.setFl q g).holdReset = s.holdReset := rfl
@[simp] theorem State.setFl_standby (s : State) (q : Iss) (g : Flock → Flock) :
    (s.setFl q g).standby = s.standby := rfl
@[simp] theorem State.setFl_loaded (s : State) (q : Iss) (g : Flock → Flock) :
    (s.setFl q g).loaded = s.loaded := rfl

/-! ### modTurn -/

@[simp] theorem State.modTurn_started (s : State) (q : Iss) (g : Turn → Turn) :
    (s.modTurn q g).started = s.started := rfl
@[simp] theorem State.modTurn_agenda (s : State) (q : Iss) (g : Turn → Turn) :
    (s.modTurn q g).agenda = s.agenda := rfl
@[simp] theorem State.modTurn_focus (s : State) (q : Iss) (g : Turn → Turn) :
    (s.modTurn q g).focus = s.focus := rfl
@[simp] theorem State.modTurn_nextId (s : State) (q : Iss) (g : Turn → Turn) :
    (s.modTurn q g).nextId = s.nextId := rfl
@[simp] theorem State.modTurn_free (s : State) (q : Iss) (g : Turn → Turn) :
    (s.modTurn q g).free = s.free := rfl
@[simp] theorem State.modTurn_mem (s : State) (q : Iss) (g : Turn → Turn) :
    (s.modTurn q g).mem = s.mem := rfl
@[simp] theorem State.modTurn_cfg (s : State) (q : Iss) (g : Turn → Turn) :
    (s.modTurn q g).cfg = s.cfg := rfl
@[simp] theorem State.modTurn_folds (s : State) (q : Iss) (g : Turn → Turn) :
    (s.modTurn q g).folds = s.folds := rfl
@[simp] theorem State.modTurn_droves (s : State) (q : Iss) (g : Turn → Turn) :
    (s.modTurn q g).droves = s.droves := rfl
@[simp] theorem State.modTurn_ops (s : State) (q : Iss) (g : Turn → Turn) :
    (s.modTurn q g).ops = s.ops := rfl
@[simp] theorem State.modTurn_copies (s : State) (q : Iss) (g : Turn → Turn) :
    (s.modTurn q g).copies = s.copies := rfl
@[simp] theorem State.modTurn_launches (s : State) (q : Iss) (g : Turn → Turn) :
    (s.modTurn q g).launches = s.launches := rfl
@[simp] theorem State.modTurn_privs (s : State) (q : Iss) (g : Turn → Turn) :
    (s.modTurn q g).privs = s.privs := rfl
@[simp] theorem State.modTurn_pads (s : State) (q : Iss) (g : Turn → Turn) :
    (s.modTurn q g).pads = s.pads := rfl
@[simp] theorem State.modTurn_vds (s : State) (q : Iss) (g : Turn → Turn) :
    (s.modTurn q g).vds = s.vds := rfl
@[simp] theorem State.modTurn_dies (s : State) (q : Iss) (g : Turn → Turn) :
    (s.modTurn q g).dies = s.dies := rfl
@[simp] theorem State.modTurn_pages (s : State) (q : Iss) (g : Turn → Turn) :
    (s.modTurn q g).pages = s.pages := rfl
@[simp] theorem State.modTurn_keys (s : State) (q : Iss) (g : Turn → Turn) :
    (s.modTurn q g).keys = s.keys := rfl
@[simp] theorem State.modTurn_vdns (s : State) (q : Iss) (g : Turn → Turn) :
    (s.modTurn q g).vdns = s.vdns := rfl
@[simp] theorem State.modTurn_counters (s : State) (q : Iss) (g : Turn → Turn) :
    (s.modTurn q g).counters = s.counters := rfl
@[simp] theorem State.modTurn_stage (s : State) (q : Iss) (g : Turn → Turn) :
    (s.modTurn q g).stage = s.stage := rfl
@[simp] theorem State.modTurn_traceDrop (s : State) (q : Iss) (g : Turn → Turn) :
    (s.modTurn q g).traceDrop = s.traceDrop := rfl
@[simp] theorem State.modTurn_evBuf (s : State) (q : Iss) (g : Turn → Turn) :
    (s.modTurn q g).evBuf = s.evBuf := rfl
@[simp] theorem State.modTurn_evNew (s : State) (q : Iss) (g : Turn → Turn) :
    (s.modTurn q g).evNew = s.evNew := rfl
@[simp] theorem State.modTurn_hvMail (s : State) (q : Iss) (g : Turn → Turn) :
    (s.modTurn q g).hvMail = s.hvMail := rfl
@[simp] theorem State.modTurn_msix (s : State) (q : Iss) (g : Turn → Turn) :
    (s.modTurn q g).msix = s.msix := rfl
@[simp] theorem State.modTurn_outbox (s : State) (q : Iss) (g : Turn → Turn) :
    (s.modTurn q g).outbox = s.outbox := rfl
@[simp] theorem State.modTurn_journal (s : State) (q : Iss) (g : Turn → Turn) :
    (s.modTurn q g).journal = s.journal := rfl
@[simp] theorem State.modTurn_upsets (s : State) (q : Iss) (g : Turn → Turn) :
    (s.modTurn q g).upsets = s.upsets := rfl
@[simp] theorem State.modTurn_images (s : State) (q : Iss) (g : Turn → Turn) :
    (s.modTurn q g).images = s.images := rfl
@[simp] theorem State.modTurn_bootFaults (s : State) (q : Iss) (g : Turn → Turn) :
    (s.modTurn q g).bootFaults = s.bootFaults := rfl
@[simp] theorem State.modTurn_portsDown (s : State) (q : Iss) (g : Turn → Turn) :
    (s.modTurn q g).portsDown = s.portsDown := rfl
@[simp] theorem State.modTurn_powerLimit (s : State) (q : Iss) (g : Turn → Turn) :
    (s.modTurn q g).powerLimit = s.powerLimit := rfl
@[simp] theorem State.modTurn_holdReset (s : State) (q : Iss) (g : Turn → Turn) :
    (s.modTurn q g).holdReset = s.holdReset := rfl
@[simp] theorem State.modTurn_standby (s : State) (q : Iss) (g : Turn → Turn) :
    (s.modTurn q g).standby = s.standby := rfl
@[simp] theorem State.modTurn_loaded (s : State) (q : Iss) (g : Turn → Turn) :
    (s.modTurn q g).loaded = s.loaded := rfl

/-! ### modPad -/

@[simp] theorem State.modPad_started (s : State) (p : Nat) (g : Paddock → Paddock) :
    (s.modPad p g).started = s.started := rfl
@[simp] theorem State.modPad_agenda (s : State) (p : Nat) (g : Paddock → Paddock) :
    (s.modPad p g).agenda = s.agenda := rfl
@[simp] theorem State.modPad_focus (s : State) (p : Nat) (g : Paddock → Paddock) :
    (s.modPad p g).focus = s.focus := rfl
@[simp] theorem State.modPad_nextId (s : State) (p : Nat) (g : Paddock → Paddock) :
    (s.modPad p g).nextId = s.nextId := rfl
@[simp] theorem State.modPad_free (s : State) (p : Nat) (g : Paddock → Paddock) :
    (s.modPad p g).free = s.free := rfl
@[simp] theorem State.modPad_mem (s : State) (p : Nat) (g : Paddock → Paddock) :
    (s.modPad p g).mem = s.mem := rfl
@[simp] theorem State.modPad_cfg (s : State) (p : Nat) (g : Paddock → Paddock) :
    (s.modPad p g).cfg = s.cfg := rfl
@[simp] theorem State.modPad_cores (s : State) (p : Nat) (g : Paddock → Paddock) :
    (s.modPad p g).cores = s.cores := rfl
@[simp] theorem State.modPad_folds (s : State) (p : Nat) (g : Paddock → Paddock) :
    (s.modPad p g).folds = s.folds := rfl
@[simp] theorem State.modPad_droves (s : State) (p : Nat) (g : Paddock → Paddock) :
    (s.modPad p g).droves = s.droves := rfl
@[simp] theorem State.modPad_ops (s : State) (p : Nat) (g : Paddock → Paddock) :
    (s.modPad p g).ops = s.ops := rfl
@[simp] theorem State.modPad_copies (s : State) (p : Nat) (g : Paddock → Paddock) :
    (s.modPad p g).copies = s.copies := rfl
@[simp] theorem State.modPad_launches (s : State) (p : Nat) (g : Paddock → Paddock) :
    (s.modPad p g).launches = s.launches := rfl
@[simp] theorem State.modPad_privs (s : State) (p : Nat) (g : Paddock → Paddock) :
    (s.modPad p g).privs = s.privs := rfl
@[simp] theorem State.modPad_vds (s : State) (p : Nat) (g : Paddock → Paddock) :
    (s.modPad p g).vds = s.vds := rfl
@[simp] theorem State.modPad_dies (s : State) (p : Nat) (g : Paddock → Paddock) :
    (s.modPad p g).dies = s.dies := rfl
@[simp] theorem State.modPad_pages (s : State) (p : Nat) (g : Paddock → Paddock) :
    (s.modPad p g).pages = s.pages := rfl
@[simp] theorem State.modPad_keys (s : State) (p : Nat) (g : Paddock → Paddock) :
    (s.modPad p g).keys = s.keys := rfl
@[simp] theorem State.modPad_vdns (s : State) (p : Nat) (g : Paddock → Paddock) :
    (s.modPad p g).vdns = s.vdns := rfl
@[simp] theorem State.modPad_counters (s : State) (p : Nat) (g : Paddock → Paddock) :
    (s.modPad p g).counters = s.counters := rfl
@[simp] theorem State.modPad_stage (s : State) (p : Nat) (g : Paddock → Paddock) :
    (s.modPad p g).stage = s.stage := rfl
@[simp] theorem State.modPad_traceDrop (s : State) (p : Nat) (g : Paddock → Paddock) :
    (s.modPad p g).traceDrop = s.traceDrop := rfl
@[simp] theorem State.modPad_evBuf (s : State) (p : Nat) (g : Paddock → Paddock) :
    (s.modPad p g).evBuf = s.evBuf := rfl
@[simp] theorem State.modPad_evNew (s : State) (p : Nat) (g : Paddock → Paddock) :
    (s.modPad p g).evNew = s.evNew := rfl
@[simp] theorem State.modPad_hvMail (s : State) (p : Nat) (g : Paddock → Paddock) :
    (s.modPad p g).hvMail = s.hvMail := rfl
@[simp] theorem State.modPad_msix (s : State) (p : Nat) (g : Paddock → Paddock) :
    (s.modPad p g).msix = s.msix := rfl
@[simp] theorem State.modPad_outbox (s : State) (p : Nat) (g : Paddock → Paddock) :
    (s.modPad p g).outbox = s.outbox := rfl
@[simp] theorem State.modPad_journal (s : State) (p : Nat) (g : Paddock → Paddock) :
    (s.modPad p g).journal = s.journal := rfl
@[simp] theorem State.modPad_upsets (s : State) (p : Nat) (g : Paddock → Paddock) :
    (s.modPad p g).upsets = s.upsets := rfl
@[simp] theorem State.modPad_images (s : State) (p : Nat) (g : Paddock → Paddock) :
    (s.modPad p g).images = s.images := rfl
@[simp] theorem State.modPad_bootFaults (s : State) (p : Nat) (g : Paddock → Paddock) :
    (s.modPad p g).bootFaults = s.bootFaults := rfl
@[simp] theorem State.modPad_portsDown (s : State) (p : Nat) (g : Paddock → Paddock) :
    (s.modPad p g).portsDown = s.portsDown := rfl
@[simp] theorem State.modPad_powerLimit (s : State) (p : Nat) (g : Paddock → Paddock) :
    (s.modPad p g).powerLimit = s.powerLimit := rfl
@[simp] theorem State.modPad_holdReset (s : State) (p : Nat) (g : Paddock → Paddock) :
    (s.modPad p g).holdReset = s.holdReset := rfl
@[simp] theorem State.modPad_standby (s : State) (p : Nat) (g : Paddock → Paddock) :
    (s.modPad p g).standby = s.standby := rfl
@[simp] theorem State.modPad_loaded (s : State) (p : Nat) (g : Paddock → Paddock) :
    (s.modPad p g).loaded = s.loaded := rfl

/-! ### modVd -/

@[simp] theorem State.modVd_started (s : State) (v : Nat) (g : VDev → VDev) :
    (s.modVd v g).started = s.started := rfl
@[simp] theorem State.modVd_agenda (s : State) (v : Nat) (g : VDev → VDev) :
    (s.modVd v g).agenda = s.agenda := rfl
@[simp] theorem State.modVd_focus (s : State) (v : Nat) (g : VDev → VDev) :
    (s.modVd v g).focus = s.focus := rfl
@[simp] theorem State.modVd_nextId (s : State) (v : Nat) (g : VDev → VDev) :
    (s.modVd v g).nextId = s.nextId := rfl
@[simp] theorem State.modVd_free (s : State) (v : Nat) (g : VDev → VDev) :
    (s.modVd v g).free = s.free := rfl
@[simp] theorem State.modVd_mem (s : State) (v : Nat) (g : VDev → VDev) :
    (s.modVd v g).mem = s.mem := rfl
@[simp] theorem State.modVd_cfg (s : State) (v : Nat) (g : VDev → VDev) :
    (s.modVd v g).cfg = s.cfg := rfl
@[simp] theorem State.modVd_cores (s : State) (v : Nat) (g : VDev → VDev) :
    (s.modVd v g).cores = s.cores := rfl
@[simp] theorem State.modVd_folds (s : State) (v : Nat) (g : VDev → VDev) :
    (s.modVd v g).folds = s.folds := rfl
@[simp] theorem State.modVd_droves (s : State) (v : Nat) (g : VDev → VDev) :
    (s.modVd v g).droves = s.droves := rfl
@[simp] theorem State.modVd_ops (s : State) (v : Nat) (g : VDev → VDev) :
    (s.modVd v g).ops = s.ops := rfl
@[simp] theorem State.modVd_copies (s : State) (v : Nat) (g : VDev → VDev) :
    (s.modVd v g).copies = s.copies := rfl
@[simp] theorem State.modVd_launches (s : State) (v : Nat) (g : VDev → VDev) :
    (s.modVd v g).launches = s.launches := rfl
@[simp] theorem State.modVd_privs (s : State) (v : Nat) (g : VDev → VDev) :
    (s.modVd v g).privs = s.privs := rfl
@[simp] theorem State.modVd_pads (s : State) (v : Nat) (g : VDev → VDev) :
    (s.modVd v g).pads = s.pads := rfl
@[simp] theorem State.modVd_dies (s : State) (v : Nat) (g : VDev → VDev) :
    (s.modVd v g).dies = s.dies := rfl
@[simp] theorem State.modVd_pages (s : State) (v : Nat) (g : VDev → VDev) :
    (s.modVd v g).pages = s.pages := rfl
@[simp] theorem State.modVd_keys (s : State) (v : Nat) (g : VDev → VDev) :
    (s.modVd v g).keys = s.keys := rfl
@[simp] theorem State.modVd_vdns (s : State) (v : Nat) (g : VDev → VDev) :
    (s.modVd v g).vdns = s.vdns := rfl
@[simp] theorem State.modVd_counters (s : State) (v : Nat) (g : VDev → VDev) :
    (s.modVd v g).counters = s.counters := rfl
@[simp] theorem State.modVd_stage (s : State) (v : Nat) (g : VDev → VDev) :
    (s.modVd v g).stage = s.stage := rfl
@[simp] theorem State.modVd_traceDrop (s : State) (v : Nat) (g : VDev → VDev) :
    (s.modVd v g).traceDrop = s.traceDrop := rfl
@[simp] theorem State.modVd_evBuf (s : State) (v : Nat) (g : VDev → VDev) :
    (s.modVd v g).evBuf = s.evBuf := rfl
@[simp] theorem State.modVd_evNew (s : State) (v : Nat) (g : VDev → VDev) :
    (s.modVd v g).evNew = s.evNew := rfl
@[simp] theorem State.modVd_hvMail (s : State) (v : Nat) (g : VDev → VDev) :
    (s.modVd v g).hvMail = s.hvMail := rfl
@[simp] theorem State.modVd_msix (s : State) (v : Nat) (g : VDev → VDev) :
    (s.modVd v g).msix = s.msix := rfl
@[simp] theorem State.modVd_outbox (s : State) (v : Nat) (g : VDev → VDev) :
    (s.modVd v g).outbox = s.outbox := rfl
@[simp] theorem State.modVd_journal (s : State) (v : Nat) (g : VDev → VDev) :
    (s.modVd v g).journal = s.journal := rfl
@[simp] theorem State.modVd_upsets (s : State) (v : Nat) (g : VDev → VDev) :
    (s.modVd v g).upsets = s.upsets := rfl
@[simp] theorem State.modVd_images (s : State) (v : Nat) (g : VDev → VDev) :
    (s.modVd v g).images = s.images := rfl
@[simp] theorem State.modVd_bootFaults (s : State) (v : Nat) (g : VDev → VDev) :
    (s.modVd v g).bootFaults = s.bootFaults := rfl
@[simp] theorem State.modVd_portsDown (s : State) (v : Nat) (g : VDev → VDev) :
    (s.modVd v g).portsDown = s.portsDown := rfl
@[simp] theorem State.modVd_powerLimit (s : State) (v : Nat) (g : VDev → VDev) :
    (s.modVd v g).powerLimit = s.powerLimit := rfl
@[simp] theorem State.modVd_holdReset (s : State) (v : Nat) (g : VDev → VDev) :
    (s.modVd v g).holdReset = s.holdReset := rfl
@[simp] theorem State.modVd_standby (s : State) (v : Nat) (g : VDev → VDev) :
    (s.modVd v g).standby = s.standby := rfl
@[simp] theorem State.modVd_loaded (s : State) (v : Nat) (g : VDev → VDev) :
    (s.modVd v g).loaded = s.loaded := rfl

/-! ### modDie -/

@[simp] theorem State.modDie_started (s : State) (d : Nat) (g : Die → Die) :
    (s.modDie d g).started = s.started := rfl
@[simp] theorem State.modDie_agenda (s : State) (d : Nat) (g : Die → Die) :
    (s.modDie d g).agenda = s.agenda := rfl
@[simp] theorem State.modDie_focus (s : State) (d : Nat) (g : Die → Die) :
    (s.modDie d g).focus = s.focus := rfl
@[simp] theorem State.modDie_nextId (s : State) (d : Nat) (g : Die → Die) :
    (s.modDie d g).nextId = s.nextId := rfl
@[simp] theorem State.modDie_free (s : State) (d : Nat) (g : Die → Die) :
    (s.modDie d g).free = s.free := rfl
@[simp] theorem State.modDie_mem (s : State) (d : Nat) (g : Die → Die) :
    (s.modDie d g).mem = s.mem := rfl
@[simp] theorem State.modDie_cfg (s : State) (d : Nat) (g : Die → Die) :
    (s.modDie d g).cfg = s.cfg := rfl
@[simp] theorem State.modDie_cores (s : State) (d : Nat) (g : Die → Die) :
    (s.modDie d g).cores = s.cores := rfl
@[simp] theorem State.modDie_folds (s : State) (d : Nat) (g : Die → Die) :
    (s.modDie d g).folds = s.folds := rfl
@[simp] theorem State.modDie_droves (s : State) (d : Nat) (g : Die → Die) :
    (s.modDie d g).droves = s.droves := rfl
@[simp] theorem State.modDie_ops (s : State) (d : Nat) (g : Die → Die) :
    (s.modDie d g).ops = s.ops := rfl
@[simp] theorem State.modDie_copies (s : State) (d : Nat) (g : Die → Die) :
    (s.modDie d g).copies = s.copies := rfl
@[simp] theorem State.modDie_launches (s : State) (d : Nat) (g : Die → Die) :
    (s.modDie d g).launches = s.launches := rfl
@[simp] theorem State.modDie_privs (s : State) (d : Nat) (g : Die → Die) :
    (s.modDie d g).privs = s.privs := rfl
@[simp] theorem State.modDie_pads (s : State) (d : Nat) (g : Die → Die) :
    (s.modDie d g).pads = s.pads := rfl
@[simp] theorem State.modDie_vds (s : State) (d : Nat) (g : Die → Die) :
    (s.modDie d g).vds = s.vds := rfl
@[simp] theorem State.modDie_pages (s : State) (d : Nat) (g : Die → Die) :
    (s.modDie d g).pages = s.pages := rfl
@[simp] theorem State.modDie_keys (s : State) (d : Nat) (g : Die → Die) :
    (s.modDie d g).keys = s.keys := rfl
@[simp] theorem State.modDie_vdns (s : State) (d : Nat) (g : Die → Die) :
    (s.modDie d g).vdns = s.vdns := rfl
@[simp] theorem State.modDie_counters (s : State) (d : Nat) (g : Die → Die) :
    (s.modDie d g).counters = s.counters := rfl
@[simp] theorem State.modDie_stage (s : State) (d : Nat) (g : Die → Die) :
    (s.modDie d g).stage = s.stage := rfl
@[simp] theorem State.modDie_traceDrop (s : State) (d : Nat) (g : Die → Die) :
    (s.modDie d g).traceDrop = s.traceDrop := rfl
@[simp] theorem State.modDie_evBuf (s : State) (d : Nat) (g : Die → Die) :
    (s.modDie d g).evBuf = s.evBuf := rfl
@[simp] theorem State.modDie_evNew (s : State) (d : Nat) (g : Die → Die) :
    (s.modDie d g).evNew = s.evNew := rfl
@[simp] theorem State.modDie_hvMail (s : State) (d : Nat) (g : Die → Die) :
    (s.modDie d g).hvMail = s.hvMail := rfl
@[simp] theorem State.modDie_msix (s : State) (d : Nat) (g : Die → Die) :
    (s.modDie d g).msix = s.msix := rfl
@[simp] theorem State.modDie_outbox (s : State) (d : Nat) (g : Die → Die) :
    (s.modDie d g).outbox = s.outbox := rfl
@[simp] theorem State.modDie_journal (s : State) (d : Nat) (g : Die → Die) :
    (s.modDie d g).journal = s.journal := rfl
@[simp] theorem State.modDie_upsets (s : State) (d : Nat) (g : Die → Die) :
    (s.modDie d g).upsets = s.upsets := rfl
@[simp] theorem State.modDie_images (s : State) (d : Nat) (g : Die → Die) :
    (s.modDie d g).images = s.images := rfl
@[simp] theorem State.modDie_bootFaults (s : State) (d : Nat) (g : Die → Die) :
    (s.modDie d g).bootFaults = s.bootFaults := rfl
@[simp] theorem State.modDie_portsDown (s : State) (d : Nat) (g : Die → Die) :
    (s.modDie d g).portsDown = s.portsDown := rfl
@[simp] theorem State.modDie_powerLimit (s : State) (d : Nat) (g : Die → Die) :
    (s.modDie d g).powerLimit = s.powerLimit := rfl
@[simp] theorem State.modDie_holdReset (s : State) (d : Nat) (g : Die → Die) :
    (s.modDie d g).holdReset = s.holdReset := rfl
@[simp] theorem State.modDie_standby (s : State) (d : Nat) (g : Die → Die) :
    (s.modDie d g).standby = s.standby := rfl
@[simp] theorem State.modDie_loaded (s : State) (d : Nat) (g : Die → Die) :
    (s.modDie d g).loaded = s.loaded := rfl

/-! ### modPage -/

@[simp] theorem State.modPage_started (s : State) (p : Nat) (g : PageRec → PageRec) :
    (s.modPage p g).started = s.started := rfl
@[simp] theorem State.modPage_agenda (s : State) (p : Nat) (g : PageRec → PageRec) :
    (s.modPage p g).agenda = s.agenda := rfl
@[simp] theorem State.modPage_focus (s : State) (p : Nat) (g : PageRec → PageRec) :
    (s.modPage p g).focus = s.focus := rfl
@[simp] theorem State.modPage_nextId (s : State) (p : Nat) (g : PageRec → PageRec) :
    (s.modPage p g).nextId = s.nextId := rfl
@[simp] theorem State.modPage_free (s : State) (p : Nat) (g : PageRec → PageRec) :
    (s.modPage p g).free = s.free := rfl
@[simp] theorem State.modPage_mem (s : State) (p : Nat) (g : PageRec → PageRec) :
    (s.modPage p g).mem = s.mem := rfl
@[simp] theorem State.modPage_cfg (s : State) (p : Nat) (g : PageRec → PageRec) :
    (s.modPage p g).cfg = s.cfg := rfl
@[simp] theorem State.modPage_cores (s : State) (p : Nat) (g : PageRec → PageRec) :
    (s.modPage p g).cores = s.cores := rfl
@[simp] theorem State.modPage_folds (s : State) (p : Nat) (g : PageRec → PageRec) :
    (s.modPage p g).folds = s.folds := rfl
@[simp] theorem State.modPage_droves (s : State) (p : Nat) (g : PageRec → PageRec) :
    (s.modPage p g).droves = s.droves := rfl
@[simp] theorem State.modPage_ops (s : State) (p : Nat) (g : PageRec → PageRec) :
    (s.modPage p g).ops = s.ops := rfl
@[simp] theorem State.modPage_copies (s : State) (p : Nat) (g : PageRec → PageRec) :
    (s.modPage p g).copies = s.copies := rfl
@[simp] theorem State.modPage_launches (s : State) (p : Nat) (g : PageRec → PageRec) :
    (s.modPage p g).launches = s.launches := rfl
@[simp] theorem State.modPage_privs (s : State) (p : Nat) (g : PageRec → PageRec) :
    (s.modPage p g).privs = s.privs := rfl
@[simp] theorem State.modPage_pads (s : State) (p : Nat) (g : PageRec → PageRec) :
    (s.modPage p g).pads = s.pads := rfl
@[simp] theorem State.modPage_dies (s : State) (p : Nat) (g : PageRec → PageRec) :
    (s.modPage p g).dies = s.dies := rfl
@[simp] theorem State.modPage_keys (s : State) (p : Nat) (g : PageRec → PageRec) :
    (s.modPage p g).keys = s.keys := rfl
@[simp] theorem State.modPage_vdns (s : State) (p : Nat) (g : PageRec → PageRec) :
    (s.modPage p g).vdns = s.vdns := rfl
@[simp] theorem State.modPage_counters (s : State) (p : Nat) (g : PageRec → PageRec) :
    (s.modPage p g).counters = s.counters := rfl
@[simp] theorem State.modPage_stage (s : State) (p : Nat) (g : PageRec → PageRec) :
    (s.modPage p g).stage = s.stage := rfl
@[simp] theorem State.modPage_traceDrop (s : State) (p : Nat) (g : PageRec → PageRec) :
    (s.modPage p g).traceDrop = s.traceDrop := rfl
@[simp] theorem State.modPage_evBuf (s : State) (p : Nat) (g : PageRec → PageRec) :
    (s.modPage p g).evBuf = s.evBuf := rfl
@[simp] theorem State.modPage_evNew (s : State) (p : Nat) (g : PageRec → PageRec) :
    (s.modPage p g).evNew = s.evNew := rfl
@[simp] theorem State.modPage_hvMail (s : State) (p : Nat) (g : PageRec → PageRec) :
    (s.modPage p g).hvMail = s.hvMail := rfl
@[simp] theorem State.modPage_msix (s : State) (p : Nat) (g : PageRec → PageRec) :
    (s.modPage p g).msix = s.msix := rfl
@[simp] theorem State.modPage_outbox (s : State) (p : Nat) (g : PageRec → PageRec) :
    (s.modPage p g).outbox = s.outbox := rfl
@[simp] theorem State.modPage_journal (s : State) (p : Nat) (g : PageRec → PageRec) :
    (s.modPage p g).journal = s.journal := rfl
@[simp] theorem State.modPage_upsets (s : State) (p : Nat) (g : PageRec → PageRec) :
    (s.modPage p g).upsets = s.upsets := rfl
@[simp] theorem State.modPage_images (s : State) (p : Nat) (g : PageRec → PageRec) :
    (s.modPage p g).images = s.images := rfl
@[simp] theorem State.modPage_bootFaults (s : State) (p : Nat) (g : PageRec → PageRec) :
    (s.modPage p g).bootFaults = s.bootFaults := rfl
@[simp] theorem State.modPage_portsDown (s : State) (p : Nat) (g : PageRec → PageRec) :
    (s.modPage p g).portsDown = s.portsDown := rfl
@[simp] theorem State.modPage_powerLimit (s : State) (p : Nat) (g : PageRec → PageRec) :
    (s.modPage p g).powerLimit = s.powerLimit := rfl
@[simp] theorem State.modPage_holdReset (s : State) (p : Nat) (g : PageRec → PageRec) :
    (s.modPage p g).holdReset = s.holdReset := rfl
@[simp] theorem State.modPage_standby (s : State) (p : Nat) (g : PageRec → PageRec) :
    (s.modPage p g).standby = s.standby := rfl
@[simp] theorem State.modPage_loaded (s : State) (p : Nat) (g : PageRec → PageRec) :
    (s.modPage p g).loaded = s.loaded := rfl
@[simp] theorem State.modPage_vds (s : State) (p : Nat) (g : PageRec → PageRec) :
    (s.modPage p g).vds = s.vds := rfl

/-! ### modDrove -/

@[simp] theorem State.modDrove_started (s : State) (d : Nat) (g : Drove → Drove) :
    (s.modDrove d g).started = s.started := rfl
@[simp] theorem State.modDrove_agenda (s : State) (d : Nat) (g : Drove → Drove) :
    (s.modDrove d g).agenda = s.agenda := rfl
@[simp] theorem State.modDrove_focus (s : State) (d : Nat) (g : Drove → Drove) :
    (s.modDrove d g).focus = s.focus := rfl
@[simp] theorem State.modDrove_nextId (s : State) (d : Nat) (g : Drove → Drove) :
    (s.modDrove d g).nextId = s.nextId := rfl
@[simp] theorem State.modDrove_free (s : State) (d : Nat) (g : Drove → Drove) :
    (s.modDrove d g).free = s.free := rfl
@[simp] theorem State.modDrove_mem (s : State) (d : Nat) (g : Drove → Drove) :
    (s.modDrove d g).mem = s.mem := rfl
@[simp] theorem State.modDrove_cfg (s : State) (d : Nat) (g : Drove → Drove) :
    (s.modDrove d g).cfg = s.cfg := rfl
@[simp] theorem State.modDrove_cores (s : State) (d : Nat) (g : Drove → Drove) :
    (s.modDrove d g).cores = s.cores := rfl
@[simp] theorem State.modDrove_folds (s : State) (d : Nat) (g : Drove → Drove) :
    (s.modDrove d g).folds = s.folds := rfl
@[simp] theorem State.modDrove_ops (s : State) (d : Nat) (g : Drove → Drove) :
    (s.modDrove d g).ops = s.ops := rfl
@[simp] theorem State.modDrove_copies (s : State) (d : Nat) (g : Drove → Drove) :
    (s.modDrove d g).copies = s.copies := rfl
@[simp] theorem State.modDrove_launches (s : State) (d : Nat) (g : Drove → Drove) :
    (s.modDrove d g).launches = s.launches := rfl
@[simp] theorem State.modDrove_privs (s : State) (d : Nat) (g : Drove → Drove) :
    (s.modDrove d g).privs = s.privs := rfl
@[simp] theorem State.modDrove_pads (s : State) (d : Nat) (g : Drove → Drove) :
    (s.modDrove d g).pads = s.pads := rfl
@[simp] theorem State.modDrove_vds (s : State) (d : Nat) (g : Drove → Drove) :
    (s.modDrove d g).vds = s.vds := rfl
@[simp] theorem State.modDrove_dies (s : State) (d : Nat) (g : Drove → Drove) :
    (s.modDrove d g).dies = s.dies := rfl
@[simp] theorem State.modDrove_pages (s : State) (d : Nat) (g : Drove → Drove) :
    (s.modDrove d g).pages = s.pages := rfl
@[simp] theorem State.modDrove_keys (s : State) (d : Nat) (g : Drove → Drove) :
    (s.modDrove d g).keys = s.keys := rfl
@[simp] theorem State.modDrove_vdns (s : State) (d : Nat) (g : Drove → Drove) :
    (s.modDrove d g).vdns = s.vdns := rfl
@[simp] theorem State.modDrove_counters (s : State) (d : Nat) (g : Drove → Drove) :
    (s.modDrove d g).counters = s.counters := rfl
@[simp] theorem State.modDrove_stage (s : State) (d : Nat) (g : Drove → Drove) :
    (s.modDrove d g).stage = s.stage := rfl
@[simp] theorem State.modDrove_traceDrop (s : State) (d : Nat) (g : Drove → Drove) :
    (s.modDrove d g).traceDrop = s.traceDrop := rfl
@[simp] theorem State.modDrove_evBuf (s : State) (d : Nat) (g : Drove → Drove) :
    (s.modDrove d g).evBuf = s.evBuf := rfl
@[simp] theorem State.modDrove_evNew (s : State) (d : Nat) (g : Drove → Drove) :
    (s.modDrove d g).evNew = s.evNew := rfl
@[simp] theorem State.modDrove_hvMail (s : State) (d : Nat) (g : Drove → Drove) :
    (s.modDrove d g).hvMail = s.hvMail := rfl
@[simp] theorem State.modDrove_msix (s : State) (d : Nat) (g : Drove → Drove) :
    (s.modDrove d g).msix = s.msix := rfl
@[simp] theorem State.modDrove_outbox (s : State) (d : Nat) (g : Drove → Drove) :
    (s.modDrove d g).outbox = s.outbox := rfl
@[simp] theorem State.modDrove_journal (s : State) (d : Nat) (g : Drove → Drove) :
    (s.modDrove d g).journal = s.journal := rfl
@[simp] theorem State.modDrove_upsets (s : State) (d : Nat) (g : Drove → Drove) :
    (s.modDrove d g).upsets = s.upsets := rfl
@[simp] theorem State.modDrove_images (s : State) (d : Nat) (g : Drove → Drove) :
    (s.modDrove d g).images = s.images := rfl
@[simp] theorem State.modDrove_bootFaults (s : State) (d : Nat) (g : Drove → Drove) :
    (s.modDrove d g).bootFaults = s.bootFaults := rfl
@[simp] theorem State.modDrove_portsDown (s : State) (d : Nat) (g : Drove → Drove) :
    (s.modDrove d g).portsDown = s.portsDown := rfl
@[simp] theorem State.modDrove_powerLimit (s : State) (d : Nat) (g : Drove → Drove) :
    (s.modDrove d g).powerLimit = s.powerLimit := rfl
@[simp] theorem State.modDrove_holdReset (s : State) (d : Nat) (g : Drove → Drove) :
    (s.modDrove d g).holdReset = s.holdReset := rfl
@[simp] theorem State.modDrove_standby (s : State) (d : Nat) (g : Drove → Drove) :
    (s.modDrove d g).standby = s.standby := rfl
@[simp] theorem State.modDrove_loaded (s : State) (d : Nat) (g : Drove → Drove) :
    (s.modDrove d g).loaded = s.loaded := rfl

/-! ### setReg -/

@[simp] theorem State.setReg_started (s : State) (tgt elem reg ix v : Nat) :
    (s.setReg tgt elem reg ix v).started = s.started := rfl
@[simp] theorem State.setReg_agenda (s : State) (tgt elem reg ix v : Nat) :
    (s.setReg tgt elem reg ix v).agenda = s.agenda := rfl
@[simp] theorem State.setReg_focus (s : State) (tgt elem reg ix v : Nat) :
    (s.setReg tgt elem reg ix v).focus = s.focus := rfl
@[simp] theorem State.setReg_nextId (s : State) (tgt elem reg ix v : Nat) :
    (s.setReg tgt elem reg ix v).nextId = s.nextId := rfl
@[simp] theorem State.setReg_free (s : State) (tgt elem reg ix v : Nat) :
    (s.setReg tgt elem reg ix v).free = s.free := rfl
@[simp] theorem State.setReg_mem (s : State) (tgt elem reg ix v : Nat) :
    (s.setReg tgt elem reg ix v).mem = s.mem := rfl
@[simp] theorem State.setReg_cores (s : State) (tgt elem reg ix v : Nat) :
    (s.setReg tgt elem reg ix v).cores = s.cores := rfl
@[simp] theorem State.setReg_folds (s : State) (tgt elem reg ix v : Nat) :
    (s.setReg tgt elem reg ix v).folds = s.folds := rfl
@[simp] theorem State.setReg_droves (s : State) (tgt elem reg ix v : Nat) :
    (s.setReg tgt elem reg ix v).droves = s.droves := rfl
@[simp] theorem State.setReg_ops (s : State) (tgt elem reg ix v : Nat) :
    (s.setReg tgt elem reg ix v).ops = s.ops := rfl
@[simp] theorem State.setReg_copies (s : State) (tgt elem reg ix v : Nat) :
    (s.setReg tgt elem reg ix v).copies = s.copies := rfl
@[simp] theorem State.setReg_launches (s : State) (tgt elem reg ix v : Nat) :
    (s.setReg tgt elem reg ix v).launches = s.launches := rfl
@[simp] theorem State.setReg_privs (s : State) (tgt elem reg ix v : Nat) :
    (s.setReg tgt elem reg ix v).privs = s.privs := rfl
@[simp] theorem State.setReg_pads (s : State) (tgt elem reg ix v : Nat) :
    (s.setReg tgt elem reg ix v).pads = s.pads := rfl
@[simp] theorem State.setReg_vds (s : State) (tgt elem reg ix v : Nat) :
    (s.setReg tgt elem reg ix v).vds = s.vds := rfl
@[simp] theorem State.setReg_dies (s : State) (tgt elem reg ix v : Nat) :
    (s.setReg tgt elem reg ix v).dies = s.dies := rfl
@[simp] theorem State.setReg_pages (s : State) (tgt elem reg ix v : Nat) :
    (s.setReg tgt elem reg ix v).pages = s.pages := rfl
@[simp] theorem State.setReg_keys (s : State) (tgt elem reg ix v : Nat) :
    (s.setReg tgt elem reg ix v).keys = s.keys := rfl
@[simp] theorem State.setReg_vdns (s : State) (tgt elem reg ix v : Nat) :
    (s.setReg tgt elem reg ix v).vdns = s.vdns := rfl
@[simp] theorem State.setReg_counters (s : State) (tgt elem reg ix v : Nat) :
    (s.setReg tgt elem reg ix v).counters = s.counters := rfl
@[simp] theorem State.setReg_stage (s : State) (tgt elem reg ix v : Nat) :
    (s.setReg tgt elem reg ix v).stage = s.stage := rfl
@[simp] theorem State.setReg_traceDrop (s : State) (tgt elem reg ix v : Nat) :
    (s.setReg tgt elem reg ix v).traceDrop = s.traceDrop := rfl
@[simp] theorem State.setReg_evBuf (s : State) (tgt elem reg ix v : Nat) :
    (s.setReg tgt elem reg ix v).evBuf = s.evBuf := rfl
@[simp] theorem State.setReg_evNew (s : State) (tgt elem reg ix v : Nat) :
    (s.setReg tgt elem reg ix v).evNew = s.evNew := rfl
@[simp] theorem State.setReg_hvMail (s : State) (tgt elem reg ix v : Nat) :
    (s.setReg tgt elem reg ix v).hvMail = s.hvMail := rfl
@[simp] theorem State.setReg_msix (s : State) (tgt elem reg ix v : Nat) :
    (s.setReg tgt elem reg ix v).msix = s.msix := rfl
@[simp] theorem State.setReg_outbox (s : State) (tgt elem reg ix v : Nat) :
    (s.setReg tgt elem reg ix v).outbox = s.outbox := rfl
@[simp] theorem State.setReg_journal (s : State) (tgt elem reg ix v : Nat) :
    (s.setReg tgt elem reg ix v).journal = s.journal := rfl
@[simp] theorem State.setReg_upsets (s : State) (tgt elem reg ix v : Nat) :
    (s.setReg tgt elem reg ix v).upsets = s.upsets := rfl
@[simp] theorem State.setReg_images (s : State) (tgt elem reg ix v : Nat) :
    (s.setReg tgt elem reg ix v).images = s.images := rfl
@[simp] theorem State.setReg_bootFaults (s : State) (tgt elem reg ix v : Nat) :
    (s.setReg tgt elem reg ix v).bootFaults = s.bootFaults := rfl
@[simp] theorem State.setReg_portsDown (s : State) (tgt elem reg ix v : Nat) :
    (s.setReg tgt elem reg ix v).portsDown = s.portsDown := rfl
@[simp] theorem State.setReg_powerLimit (s : State) (tgt elem reg ix v : Nat) :
    (s.setReg tgt elem reg ix v).powerLimit = s.powerLimit := rfl
@[simp] theorem State.setReg_holdReset (s : State) (tgt elem reg ix v : Nat) :
    (s.setReg tgt elem reg ix v).holdReset = s.holdReset := rfl
@[simp] theorem State.setReg_standby (s : State) (tgt elem reg ix v : Nat) :
    (s.setReg tgt elem reg ix v).standby = s.standby := rfl
@[simp] theorem State.setReg_loaded (s : State) (tgt elem reg ix v : Nat) :
    (s.setReg tgt elem reg ix v).loaded = s.loaded := rfl

/-! ### wr -/

@[simp] theorem State.wr_started (s : State) (a n v : Nat) :
    (s.wr a n v).started = s.started := rfl
@[simp] theorem State.wr_agenda (s : State) (a n v : Nat) :
    (s.wr a n v).agenda = s.agenda := rfl
@[simp] theorem State.wr_focus (s : State) (a n v : Nat) :
    (s.wr a n v).focus = s.focus := rfl
@[simp] theorem State.wr_nextId (s : State) (a n v : Nat) :
    (s.wr a n v).nextId = s.nextId := rfl
@[simp] theorem State.wr_free (s : State) (a n v : Nat) :
    (s.wr a n v).free = s.free := rfl
@[simp] theorem State.wr_cfg (s : State) (a n v : Nat) :
    (s.wr a n v).cfg = s.cfg := rfl
@[simp] theorem State.wr_cores (s : State) (a n v : Nat) :
    (s.wr a n v).cores = s.cores := rfl
@[simp] theorem State.wr_folds (s : State) (a n v : Nat) :
    (s.wr a n v).folds = s.folds := rfl
@[simp] theorem State.wr_droves (s : State) (a n v : Nat) :
    (s.wr a n v).droves = s.droves := rfl
@[simp] theorem State.wr_ops (s : State) (a n v : Nat) :
    (s.wr a n v).ops = s.ops := rfl
@[simp] theorem State.wr_copies (s : State) (a n v : Nat) :
    (s.wr a n v).copies = s.copies := rfl
@[simp] theorem State.wr_launches (s : State) (a n v : Nat) :
    (s.wr a n v).launches = s.launches := rfl
@[simp] theorem State.wr_privs (s : State) (a n v : Nat) :
    (s.wr a n v).privs = s.privs := rfl
@[simp] theorem State.wr_pads (s : State) (a n v : Nat) :
    (s.wr a n v).pads = s.pads := rfl
@[simp] theorem State.wr_vds (s : State) (a n v : Nat) :
    (s.wr a n v).vds = s.vds := rfl
@[simp] theorem State.wr_dies (s : State) (a n v : Nat) :
    (s.wr a n v).dies = s.dies := rfl
@[simp] theorem State.wr_pages (s : State) (a n v : Nat) :
    (s.wr a n v).pages = s.pages := rfl
@[simp] theorem State.wr_keys (s : State) (a n v : Nat) :
    (s.wr a n v).keys = s.keys := rfl
@[simp] theorem State.wr_vdns (s : State) (a n v : Nat) :
    (s.wr a n v).vdns = s.vdns := rfl
@[simp] theorem State.wr_counters (s : State) (a n v : Nat) :
    (s.wr a n v).counters = s.counters := rfl
@[simp] theorem State.wr_stage (s : State) (a n v : Nat) :
    (s.wr a n v).stage = s.stage := rfl
@[simp] theorem State.wr_traceDrop (s : State) (a n v : Nat) :
    (s.wr a n v).traceDrop = s.traceDrop := rfl
@[simp] theorem State.wr_evBuf (s : State) (a n v : Nat) :
    (s.wr a n v).evBuf = s.evBuf := rfl
@[simp] theorem State.wr_evNew (s : State) (a n v : Nat) :
    (s.wr a n v).evNew = s.evNew := rfl
@[simp] theorem State.wr_hvMail (s : State) (a n v : Nat) :
    (s.wr a n v).hvMail = s.hvMail := rfl
@[simp] theorem State.wr_msix (s : State) (a n v : Nat) :
    (s.wr a n v).msix = s.msix := rfl
@[simp] theorem State.wr_outbox (s : State) (a n v : Nat) :
    (s.wr a n v).outbox = s.outbox := rfl
@[simp] theorem State.wr_journal (s : State) (a n v : Nat) :
    (s.wr a n v).journal = s.journal := rfl
@[simp] theorem State.wr_images (s : State) (a n v : Nat) :
    (s.wr a n v).images = s.images := rfl
@[simp] theorem State.wr_bootFaults (s : State) (a n v : Nat) :
    (s.wr a n v).bootFaults = s.bootFaults := rfl
@[simp] theorem State.wr_portsDown (s : State) (a n v : Nat) :
    (s.wr a n v).portsDown = s.portsDown := rfl
@[simp] theorem State.wr_powerLimit (s : State) (a n v : Nat) :
    (s.wr a n v).powerLimit = s.powerLimit := rfl
@[simp] theorem State.wr_holdReset (s : State) (a n v : Nat) :
    (s.wr a n v).holdReset = s.holdReset := rfl
@[simp] theorem State.wr_standby (s : State) (a n v : Nat) :
    (s.wr a n v).standby = s.standby := rfl
@[simp] theorem State.wr_loaded (s : State) (a n v : Nat) :
    (s.wr a n v).loaded = s.loaded := rfl

/-! ### count -/

@[simp] theorem State.count_started (s : State) (p d num n : Nat) :
    (s.count p d num n).started = s.started := by unfold State.count; split <;> rfl
@[simp] theorem State.count_agenda (s : State) (p d num n : Nat) :
    (s.count p d num n).agenda = s.agenda := by unfold State.count; split <;> rfl
@[simp] theorem State.count_focus (s : State) (p d num n : Nat) :
    (s.count p d num n).focus = s.focus := by unfold State.count; split <;> rfl
@[simp] theorem State.count_nextId (s : State) (p d num n : Nat) :
    (s.count p d num n).nextId = s.nextId := by unfold State.count; split <;> rfl
@[simp] theorem State.count_free (s : State) (p d num n : Nat) :
    (s.count p d num n).free = s.free := by unfold State.count; split <;> rfl
@[simp] theorem State.count_mem (s : State) (p d num n : Nat) :
    (s.count p d num n).mem = s.mem := by unfold State.count; split <;> rfl
@[simp] theorem State.count_cfg (s : State) (p d num n : Nat) :
    (s.count p d num n).cfg = s.cfg := by unfold State.count; split <;> rfl
@[simp] theorem State.count_cores (s : State) (p d num n : Nat) :
    (s.count p d num n).cores = s.cores := by unfold State.count; split <;> rfl
@[simp] theorem State.count_folds (s : State) (p d num n : Nat) :
    (s.count p d num n).folds = s.folds := by unfold State.count; split <;> rfl
@[simp] theorem State.count_droves (s : State) (p d num n : Nat) :
    (s.count p d num n).droves = s.droves := by unfold State.count; split <;> rfl
@[simp] theorem State.count_ops (s : State) (p d num n : Nat) :
    (s.count p d num n).ops = s.ops := by unfold State.count; split <;> rfl
@[simp] theorem State.count_copies (s : State) (p d num n : Nat) :
    (s.count p d num n).copies = s.copies := by unfold State.count; split <;> rfl
@[simp] theorem State.count_launches (s : State) (p d num n : Nat) :
    (s.count p d num n).launches = s.launches := by unfold State.count; split <;> rfl
@[simp] theorem State.count_privs (s : State) (p d num n : Nat) :
    (s.count p d num n).privs = s.privs := by unfold State.count; split <;> rfl
@[simp] theorem State.count_pads (s : State) (p d num n : Nat) :
    (s.count p d num n).pads = s.pads := by unfold State.count; split <;> rfl
@[simp] theorem State.count_vds (s : State) (p d num n : Nat) :
    (s.count p d num n).vds = s.vds := by unfold State.count; split <;> rfl
@[simp] theorem State.count_dies (s : State) (p d num n : Nat) :
    (s.count p d num n).dies = s.dies := by unfold State.count; split <;> rfl
@[simp] theorem State.count_pages (s : State) (p d num n : Nat) :
    (s.count p d num n).pages = s.pages := by unfold State.count; split <;> rfl
@[simp] theorem State.count_keys (s : State) (p d num n : Nat) :
    (s.count p d num n).keys = s.keys := by unfold State.count; split <;> rfl
@[simp] theorem State.count_vdns (s : State) (p d num n : Nat) :
    (s.count p d num n).vdns = s.vdns := by unfold State.count; split <;> rfl
@[simp] theorem State.count_stage (s : State) (p d num n : Nat) :
    (s.count p d num n).stage = s.stage := by unfold State.count; split <;> rfl
@[simp] theorem State.count_traceDrop (s : State) (p d num n : Nat) :
    (s.count p d num n).traceDrop = s.traceDrop := by unfold State.count; split <;> rfl
@[simp] theorem State.count_evBuf (s : State) (p d num n : Nat) :
    (s.count p d num n).evBuf = s.evBuf := by unfold State.count; split <;> rfl
@[simp] theorem State.count_evNew (s : State) (p d num n : Nat) :
    (s.count p d num n).evNew = s.evNew := by unfold State.count; split <;> rfl
@[simp] theorem State.count_hvMail (s : State) (p d num n : Nat) :
    (s.count p d num n).hvMail = s.hvMail := by unfold State.count; split <;> rfl
@[simp] theorem State.count_msix (s : State) (p d num n : Nat) :
    (s.count p d num n).msix = s.msix := by unfold State.count; split <;> rfl
@[simp] theorem State.count_outbox (s : State) (p d num n : Nat) :
    (s.count p d num n).outbox = s.outbox := by unfold State.count; split <;> rfl
@[simp] theorem State.count_journal (s : State) (p d num n : Nat) :
    (s.count p d num n).journal = s.journal := by unfold State.count; split <;> rfl
@[simp] theorem State.count_upsets (s : State) (p d num n : Nat) :
    (s.count p d num n).upsets = s.upsets := by unfold State.count; split <;> rfl
@[simp] theorem State.count_images (s : State) (p d num n : Nat) :
    (s.count p d num n).images = s.images := by unfold State.count; split <;> rfl
@[simp] theorem State.count_bootFaults (s : State) (p d num n : Nat) :
    (s.count p d num n).bootFaults = s.bootFaults := by unfold State.count; split <;> rfl
@[simp] theorem State.count_portsDown (s : State) (p d num n : Nat) :
    (s.count p d num n).portsDown = s.portsDown := by unfold State.count; split <;> rfl
@[simp] theorem State.count_powerLimit (s : State) (p d num n : Nat) :
    (s.count p d num n).powerLimit = s.powerLimit := by unfold State.count; split <;> rfl
@[simp] theorem State.count_holdReset (s : State) (p d num n : Nat) :
    (s.count p d num n).holdReset = s.holdReset := by unfold State.count; split <;> rfl
@[simp] theorem State.count_standby (s : State) (p d num n : Nat) :
    (s.count p d num n).standby = s.standby := by unfold State.count; split <;> rfl
@[simp] theorem State.count_loaded (s : State) (p d num n : Nat) :
    (s.count p d num n).loaded = s.loaded := by unfold State.count; split <;> rfl

end Sys2Proof.Machine
end

