-- ==== Sys2Proof/Laws/Issue.lean ====
section
/-! SUPPORT. The issue of an instruction: what the turn's bookkeeping around an effect can change
(`retire_quiet`), and from it what each kind of result leaves (`issue_…`). -/
namespace Sys2Proof.Machine

/-! ### Pieces -/

theorem core_modCore (s : State) (c d : Nat) (g : Core → Core) :
    (s.modCore c g).core d = if d = c then g (s.core c) else s.core d := by
  simp only [State.core, State.modCore, kgetD_kset]

theorem Core.stage_modStage (k : Core) (st x : Nat) (g : Stage → Stage) :
    (k.modStage st g).stage x =
      if (x = 0) = (st = 0) then g (k.stage st) else k.stage x := by
  unfold Core.modStage Core.stage
  by_cases h : st = 0 <;> by_cases h' : x = 0 <;> simp [h, h']

theorem stageOf_modStage (s : State) (c st d x : Nat) (g : Stage → Stage) :
    (s.modStage c st g).stageOf d x =
      if d = c ∧ (x = 0) = (st = 0) then g (s.stageOf c st) else s.stageOf d x := by
  simp only [State.stageOf, State.modStage, core_modCore]
  by_cases h : d = c
  · subst h; simp only [if_true, Core.stage_modStage, true_and]
  · simp [h]

theorem kget_modFold (s : State) (f j : Nat) (g : Fold → Fold) :
    kget (s.modFold f g).folds j = if j = f then (kget s.folds f).map g else kget s.folds j :=
  kget_kmod s.folds f j g

theorem flock?_modFlock (s : State) (f k f' k' : Nat) (g : Flock → Flock) :
    (s.modFlock f k g).flock? f' k' =
      if f' = f ∧ k' = k then (s.flock? f k).map g else s.flock? f' k' := by
  simp only [State.flock?, State.modFlock, kget_modFold]
  by_cases hf : f' = f
  · subst hf
    rw [if_pos rfl]
    cases kget s.folds f' with
    | none => simp
    | some fo => simp only [Option.map_some, getElem?_lmod, true_and]
  · rw [if_neg hf]; simp [hf]

theorem flock_modFlock (s : State) (f k : Nat) (g : Flock → Flock) (h : (s.flock? f k).isSome = true) :
    (s.modFlock f k g).flock f k = g (s.flock f k) := by
  simp only [State.flock, flock?_modFlock]
  obtain ⟨fl, hfl⟩ := Option.isSome_iff_exists.1 h
  simp [hfl]

theorem flock_modFlock_ne (s : State) {f k f' k' : Nat} (g : Flock → Flock) (h : ¬(f' = f ∧ k' = k)) :
    (s.modFlock f k g).flock f' k' = s.flock f' k' := by
  simp only [State.flock, flock?_modFlock, if_neg h]

theorem fo_modFlock (s : State) (q : Iss) (f k : Nat) (g : Flock → Flock) :
    (s.modFlock f k g).fo q = { s.fo q with flocks := ((s.modFlock f k g).fo q).flocks } := by
  simp only [State.fo, State.modFlock, kget_modFold]
  split
  · subst_vars; cases kget s.folds q.fold <;> rfl
  · rfl

/-! ### Bookkeeping leaves the device quiet -/

theorem Quiet.refl (s : State) (q : Iss) : Quiet s s q :=
  ⟨rfl, fun _ => rfl, fun _ _ => rfl, rfl, fun _ _ => rfl, fun _ => rfl, fun _ _ => rfl, fun _ _ => rfl⟩

theorem Quiet.trans {s u t : State} {q : Iss} (a : Quiet s u q) (b : Quiet u t q) : Quiet s t q where
  rest := by rw [b.rest, a.rest]
  bytes x := (b.bytes x).trans (a.bytes x)
  folds f h := (b.folds f h).trans (a.folds f h)
  fold := by rw [b.fold, a.fold]
  flocks k h := (b.flocks k h).trans (a.flocks k h)
  cores c := by rw [b.cores c, a.cores c]
  slots c st := (b.slots c st).trans (a.slots c st)
  away c h := (b.away c h).trans (a.away c h)

theorem quiet_count (s : State) (q : Iss) (p d num n : Nat) : Quiet s (s.count p d num n) q where
  rest := by unfold State.count; split <;> rfl
  bytes a := by simp
  folds f h := by simp
  fold := by simp [State.fo]
  flocks k h := by simp [State.flock?]
  cores c := by simp [State.core]
  slots c st := by simp [State.stageOf, State.core]
  away c h := by simp [State.core]

theorem quiet_modStage (s : State) (q : Iss) (st : Nat) (g : Stage → Stage)
    (hg : ∀ x, (g x).slots = x.slots) : Quiet s (s.modStage q.core st g) q where
  rest := rfl
  bytes a := rfl
  folds f h := rfl
  fold := rfl
  flocks k h := rfl
  cores c := by
    simp only [State.modStage, core_modCore]
    split
    · subst_vars; unfold Core.modStage; split <;> rfl
    · rfl
  slots c x := by
    rw [stageOf_modStage]
    split
    · rename_i h
      obtain ⟨rfl, h⟩ := h
      rw [hg]
      simp only [State.stageOf, Core.stage]
      by_cases hx : x = 0 <;> simp_all
    · rfl
  away c h := by simp only [State.modStage, core_modCore, if_neg h]

theorem quiet_setFl (s : State) (q : Iss) (g : Flock → Flock) : Quiet s (s.setFl q g) q where
  rest := rfl
  bytes a := rfl
  folds f h := by simp only [State.setFl, State.modFlock, kget_modFold, if_neg h]
  fold := fo_modFlock s q q.fold q.flock g
  flocks k h := by simp only [State.setFl, flock?_modFlock]; rw [if_neg (by simp [h])]
  cores c := rfl
  slots c st := rfl
  away c h := rfl

/-- The stage's turn is that of the band's flock, and no trap waits for its end. -/
def TurnOk (s : State) (q : Iss) : Prop :=
  ∃ t, (s.stageOf q.core q.stage).turn = some t ∧ t.trapA = none ∧ t.trapB = none ∧
    t.fold = q.fold ∧ t.flock = q.flock

theorem turnOk_modTurn {s : State} {q : Iss} (g : Turn → Turn) (h : TurnOk s q)
    (hg : ∀ t, (g t).trapA = t.trapA ∧ (g t).trapB = t.trapB ∧ (g t).fold = t.fold ∧ (g t).flock = t.flock) :
    TurnOk (s.modTurn q g) q := by
  obtain ⟨t, h1, h2, h3, h4, h5⟩ := h
  refine ⟨g t, ?_, ?_, ?_, ?_, ?_⟩
  · simp only [State.modTurn, stageOf_modStage]; simp [h1]
  all_goals simp [hg t, *]

theorem quiet_modTurn (s : State) (q : Iss) (g : Turn → Turn) : Quiet s (s.modTurn q g) q :=
  quiet_modStage s q q.stage _ fun _ => rfl

theorem turnOk_count {s : State} {q : Iss} (p d num n : Nat) (h : TurnOk s q) :
    TurnOk (s.count p d num n) q := by
  simpa [TurnOk, State.stageOf, State.core] using h

theorem turnOk_modBand {s : State} {q : Iss} (g : Band → Band) (h : TurnOk s q) : TurnOk (s.modBand q g) q := by
  refine turnOk_modTurn _ h fun t => ?_
  split <;> simp

theorem turnOk_setFl {s : State} {q : Iss} (g : Flock → Flock) (h : TurnOk s q) : TurnOk (s.setFl q g) q := h

/-- A flock but for the mark that it is parked. -/
def SameFlock (a b : Flock) : Prop := b = { a with parked := b.parked }

theorem SameFlock.refl (a : Flock) : SameFlock a a := rfl
theorem SameFlock.trans {a b c : Flock} (h : SameFlock a b) (h' : SameFlock b c) : SameFlock a c := by
  unfold SameFlock at *; rw [h', h]

theorem quiet_closeCycle (s : State) (q : Iss) (t : Turn) : Quiet s (s.closeCycle q.core t) q := by
  unfold State.closeCycle
  split
  · exact Quiet.refl s q
  · exact (quiet_count ..).trans (quiet_count ..)

theorem fl_closeCycle (s : State) (q : Iss) (t : Turn) : (s.closeCycle q.core t).fl q = s.fl q := by
  unfold State.closeCycle
  split <;> simp [State.fl, State.flock, State.flock?]

theorem turnOk_closeCycle {s : State} {q : Iss} (t : Turn) (h : TurnOk s q) :
    TurnOk (s.closeCycle q.core t) q := by
  unfold State.closeCycle
  split
  · exact h
  · exact turnOk_count _ _ _ _ (turnOk_count _ _ _ _ h)

/-- What the end of an instruction changes beside the flock's parked mark: counters and the turn. -/
theorem quiet_endInstr {s : State} {q : Iss} (h : TurnOk s q) (hf : (s.flock? q.fold q.flock).isSome = true) :
    Quiet s (s.endInstr q) q ∧ SameFlock (s.fl q) ((s.endInstr q).fl q) := by
  obtain ⟨t, h1, h2, h3, h4, h5⟩ := h
  unfold State.endInstr
  simp only [h1]
  split
  · exact ⟨quiet_modTurn .., SameFlock.refl _⟩
  split
  · exact ⟨quiet_modTurn .., SameFlock.refl _⟩
  · split
    · have hc := quiet_closeCycle s q t
      have hfl := fl_closeCycle s q t
      have hsome : ((s.closeCycle q.core t).flock? q.fold q.flock).isSome = true := by
        have : (s.closeCycle q.core t).flock? q.fold q.flock = s.flock? q.fold q.flock := by
          unfold State.closeCycle; split <;> simp [State.flock?]
        rw [this]; exact hf
      unfold State.endTurn
      simp only [h2, h3, h4, h5]
      constructor
      · exact (hc.trans (quiet_modStage _ q q.stage (fun st => { st with turn := none })
          fun _ => rfl)).trans (quiet_setFl _ q _)
      · have hs : (((s.closeCycle q.core t).modStage q.core q.stage fun st =>
            { st with turn := none }).flock? q.fold q.flock).isSome = true := hsome
        show SameFlock _ (State.flock (State.modFlock _ q.fold q.flock _) q.fold q.flock)
        rw [flock_modFlock _ _ _ _ hs]
        show SameFlock _ { (s.closeCycle q.core t).fl q with parked := true }
        rw [hfl]; rfl
    · exact ⟨(quiet_closeCycle s q t).trans (quiet_modTurn ..), by
        show SameFlock _ ((s.closeCycle q.core t).fl q); rw [fl_closeCycle]; exact SameFlock.refl _⟩

/-- What `retire` changes where no watched block was touched: counters, the turn, the parked mark. -/
theorem retire_quiet {s : State} {q : Iss} (i : Instr) (h : TurnOk s q)
    (hf : (s.flock? q.fold q.flock).isSome = true) :
    Quiet s (s.retire q i 0) q ∧ SameFlock (s.fl q) ((s.retire q i 0).fl q) := by
  unfold State.retire
  simp only [if_true]
  generalize hb : bandReads _ _ ++ dataTail i = rs
  have t1 := turnOk_count (s.fo q).paddock (dieOf q.core) 1 1 h
  have t2 : TurnOk ((s.count (s.fo q).paddock (dieOf q.core) 1 1).bankRead q rs) q :=
    turnOk_modTurn _ t1 fun _ => ⟨rfl, rfl, rfl, rfl⟩
  generalize hu : (s.count (s.fo q).paddock (dieOf q.core) 1 1).bankRead q rs = u
  rw [hu] at t2
  have t3 := turnOk_modBand (fun b =>
    { bandLatch b (bankReads i) with
      count := b.count + 1, ended := b.ended || i.ebit, bad := b.badAfter (u.fl q) i q.lanes }) t2
  have e1 := quiet_count s q (s.fo q).paddock (dieOf q.core) 1 1
  have e2 := quiet_modTurn (s.count (s.fo q).paddock (dieOf q.core) 1 1) q fun t =>
    { t with reads := addReads t.reads rs }
  have e3 := quiet_modTurn u q fun t =>
    if q.bandB then { t with b := t.b.map fun b =>
        { bandLatch b (bankReads i) with
          count := b.count + 1, ended := b.ended || i.ebit, bad := b.badAfter (u.fl q) i q.lanes } }
    else { t with a := t.a.map fun b =>
        { bandLatch b (bankReads i) with
          count := b.count + 1, ended := b.ended || i.ebit, bad := b.badAfter (u.fl q) i q.lanes } }
  have hfl : ((s.count (s.fo q).paddock (dieOf q.core) 1 1).fl q) = s.fl q := by
    simp [State.fl, State.flock, State.flock?]
  have hsome : ((s.count (s.fo q).paddock (dieOf q.core) 1 1).flock? q.fold q.flock).isSome = true := by
    simpa [State.flock?] using hf
  have hs : (u.flock? q.fold q.flock).isSome = true := by
    rw [← hu]; exact hsome
  obtain ⟨q4, f4⟩ := quiet_endInstr t3 hs
  refine ⟨((e1.trans (hu ▸ e2)).trans e3).trans q4, ?_⟩
  have : SameFlock (s.fl q) ((u.modBand q fun b =>
    { bandLatch b (bankReads i) with
      count := b.count + 1, ended := b.ended || i.ebit, bad := b.badAfter (u.fl q) i q.lanes }).fl q) := by
    show SameFlock (s.fl q) (u.fl q)
    rw [← hu]
    show SameFlock (s.fl q) ((s.count (s.fo q).paddock (dieOf q.core) 1 1).fl q)
    rw [hfl]; exact SameFlock.refl _
  exact this.trans f4

/-! ### The issue itself -/

theorem issuer_turn {s : State} {q : Iss} (h : s.issuer = some q) :
    ∃ t, (s.stageOf q.core q.stage).turn = some t ∧ t.fold = q.fold ∧ t.flock = q.flock := by
  unfold State.issuer at h
  split at h
  · cases h
  · split at h
    · cases h
    · split at h
      · cases h
      · split at h
        · cases h
        · dsimp only at h
          split at h
          · cases h
          · cases h; exact ⟨_, ‹_›, rfl, rfl⟩

theorem issues_iff {s : State} {q : Iss} {i : Instr} (h : issues s q i = true) :
    s.issuer = some q ∧ precheck s q i = none ∧ (s.flock? q.fold q.flock).isSome = true ∧ TurnOk s q := by
  simp only [issues, Bool.and_eq_true, beq_iff_eq] at h
  obtain ⟨⟨⟨h1, h2⟩, h3⟩, h4⟩ := h
  refine ⟨h1, h2, h3, ?_⟩
  obtain ⟨t, e1, e2, e3⟩ := issuer_turn h1
  simp only [State.turnClear, e1, Bool.and_eq_true, Option.isNone_iff_eq_none] at h4
  exact ⟨t, e1, h4.1, h4.2, e2, e3⟩

theorem turnOk_advance {s : State} {q : Iss} {i : Instr} (h : TurnOk s q) : TurnOk (s.advance q i) q := h

theorem fl_setFl {s : State} {q : Iss} (g : Flock → Flock) (h : (s.flock? q.fold q.flock).isSome = true) :
    (s.setFl q g).fl q = g (s.fl q) := flock_modFlock s q.fold q.flock g h

theorem some_setFl {s : State} {q : Iss} (g : Flock → Flock) (h : (s.flock? q.fold q.flock).isSome = true) :
    ((s.setFl q g).flock? q.fold q.flock).isSome = true := by
  simp only [State.setFl, flock?_modFlock]; simpa using h

/-- An instruction whose own part gives `u` without touching a watched block ends in `u.retire`. -/
theorem issue_ok {s u : State} {q : Iss} {i : Instr} {body : Iss → State → Eff} (h : issues s q i = true)
    (hb : body q (s.advance q i) = .ok (u, 0)) : issue i body s = .next (u.retire q i 0) := by
  obtain ⟨h1, h2, -, -⟩ := issues_iff h
  simp only [issue, h1, h2, hb]

/-- An instruction whose own part traps takes the trap of that cause for those lanes. -/
theorem issue_error {s : State} {q : Iss} {i : Instr} {body : Iss → State → Eff} {c : Nat} {m : Mask}
    (h : issues s q i = true) (hb : body q (s.advance q i) = .error (c, m)) :
    issue i body s = .next (s.trapAt q c m (isRett i)) := by
  obtain ⟨h1, h2, -, -⟩ := issues_iff h
  simp only [issue, h1, h2, hb]

/-! ### Flock registers after an update -/

theorem getV_setV (fl : Flock) (n m : Nat) (mask : Mask) (x : Nat → Word) (l : Nat) (hl : l < 32) :
    (fl.setV n mask x).getV m l = if m = n ∧ mask.getLsbD l = true then x l else fl.getV m l := by
  simp only [Flock.getV, Flock.setV, kgetD_kset]
  by_cases h : m = n
  · subst h; simp only [if_true, lane_blend, hl, true_and]; rfl
  · simp [h]

theorem getQ_pushQ (fl : Flock) (mask : Mask) (x : Nat → Word) (a l : Nat) (hl : l < 32) :
    (fl.pushQ mask x).getQ a l =
      if mask.getLsbD l = true then ((x l :: fl.q.getD l []).take 16).getD a 0 else fl.getQ a l := by
  simp only [Flock.getQ, Flock.pushQ, getD_map_range, hl, if_true]
  split <;> rfl

theorem pc_movePc (fl : Flock) (m : Mask) (x : Nat → Nat) (l : Nat) (hl : l < 32) :
    (fl.movePc m x).pc l = if m.getLsbD l then x l else fl.pc l := by
  simp only [Flock.pc, Flock.movePc, getD_map_range, hl, if_true]

theorem getP_setP (fl : Flock) (n m : Nat) (mask : Mask) (x : Nat → Bool) (l : Nat) (hl : l < 32) :
    (fl.setP n mask x).getP m l =
      if m = n ∧ m ≠ 0 ∧ mask.getLsbD l = true then x l else fl.getP m l := by
  unfold Flock.setP
  by_cases hn : n = 0
  · simp [hn]; intro h; simp [h]
  · rw [if_neg hn]
    simp only [Flock.getP, kgetD_kset]
    by_cases h : m = n
    · subst h
      have h0 : (m == 0) = false := by simpa using hn
      rw [if_pos rfl, getLsbD_maskOf, decide_eq_true hl, h0]
      by_cases hm : mask.getLsbD l = true
      · simp only [hm, Bool.false_or, Bool.true_and, true_and, ne_eq, hn, not_false_eq_true, if_true]
      · simp only [hm, Bool.false_or, Bool.true_and, Bool.false_eq_true, and_false, if_false]
    · simp [h]

theorem getS_setS (fl : Flock) (n m : Nat) (w : Word) :
    (fl.setS n w).getS m = if m = n then w else fl.getS m := by
  simp only [Flock.getS, Flock.setS, kgetD_kset]

end Sys2Proof.Machine
end

