-- ==== Sys2Proof/Laws/Result.lean ====
section
/-! SUPPORT. One lemma for each shared operation over results (R77): everything that an instruction of
its kind leaves when it issues without a trap. -/
namespace Sys2Proof.Machine

/-! ### A settled effect on the issuing flock alone -/

theorem orFlags_zero (m : Mask) : orFlags m (fun _ => 0) = 0 := by
  unfold orFlags
  generalize lanesOf m = l
  induction l with
  | nil => rfl
  | cons a l ih => simpa using ih

theorem fl_advance {s : State} {q : Iss} (i : Instr) (h : (s.flock? q.fold q.flock).isSome = true) :
    (s.advance q i).fl q = (s.fl q).movePc q.lanes fun _ => nextPc q i := fl_setFl _ h

theorem some_advance {s : State} {q : Iss} (i : Instr) (h : (s.flock? q.fold q.flock).isSome = true) :
    ((s.advance q i).flock? q.fold q.flock).isSome = true := some_setFl _ h

/-- An instruction that changes its flock by `g` alone, after moving its lanes on: the state it ends
in, quiet beside the flock, with that flock but for the parked mark. -/
theorem issue_setFl {s : State} {q : Iss} {i : Instr} {body : Iss → State → Eff} (g : Flock → Flock)
    (h : issues s q i = true) (hb : body q (s.advance q i) = .ok ((s.advance q i).setFl q g, 0)) :
    ∃ t, issue i body s = .next t ∧ Quiet s t q ∧
      SameFlock (g ((s.fl q).movePc q.lanes fun _ => nextPc q i)) (t.fl q) := by
  obtain ⟨-, -, hf, ht⟩ := issues_iff h
  have hsa := some_advance i hf
  refine ⟨_, issue_ok h hb, ?_⟩
  obtain ⟨h1, h2⟩ := retire_quiet (s := (s.advance q i).setFl q g) i
    (turnOk_setFl _ (turnOk_advance ht)) (some_setFl _ hsa)
  refine ⟨((quiet_setFl s q _).trans (quiet_setFl _ q g)).trans h1, ?_⟩
  rw [fl_setFl g hsa, fl_advance i hf] at h2
  exact h2

theorem pc_goes {s t : State} {q : Iss} {i : Instr} {fl : Flock}
    (h : fl.pcs = ((s.fl q).movePc q.lanes fun _ => nextPc q i).pcs) (hs : SameFlock fl (t.fl q)) :
    GoesOn s t q i := by
  intro l hl
  rw [hs]
  show fl.pcs.getD l 0 = _
  rw [h]
  exact (pc_movePc (s.fl q) q.lanes (fun _ => nextPc q i) l hl)

/-! ### Kind Q -/

theorem writeQ_parts (fl : Flock) (d : LDst) (m : Mask) (x : Nat → Word) :
    fl.writeQ d m x = { fl with v := (fl.writeQ d m x).v, q := (fl.writeQ d m x).q, bad := (fl.writeQ d m x).bad } := by
  cases d <;> rfl

theorem healRegs_nil (n : Nat) (m : Mask) : healRegs [] n m = [] := rfl

/-- A result of kind Q strikes no register word. -/
theorem bad_writeQ {fl : Flock} (d : LDst) (m : Mask) (x : Nat → Word) (h : fl.bad = []) :
    (fl.writeQ d m x).bad = [] := by
  cases d <;> simp [Flock.writeQ, Flock.setV, Flock.pushQ, h, healRegs]

theorem getV_writeQ (fl : Flock) (d : LDst) (m : Mask) (x : Nat → Word) (n l : Nat) (hl : l < 32) :
    (fl.writeQ d m x).getV n l = if d = .v n ∧ m.getLsbD l = true then x l else fl.getV n l := by
  cases d with
  | v k =>
    show ((fl.pushQ m x).setV k m x).getV n l = _
    rw [getV_setV _ _ _ _ _ _ hl]
    by_cases h : n = k
    · subst h; simp only [true_and]; rfl
    · rw [if_neg (by simp [h]), if_neg (by simp [Ne.symm h])]; rfl
  | q0 => rw [if_neg (by simp)]; rfl

theorem getQ_writeQ (fl : Flock) (d : LDst) (m : Mask) (x : Nat → Word) (a l : Nat) (hl : l < 32) :
    (fl.writeQ d m x).getQ a l =
      if m.getLsbD l = true then ((x l :: fl.q.getD l []).take 16).getD a 0 else fl.getQ a l := by
  cases d <;> exact getQ_pushQ fl m x a l hl

theorem take_cons_getD (x : Word) (r : List Word) :
    ((x :: r).take 16).getD 0 0 = x ∧ ∀ a < 15, ((x :: r).take 16).getD (a + 1) 0 = r.getD a 0 := by
  refine ⟨by simp, fun a ha => ?_⟩
  simp only [List.getD_eq_getElem?_getD, List.take_succ_cons, List.getElem?_cons_succ, List.getElem?_take]
  rw [if_pos ha]

/-- What a write of kind Q with flags leaves. -/
theorem resultQ_of {s t : State} {q : Iss} {i : Instr} {h : LHdr} {d : LDst} {f f' : Nat → Word}
    {g : Nat → Flg} (hq : Quiet s t q) (hf : ∀ l < 32, act s q h l = true → f' l = f l)
    (hs : SameFlock ({ ((s.fl q).movePc q.lanes fun _ => nextPc q i) with
      fflags := (s.fl q).fflags ||| orFlags ((s.fl q).active h q.lanes) g }.writeQ d
        ((s.fl q).active h q.lanes) f') (t.fl q)) :
    ResultQ s t q i h d f g := by
  have hv : ∀ n l, l < 32 → (t.fl q).getV n l =
      if d = .v n ∧ act s q h l = true then f l else (s.fl q).getV n l := by
    intro n l hl
    rw [hs]
    show (Flock.writeQ _ _ _ _).getV n l = _
    rw [getV_writeQ _ _ _ _ _ _ hl]
    show (if d = .v n ∧ act s q h l = true then f' l else (s.fl q).getV n l) = _
    split
    · rename_i hc; exact hf l hl hc.2
    · rfl
  have hqq : ∀ a l, l < 32 → (t.fl q).getQ a l = if act s q h l = true
      then ((f' l :: (s.fl q).q.getD l []).take 16).getD a 0 else (s.fl q).getQ a l := by
    intro a l hl
    rw [hs]
    show (Flock.writeQ _ _ _ _).getQ a l = _
    rw [getQ_writeQ _ _ _ _ _ _ hl]
    rfl
  refine ⟨hq, ?_, fun hb => ?_, pc_goes (by rw [writeQ_parts]) hs, ?_, ?_, ?_, ?_, ?_⟩
  · rw [hs, writeQ_parts]; rfl
  · rw [hs]; exact bad_writeQ d _ f' hb
  · intro n hn l hl; rw [hv n l hl]; simp [hn]
  · intro n hn l hl; rw [hv n l hl]; simp [hn]
  · intro l hl ha
    obtain ⟨h0, h1⟩ := take_cons_getD (f' l) ((s.fl q).q.getD l [])
    refine ⟨by rw [hqq 0 l hl, if_pos ha, h0, hf l hl ha], fun a h15 => ?_⟩
    rw [hqq _ l hl, if_pos ha, h1 a h15]; rfl
  · intro l hl ha a; rw [hqq a l hl]; simp [ha]
  · rw [hs, writeQ_parts]

/-- A lane instruction of kind Q without flags. -/
theorem issue_qOp {s : State} {q : Iss} {i : Instr} {h : LHdr} {d : LDst}
    {F : State → Iss → Mask → Nat → Word} {f : Nat → Word} (hi : issues s q i = true)
    (hF : ∀ l < 32, act s q h l = true → F (s.advance q i) q ((s.fl q).active h q.lanes) l = f l) :
    ∃ t, issue i (qOp h d F) s = .next t ∧ ResultQ s t q i h d f fun _ => 0 := by
  obtain ⟨-, -, hf, -⟩ := issues_iff hi
  have hact : ((s.advance q i).fl q).active h q.lanes = (s.fl q).active h q.lanes := by
    rw [fl_advance i hf]; rfl
  obtain ⟨t, e, hq, hs⟩ := issue_setFl (body := qOp h d F) _ hi rfl
  refine ⟨t, e, resultQ_of (f' := lane (tab fun l => if ((s.fl q).active h q.lanes).getLsbD l then
    F (s.advance q i) q ((s.fl q).active h q.lanes) l else 0)) hq ?_ ?_⟩
  · intro l hl ha
    rw [lane_tab, if_pos hl]
    show (if act s q h l = true then _ else _) = _
    rw [if_pos ha, hF l hl ha]
  · rw [orFlags_zero]
    simp only [hact] at hs
    have e0 : (s.fl q).fflags ||| 0 = (s.fl q).fflags := BitVec.or_zero
    rw [e0]
    exact hs

/-! ### Any effect -/

/-- An instruction whose own part gives `u` without touching a watched block: beside counters and
turns the state it ends in is `u`. -/
theorem issue_leaves {s u : State} {q : Iss} {i : Instr} {body : Iss → State → Eff}
    (h : issues s q i = true) (hb : body q (s.advance q i) = .ok (u, 0)) (ht : TurnOk u q)
    (hs : (u.flock? q.fold q.flock).isSome = true) :
    ∃ t, issue i body s = .next t ∧ Quiet u t q ∧ SameFlock (u.fl q) (t.fl q) :=
  ⟨_, issue_ok h hb, retire_quiet i ht hs⟩

theorem flags_parts (s : State) (q : Iss) (g : Flg) (hs : (s.flock? q.fold q.flock).isSome = true)
    (ht : TurnOk s q) :
    Quiet s (s.flags q g) q ∧ (s.flags q g).fl q = { s.fl q with fflags := (s.fl q).fflags ||| g } ∧
      TurnOk (s.flags q g) q ∧ ((s.flags q g).flock? q.fold q.flock).isSome = true := by
  unfold State.flags
  have hq := quiet_setFl s q fun fl => { fl with fflags := fl.fflags ||| g }
  have hf := fl_setFl (s := s) (q := q) (fun fl => { fl with fflags := fl.fflags ||| g }) hs
  have hk := some_setFl (s := s) (q := q) (fun fl => { fl with fflags := fl.fflags ||| g }) hs
  have hto := turnOk_setFl (s := s) (q := q) (fun fl => { fl with fflags := fl.fflags ||| g }) ht
  by_cases hb : q.bandB = true
  · simp only [hb, if_true]; exact ⟨hq, hf, hto, hk⟩
  · simp only [hb, Bool.false_eq_true, if_false]
    exact ⟨hq.trans (quiet_modTurn _ q _), hf, turnOk_modTurn _ hto fun _ => ⟨rfl, rfl, rfl, rfl⟩, hk⟩

theorem resW_laneRes (m : Mask) (f : Nat → WF) (l : Nat) (hl : l < 32) (ha : m.getLsbD l = true) :
    resW (laneRes m f) l = (f l).1 := by
  simp only [resW, laneRes, getD_map_range, hl, if_true, ha]

theorem resF_laneRes (m : Mask) (f : Nat → WF) (l : Nat) (hl : l < 32) (ha : m.getLsbD l = true) :
    resF (laneRes m f) l = (f l).2 := by
  simp only [resF, laneRes, getD_map_range, hl, if_true, ha]

theorem orFlags_congr {m : Mask} {f g : Nat → Flg} (h : ∀ l < 32, m.getLsbD l = true → f l = g l) :
    orFlags m f = orFlags m g := by
  unfold orFlags
  have : ∀ (ls : List Nat) (x : Flg), (∀ l ∈ ls, f l = g l) →
      ls.foldl (fun x l => x ||| f l) x = ls.foldl (fun x l => x ||| g l) x := by
    intro ls
    induction ls with
    | nil => intros; rfl
    | cons a ls ih =>
      intro x hx
      simp only [List.foldl_cons, hx a (by simp)]
      exact ih _ fun l hl => hx l (by simp [hl])
  exact this _ _ fun l hl => h l ((mem_lanesOf m l).1 hl).1 ((mem_lanesOf m l).1 hl).2

theorem maskOf_congr {f g : Nat → Bool} (h : ∀ l < 32, f l = g l) : maskOf f = maskOf g := by
  apply BitVec.eq_of_getLsbD_eq
  intro l hl
  rw [getLsbD_maskOf, getLsbD_maskOf, h l hl]

theorem trapLanes_congr (fl : Flock) {m : Mask} {f g : Nat → Flg}
    (h : ∀ l < 32, m.getLsbD l = true → f l = g l) : trapLanes fl m f = trapLanes fl m g := by
  apply maskOf_congr
  intro l hl
  by_cases ha : m.getLsbD l = true
  · rw [h l hl ha]
  · simp [ha]

/-- A lane instruction of kind Q with flags, where no lane traps. -/
theorem issue_fOp {s : State} {q : Iss} {i : Instr} {h : LHdr} {d : LDst}
    {F : State → Iss → Mask → Nat → WF} {f : Nat → Word} {g : Nat → Flg} (hi : issues s q i = true)
    (hF : ∀ l < 32, act s q h l = true →
      F (s.advance q i) q ((s.fl q).active h q.lanes) l = (f l, g l))
    (hg : trapLanes (s.fl q) ((s.fl q).active h q.lanes) g = 0) :
    ∃ t, issue i (fOp h d F) s = .next t ∧ ResultQ s t q i h d f g := by
  obtain ⟨-, -, hf, htn⟩ := issues_iff hi
  have hfa := fl_advance i hf
  have hact : ((s.advance q i).fl q).active h q.lanes = (s.fl q).active h q.lanes := by rw [hfa]; rfl
  generalize hA : (s.fl q).active h q.lanes = A at *
  have hcon : ∀ l < 32, A.getLsbD l = true → resF (laneRes A (F (s.advance q i) q A)) l = g l := by
    intro l hl ha
    rw [resF_laneRes _ _ _ hl ha, hF l hl (by unfold act; rw [hA]; exact ha)]
  have ht0 : trapLanes ((s.advance q i).fl q) A (resF (laneRes A (F (s.advance q i) q A))) = 0 := by
    rw [hfa, trapLanes_congr _ hcon]; exact hg
  obtain ⟨f1, f2, f3, f4⟩ := flags_parts (s.advance q i) q (orFlags A g) (some_advance i hf)
    (turnOk_advance htn)
  have hb : fOp h d F q (s.advance q i) = .ok (((s.advance q i).flags q (orFlags A g)).setFl q fun fl =>
      fl.writeQ d A (resW (laneRes A (F (s.advance q i) q A))), 0) := by
    simp only [fOp, hact, ht0, ne_eq, not_true_eq_false, if_false, orFlags_congr hcon]
  obtain ⟨t, e, hq, hs⟩ := issue_leaves hi hb (turnOk_setFl _ f3) (some_setFl _ f4)
  rw [fl_setFl _ f4, f2, hfa] at hs
  refine ⟨t, e, resultQ_of (f' := resW (laneRes A (F (s.advance q i) q A)))
    (((quiet_setFl s q _).trans f1).trans ((quiet_setFl _ q _).trans hq)) ?_ ?_⟩
  · intro l hl ha
    have ha' : A.getLsbD l = true := by unfold act at ha; rw [hA] at ha; exact ha
    rw [resW_laneRes _ _ _ hl ha', hF l hl ha]
  · rw [hA]; exact hs

/-! ### Kind P -/

/-- A lane instruction of kind P without flags. -/
theorem issue_pOp {s : State} {q : Iss} {i : Instr} {h : LHdr} {d : Nat}
    {F : State → Iss → Mask → Nat → Bool} {f : Nat → Bool} (hi : issues s q i = true)
    (hF : ∀ l < 32, act s q h l = true → F (s.advance q i) q ((s.fl q).active h q.lanes) l = f l) :
    ∃ t, issue i (pOp h d F) s = .next t ∧
      ResultP s t q i h (fun n l => if n = d then some (f l) else none) fun _ => 0 := by
  obtain ⟨-, -, hf, -⟩ := issues_iff hi
  have hact : ((s.advance q i).fl q).active h q.lanes = (s.fl q).active h q.lanes := by
    rw [fl_advance i hf]; rfl
  obtain ⟨t, e, hq, hs⟩ := issue_setFl (body := pOp h d F) _ hi rfl
  simp only [hact] at hs
  refine ⟨t, e, hq, ?_, pc_goes ?_ hs, ?_, ?_, ?_⟩
  · rw [hs]; unfold Flock.setP; split <;> rfl
  · unfold Flock.setP; split <;> rfl
  · intro l; simp [Flock.getP]
  · intro n hn l hl
    rw [hs]
    show (Flock.setP _ _ _ _).getP n l = _
    rw [getP_setP _ _ _ _ _ _ hl]
    by_cases hnd : n = d
    · subst hnd
      simp only [true_and, ne_eq, hn, not_false_eq_true, if_true, Option.getD_some]
      show (if act s q h l = true then _ else _) = _
      split
      · rename_i ha; exact hF l hl ha
      · rfl
    · simp only [hnd, false_and, if_false, Option.getD_none]
      split <;> rfl
  · have : orFlags ((s.fl q).active h q.lanes) (fun _ => 0) = 0 := orFlags_zero _
    rw [this, hs]
    have e0 : (s.fl q).fflags ||| 0 = (s.fl q).fflags := BitVec.or_zero
    rw [e0]
    unfold Flock.setP; split <;> rfl

/-! ### Kind S -/

/-- A uniform instruction that writes one register. -/
theorem issue_sOp {s : State} {q : Iss} {i : Instr} {h : UHdr} {d : Nat} {F : State → Iss → Word} {x : Word}
    (hi : issues s q i = true) (hF : F (s.advance q i) q = x) :
    ∃ t, issue i (sOp h d F) s = .next t ∧
      ResultS s t q i (guardOk s q h) (fun n => if n = d then some x else none) fun _ => none := by
  obtain ⟨-, -, hf, ht⟩ := issues_iff hi
  have hfa := fl_advance i hf
  have hgu : ((s.advance q i).fl q).guardK h.k h.kn = guardOk s q h := by rw [hfa]; rfl
  by_cases hg : guardOk s q h = true
  · have hb : sOp h d F q (s.advance q i) = .ok ((s.advance q i).setFl q fun fl => fl.setS d x, 0) := by
      simp only [sOp, uOp, hgu, hg, if_true, hF]
    obtain ⟨t, e, hq, hs⟩ := issue_setFl (fun fl => fl.setS d x) hi hb
    refine ⟨t, e, hq, by rw [hs]; rfl, fun hb => by
        rw [hs]; show kdel (s.fl q).bad (80 + d) = []; rw [hb]; rfl,
      pc_goes (fl := ((s.fl q).movePc q.lanes fun _ => nextPc q i).setS d x) rfl hs, ?_,
      by simp [Flock.getK], ?_⟩
    · intro n
      rw [hs]
      show (Flock.setS _ _ _).getS n = _
      rw [getS_setS, hg]
      by_cases hn : n = d <;> simp [hn] <;> rfl
    · intro n _ _
      rw [hs, hg]; rfl
  · have hb : sOp h d F q (s.advance q i) = .ok (s.advance q i, 0) := by
      simp only [sOp, uOp, hgu, hg, Bool.false_eq_true, if_false]
    obtain ⟨t, e, hq, hs⟩ := issue_leaves hi hb (turnOk_advance ht) (some_advance i hf)
    rw [hfa] at hs
    have hgf : guardOk s q h = false := by simpa using hg
    rw [hgf]
    refine ⟨t, e, (quiet_setFl s q _).trans hq, by rw [hs]; rfl, fun hb => by rw [hs]; exact hb,
      pc_goes rfl hs, ?_, by simp [Flock.getK], ?_⟩
    · intro n; rw [hs]; rfl
    · intro n _ _; rw [hs]; rfl

/-! ### Kind D -/

theorem kget_map_lanes {α : Type} (x : Nat → α) (ls : List Nat) (l : Nat) :
    kget (ls.map fun l => (l, x l)) l = if l ∈ ls then some (x l) else none := by
  induction ls with
  | nil => rfl
  | cons a ls ih =>
    simp only [List.map_cons, kget, ih, List.mem_cons]
    by_cases h : a = l
    · subst h; simp
    · simp [h, Ne.symm h]

/-- A state in which only the operations differ is quiet up to them. -/
theorem quiet_ops {s u : State} {q : Iss} (o : SMap MemOp) (n : Nat) (h : Quiet s u q) :
    Quiet { s with ops := o, nextId := n } { u with ops := o, nextId := n } q where
  rest := by rw [h.rest]
  bytes := h.bytes
  folds := h.folds
  fold := h.fold
  flocks := h.flocks
  cores := h.cores
  slots := h.slots
  away := h.away

/-- A deferred instruction in a band with an Active lane, where no lane traps. -/
theorem issue_dOp {s : State} {q : Iss} {i : Instr} {h : LHdr} {d : Nat}
    {F : State → Iss → Nat → WF} {f : Nat → Word} {g : Nat → Flg} (hi : issues s q i = true)
    (hF : ∀ l < 32, act s q h l = true → F (s.advance q i) q l = (f l, g l))
    (hg : trapLanes (s.fl q) ((s.fl q).active h q.lanes) g = 0) :
    ∃ t, issue i (dOp h d F) s = .next t ∧ ResultD s t q i h d f g := by
  obtain ⟨-, -, hf, htn⟩ := issues_iff hi
  have hfa := fl_advance i hf
  have hact : ((s.advance q i).fl q).active h q.lanes = (s.fl q).active h q.lanes := by rw [hfa]; rfl
  generalize hA : (s.fl q).active h q.lanes = A at *
  have hl : ∀ l, act s q h l = A.getLsbD l := by intro l; unfold act; rw [hA]
  have hcon : ∀ l < 32, A.getLsbD l = true → resF (laneRes A (F (s.advance q i) q)) l = g l := by
    intro l h32 ha
    rw [resF_laneRes _ _ _ h32 ha, hF l h32 (by rw [hl]; exact ha)]
  have ht0 : trapLanes ((s.advance q i).fl q) A (resF (laneRes A (F (s.advance q i) q))) = 0 := by
    rw [hfa, trapLanes_congr _ hcon]; exact hg
  obtain ⟨f1, f2, f3, f4⟩ := flags_parts (s.advance q i) q (orFlags A g) (some_advance i hf)
    (turnOk_advance htn)
  by_cases h0 : A = 0
  · have hb : dOp h d F q (s.advance q i) = .ok (s.advance q i, 0) := by
      simp only [dOp, hact, ht0, ne_eq, not_true_eq_false, if_false]
      rw [if_pos h0]
    obtain ⟨t, e, hq, hs⟩ := issue_leaves hi hb (turnOk_advance htn) (some_advance i hf)
    rw [hfa] at hs
    refine ⟨t, e, pc_goes rfl hs, fun _ => ⟨(quiet_setFl s q _).trans hq, by rw [hs]; rfl⟩, fun hn => ?_⟩
    rw [hA] at hn; exact absurd h0 hn
  · have hb : dOp h d F q (s.advance q i) =
        .ok ((((s.advance q i).flags q (orFlags A g)).setFl q fun fl =>
          { fl with pendV := pendSet fl.pendV d }).addOp
          { memOpOf q .arith with
            dst := d, nreg := 1, counts := true
            res := (lanesOf A).map fun l => (l, [resW (laneRes A (F (s.advance q i) q)) l]) }, 0) := by
      simp only [dOp, hact, ht0, ne_eq, not_true_eq_false, if_false, orFlags_congr hcon]
      rw [if_neg h0]
    obtain ⟨u1, hu1⟩ : ∃ u, u = ((s.advance q i).flags q (orFlags A g)).setFl q fun fl =>
        { fl with pendV := pendSet fl.pendV d } := ⟨_, rfl⟩
    have e1 : u1.fl q = { ((s.fl q).movePc q.lanes fun _ => nextPc q i) with
        fflags := (s.fl q).fflags ||| orFlags A g, pendV := pendSet (s.fl q).pendV d } := by
      rw [hu1, fl_setFl _ f4, f2, hfa]; rfl
    have hqq : Quiet s u1 q := by
      rw [hu1]; exact ((quiet_setFl s q _).trans f1).trans (quiet_setFl _ q _)
    have hn : u1.nextId = s.nextId := by rw [hqq.rest]
    have ho : u1.ops = s.ops := by rw [hqq.rest]
    have t1 : TurnOk u1 q := by rw [hu1]; exact turnOk_setFl _ f3
    have s1 : (u1.flock? q.fold q.flock).isSome = true := by rw [hu1]; exact some_setFl _ f4
    rw [← hu1] at hb
    obtain ⟨m, hm⟩ : ∃ m : MemOp, m = { memOpOf q .arith with
        dst := d, nreg := 1, counts := true
        res := (lanesOf A).map fun l => (l, [resW (laneRes A (F (s.advance q i) q)) l]) }.issuedIn u1 :=
      ⟨_, rfl⟩
    have hb : dOp h d F q (s.advance q i) =
        .ok ({ u1 with ops := kset s.ops s.nextId m, nextId := s.nextId + 1 }, 0) := by
      rw [hb, hm, ← ho, ← hn]; rfl
    obtain ⟨t, e, hq, hs⟩ := issue_leaves hi hb t1 s1
    have hs' : SameFlock (u1.fl q) (t.fl q) := hs
    rw [e1] at hs'
    have hto : t.ops = kset s.ops s.nextId m := by rw [hq.rest]
    have hgo : GoesOn s t q i := by refine pc_goes ?_ hs'; rfl
    refine ⟨t, e, hgo, fun hz => absurd (hA ▸ hz) h0, fun _ => ⟨?_, ?_, ?_, ?_⟩⟩
    · rw [hto]; exact (quiet_ops _ _ hqq).trans hq
    · intro n hne
      rw [hto, kget_kset_ne _ _ hne]
    · rw [hA, hs']; rfl
    · refine ⟨m, by rw [hto, kget_kset_self], ?_⟩
      subst hm
      refine ⟨rfl, rfl, rfl, rfl, rfl, rfl, rfl, rfl, ?_⟩
      intro l h32
      show kget ((lanesOf A).map fun l => (l, [resW (laneRes A (F (s.advance q i) q)) l])) l = _
      rw [kget_map_lanes (fun l => [resW (laneRes A (F (s.advance q i) q)) l]), hl]
      by_cases ha : A.getLsbD l = true
      · rw [if_pos ((mem_lanesOf A l).2 ⟨h32, ha⟩), if_pos ha, resW_laneRes _ _ _ h32 ha,
          hF l h32 (by rw [hl]; exact ha)]
      · rw [if_neg (fun hm => ha ((mem_lanesOf A l).1 hm).2), if_neg ha]

end Sys2Proof.Machine
end

