-- ==== Sys2Proof/Laws/Advance.lean ====
section
/-! SUPPORT. An instruction's own part reads its operands after its lanes have moved on (`advance`): every
reader of operands and of the device answers there what it answers before. -/
namespace Sys2Proof.Machine

theorem length_lmod {α : Type} (l : List α) (i : Nat) (f : α → α) : (lmod l i f).length = l.length := by
  unfold lmod; split <;> simp

theorem fo_advance (s : State) (q : Iss) (i : Instr) :
    (s.advance q i).fo q = { s.fo q with flocks := ((s.advance q i).fo q).flocks } :=
  fo_modFlock s q q.fold q.flock _

theorem length_fo_advance (s : State) (q : Iss) (i : Instr) :
    ((s.advance q i).fo q).flocks.length = (s.fo q).flocks.length := by
  simp only [State.fo, State.advance, State.setFl, State.modFlock, kget_modFold, if_true]
  cases kget s.folds q.fold <;> simp [length_lmod]

theorem advance_eq (s : State) (q : Iss) (i : Instr) :
    s.advance q i = { s with folds := (s.advance q i).folds } := rfl

theorem getS_advance {s : State} {q : Iss} (i : Instr) (n : Nat) (h : (s.flock? q.fold q.flock).isSome = true) :
    ((s.advance q i).fl q).getS n = (s.fl q).getS n := by rw [fl_advance i h]; rfl

theorem uni_advance {s : State} {q : Iss} (i : Instr) (lit : Word) (x : USrc)
    (h : (s.flock? q.fold q.flock).isSome = true) : (s.advance q i).uni q lit x = s.uni q lit x := by
  cases x with
  | s n => exact getS_advance i n h
  | foldidx => simp only [State.uni]; rw [fo_advance]
  | flocks => simp only [State.uni]; rw [length_fo_advance]
  | depth => simp only [State.uni]; rw [fo_advance]; rfl
  | _ => rfl

theorem param_advance {s : State} {q : Iss} (i : Instr) (p : Param)
    (h : (s.flock? q.fold q.flock).isSome = true) : (s.advance q i).param q p = s.param q p := by
  cases p with
  | word w => rfl
  | sub u => exact uni_advance i 0 u h

theorem pnat_advance {s : State} {q : Iss} (i : Instr) (p : Param)
    (h : (s.flock? q.fold q.flock).isSome = true) : (s.advance q i).pnat q p = ueP s q p := by
  simp only [State.pnat, ueP, param_advance i p h]

theorem guardK_advance {s : State} {q : Iss} (i : Instr) (k : Nat) (kn : Bool)
    (h : (s.flock? q.fold q.flock).isSome = true) :
    ((s.advance q i).fl q).guardK k kn = (s.fl q).guardK k kn := by rw [fl_advance i h]; rfl

theorem noteBad_advance (s : State) (q : Iss) (i : Instr) (w : Nat) :
    (s.advance q i).noteBad ((s.advance q i).fo q) w = s.noteBad (s.fo q) w := by rw [fo_advance]; rfl
theorem notePlace_advance (s : State) (q : Iss) (i : Instr) (w : Nat) :
    (s.advance q i).notePlace ((s.advance q i).fo q) w = s.notePlace (s.fo q) w := by rw [fo_advance]; rfl
theorem commonsBad_advance (s : State) (q : Iss) (i : Instr) (w : Nat) :
    (s.advance q i).commonsBad ((s.advance q i).fo q) w = s.commonsBad (s.fo q) w := by rw [fo_advance]; rfl
theorem windowBad_advance (s : State) (q : Iss) (i : Instr) (w : Nat) :
    (s.advance q i).windowBad ((s.advance q i).fo q) w = s.windowBad (s.fo q) w := by rw [fo_advance]; rfl
theorem cmPlace_advance (s : State) (q : Iss) (i : Instr) (w : Nat) :
    (s.advance q i).cmPlace ((s.advance q i).fo q) w = s.cmPlace (s.fo q) w := by rw [fo_advance]; rfl

end Sys2Proof.Machine
end

