-- ==== Sys2Proof/Laws/Memory.lean ====
section
/-! SUPPORT. Memory: reading after a write, and the canonical form that every memory operation keeps. -/
namespace Sys2Proof.Machine

/-- Every listed address lies above `a`. -/
def Memory.above (m : Memory) (a : Nat) : Prop := ∀ c ∈ m, a < c.1

theorem Memory.wf_cons (a : Nat) (v : Byte) (m : Memory) :
    Memory.wf ((a, v) :: m) = true ↔ v ≠ memDefault ∧ Memory.above m a ∧ Memory.wf m = true := by
  induction m generalizing a v with
  | nil => simp [Memory.wf, Memory.above]
  | cons e m ih =>
    obtain ⟨b, w⟩ := e
    simp only [Memory.wf, Bool.and_eq_true, bne_iff_ne, ne_eq, decide_eq_true_eq]
    constructor
    · rintro ⟨⟨h1, h2⟩, h3⟩
      refine ⟨h1, ?_, h3⟩
      intro c hc
      rcases List.mem_cons.1 hc with h | h
      · subst h; exact h2
      · exact Nat.lt_trans h2 (((ih b w).1 h3).2.1 c h)
    · rintro ⟨h1, h2, h3⟩
      exact ⟨⟨h1, h2 (b, w) (by simp)⟩, h3⟩

theorem Memory.above_memSet {m : Memory} {x a : Nat} (b : Byte) (h : Memory.above m x) (hx : x < a) :
    Memory.above (memSet m a b) x := by
  induction m with
  | nil =>
    intro c hc
    simp only [memSet] at hc
    split at hc
    · simp at hc
    · simp only [List.mem_singleton] at hc; subst hc; exact hx
  | cons e m ih =>
    obtain ⟨k, v⟩ := e
    have hm : Memory.above m x := fun c hc => h c (List.mem_cons_of_mem _ hc)
    have hk : x < k := h (k, v) (by simp)
    intro c hc
    simp only [memSet] at hc
    split at hc
    · split at hc
      · exact h c hc
      · rcases List.mem_cons.1 hc with h' | h'
        · subst h'; exact hx
        · exact h c h'
    · split at hc
      · split at hc
        · exact hm c hc
        · rcases List.mem_cons.1 hc with h' | h'
          · subst h'; exact hx
          · exact hm c h'
      · rcases List.mem_cons.1 hc with h' | h'
        · subst h'; exact hk
        · exact ih hm c h'

/-- Writing a byte keeps the canonical form. -/
theorem memSet_wf (m : Memory) (a : Nat) (b : Byte) (h : Memory.wf m = true) :
    Memory.wf (memSet m a b) = true := by
  induction m with
  | nil =>
    simp only [memSet]
    split
    · rfl
    · simpa [Memory.wf] using ‹_›
  | cons e m ih =>
    obtain ⟨k, v⟩ := e
    obtain ⟨hv, ha, hm⟩ := (Memory.wf_cons k v m).1 h
    simp only [memSet]
    split
    · split
      · exact h
      · refine (Memory.wf_cons _ _ _).2 ⟨‹_›, ?_, h⟩
        intro c hc
        rcases List.mem_cons.1 hc with h' | h'
        · subst h'; assumption
        · exact Nat.lt_trans ‹_› (ha c h')
    · split
      · split
        · exact hm
        · subst_vars; exact (Memory.wf_cons _ _ _).2 ⟨‹_›, ha, hm⟩
      · exact (Memory.wf_cons _ _ _).2 ⟨hv, Memory.above_memSet b ha (by omega), ih hm⟩

theorem memGet_above {m : Memory} {a : Nat} (h : Memory.above m a) : memGet m a = memDefault := by
  induction m with
  | nil => rfl
  | cons e m ih =>
    obtain ⟨k, v⟩ := e
    have := h (k, v) (by simp)
    simp only [memGet]
    rw [if_neg (by simp at this; omega)]
    exact ih fun c hc => h c (List.mem_cons_of_mem _ hc)

theorem memGet_cons (k : Nat) (v : Byte) (m : Memory) (x : Nat) :
    memGet ((k, v) :: m) x = if k = x then v else memGet m x := rfl

/-- Reading a byte after one was written, in a memory in canonical form. -/
theorem memGet_memSet (m : Memory) (a x : Nat) (b : Byte) (h : Memory.wf m = true) :
    memGet (memSet m a b) x = if x = a then b else memGet m x := by
  induction m with
  | nil =>
    simp only [memSet]
    by_cases hb : b = memDefault
    · rw [if_pos hb, hb]; split <;> rfl
    · rw [if_neg hb, memGet_cons]
      by_cases hx : x = a
      · rw [if_pos hx, if_pos hx.symm]
      · rw [if_neg hx, if_neg (Ne.symm hx)]
  | cons e m ih =>
    obtain ⟨k, v⟩ := e
    obtain ⟨hv, ha, hm⟩ := (Memory.wf_cons k v m).1 h
    simp only [memSet]
    by_cases hak : a < k
    · have hab : Memory.above ((k, v) :: m) a := by
        intro c hc
        rcases List.mem_cons.1 hc with h' | h'
        · subst h'; exact hak
        · exact Nat.lt_trans hak (ha c h')
      rw [if_pos hak]
      by_cases hb : b = memDefault
      · rw [if_pos hb]
        by_cases hx : x = a
        · rw [if_pos hx, hx, hb]; exact memGet_above hab
        · rw [if_neg hx]
      · rw [if_neg hb, memGet_cons]
        by_cases hx : x = a
        · rw [if_pos hx, if_pos hx.symm]
        · rw [if_neg hx, if_neg (Ne.symm hx)]
    · rw [if_neg hak]
      by_cases hk : a = k
      · subst hk
        rw [if_pos rfl]
        by_cases hb : b = memDefault
        · rw [if_pos hb]
          by_cases hx : x = a
          · rw [if_pos hx, hx, hb]; exact memGet_above ha
          · rw [if_neg hx, memGet_cons, if_neg (Ne.symm hx)]
        · rw [if_neg hb, memGet_cons, memGet_cons]
          by_cases hx : x = a
          · rw [if_pos hx, if_pos hx.symm]
          · rw [if_neg hx, if_neg (Ne.symm hx), if_neg (Ne.symm hx)]
      · rw [if_neg hk, memGet_cons, memGet_cons, ih hm]
        by_cases hx : k = x
        · rw [if_pos hx, if_pos hx, if_neg (by omega)]
        · rw [if_neg hx, if_neg hx]

/-- Writing bytes keeps the canonical form. -/
theorem memWrite_wf (bs : List Byte) (m : Memory) (a : Nat) (h : Memory.wf m = true) :
    Memory.wf (memWrite m a bs) = true := by
  induction bs generalizing m a with
  | nil => exact h
  | cons b bs ih => exact ih _ _ (memSet_wf m a b h)

/-- Reading a byte after bytes were written. -/
theorem memGet_memWrite (bs : List Byte) (m : Memory) (a x : Nat) (h : Memory.wf m = true) :
    memGet (memWrite m a bs) x = if a ≤ x ∧ x < a + bs.length then bs.getD (x - a) 0 else memGet m x := by
  induction bs generalizing m a with
  | nil => rw [if_neg (by simp)]; rfl
  | cons b bs ih =>
    rw [memWrite, ih _ _ (memSet_wf m a b h), memGet_memSet m a x b h]
    simp only [List.length_cons]
    by_cases h1 : x = a
    · subst h1; rw [if_neg (by omega), if_pos rfl, if_pos (by omega)]; simp
    · by_cases h2 : a + 1 ≤ x ∧ x < a + 1 + bs.length
      · have : x - a = (x - (a + 1)) + 1 := by omega
        rw [if_pos h2, if_pos (by omega), this]; simp
      · rw [if_neg h2, if_neg h1, if_neg (by omega)]

theorem Memory.wf_filter (p : Host.Cell → Bool) (m : Memory) (h : Memory.wf m = true) :
    Memory.wf (List.filter p m : Memory) = true := by
  induction m with
  | nil => exact h
  | cons e m ih =>
    obtain ⟨k, v⟩ := e
    obtain ⟨hv, ha, hm⟩ := (Memory.wf_cons k v m).1 h
    rw [List.filter_cons]
    split
    · exact (Memory.wf_cons _ _ _).2 ⟨hv, fun c hc => ha c (List.mem_filter.1 hc).1, ih hm⟩
    · exact ih hm

end Sys2Proof.Machine
end

