-- ==== Sys2Proof/Laws/Effects.lean ====
section
/-! SUPPORT. What the shared operations of the cache, the scratchpad and the fabric can change: one lemma each. -/
namespace Sys2Proof.Machine

/-- Bad words that leave with their lines change the list of bad words alone. -/
theorem dropStruck_eq (s : State) : s.dropStruck = { s with upsets := s.dropStruck.upsets } := by
  unfold State.dropStruck
  split <;> rfl

/-- Errors that blocks have yielded change the dies alone. -/
theorem yieldErrors_eq (s : State) (a n : Nat) : s.yieldErrors a n = { s with dies := (s.yieldErrors a n).dies } := by
  unfold State.yieldErrors
  simp only
  split <;> rfl

/-- An access that passes the cache changes the cache, its counters, what is charged and the errors and records of
write-backs alone: no byte of memory (R253). -/
theorem cached_eq (s : State) (p : Nat) (k : Keep) (wr : Bool) (slot a n : Nat) :
    s.cached p k wr slot a n = { s with
      free := (s.cached p k wr slot a n).free, counters := (s.cached p k wr slot a n).counters
      pads := (s.cached p k wr slot a n).pads, dies := (s.cached p k wr slot a n).dies
      pages := (s.cached p k wr slot a n).pages, upsets := (s.cached p k wr slot a n).upsets } := by
  unfold State.cached
  split
  · rfl
  · rw [dropStruck_eq]
    cases wr
    · rw [yieldErrors_eq]; rfl
    · rfl

theorem mem_cached (s : State) (p : Nat) (k : Keep) (wr : Bool) (slot a n : Nat) :
    (s.cached p k wr slot a n).mem = s.mem := by rw [cached_eq]

/-- The walk of a stage-2 address, and that of an access, change no byte of memory. -/
theorem mem_passTables (s : State) (p : Nat) (es : List (Nat × Nat)) : (s.passTables p es).mem = s.mem := by
  unfold State.passTables
  induction es generalizing s with
  | nil => rfl
  | cons e es ih => rw [List.foldl_cons, ih, mem_cached]

theorem mem_walked2 (s : State) (p vd gpa : Nat) : (s.walked2 p vd gpa).mem = s.mem := mem_passTables ..

theorem mem_walked (s : State) (p vd va : Nat) (wr : Bool) : (s.walked p vd va wr).mem = s.mem := by
  unfold State.walked
  split
  · rfl
  · have h : (match s.walk1 vd va wr with
        | .error _ => s.passTables p (s.places1 vd va)
        | .ok gpa => (s.passTables p (s.places1 vd va)).walked2 p vd gpa).mem = s.mem := by
      split
      · exact mem_passTables ..
      · exact (mem_walked2 ..).trans (mem_passTables ..)
    simp only
    split
    · split
      · split
        · exact (mem_walked2 ..).trans h
        · exact h
      · exact h
    · exact h

/-- A packet that a port takes changes the outbox alone, and is its last entry; one that no port takes changes
nothing. -/
theorem packet_eq {s : State} {dest : Nat} (kind : Nat) (ws : List Word) (h : s.leaves dest = true) :
    s.packet dest kind ws = { s with outbox := s.outbox ++ [(dest, wd kind :: ws)] } := if_pos h
theorem packet_none {s : State} {dest : Nat} (kind : Nat) (ws : List Word) (h : s.leaves dest = false) :
    s.packet dest kind ws = s := if_neg (by simp [h])

theorem mem_packet (s : State) (dest kind : Nat) (ws : List Word) : (s.packet dest kind ws).mem = s.mem := by
  unfold State.packet; split <;> rfl

/-- Bytes written through a segment map change memory alone. -/
theorem segWrite_eq (s : State) (core : Nat) (segs : List Nat) (a : Nat) (bs : List Byte) :
    s.segWrite core segs a bs = { s with mem := (s.segWrite core segs a bs).mem } := by
  induction bs generalizing s a with
  | nil => rfl
  | cons b bs ih => rw [State.segWrite, ih]

/-- With the errors of the words that they cover, memory and those errors alone. -/
theorem segPut_eq (s : State) (core : Nat) (segs : List Nat) (a : Nat) (bs : List Byte) :
    s.segPut core segs a bs =
      { s with mem := (s.segPut core segs a bs).mem, upsets := (s.segPut core segs a bs).upsets } := by
  unfold State.segPut
  rw [segWrite_eq]

theorem wf_segPut {s : State} (core : Nat) (segs : List Nat) (a : Nat) (bs : List Byte) (h : Memory.wf s.mem = true) :
    Memory.wf (s.segPut core segs a bs).mem = true := by
  have : ∀ (bs : List Byte) (s : State) (a : Nat), Memory.wf s.mem = true → Memory.wf (s.segWrite core segs a bs).mem = true := by
    intro bs
    induction bs with
    | nil => intro s a h; exact h
    | cons b bs ih => intro s a h; exact ih _ _ (memSet_wf _ _ _ h)
  exact this bs s a h

/-- A read by a copy leaves every byte as it is. -/
theorem mem_readPiece (s : State) (k : Keep) (pad vd : Nat) (p : Nat × Nat) :
    (s.readPiece k pad vd p).2.mem = s.mem := by
  have hf : ∀ (n : Nat) (s : State), (s.freeBytes n).2.mem = s.mem := by
    intro n
    induction n with
    | zero => intro s; rfl
    | succ n ih => intro s; exact (ih _).trans rfl
  unfold State.readPiece
  simp only
  split
  · exact (mem_cached ..).trans (mem_walked ..)
  · exact (hf _ _).trans ((mem_packet ..).trans (mem_walked ..))
  · exact mem_walked ..

end Sys2Proof.Machine
end

