-- ==== Sys2Proof/Laws/Priv.lean ====
section
/-! SUPPORT. The one lemma for privileged instructions that submit an operation to their unit
(`issue_priv`), with what `putOp` does for an entry that has nothing to perform. -/
namespace Sys2Proof.Machine

theorem kget_filter {α : Type} {m : SMap α} {n : Nat} {x : α} {p : Nat × α → Bool} (h : kget m n = some x)
    (hp : p (n, x) = true) : kget (m.filter p) n = some x := by
  induction m with
  | nil => cases h
  | cons e m ih =>
    obtain ⟨k, v⟩ := e
    simp only [kget] at h
    split at h
    · subst_vars; cases h; simp [hp, kget]
    · simp only [List.filter_cons]
      split
      · simp only [kget, if_neg ‹¬k = n›]; exact ih h
      · exact ih h

/-- An entry that counts as outstanding and has no access joins the pool; entries that are done leave it. -/
theorem putOp_idle (u : State) (q : Iss) (o : MemOp) (h1 : o.sp = false)
    (h3 : ∀ a b, o.kind ≠ .fence a b) (h5 : ∀ n, o.kind ≠ .flushed n) (h4 : o.counts = true) :
    ∃ ops e, u.putOp q o = { u with ops := ops, nextId := u.nextId + 1 } ∧ kget ops u.nextId = some e ∧
      e = { o with cyc := e.cyc, frel := e.frel, held := e.held, alu := e.alu }.issuedIn u := by
  obtain ⟨e, he⟩ : ∃ e : MemOp, e = { o with
      cyc := u.cycleBase q, frel := (u.fl q).fenced, alu := u.bankAlu q o
      held := ((o.todo.map Prod.fst).filter fun l =>
        u.heldLane u.nextId { o with cyc := u.cycleBase q, frel := (u.fl q).fenced, alu := u.bankAlu q o }
          l).map fun l => (l, true) }.issuedIn u := ⟨_, rfl⟩
  have hd : State.drainOne { u with ops := kset u.ops u.nextId e, nextId := u.nextId + 1 } u.nextId =
      { u with ops := kset u.ops u.nextId e, nextId := u.nextId + 1 } := by
    simp only [State.drainOne, kget_kset_self]
    have hk : e.kind = o.kind := by rw [he]; rfl
    have hs : e.sp = false := by rw [he]; exact h1
    rw [hk]
    split
    · exact absurd ‹_› (h3 _ _)
    · exact absurd ‹_› (h5 _)
    · simp [hs]
  refine ⟨(kset u.ops u.nextId e).filter fun e => !(e.2.todo.isEmpty && !e.2.counts && !e.2.failed), e, ?_, ?_, ?_⟩
  · have : u.putOp q o = (State.drainOne { u with ops := kset u.ops u.nextId e, nextId := u.nextId + 1 }
        u.nextId).sweep := by rw [he]; rfl
    rw [this, hd]; rfl
  · refine kget_filter (kget_kset_self ..) ?_
    rw [he]; simp [MemOp.issuedIn, h4]
  · rw [he]; rfl

/-- What `startPriv` leaves: the operation under the next number, and where it counts an entry of the pool
under the same number. -/
theorem startPriv_eq (u : State) (q : Iss) (counts : Bool) (o : PrivOp) :
    ∃ ops, u.startPriv q counts o =
      { u with
        privs := kset u.privs u.nextId (o.issuedBy q u), ops := ops, nextId := u.nextId + 1 } ∧
      if counts then ∃ e, kget ops u.nextId = some e ∧ e.kind = .priv ∧ e.counts = true ∧ e.fold = q.fold ∧
        e.flock = q.flock else ops = u.ops := by
  cases counts with
  | false => exact ⟨u.ops, rfl, rfl⟩
  | true =>
    obtain ⟨ops, e, h1, h2, h3⟩ := putOp_idle
      { u with privs := kset u.privs u.nextId (o.issuedBy q u) } q
      { memOpOf q .priv with counts := true, uni := true } rfl (by intros; simp [memOpOf])
      (by intros; simp [memOpOf]) rfl
    exact ⟨ops, h1, e, h2, by rw [h3]; rfl, by rw [h3]; rfl, by rw [h3]; rfl, by rw [h3]; rfl⟩

/-- Moving past an instruction changes nothing of what an operation keeps of its issuer. -/
theorem issuedBy_advance (o : PrivOp) {u : State} {q : Iss} (i : Instr)
    (h : (u.flock? q.fold q.flock).isSome = true) : o.issuedBy q (u.advance q i) = o.issuedBy q u := by
  unfold PrivOp.issuedBy
  rw [fl_advance i h]
  have e : (u.advance q i).fo q = { u.fo q with flocks := ((u.advance q i).fo q).flocks } :=
    fo_modFlock u q q.fold q.flock _
  rw [e]
  rfl

theorem quiet_add {s u : State} {q : Iss} (p : SMap PrivOp) (o : SMap MemOp) (n : Nat) (h : Quiet s u q) :
    Quiet { s with privs := p, ops := o, nextId := n } { u with privs := p, ops := o, nextId := n } q where
  rest := by rw [h.rest]
  bytes := h.bytes
  folds := h.folds
  fold := h.fold
  flocks := h.flocks
  cores := h.cores
  slots := h.slots
  away := h.away

/-- A privileged instruction whose own part submits `o` to its unit, beside `u`. -/
theorem issue_priv {s u : State} {q : Iss} {i : Instr} {body : Iss → State → Eff} {counts : Bool} {o : PrivOp}
    (h : issues s q i = true)
    (hb : body q (s.advance q i) = .ok ((u.advance q i).startPriv q counts o, 0)) (hf : u.folds = s.folds)
    (hc : u.cores = s.cores) : ∃ t, issue i body s = .next t ∧ Submits u t q i o counts := by
  obtain ⟨-, -, hs, ht⟩ := issues_iff h
  have hs' : (u.flock? q.fold q.flock).isSome = true := by
    simp only [State.flock?, hf] at hs ⊢; exact hs
  have ht' : TurnOk u q := by
    obtain ⟨t, h1, h2⟩ := ht
    exact ⟨t, by simpa only [State.stageOf, State.core, hc] using h1, h2⟩
  obtain ⟨ops, he, hk⟩ := startPriv_eq (u.advance q i) q counts o
  rw [he, issuedBy_advance o i hs'] at hb
  obtain ⟨t, e, hq, hsf⟩ := issue_leaves h hb ht' (some_advance i hs')
  refine ⟨t, e, ?_, ?_, ?_, ?_⟩
  · have hto : t.ops = ops := by rw [hq.rest]
    rw [hto]
    exact (quiet_add _ _ _ (quiet_setFl u q fun fl => fl.movePc q.lanes fun _ => nextPc q i)).trans hq
  · have h2 : SameFlock ((u.advance q i).fl q) (t.fl q) := hsf
    rw [fl_advance i hs'] at h2
    rw [h2]; rfl
  · have h2 : SameFlock ((u.advance q i).fl q) (t.fl q) := hsf
    rw [fl_advance i hs'] at h2
    exact pc_goes rfl h2
  · have hto : t.ops = ops := by rw [hq.rest]
    rw [hto]
    exact hk

end Sys2Proof.Machine
end

