-- ==== Sys2Proof/Laws/Step.lean ====
section
/-! SUPPORT. What one step can do, what waits for crooks that run, and what a release that owes changes. -/
namespace Sys2Proof.Machine

/-- A move beside crooks that run gives what it would give without them, or is not made (R382). -/
theorem keepCrooks_cases (s : State) (o : Host.Outcome State Fault Refusal) :
    s.keepCrooks o = o ∨ s.keepCrooks o = .next s := by
  unfold State.keepCrooks
  split
  · exact .inl rfl
  · split
    · split
      · exact .inl rfl
      · exact .inr rfl
    · exact .inl rfl

/-- With no crook running nothing is held back. -/
theorem keepCrooks_idle {s : State} (h : s.crooks = []) (o : Host.Outcome State Fault Refusal) : s.keepCrooks o = o := by
  simp [State.keepCrooks, h]

/-- A step with an empty schedule changes nothing. -/
theorem step_idle {s : State} (h : s.agenda = []) : step s = .next s := by simp [step, h]

/-- A step makes the next move of the schedule, or drops it. -/
theorem step_cases {s : State} {mv : Move} {rest : List Move} (h : s.agenda = mv :: rest) :
    step s = State.makeMove { s with agenda := rest } mv ∨ step s = .next { s with agenda := rest } := by
  simp only [step, h]
  split
  · exact .inr rfl
  · split
    · exact .inl rfl
    · exact keepCrooks_cases _ _

/-- The next move is made as it stands where the device makes it and no crook runs. -/
theorem step_move {s : State} {mv : Move} {rest : List Move} (h : s.agenda = mv :: rest)
    (hm : State.moves { s with agenda := rest } mv = true) (hc : State.crooks { s with agenda := rest } = []) :
    step s = State.makeMove { s with agenda := rest } mv := by
  simp only [step, h, hm, Bool.not_true, Bool.false_eq_true, if_false, keepCrooks_idle hc, ite_self]

/-- A release that is performed marks accesses under way, and changes nothing else (R225). -/
theorem owe_eq (s : State) (fold flock below l : Nat) :
    s.owe fold flock below l = { s with ops := (s.owe fold flock below l).ops } := rfl
theorem owe_mem (s : State) (fold flock below l : Nat) : (s.owe fold flock below l).mem = s.mem := rfl
/-- It adds no operation and takes none away. -/
theorem owe_ids (s : State) (fold flock below l : Nat) :
    (s.owe fold flock below l).ops.map Prod.fst = s.ops.map Prod.fst := by
  simp [State.owe, List.map_map, Function.comp_def]

end Sys2Proof.Machine
end

