-- ==== Sys2Proof/Tests/Slice0.lean ====
section
/-! SUPPORT. Ill-formed terms that the checks refuse, words written out from the spec's encodings, and
small states that meet the hypotheses of each statement. Every check evaluates in the kernel. -/
open Sys2Proof Sys2Proof.Machine
namespace Sys2Proof.Tests
set_option Elab.async false

/-- Plain headers of lane, uniform and engine instructions. -/
def lh : LHdr := { e := false, x := false, g := 0, gn := false, ha := false, hb := false, hc := false, lit := 0 }
def xh : LHdr := { lh with x := true }
def lhE : LHdr := { lh with e := true }
def uh : UHdr := { e := false, k := 0, kn := false, lit := 0 }
def uhE : UHdr := { uh with e := true }
/-- A guard that fails in a fresh flock: k1 reads false. -/
def uhF : UHdr := { uh with k := 1 }
def uhEF : UHdr := { uhE with k := 1 }
def eh (a b c d : Nat) : EHdr :=
  { e := false, lit := 0, p0 := .word (BitVec.ofNat 32 a), p1 := .word (BitVec.ofNat 32 b)
    p2 := .word (BitVec.ofNat 32 c), p3 := .word (BitVec.ofNat 32 d) }
/-- The same with a literal word for A. -/
def ehl (l a b c d : Nat) : EHdr := { eh a b c d with lit := BitVec.ofNat 32 l }
def nomods : FMods := { na := false, nb := false, nc := false, aa := false, ab := false, ftz := false }
def nocc : CmpC := { comb := .none, cn := false, c := 0 }
def noord : MOrder := { ord := .none, scope := .fold, remote := false }

/-! ### Terms that no instruction word holds -/

theorem test_wf_register : (Instr.iadd lh (.v 64) (.v 0) (.v 0)).wf = false := by decide
theorem test_wf_queue_age : (Instr.iadd lh (.v 0) (.q 16) (.v 0)).wf = false := by decide
theorem test_wf_uniform_source : (Instr.iadd lh (.v 0) (.s 32) (.v 0)).wf = false := by decide
theorem test_wf_lane_guard : (Instr.iadd { xh with g := 96 } (.v 0) (.v 0) (.v 0)).wf = false := by decide
theorem test_wf_negated_p0 : (Instr.iadd { xh with gn := true } (.v 0) (.v 0) (.v 0)).wf = false := by decide
theorem test_wf_guard_needs_extension :
    (Instr.iadd { lh with g := 1 } (.v 0) (.v 0) (.v 0)).wf = false := by decide
theorem test_wf_hold_needs_extension :
    (Instr.iadd { lh with ha := true } (.v 0) (.v 0) (.v 0)).wf = false := by decide
theorem test_wf_deferred_register : (Instr.fdiv lh nomods .dflt 64 (.v 0) (.v 0)).wf = false := by decide
theorem test_wf_table : (Instr.lop3 xh 256 (.v 0) (.v 0) (.v 0) (.v 0)).wf = false := by decide
theorem test_wf_lea_shift : (Instr.lea xh 8 (.v 0) (.v 0) (.v 0)).wf = false := by decide
theorem test_wf_slot : (Instr.sqz4 xh .dflt 8 (.v 0) (.v 0) none).wf = false := by decide
theorem test_wf_third_source :
    (Instr.cvt xh .e4m3 .f32 false .sr 0 (.v 0) (.v 0) (some (.v 64))).wf = false := by decide
theorem test_wf_element : (Instr.unpk4 xh .e2m1 8 (.v 0) (.v 0)).wf = false := by decide
theorem test_wf_segment_width : (Instr.shfl xh 6 false (.v 0) (.v 0) (.v 0)).wf = false := by decide
theorem test_wf_predicate : (Instr.elect lh 96).wf = false := by decide
theorem test_wf_predicate_pair :
    (Instr.hcmp2 xh false .eq nocc false 95 (.v 0) (.v 0)).wf = false := by decide
theorem test_wf_combining_predicate :
    (Instr.icmp xh .eq { nocc with comb := .and, c := 96 } 1 (.v 0) (.v 0)).wf = false := by decide
theorem test_wf_window : (Instr.rdx xh 65 (.v 0) 0 (.v 0)).wf = false ∧
    (Instr.wrx xh 0 0 (.v 0) (.v 0)).wf = false := by decide
theorem test_wf_packed_predicates : (Instr.ppack lh (.v 0) 65).wf = false ∧
    (Instr.punpk xh 32 65 (.v 0)).wf = false ∧ (Instr.punpk xh 1 0 (.v 0)).wf = false := by decide
theorem test_wf_stride : (Instr.ldsm xh 9 1 0 (.v 0) (.v 0)).wf = false ∧
    (Instr.stsm xh 1 33 (.v 0) (.v 0) 0).wf = false := by decide
theorem test_wf_lane_branch : (Instr.brl true 0 true 0).wf = false ∧
    (Instr.brl true 1 false 32768).wf = false := by decide
theorem test_wf_crook_number : (Instr.crook xh 16 0 0 (.v 0) (.v 0) (.v 0) (.v 0)).wf = false := by decide
theorem test_wf_uniform_register : (Instr.sadd uh 32 .one .one).wf = false ∧
    (Instr.sadd uh 0 (.s 32) .one).wf = false := by decide
theorem test_wf_uniform_guard : (Instr.sadd { uh with kn := true } 0 .one .one).wf = false ∧
    (Instr.sadd { uh with k := 8 } 0 .one .one).wf = false := by decide
theorem test_wf_uniform_predicate : (Instr.scmp uh false 7 .one .one).wf = false ∧
    (Instr.klop uh 16 1 0 0).wf = false := by decide
theorem test_wf_immediate : (Instr.sli false 0 131072).wf = false := by decide
theorem test_wf_displacement : (Instr.bra true 0 false 524288).wf = false ∧
    (Instr.bra true 0 true 0).wf = false := by decide
theorem test_wf_code : (Instr.trap uhE 64).wf = false := by decide
theorem test_wf_barrier : (Instr.bar uhE 16).wf = false ∧ (Instr.barSw true 16).wf = false := by decide
theorem test_wf_wait_predicate : (Instr.trywait uhE false 0 .zero .one).wf = false := by decide
theorem test_wf_group : (Instr.launch (eh 0 0 0 0) .zero 16).wf = false := by decide
theorem test_wf_copy : (Instr.tcopyLoad (eh 0 0 0 0) ⟨13, 0, 0⟩ .zero).wf = false ∧
    (Instr.tcopyLoad (eh 0 0 0 0) ⟨4, 16, 0⟩ .zero).wf = false ∧
    (Instr.tcopyLoad (eh 0 0 0 0) ⟨4, 0, 3⟩ .zero).wf = false := by decide
theorem test_wf_tile : (Instr.mma (eh 0 0 0 0) .one 4 0).wf = false ∧ (Instr.mzero uh 0).wf = false := by decide
theorem test_wf_special : (Instr.rdsr uh 0 14).wf = false ∧ (Instr.wrsr uh 9 .one).wf = false := by decide
theorem test_wf_parameter :
    (Instr.pkeyGen { eh 0 0 0 0 with p1 := .sub .lit } .one).wf = false := by decide
theorem test_wf_privileged : (Instr.pmap (eh 0 0 0 0) .one 3).wf = false ∧
    (Instr.slice (eh 0 0 0 0) .one 8).wf = false ∧ (Instr.msg (eh 0 0 0 0) .zero 4).wf = false ∧
    (Instr.crkloadEvict (eh 0 0 0 0) .one 16).wf = false ∧
    (Instr.pcfgRd (eh 0 0 0 0) .zero 3 0).wf = false := by decide
theorem test_wf_trace_tag : (Instr.trace uh 64 .one .one).wf = false := by decide

/-! ### Words written out from the encodings of the spec -/

/-- R79, R43: `IADD v1, v2, v3`: opcode 0x00, D 1, A 2, B 3. -/
theorem test_word_iadd : decode [0x0001040C#32] = some (.iadd lh (.v 1) (.v 2) (.v 3), []) := by
  decide +kernel
/-- 02_instruction_words: `?!p5 FFMA.RTZ.HA.E v7, v12, q1, 3.0`. -/
theorem test_word_ffma : decode [0x4F871906#32, 0xFE168400#32, 0x40400000#32] =
    some (.ffma { lh with e := true, x := true, g := 5, gn := true, ha := true, lit := 0x40400000 } nomods .rtz
      (.v 7) (.v 12) (.q 1) .lit, []) := by decide +kernel
/-- R166: `CVT.E4M3.F32.SR.SLOT1 v3, v2, v9`. -/
theorem test_word_cvt : decode [0x1C030402#32, 0x120188A0#32] =
    some (.cvt xh .e4m3 .f32 false .sr 1 (.v 3) (.v 2) (some (.v 9)), []) := by decide +kernel
/-- R79, R133: `ICMP.LT p1, %laneid, 20`: opcode 0x4E, A 0x77, B literal, MOD 2. -/
theorem test_word_icmp : decode [0x2701EFFE#32, 0x00000002#32, 20#32] =
    some (.icmp { xh with lit := 20 } .lt nocc 1 (.const .laneid) .lit, []) := by decide +kernel
/-- R79: `SHFL.W8 v1, v2, v3`: opcode 0x44, MOD 2. -/
theorem test_word_shfl : decode [0x2201040E#32, 0x00000002#32] =
    some (.shfl xh 2 false (.v 1) (.v 2) (.v 3), []) := by decide +kernel
/-- 08_order_memory: `LDC.W.ACQ.DIE v4, [v1+16]`. -/
theorem test_word_ldc : decode [0x2D0403FE#32, 0x00000028#32, 0x00000010#32] =
    some (.ldc { xh with lit := 16 } .w ⟨.acq, .die, false⟩ 4 (.v 1) .lit, []) := by decide +kernel
/-- 08_order_memory: `ATOMC.FADD.V4 v8, [v2], v12` and `ATOMC.ADD.REL.DEVICE v6, [v2], v3`. -/
theorem test_word_atomc :
    decode [0x2E080432#32, 0x52000000#32] = some (.atomc xh .fadd .v4 noord 8 (.v 2) (.v 12), []) ∧
    decode [0x2E06040E#32, 0x00000050#32] =
      some (.atomc xh .add .w1 ⟨.rel, .device, false⟩ 6 (.v 2) (.v 3), []) := by decide +kernel
/-- 11_progress_execution: the branches and the JOIN of the example of R284. -/
theorem test_word_lane_control :
    decode [0x72018003#32] = some (.brl true 1 true 3, []) ∧
    decode [0x72000003#32] = some (.brl true 0 false 3, []) ∧
    decode [0x7300E400#32] = some (.join lhE (.const .ones), []) := by decide +kernel
/-- R377: `CROOK3 v4, v2, v1, v3`. -/
theorem test_word_crook : decode [0x39840406#32, 0x06000000#32] =
    some (.crook xh 3 0 0 (.v 4) (.v 2) (.v 1) (.v 3), []) := by decide +kernel
/-- 02_instruction_words: `?k3 SADD.E s4, s5, 0x1234`. -/
theorem test_word_sadd : decode [0xC0082FEC#32, 0x00001234#32] =
    some (.sadd { uhE with k := 3, lit := 0x1234 } 4 (.s 5) .lit, []) := by decide +kernel
/-- R142: `SLI s5, 0x5678` and `SLIH s5, 0x2468`. -/
theorem test_word_sli : decode [0x880A5678#32, 0x888A2468#32] =
    some (.sli false 5 0x5678, [0x888A2468#32]) ∧
    decode [0x888A2468#32] = some (.slih false 5 0x2468, []) := by decide +kernel
/-- R287, R288: `RET.E`, `?k2 BRA.E` forward by 10 words, NOP. -/
theorem test_word_uniform_control :
    decode [0xCB80F800#32] = some (.ret uhE (.s 31), []) ∧
    decode [0xCA20000A#32] = some (.bra true 2 false 10, []) ∧
    decode [0x8D000000#32] = some (.nop uh, []) := by decide +kernel
/-- R289, R312, R314: BAR, BARA, BARW, BAR.SW and ACQUIRE. -/
theorem test_word_barriers :
    decode [0xD0000000#32] = some (.bar uhE 0, []) ∧ decode [0xD0801800#32] = some (.bara uhE 3, []) ∧
    decode [0xD1001800#32] = some (.barw uhE 3, []) ∧ decode [0xD0001001#32] = some (.barSw true 2, []) ∧
    decode [0xD1800000#32] = some (.acquire true, []) := by decide +kernel
/-- R255, R257, R294: `TRYWAIT.E k1, s4, 3`, `TSTAT s3, 2`, `CWAIT.E 1`. -/
theorem test_word_waits :
    decode [0xD20227E0#32, 3#32] = some (.trywait { uhE with lit := 3 } false 1 (.s 4) .lit, []) ∧
    decode [0x9887F800#32, 2#32] = some (.tstat { uh with lit := 2 } 3 .lit, []) ∧
    decode [0xD3010800#32] = some (.cwait uhE .one, []) := by decide +kernel
/-- R292: `LAUNCH.G2 s4, s5, 0x10001, 0, 0`. -/
theorem test_word_launch : decode [0x92884001#32, 5#32, 0x00010001#32, 0#32, 0#32] =
    some (.launch { eh 0 0x10001 0 0 with p0 := .sub (.s 5) } (.s 4) 2, []) := by decide +kernel
/-- R59: a TCOPY of the load kind with A = s2 and parameters s8, s9, 0x40, 0. -/
theorem test_word_tcopy : decode [0x96040003#32, 8#32, 9#32, 0x40#32, 0#32] =
    some (.tcopyLoad { eh 0 0 0x40 0 with p0 := .sub (.s 8), p1 := .sub (.s 9) } ⟨0, 0, 0⟩ (.s 2), []) := by
  decide +kernel
/-- R181, R184: `MMA.ACC1.SLOT2 s6, s8, s9, 0, 0` and `MZERO acc0, acc2`. -/
theorem test_word_matrix :
    decode [0x968CA003#32, 8#32, 9#32, 0#32, 0#32] =
      some (.mma { eh 0 0 0 0 with p0 := .sub (.s 8), p1 := .sub (.s 9) } (.s 6) 1 2, []) ∧
    decode [0x978A0000#32] = some (.mzero uh 5, []) := by decide +kernel
/-- R239, R406, R408, R410, R412, R367, R368. -/
theorem test_word_system :
    decode [0x9E800008#32] = some (.flushh { uh with k := 2 }, []) ∧
    decode [0xCE011000#32] = some (.rett uhE false .ones, []) ∧
    decode [0xCE002801#32] = some (.rett uhE true (.s 5), []) ∧
    decode [0x9C063000#32] = some (.rdsr uh 3 6, []) ∧ decode [0x9C8E2000#32] = some (.wrsr uh 7 (.s 4), []) ∧
    decode [0xCD800004#32] = some (.trap { uhE with k := 1 } 0, []) ∧
    decode [0x9D0C0001#32] = some (.rdclk uh true 6, []) ∧
    decode [0x9E0E1060#32] = some (.trace uh 7 (.s 2) (.s 3), []) ∧
    decode [0x9D890C00#32] = some (.rdperf uh false 4 .one .zero, []) := by decide +kernel
/-- R337: `PCFG.PAD.CORES s3, s8, s9, 5, 0`. -/
theorem test_word_pcfg : decode [0xA4060103#32, 8#32, 9#32, 5#32, 0#32] =
    some (.pcfgCores { eh 0 0 5 0 with p0 := .sub (.s 8), p1 := .sub (.s 9) } (.s 3), []) := by decide +kernel
/-- R346, R348, R352: `TLBI.PAGE s3, s4`, `VDNSET s4, s5`, `CLEARP s5, s6`. -/
theorem test_word_translation :
    decode [0xA5821880#32] = some (.tlbiPage uh (.s 3) (.s 4), []) ∧
    decode [0xA60020A0#32] = some (.vdnset uh (.s 4) (.s 5), []) ∧
    decode [0xA78028C0#32] = some (.clearp uh (.s 5) (.s 6), []) := by decide +kernel
/-- R385, R423, R426, R433: `CRKLOAD.LOAD.C3 s4, s6, 0x40008, s7, 0`, `SAVEX.SAVE s4, s6, s7, 0x2000, 0x1001`,
`CODEMV s2, s8, s9, s10, 0x1001`, `SHEP.ROUND s4, 0, 0, 0x3000, 0x1001`. -/
theorem test_word_control_paddock :
    decode [0xA8081805#32, 6#32, 0x40008#32, 7#32, 0#32] =
      some (.crkloadLoad { eh 0 0x40008 0 0 with p0 := .sub (.s 6), p2 := .sub (.s 7) } (.s 4) 3, []) ∧
    decode [0xA9080003#32, 6#32, 7#32, 0x2000#32, 0x1001#32] =
      some (.savexSave { eh 0 0 0x2000 0x1001 with p0 := .sub (.s 6), p1 := .sub (.s 7) } (.s 4), []) ∧
    decode [0xAA840007#32, 8#32, 9#32, 10#32, 0x1001#32] =
      some (.codemv { eh 0 0 0 0x1001 with p0 := .sub (.s 8), p1 := .sub (.s 9), p2 := .sub (.s 10) } (.s 2), []) ∧
    decode [0xA8882000#32, 0#32, 0#32, 0x3000#32, 0x1001#32] =
      some (.shepRound (eh 0 0 0x3000 0x1001) (.s 4), []) := by decide +kernel
/-- R78, R81: a reserved opcode of either class does not decode. -/
theorem test_word_reserved : decode [0x34000000#32] = none ∧ decode [0xBF800000#32] = none := by decide +kernel

/-! ### A band that issues an instruction -/

/-- The machine about to issue `i` in a fresh flock of the control paddock (log 6). -/
def demo (i : Instr) : State := State.reset.placeWords (encode i)
/-- Its band: every lane of flock 0 of fold 0, at address 0. -/
def q0 : Iss :=
  { core := 0, stage := 0, fold := 0, flock := 0, bandB := false, lanes := BitVec.ofNat 32 (2 ^ 32 - 1), pc := 0, count := 0 }
def goes (is : List Instr) : Bool := is.all fun i => issues (demo i) q0 i

theorem test_issues_integer : goes
    [.iadd lh (.v 1) (.v 2) (.v 3), .isub lh .q0 (.q 1) (.s 3), .imul lh (.v 1) (.v 2) (.v 3),
     .imulh lh true (.v 1) (.v 2) (.v 3), .imad xh (.v 1) (.v 2) (.v 3) (.v 4),
     .iadds lh true (.v 1) (.v 2) (.v 3), .isubs lh false (.v 1) (.v 2) (.v 3),
     .imin lh true (.v 1) (.v 2) (.v 3), .imax lh false (.v 1) (.v 2) (.v 3), .iabs lh true (.v 1) (.v 2),
     .iabsd lh false (.v 1) (.v 2) (.v 3)] = true := by decide +kernel
theorem test_issues_logic : goes
    [.and lh (.v 1) (.v 2) (.v 3), .or lh (.v 1) (.v 2) (.v 3), .xor lh (.v 1) (.v 2) (.v 3),
     .andn lh (.v 1) (.v 2) (.v 3), .lop3 xh 0xEA (.v 1) (.v 2) (.v 3) (.v 4), .shl lh true (.v 1) (.v 2) (.v 3),
     .shr lh false (.v 1) (.v 2) (.v 3), .sar lh false (.v 1) (.v 2) (.v 3), .rol lh (.v 1) (.v 2) (.v 3)] = true := by
  decide +kernel
theorem test_issues_bits : goes
    [.popc lh (.v 1) (.v 2), .clz lh (.v 1) (.v 2), .brev lh (.v 1) (.v 2), .bfx lh true (.v 1) (.v 2) (.v 3),
     .bfi xh (.v 1) (.v 2) (.v 3) (.v 4), .lea xh 7 (.v 1) (.v 2) (.v 3),
     .idot4 xh true false true (.v 1) (.v 2) (.v 3) (.v 4), .idot2 xh false true false (.v 1) (.v 2) (.v 3) (.v 4)]
    = true := by decide +kernel
/-- No flag is enabled in a fresh flock, so no lane traps on one (R103). -/
theorem test_no_flag_traps (g : Nat → Flg) (i : Instr) (m : Mask)
    (h : ((demo i).fl q0).ftrapen = 0) : trapLanes ((demo i).fl q0) m g = 0 := by
  rw [trapLanes, h]; simp; decide
theorem test_issues_float : goes
    [.fadd lh nomods .dflt (.v 1) (.v 2) (.v 3), .fsub xh nomods .rtz (.v 1) (.v 2) (.v 3),
     .fmul lh nomods .dflt (.v 1) (.v 2) (.v 3), .ffma xh nomods .rup (.v 1) (.v 2) (.v 3) (.v 4),
     .fmin lh nomods (.v 1) (.v 2) (.v 3), .fmax lh nomods (.v 1) (.v 2) (.v 3),
     .fscale lh nomods .dflt (.v 1) (.v 2) (.v 3), .ffrac lh nomods (.v 1) (.v 2),
     .frint lh nomods .dflt (.v 1) (.v 2), .fclass lh (.v 1) (.v 2), .fcopys xh .neg (.v 1) (.v 2) (.v 3)] = true
    := by decide +kernel
theorem test_issues_deferred : goes
    [.fdiv lh nomods .dflt 1 (.v 2) (.v 3), .frcp lh nomods 1 (.v 2), .frsq lh nomods 1 (.v 2),
     .fsqrt lh nomods .dflt 1 (.v 2), .fexp2 lh nomods 1 (.v 2), .flog2 lh nomods 1 (.v 2),
     .fsin lh nomods 1 (.v 2), .fcos lh nomods 1 (.v 2), .ftanh lh nomods 1 (.v 2),
     .fexs lh nomods 1 (.v 2) (.v 3)] = true := by decide +kernel
theorem test_issues_halves : goes
    [.hadd2 xh true nomods .dflt (.v 1) (.v 2) (.v 3), .hmul2 xh false nomods .dflt (.v 1) (.v 2) (.v 3),
     .hfma2 xh false nomods .dflt (.v 1) (.v 2) (.v 3) (.v 4), .hmin2 xh true nomods (.v 1) (.v 2) (.v 3),
     .hmax2 xh false nomods (.v 1) (.v 2) (.v 3), .fdot2 xh true nomods .dflt (.v 1) (.v 2) (.v 3) (.v 4),
     .fdot4 xh true false false .dflt (.v 1) (.v 2) (.v 3) (.v 4)] = true := by decide +kernel
theorem test_issues_conversions : goes
    [.cvt xh .e4m3 .f32 false .rne 0 (.v 1) (.v 2) none, .cvt2 xh .f16 .f32 false .dflt 0 (.v 1) (.v 2) (.v 3) none,
     .cvt4 xh .e4m3 .f16 false .dflt 0 (.v 1) (.v 2) (.v 3) none, .unpk2 xh .f16 true (.v 1) (.v 2),
     .unpk4 xh .e4m3 3 (.v 1) (.v 2), .sqz4 xh .dflt 0 (.v 1) (.v 2) none,
     .sqz8 xh .dflt 0 (.v 1) (.v 2) none, .sround xh .f16 .sr 0 (.v 1) (.v 2) (some (.v 3)),
     .scaleof xh true 0 (.v 1) (.v 2)] = true := by decide +kernel
/-- A drove whose slot 0 has operand A in LUT4, with its table in chunk 0 of the fold, thread-owned. -/
def withSlot (w : DWord) (i : Instr) : State :=
  { demo i with droves := kset (demo i).droves 0 { oneDrove with slots := [w] } }
theorem test_issues_xpand :
    issues (withSlot 0x0070000000000000#64 (.xpand xh false true 0 (.v 1) (.v 2))) q0
      (.xpand xh false true 0 (.v 1) (.v 2)) = true ∧
    xpandSrc (withSlot 0x0070000000000000#64 (.xpand xh false true 0 (.v 1) (.v 2))) q0 false 0 = .lut4 ∧
    xpandTrap (withSlot 0x0070000000000000#64 (.xpand xh false true 0 (.v 1) (.v 2))) q0 false 0 = none ∧
    (withSlot 0x0070000000000000#64 (.xpand xh false true 0 (.v 1) (.v 2))).xpandHeld q0 false 0 = false ∧
    xpandStruck (withSlot 0x0070000000000000#64 (.xpand xh false true 0 (.v 1) (.v 2))) q0 0 = false ∧
    xpandWatch (withSlot 0x0070000000000000#64 (.xpand xh false true 0 (.v 1) (.v 2))) q0 false 0 q0.lanes = 0 ∧
    ((withSlot 0x0070000000000000#64 (.xpand xh false true 0 (.v 1) (.v 2))).fl q0).active xh q0.lanes = q0.lanes := by
  decide +kernel
theorem test_issues_moves : goes
    [.mov lh (.v 1) .lit, .sel xh false (.v 1) (.v 2) (.v 3) 4, .shfl lh 0 false (.v 1) (.v 2) (.v 3),
     .shflu xh 5 true (.v 1) (.v 2) (.v 3), .shfld xh 1 false (.v 1) (.v 2) (.v 3),
     .shflx xh 2 false (.v 1) (.v 2) (.v 3), .vote xh .agree true (.v 1) 2, .matchv xh .rank (.v 1) (.v 2),
     .prmt xh (.v 1) (.v 2) (.v 3) (.v 4), .ppack lh (.v 1) 64] = true := by decide +kernel
/-- In a window of one register every lane's index 0 is inside, in a window at 1 of `%laneid` some are not; a
pending register of the window is met by an index within it. -/
theorem test_issues_indexed : goes
    [.rdx xh 1 (.v 1) 2 (.v 3), .wrx xh 1 2 (.v 4) (.v 3), .rdx xh 32 (.v 40) 0 (.const .laneid),
     .rdx xh 31 (.v 40) 0 (.const .laneid)] = true := by decide +kernel
theorem test_indexed_inside : ∀ l < 32, act (demo (.rdx xh 32 (.v 40) 0 (.const .laneid))) q0 xh l = true ∧
    (val (demo (.rdx xh 32 (.v 40) 0 (.const .laneid))) q0 xh (.const .laneid) l).toNat < 32 := by decide +kernel
theorem test_indexed_outside :
    act (demo (.rdx xh 31 (.v 40) 0 (.const .laneid))) q0 xh 31 = true ∧
    31 ≤ (val (demo (.rdx xh 31 (.v 40) 0 (.const .laneid))) q0 xh (.const .laneid) 31).toNat := by decide +kernel
/-- The same flock with v5 pending. -/
def pendingV5 (i : Instr) : State := (demo i).modFlock 0 0 fun fl => { fl with pendV := 32#64 }
theorem test_indexed_pending :
    issues (pendingV5 (.rdx xh 32 (.v 40) 0 (.const .laneid))) q0 (.rdx xh 32 (.v 40) 0 (.const .laneid)) = true ∧
    ((pendingV5 (.rdx xh 32 (.v 40) 0 (.const .laneid))).fl q0).pendV.getLsbD
      (0 + (val (pendingV5 (.rdx xh 32 (.v 40) 0 (.const .laneid))) q0 xh (.const .laneid) 5).toNat) = true := by
  decide +kernel
theorem test_issues_predicates : goes
    [.elect lh 1, .icmp xh .ltu nocc 95 (.v 1) (.v 2), .fcmp xh .geu { nocc with comb := .xor, c := 3 } true 1 (.v 1) (.v 2),
     .hcmp2 xh true .eq nocc false 94 (.v 1) (.v 2), .plop xh 0x80 1 2 3 4, .punpk xh 32 64 (.v 1),
     .chko lh 1 (.const .zero) (.const .zero)] = true := by decide +kernel
theorem test_issues_uniform : goes
    [.sadd uh 1 (.s 2) (.s 3), .ssub uh 1 (.s 2) (.s 3), .smul uh 1 (.s 2) (.s 3), .smulh uh true 1 (.s 2) (.s 3),
     .smad uh 1 (.s 2) (.s 3), .sand uh 1 (.s 2) (.s 3), .sor uh 1 (.s 2) (.s 3), .sxor uh 1 (.s 2) (.s 3),
     .sshl uh 1 (.s 2) (.s 3), .sshr uh 1 (.s 2) (.s 3), .ssar uh 1 (.s 2) (.s 3), .smin uh true 1 (.s 2) (.s 3),
     .smax uh false 1 (.s 2) (.s 3), .ssel uh 1 (.s 2) (.s 3), .smov uh 1 (.s 2), .slea uh true 1 (.s 2) (.s 3),
     .sli false 1 131071, .slih false 1 0, .sadd64 uh 30 (.s 2) .ones, .scmp uh true 6 (.s 2) (.s 3),
     .klop uh 15 7 1 2] = true := by decide +kernel
theorem test_issues_special : goes
    ((List.range 14).map (fun r => .rdsr uh 1 r) ++ ([6, 7, 8, 10, 11, 13].map fun r => .wrsr uh r .zero) ++
     [.rdclk uh true 30, .rdperf uh false 1 .zero .zero, .trace uh 63 .zero .one, .tstat uh 1 .zero,
      .wrsr uh 13 .ones, .wrsr uhF 13 .ones]) = true := by decide +kernel
/-- WRSR WATCH of all ones has SPACE 3, a value with a reserved field; k1 is false in a fresh flock. -/
theorem test_special_values :
    wrsrBad 7 (uop (demo (.wrsr uh 7 .zero)) q0 uh .zero) = false ∧
    guardOk (demo (.wrsr uh 7 .zero)) q0 uh = true ∧ wrsrBad 13 (uop (demo (.wrsr uh 13 .ones)) q0 uh .ones) = true ∧
    guardOk (demo (.wrsr uhF 13 .ones)) q0 uhF = false ∧
    perfPad ((demo (.rdperf uh false 1 .zero .zero)).fo q0).paddock 0 = some 0 := by decide +kernel
theorem test_issues_control : goes
    [.brl true 1 true 3, .brxl lhE (.const .zero), .bra true 0 false 10, .brx uhE .zero .zero, .nop uh,
     .call true 0 false 1, .call true 1 false 1, .ret uhE .zero, .ret uhE .one, .join lhE (.const .zero), .lexit lhE,
     .exit uhE, .brk true 0 false 7, .brk true 1 false 7, .trap uhE 5, .trap uhEF 5] = true := by decide +kernel
/-- RETT issues in handler mode only (R406). -/
def inHandler (i : Instr) : State := (demo i).modFlock 0 0 fun fl => { fl with handler := true, tlanes := 1 }
theorem test_issues_rett : issues (inHandler (.rett uhE true .ones)) q0 (.rett uhE true .ones) = true ∧
    guardOk (inHandler (.rett uhE true .ones)) q0 uhE = true := by decide +kernel
theorem test_issues_barriers : goes
    [.bar uhE 15, .bar uhEF 15, .barSw true 0, .bara uhE 0, .bara uhEF 0, .barw uhE 15, .acquire true, .cwait uhE .ones,
     .trywait uhE false 1 .zero .zero, .trywait uhE true 7 .zero .one] = true := by decide +kernel
/-- A CWAIT with a child left, or under a stop request, waits (R413). -/
theorem test_waits_stay :
    (let s := { demo (.cwait uhE .ones) with
       droves := [(0, oneDrove), (9, { oneDrove with host := false, parentFold := 0, parentDrove := 0 })] }
     issues s q0 (.cwait uhE .ones) = true ∧ s.children 0 65535 = [9]) ∧
    (let s := (demo (.cwait uhE .ones)).modFold 0 fun fo => { fo with stopWanted := 1 }
     issues s q0 (.cwait uhE .ones) = true ∧ (s.fo q0).stopWanted ≠ 0) := by decide +kernel
theorem test_waits_end : ((demo (.cwait uhE .ones)).fo q0).stopWanted = 0 ∧
    (demo (.cwait uhE .ones)).children 0 ((uop (demo (.cwait uhE .ones)) q0 uhE .ones).toNat % 65536) = [] ∧
    tryBad ((demo (.trywait uhE false 1 .zero .zero)).fo q0) 0 0 = false ∧
    (demo (.trywait uhE false 1 .zero .zero)).tryReady ((demo (.trywait uhE false 1 .zero .zero)).fo q0) 0 0 false
      = true := by decide +kernel
/-- A launch record at the first byte of the commons of die 0, for one fold. -/
theorem test_issues_launch :
    issues (demo (.launch (eh 1 0x10001 0 0) .zero 0)) q0 (.launch (eh 1 0x10001 0 0) .zero 0) = true ∧
    launchTrap (demo (.launch (eh 1 0x10001 0 0) .zero 0)) q0 (eh 1 0x10001 0 0)
      (ueA (demo (.launch (eh 1 0x10001 0 0) .zero 0)) q0 (eh 1 0x10001 0 0) .zero) = none := by decide +kernel

/-! ### Checks and traps -/

/-- Each check that more than the words decides, with the earlier ones passed: a barrier in handler mode, RETT outside
it, formats that a fresh drove's slot 0 does not have, a register beyond the budget. -/
theorem test_checks_met :
    decodeBad (inHandler (.bar uhE 0)) q0 (.bar uhE 0) = true ∧ decodeBad (demo (.rett uhE true .ones)) q0 (.rett uhE true .ones) = true ∧
    slotAfmt ((demo (.nop uh)).slotVal q0 0) ∉ [some Fmt.e2m1, some .e3m2, some .e2m3, some .int4, some .lut4] ∧
    slotAfmt ((withSlot 0x0040000000000000#64 (.nop uh)).slotVal q0 0) = some .e3m2 ∧
    slotDfmt ((withSlot 0x0000A00000000000#64 (.nop uh)).slotVal q0 0) = some .f32 ∧
    (let s := (demo (.iadd lh (.v 60) (.v 2) (.v 3))).modPad 0 fun x =>
       { x with objs := kset x.objs 0 { oneObj 1 with variants := [⟨32, 1, 1, 0, 4⟩] } }
     s.issuer = some q0 ∧ decodeBad s q0 (.iadd lh (.v 60) (.v 2) (.v 3)) = false ∧ (s.budget (s.fo q0)).regs = 32) := by
  decide +kernel
theorem test_check_order :
    (Instr.iadd lh (.v 1) (.v 2) (.v 3)).encoded = true ∧ (demo (.iadd lh (.v 1) (.v 2) (.v 3))).issuer = some q0 ∧
    precheck (pendingV5 (.iadd lh (.v 5) (.v 2) (.v 3))) q0 (.iadd lh (.v 5) (.v 2) (.v 3)) = some cUnsettled ∧
    (pendingV5 (.iadd lh (.v 5) (.v 2) (.v 3))).issuer = some q0 ∧
    ((pendingV5 (.iadd lh (.v 5) (.v 2) (.v 3))).fl q0).pendV.getLsbD 5 = true := by decide +kernel
/-- An error has struck v2 of lane 5 (R447). -/
theorem test_check_ecc :
    (let s := (demo (.iadd lh (.v 1) (.v 2) (.v 3))).modFlock 0 0 fun fl => { fl with bad := [(2, 32#32)] }
     s.issuer = some q0 ∧ precheck s q0 (.iadd lh (.v 1) (.v 2) (.v 3)) = some cEcc ∧
     s.struckEarly q0 (.iadd lh (.v 1) (.v 2) (.v 3)) = 32#32 ∧
     (s.fl q0).struckLanes (s.bandOf q0) (.iadd lh (.v 1) (.v 2) (.v 3)) q0.lanes = 32#32) := by decide +kernel
theorem test_pending_uniform :
    ((demo (.sadd uh 31 .one .one)).modFlock 0 0 fun fl => { fl with pendS := 0x80000000#32 }).issuer = some q0 ∧
    precheck ((demo (.sadd uh 31 .one .one)).modFlock 0 0 fun fl => { fl with pendS := 0x80000000#32 }) q0
      (.sadd uh 31 .one .one) = some cUnsettled := by decide +kernel
/-- The same band after 23 instructions, and an instruction that requires E and has none. -/
def late (i : Instr) : State := (demo i).modStage 0 0 fun st =>
  { st with turn := some { oneTurn with a := some ⟨q0.lanes, 23, false, none, none, none, []⟩ } }
theorem test_run_length :
    (late (.iadd lh (.v 1) (.v 2) (.v 3))).issuer = some { q0 with count := 23 } ∧
    precheck (late (.iadd lh (.v 1) (.v 2) (.v 3))) { q0 with count := 23 } (.iadd lh (.v 1) (.v 2) (.v 3))
      = some cRunlen ∧
    precheck (late (.iadd lhE (.v 1) (.v 2) (.v 3))) { q0 with count := 23 } (.iadd lhE (.v 1) (.v 2) (.v 3)) = none ∧
    needsE (.bar uh 0) = true ∧ decodeBad (demo (.bar uh 0)) q0 (.bar uh 0) = false := by decide +kernel
/-- A flock of paddock 1. -/
def tenant (i : Instr) : State := (demo i).modFold 0 fun fo => { fo with paddock := 1, vd := 3 }
theorem test_privilege :
    (tenant (.tlbiAll uh .zero)).issuer = some q0 ∧ ((tenant (.tlbiAll uh .zero)).fo q0).paddock = 1 ∧
    privileged (.tlbiAll uh .zero) = true ∧ privileged (.iadd lh (.v 1) (.v 2) (.v 3)) = false := by decide +kernel
/-- 0 / 0 with NVEN set raises an enabled flag in every lane (R103). -/
def enabled (i : Instr) : State := (demo i).modFlock 0 0 fun fl => { fl with ftrapen := 31#32 }
def raises (i : Instr) (g : Nat → Flg) : Bool :=
  issues (enabled i) q0 i && trapLanes ((enabled i).fl q0) (((enabled i).fl q0).active xh q0.lanes) g != 0
theorem test_arith_trap :
    raises (.fadd xh { nomods with nb := true } .dflt (.v 1) (.const .inf) (.const .inf)) (fun _ =>
      (faddW { nomods with nb := true } .dflt 0x7F800000#32 0x7F800000#32).2) = true ∧
    raises (.ffma xh nomods .dflt (.v 1) (.const .inf) (.const .zero) (.const .zero)) (fun _ =>
      (ffmaW nomods .dflt 0x7F800000#32 0 0).2) = true ∧
    raises (.fdiv xh nomods .dflt 1 (.const .zero) (.const .zero)) (fun _ => (fdivW nomods .dflt 0 0).2) = true := by
  decide +kernel
/-- A handler exists: TBASE names an address of resident code. -/
def trapping (i : Instr) : State :=
  { (demo i).modPad 0 fun x => { x with tbase := 4#32, objs := kset x.objs 0 (oneObj 2) } with folds := (demo i).folds }
theorem test_trap_entry :
    (trapping (.nop uh)).handled oneFold = true ∧ kget (trapping (.nop uh)).folds 0 = some oneFold ∧
    ((trapping (.nop uh)).flock? 0 0).isSome = true ∧
    ({ oneTurn with trapA := some ⟨cSoft, 0, q0.lanes, 0⟩ } : Turn).trapA = some ⟨cSoft, 0, q0.lanes, 0⟩ ∧
    oneTurn.trapA = none ∧ ({ oneTurn with trapB := some ⟨cSoft, 0, 1, 0⟩ } : Turn).trapB = some ⟨cSoft, 0, 1, 0⟩ := by
  decide +kernel
theorem test_trap_unhandled :
    ((demo (.nop uh)).setReg 0 0 0x09 0 (2 ^ 48)).handled oneFold = false ∧
    kget ((demo (.nop uh)).setReg 0 0 0x09 0 (2 ^ 48)).folds 0 = some oneFold ∧
    bits (((demo (.nop uh)).setReg 0 0 0x09 0 (2 ^ 48)).reg 0 0 0x09 0) 59 48 ≠ 0 ∧
    -- a double fault (R401)
    ((inHandler (.nop uh)).flock 0 0).handler = true ∧ ((inHandler (.nop uh)).flock? 0 0).isSome = true := by
  decide +kernel
/-- Two bands: the lower half and the upper half of the flock. -/
def twoBands : State := (demo (.nop uh)).modStage 0 0 fun st => { st with turn := some { oneTurn with
  a := some ⟨0xFFFF#32, 0, false, none, none, none, []⟩, b := some ⟨0xFFFF0000#32, 0, false, none, none, none, []⟩ } }
theorem test_trap_in_turn :
    twoBands.issuer = some { q0 with lanes := 0xFFFF#32 } ∧ ((twoBands.stageOf 0 0).turn).isSome = true ∧
    (twoBands.fl q0).handler = false ∧
    bandDone (twoBands.fl q0) (some ⟨0xFFFF0000#32, 0, false, none, none, none, []⟩) = false := by decide +kernel
theorem test_trap_masked :
    (inHandler (.trap uhE 5)).issuer = some q0 ∧ ((inHandler (.trap uhE 5)).flock? 0 0).isSome = true ∧
    ((inHandler (.trap uhE 5)).fl q0).handler = true ∧
    ((inHandler (.trap uhE 5)).fl q0).cause &&& causeBit cSoft = 0 ∧ q0.lanes.getLsbD 31 = true := by decide +kernel
theorem test_trap_turn_free : TurnFree (inHandler (.trap uhE 5)) q0 :=
  ⟨oneTurn, by decide +kernel, rfl, rfl⟩
/-- Lane 0 is the only lane of TLANES and has met RETT.SKIP; the flock of `demo` has no handler lane. -/
def rettWaits : State := (inHandler (.nop uh)).modFlock 0 0 fun fl =>
  { fl with waits := [some .rett], rettSkip := true, cause := causeBit cSoft }
theorem test_rett_settles : (rettWaits.flock 0 0).handler = true ∧
    (rettWaits.flock 0 0).tlanes &&& (rettWaits.flock 0 0).live ≠ 0 ∧
    (∀ l < 32, (rettWaits.flock 0 0).tlanes.getLsbD l = true → (rettWaits.flock 0 0).exited.getLsbD l = false →
      (rettWaits.flock 0 0).wait l = some .rett) ∧
    ((demo (.nop uh)).flock 0 0).handler = false := by decide +kernel
theorem test_trap_return :
    ((inHandler (.trap uhE 5)).flock 0 0).cause &&& ~~~(0#32) = 0 ∧
    ((inHandler (.trap uhE 5)).flock 0 0).tlanes.getLsbD 0 = true ∧
    (((inHandler (.trap uhE 5)).modFlock 0 0 fun fl => { fl with cause := 1 }).flock 0 0).cause &&& ~~~(2#32) ≠ 0 := by
  decide +kernel

/-! ### Joins and barriers -/

/-- Lanes 0 and 1 wait at a JOIN for each other; lane 2 waits for lane 3, which does not. -/
def joined : Flock := { oneFlock with
  waits := [some (.join 8 3 12), some (.join 8 3 12), some (.join 8 8 12)] }
theorem test_join :
    joined.wait 0 = some (.join 8 3 12) ∧
    (∀ j < 32, (3#32).getLsbD j = true → joined.exited.getLsbD j = true ∨ joined.wait j = some (.join 8 3 12)) ∧
    -- lane 3 joined there in the same cycle, by what band A released; or did not
    (∀ j < 32, (8#32).getLsbD j = true → ∃ e ∈ [((8 : Nat), 8#32)], e.1 = 8 ∧ e.2.getLsbD j = true) ∧
    joined.wait 2 = some (.join 8 8 12) ∧ (8#32).getLsbD 3 = true ∧ joined.exited.getLsbD 3 = false ∧
    joined.wait 3 = none := by decide +kernel
/-- Every lane of the flock has arrived at barrier 15, and none at barrier 0. -/
def arrived : State := (demo (.nop uh)).modFold 0 fun fo =>
  { fo with barriers := [(15, ⟨0, [(0, q0.lanes)], none, []⟩)] }
theorem test_phase : kget arrived.folds 0 = some (arrived.fo q0) ∧ (arrived.fo q0).stopWanted = 0 ∧
    (arrived.fo q0).phaseDone 15 = true ∧ ((arrived.fo q0).barrier 15).sw = none ∧
    (arrived.fo q0).phaseDone 0 = false := by decide +kernel
/-- Every lane waits at an ACQUIRE of the prologue; the object has one variant, of one segment. -/
def acquiring : State := (demo (.nop uh)).modFold 0 fun fo =>
  { fo with sect := 4, barriers := [(acquirePoint, ⟨0, [(0, q0.lanes)], none, []⟩)] }
theorem test_grant : kget acquiring.folds 0 = some (acquiring.fo q0) ∧ (acquiring.fo q0).stopWanted = 0 ∧
    (acquiring.fo q0).phaseDone acquirePoint = true ∧ (acquiring.fo q0).anyLive = true ∧ (acquiring.fo q0).sect = 4 ∧
    (((acquiring.objOf (acquiring.fo q0)).variants[0]?).any fun x => x.flocks == (acquiring.fo q0).flocks.length
      && acquiring.fits 0 (acquiring.fo q0) x) = true ∧
    (∀ ch < 64, acquiring.engineOwned (acquiring.fo q0) ch = false) ∧ (acquiring.fo q0).shrink = false ∧
    -- a BAR.SW whose index the phase has taken
    (let s := (demo (.nop uh)).modFold 0 fun fo =>
       { fo with sect := 0, barriers := [(15, ⟨0, [(0, q0.lanes)], some (some 1), []⟩)] }
     (s.fo q0).phaseDone 15 = true ∧ ((s.fo q0).barrier 15).sw = some (some 1)) := by decide +kernel

/-! ### Memory, engines and privileged instructions -/

theorem test_issues_memory : goes
    [.lds lh .w noord 1 (.const .zero) (.const .zero), .sts xh .w noord (.const .zero) (.const .zero) (.v 1),
     .ldsm xh 8 1 1 (.const .zero) (.const .zero), .stsm xh 8 32 (.const .zero) (.const .zero) 1,
     .atoms lh .add .w1 noord 1 (.const .zero) (.v 2), .cass xh true noord 2 (.const .zero) (.v 4) (.v 6),
     .ldc lh .w noord 1 (.const .zero) (.const .zero), .stc xh .w noord (.const .zero) (.const .zero) (.v 1),
     .atomc lh .add .w1 noord 1 (.const .zero) (.v 2), .casc xh false noord 1 (.const .zero) (.v 2) (.v 3),
     .redc lh .add .w1 (.const .zero) (.v 2), .sget uh true 1 .zero .zero, .sget uh false 1 .zero .zero,
     .fence lh .none .fold, .flushh uh, .lds lh .w noord 1 (.const .one) (.const .zero),
     .lds xh .u8 noord 1 .lit (.const .zero)] = true := by decide +kernel
/-- At address 0 every check of R210 passes in the fresh fold, whose 32 KiB are thread-owned. -/
theorem test_memory_checks :
    (demo (.nop uh)).spTrap oneFold q0.lanes (sizeAcc lh .q (.const .zero) (.const .zero) (fun _ _ => []) oneFlock) = none ∧
    (demo (.nop uh)).spTrap oneFold q0.lanes (strideAcc lh 8 32 (.const .zero) (.const .zero) oneFlock) = none ∧
    (demo (.nop uh)).spTrap oneFold q0.lanes (atomAcc lh .v4 (.const .zero) (.v 4) oneFlock) = none ∧
    (demo (.nop uh)).spTrap oneFold q0.lanes (casAcc lh true (.const .zero) (.v 2) (.v 4) oneFlock) = none ∧
    (demo (.nop uh)).cmTrap oneFold q0.lanes (sizeAcc lh .w (.const .zero) (.const .zero) (fun _ _ => []) oneFlock) = none ∧
    (demo (.nop uh)).cmTrap oneFold q0.lanes (atomAcc lh .w1 (.const .zero) (.v 4) oneFlock) = none ∧
    (demo (.nop uh)).cmTrap oneFold q0.lanes (casAcc lh false (.const .zero) (.v 2) (.v 4) oneFlock) = none ∧
    (demo (.nop uh)).spTrap oneFold 1 (sgetAcc 32764) = none ∧ (demo (.nop uh)).cmTrap oneFold 1 (sgetAcc 0) = none ∧
    watched oneFlock q0.lanes (sgetAcc 0) 0 true = 0 ∧ (demo (.nop uh)).ops = [] ∧ (demo (.nop uh)).upsets = [] ∧
    (oneFlock.active lh q0.lanes) ≠ 0 := by decide +kernel
/-- Each check of LDS fails for some address: 1 is misaligned, 32,768 is beyond the allocation, and chunk 0
is engine-owned. -/
theorem test_memory_traps :
    (demo (.nop uh)).spTrap oneFold q0.lanes (sizeAcc lh .w (.const .one) (.const .zero) (fun _ _ => []) oneFlock)
      = some (cAlign, q0.lanes) ∧
    (demo (.nop uh)).spTrap oneFold q0.lanes
      (sizeAcc { lh with lit := 32768 } .w .lit (.const .zero) (fun _ _ => []) oneFlock) = some (cSpbounds, q0.lanes) ∧
    (((demo (.nop uh)).modCore 0 fun c => { c with own := [(0, .matrix)] }).spTrap oneFold q0.lanes
      (sizeAcc lh .w (.const .zero) (.const .zero) (fun _ _ => []) oneFlock)) = some (cSpowner, q0.lanes) ∧
    (((demo (.nop uh)).modCore 0 fun c => { c with own := [(0, .matrix)] }).engineOwned oneFold 0) = true := by
  decide +kernel
/-- One store of lane 31 under way in the commons of die 0, and one load. -/
def storing (k : OpKind) (n : Nat) : MemOp :=
  { drove := 0, fold := 0, flock := 0, core := 0, pc := 0, failed := false, kind := k, sp := false, size := .w, bytes := 4
    dst := 63, nreg := n, uni := false, whose := q0.lanes, counts := true, order := noord, cyc := 0
    todo := [(31, ([commonsAt 0 0], [7#32]))], res := [], covered := [], owed := [], held := [], frel := [], promo := [] }
def underway (o : MemOp) : State := { demo (.nop uh) with ops := [(5, o)], nextId := 6 }
theorem test_commons_operation :
    (underway (storing .store 0)).mayPerform 5 (storing .store 0) 31 = true ∧
    (underway (storing .store 0)).promoFor (storing .store 0) 31 = none ∧
    (underway (storing .load 1)).mayPerform 5 (storing .load 1) 31 = true ∧
    (underway (storing .load 1)).promoFor (storing .load 1) 31 = none ∧
    (underway { storing .load 1 with promo := [(31, (1, 6))] }).mayPerform 5
      { storing .load 1 with promo := [(31, (1, 6))] } 31 = true ∧
    (underway { storing .load 1 with promo := [(31, (1, 6))] }).promoFor
      { storing .load 1 with promo := [(31, (1, 6))] } 31 = none ∧ (underway (storing .store 0)).upsets = [] := by
  decide +kernel
/-- The bank's record names core 40 of another die for the address: a REMOTE acquire
asks for its promotion, and one that has asked for that of core 3 asks anew. -/
def recording : MemOp := { storing .load 1 with order := ⟨.acq, .fold, true⟩ }
theorem test_promotion :
    (let s := (underway recording).setRecord (commonsAt 0 0) [(commonsAt 0 0, 40)]
     s.mayPerform 5 recording 31 = true ∧ recording.promo = [] ∧ recording.served 31 = [31] ∧
     s.promosOf recording 31 = [(31, 40)] ∧ s.owedAt (recording.addrs 31) 4 = false ∧
     -- a release still owes the bytes
     ({ s with ops := [(2, { storing .store 0 with owed := [(31, 3)] }), (5, recording)] } : State).owedAt
       (recording.addrs 31) 4 = true) ∧
    -- the promotion has ended, and the record names core 40 now; nothing more; it has not ended
    (let o := { recording with promo := [(31, (3, 6))] }
     let s := (underway o).setRecord (commonsAt 0 0) [(commonsAt 0 0, 40)]
     s.mayPerform 5 o 31 = true ∧ s.promoted 3 6 = true ∧ s.promosOf o 31 = [(31, 40)] ∧
       (underway o).promosOf o 31 = [] ∧ (∀ m ∈ o.served 31, s.owedAt (o.addrs m) o.bytes = false)) ∧
    (let o := { storing .store 0 with owed := [(31, 3)], promo := [(31, (0, 6))], counts := true }
     (underway o).promoted 0 6 = false) := by decide +kernel
theorem test_result_return :
    ({ underway { storing .load 1 with todo := [] } with cores := [] } : State).inTurn 0 0 0 = false ∧
    (({ underway { storing .load 1 with todo := [] } with cores := [] } : State).flock? 0 0).isSome = true ∧
    ({ storing .load 1 with todo := [], failed := true } : MemOp).dst < 64 ∧
    (({ underway { storing .load 1 with todo := [] } with cores := [] } : State).flock 0 0).live ≠ 0 ∧
    (({ underway { storing .load 1 with todo := [] } with cores := [] } : State).flock 0 0).handler = false ∧
    ({ storing .load 1 with todo := [] } : MemOp).dst + 1 ≤ 64 ∧
    -- results of four registers, and of a uniform load beside another of the same register
    (let o := { storing .load 4 with todo := [], dst := 60 }
     kget ({ underway o with cores := [] } : State).ops 5 = some o ∧ o.nreg ≠ 0 ∧ o.dst + o.nreg ≤ 64 ∧ o.uni = false ∧
     ((demo (.nop uh)).flock 0 0).born = o.born) ∧
    (let o := { storing .load 1 with todo := [], uni := true, dst := 31, res := [(0, [7#32])] }
     let s := { underway o with cores := [], ops := [(5, o), (6, o)] }
     kget s.ops 5 = some o ∧ (s.ops.any fun e => e.1 != 5 && e.2.uni && e.2.nreg != 0 && e.2.dst == o.dst) = true) := by
  decide +kernel

/-- A fold that holds the accumulator set of its core, under a format slot. -/
def withAcc (w : DWord) (i : Instr) : State := (withSlot w i).modCore 0 fun c => { c with accFold := some 0 }
theorem test_issues_matrix :
    issues (withAcc 0 (.mma (ehl 32 0 8 0 0) .lit 0 0)) q0 (.mma (ehl 32 0 8 0 0) .lit 0 0) = true ∧
    issues (withAcc 0 (.mzero uh 15)) q0 (.mzero uh 15) = true ∧
    issues (withAcc 0 (.mdrain (eh 0 0 0 0) 3 0 true false .dflt)) q0 (.mdrain (eh 0 0 0 0) 3 0 true false .dflt) = true ∧
    issues (withAcc 0 (.mloadLoad (eh 16 0 0 0) 0)) q0 (.mloadLoad (eh 16 0 0 0) 0) = true ∧
    issues (withAcc 0 (.mloadAdd (eh 16 0 0 0) 0)) q0 (.mloadAdd (eh 16 0 0 0) 0) = true ∧
    issues (withAcc 0xA00000000000#64 (.mloadAddv (eh 0 0 0 0) 0 0)) q0 (.mloadAddv (eh 0 0 0 0) 0 0) = true ∧
    issues (withSlot 0 (.mma (ehl 32 0 8 0 0) .lit 0 0)) q0 (.mma (ehl 32 0 8 0 0) .lit 0 0) = true := by decide +kernel
theorem test_matrix_checks :
    matTrap (withAcc 0 (.mma (ehl 32 0 8 0 0) .lit 0 0)) q0 false (!mmaPair 0) false (mmaChunks 0 32 0 8 0 0) = none ∧
    matTrap (withAcc 0 (.mdrain (eh 0 0 0 0) 3 0 true false .dflt)) q0
      (oneChunkBad (withAcc 0 (.mdrain (eh 0 0 0 0) 3 0 true false .dflt)) q0 (eh 0 0 0 0)) false false (chunkRun 0 48)
      = none ∧
    matTrap (withAcc 0 (.mloadAdd (eh 16 0 0 0) 0)) q0
      (oneChunkBad (withAcc 0 (.mloadAdd (eh 16 0 0 0) 0)) q0 (eh 16 0 0 0)) false false (chunkRun 16 48) = none ∧
    slotDfmt 0xA00000000000#64 = some .f32 ∧ addvFmt .f32 = true ∧
    matTrap (withAcc 0xA00000000000#64 (.mloadAddv (eh 0 0 0 0) 0 0)) q0
      (oneChunkBad (withAcc 0xA00000000000#64 (.mloadAddv (eh 0 0 0 0) 0 0)) q0 (eh 0 0 0 0)) false false
      (chunkRun 0 (2 * fmtBytes .f32)) = none ∧
    (withSlot 0 (.mma (ehl 32 0 8 0 0) .lit 0 0)).core 0 = (withSlot 0 (.mma (ehl 32 0 8 0 0) .lit 0 0)).core 0 ∧
    ((withSlot 0 (.mma (ehl 32 0 8 0 0) .lit 0 0)).core 0).accFold ≠ some 0 := by decide +kernel
/-- A command queue with one command, of each kind that the unit runs. -/
def commands (op : Nat) : State := (demo (.nop uh)).modCore 0 fun c =>
  { c with mq := [{ op := op, fold := 0, flock := 0, born := 0, pc := 0, tile := 3, slot := 0, k := 32, a := 0, b := 8, aoff := 0, boff := 0
                    raw := true, z := false, rnd := .dflt, segs := [0], chunks := [0] }] }
theorem test_matrix_command : ∀ op ∈ [0, 1, 2, 3, 4, 5], ((commands op).core 0).mq.length = 1 ∧
    (∀ ch ∈ [0], (commands op).chunkQuiet 0 ch = true) ∧
    (((commands op).core 0).mq.all fun c => !(commands op).matBad 0 c) = true := by decide +kernel
/-- An error has struck the first word of the chunk that MLOAD.LOAD reads (R447). -/
theorem test_matrix_struck : (((commands 3).core 0).mq.all fun c =>
    ({ commands 3 with upsets := [(scratchAt 0 0, 1)] } : State).matBad 0 c) = true := by decide +kernel
/-- A copy of one chunk at device address 0 on queue 15, of each kind. -/
def copies (l : List Instr) : Bool := l.all fun i => issues (demo i) q0 i
theorem test_issues_copies : copies
    [.tcopyLoad (eh 0 0 0 0) ⟨5, 15, 0⟩ .zero, .tcopyStore (eh 0 0 0 0) ⟨5, 15, 0⟩ .zero,
     .tcopyFill (eh 0 0 0 0) ⟨5, 15, 0⟩ .zero, .tcopyGather (eh 0 0 0 0) ⟨5, 15, 0⟩ .zero,
     .tcopyScatter (eh 0 0 0 0) ⟨5, 15, 0⟩ .zero, .tcopyColl (eh 0 0 0 0) ⟨0, 15, 0⟩ .zero] = true := by decide +kernel
theorem test_copy_checks : (∀ k ∈ [0, 1, 2, 3, 4], copyTrap (demo (.nop uh)) q0 k 5 512 0 (if 3 ≤ k then 2 ^ 20 else 0) 0 0
    = none) ∧
    copyTrap ((demo (.nop uh)).setReg 0 0 0x0F 0 1) q0 5 5 0 0 0 0 0 = none ∧
    copyTrap (demo (.nop uh)) q0 0 5 512 0 0 64 0 = some cSpbounds ∧
    copyTrap (demo (.nop uh)) q0 0 5 512 0 0 (2 ^ 15) 0 = some cEngparam := by decide +kernel

/-- A PCFG of element `e`, index `ix` and value `v`, which the registers at reset allow. -/
def pcfg (mk : EHdr → USrc → Instr) (tgt reg e ix v : Nat) : Instr × Nat × Nat × Nat × EHdr :=
  (mk (ehl e v 0 ix 0) .lit, tgt, reg, v, ehl e v 0 ix 0)
def writes : List (Instr × Nat × Nat × Nat × EHdr) :=
  [pcfg .pcfgPctl 0 0x00 1 0 2, pcfg .pcfgCores 0 0x01 1 15 0, pcfg .pcfgChans 0 0x02 1 0 0,
   pcfg .pcfgCommons 0 0x03 1 0 0x00010000, pcfg .pcfgStreams 0 0x04 1 0 0x100, pcfg .pcfgKeys 0 0x05 1 0 0x10001,
   pcfg .pcfgCrook 0 0x06 1 0 0x10000, pcfg .pcfgTracebuf 0 0x07 1 0 0, pcfg .pcfgDrover 0 0x08 1 1 32,
   pcfg .pcfgFaultq 0 0x09 1 0 0, pcfg .pcfgStopHold 0 0x0A 1 0 1, pcfg .pcfgStopReset 0 0x0A 1 0 2,
   pcfg .pcfgEvq 0 0x0B 0 0 0, pcfg .pcfgDeadline 0 0x0C 1 0 0x00140064, pcfg .pcfgNetred 0 0x0D 1 1 0,
   pcfg .pcfgCode 0 0x0E 1 0 0, pcfg .pcfgGrouptab 0 0x0F 1 0 0, pcfg .pcfgVctl 1 0x00 127 0 0,
   pcfg .pcfgS2root 1 0x01 127 0 0, pcfg .pcfgS1root 1 0x02 127 0 0, pcfg .pcfgHwin 1 0x03 127 0 0,
   pcfg .pcfgVdn 1 0x04 127 0 0, pcfg .pcfgTracectl 1 0x05 127 0 0, pcfg .pcfgHot 2 0x00 15 0 70,
   pcfg .pcfgQwin 2 0x01 15 0 1024]
def accepted (s : Instr → State) (w : Instr × Nat × Nat × Nat × EHdr) : Bool :=
  issues (s w.1) q0 w.1 && decide (ueA (s w.1) q0 w.2.2.2.2 .lit < cfgElems w.2.1)
    && decide (ueP (s w.1) q0 w.2.2.2.2.p2 < cfgIndexes w.2.1 w.2.2.1) && cfgFieldOk w.2.1 w.2.2.1 w.2.2.2.1
    && !(s w.1).cfgView.cfgRefused w.2.1 w.2.2.1 (ueA (s w.1) q0 w.2.2.2.2 .lit) (ueP (s w.1) q0 w.2.2.2.2.p2) w.2.2.2.1
    && noteOk (s w.1) q0 w.2.2.2.2
theorem test_config_accepted : writes.all (accepted demo) = true := by decide +kernel
theorem test_config_release :
    accepted (fun i => (demo i).modPad 1 fun x => { x with held := true }) (pcfg .pcfgStopRelease 0 0x0A 1 0 3) = true := by
  decide +kernel
/-- Index 16 of CORES does not exist, 71 of T1's units below 10 is no value, and KEYS may not hold slot 0. -/
theorem test_config_refused :
    issues (demo (.pcfgCores (ehl 1 0 0 16 0) .lit)) q0 (.pcfgCores (ehl 1 0 0 16 0) .lit) = true ∧
    cfgIndexes 0 0x01 = 16 ∧ cfgFieldOk 0 0x0C 0x00140009 = false ∧
    (demo (.nop uh)).cfgView.cfgRefused 0 0x05 1 0 0x10000 = true ∧
    issues (demo (.pcfgSavearea (eh 0 0 0 0) .zero)) q0 (.pcfgSavearea (eh 0 0 0 0) .zero) = true := by decide +kernel
theorem test_config_read :
    issues (demo (.pcfgRd (eh 0 0 15 8) .zero 0 1)) q0 (.pcfgRd (eh 0 0 15 8) .zero 0 1) = true ∧
    15 < cfgIndexes 0 1 ∧ (demo (.nop uh)).commonsBad oneFold 8 = false ∧ (demo (.nop uh)).windowBad oneFold 8 = false := by
  decide +kernel

/-- Paddock 1 shared with virtual device 3, whose stage-2 table lies at 1 MiB; paddock 2 fixed with 16 crook
slots, holding code at 4 KiB; paddock 3 fixed with virtual device 5, frozen. -/
def tenants (i : Instr) : State :=
  let s := (((demo i).setReg 0 1 0 0 2).setReg 0 2 0 0 1).setReg 0 3 0 0 1
  let s := (s.setReg 1 3 0 0 (2 ^ 8 + 1 + 2 ^ 16 + 2 ^ 24)).setReg 1 3 1 0 (2 ^ 20 + 1)
  let s := (s.setReg 1 5 0 0 (2 ^ 8 + 3 + 2 ^ 16 + 2 ^ 24)).setReg 0 2 0x06 0 (16 * 2 ^ 16)
  let s := s.modVd 5 fun d => { d with frozen := true, shep := 1 }
  let s := s.modPad 2 fun d => { d with objs := [(7, { oneObj 1024 with id := 7, base := 4096 })] }
  { s with keys := [(0, ⟨1, 0⟩), (1, ⟨1, 5⟩)] }
def tgoes (i : Instr) : Bool := issues (tenants i) q0 i
/-- The word of a COMMIT that pushes operand A (R375): OP 0x7F, A %a, nothing else. -/
def commitA : DWord := 0xFFF47FE000000000#64
def withWord (i : Instr) : State := { tenants i with mem := memWrite (tenants i).mem (commonsAt 0 64) (leBytes commitA.toNat 8) }

theorem test_issues_keys :
    tgoes (.pkeyGen (ehl 4095 0 0 0 0) .lit) = true ∧ (tenants (.nop uh)).slotFree 4095 = true ∧
    tgoes (.pkeyLoad (ehl 2 64 0 0 0) .lit) = true ∧ inCommons (tenants (.nop uh)) q0 64 64 = true ∧
    tgoes (.pkeyErase (ehl 1 0 0 0 0) .lit) = true ∧ (tenants (.nop uh)).keyLive 1 = true ∧
    noteOk (tenants (.nop uh)) q0 (ehl 1 0 0 0 0) = true := by decide +kernel
theorem test_issues_sharing :
    tgoes (.slice (ehl 1 0x83 0xFFFFFF 0 0) .lit 7) = true ∧ (tenants (.nop uh)).kind 1 = 2 ∧
    (tenants (.nop uh)).vdValid 3 = true ∧ (tenants (.nop uh)).vdPad 3 = 1 ∧ (0x83 : Nat).testBit 7 = true ∧
    tgoes (.slice (ehl 1 0 0 0 0) .lit 0) = true ∧
    tgoes (.qossetBw (ehl 1 15 (1024 * 2 ^ 16) 0 0) .lit) = true ∧
    (tenants (.nop uh)).minSum 15 (otherPads 1) ≤ (tenants (.nop uh)).capacity 15 ∧
    tgoes (.qossetWays (ehl 31 15 65535 0 0) .lit) = true ∧
    tgoes (.msg (ehl 3 1 2 3 4) .lit 3) = true ∧ tgoes (.msg (eh 1 2 3 4) .zero 0) = true := by decide +kernel
theorem test_issues_translation :
    tgoes (.pmap (ehl 3 0 0 0 0) .lit 0) = true ∧ (tenants (.nop uh)).pmapBad 3 1 0 0 = false ∧
    (tenants (.nop uh)).pmapUnread 3 1 0 0 = false ∧ (tenants (.nop uh)).pmapOdd 3 1 0 = false ∧
    ((tenants (.nop uh)).modPage (2 ^ 20 / 2 ^ 17) fun p => { p with cleared := false, bad := [(0, 0)] }).pmapUnread 3 1 0 0
      = true ∧
    tgoes (.tlbiVd { uh with lit := 3 } .lit) = true ∧ tgoes (.tlbiPage { uh with lit := 3 } .lit .zero) = true ∧
    tgoes (.tlbiPad uh .one) = true ∧ tgoes (.tlbiAll uh .zero) = true ∧
    tgoes (.vdnset { uh with lit := 0xFFFFFFF } .lit .zero) = true ∧
    tgoes (.vdnset { uh with lit := 13 } .zero .lit) = true ∧ bits 13 1 0 = 1 ∧ bits 13 8 2 = 3 ∧
    tgoes (.clearp { uh with lit := 8388607 } .lit .one) = true ∧ (∀ e ∈ (tenants (.nop uh)).pages, e.2.count = 0 ∧ e.2.table = false) := by decide +kernel
theorem test_issues_code_and_migration :
    (withWord (.nop uh)).struck (commonsAt 0 64) 8 = false ∧
    ({ withWord (.nop uh) with upsets := [(commonsAt 0 64, 1)] } : State).struck (commonsAt 0 64) 8 = true ∧
    issues (withWord (.crkloadLoad (ehl 2 64 (15 * 2 ^ 16 + 1) 9 0) .lit 15)) q0
      (.crkloadLoad (ehl 2 64 (15 * 2 ^ 16 + 1) 9 0) .lit 15) = true ∧
    crkBad (withWord (.nop uh)) q0 0 15 2 64 (15 * 2 ^ 16 + 1) 9 0 = false ∧
    tgoes (.crkloadUnbind (ehl 2 0 0 0 0) .lit 15) = true ∧
    crkBad ((tenants (.nop uh)).modPad 2 fun d => { d with binds := [(15, ⟨0, 1, 0⟩)] }) q0 1 15 2 0 0 0 0 = false ∧
    tgoes (.crkloadEvict (ehl 2 0 0 0 0) .lit 15) = true ∧
    crkBad ((tenants (.nop uh)).modPad 2 fun d => { d with binds := [(15, ⟨0, 1, 0⟩)] }) q0 2 15 2 0 0 0 0 = false ∧
    tgoes (.codemv (ehl 2 4096 8192 4096 0) .lit) = true ∧ rangesMeet 8192 4096 4096 4096 = false ∧
    tgoes (.shepBegin (ehl 3 256 1 0 0) .lit) = true ∧ (tenants (.nop uh)).shepBad 0 3 256 1 false = false ∧
    tgoes (.shepRound (ehl 5 0 0 0 0) .lit) = true ∧ (tenants (.nop uh)).shepBad 1 5 0 0 false = false ∧
    tgoes (.shepStop (ehl 5 1 0 0 0) .lit) = true ∧ (tenants (.nop uh)).shepBad 2 5 1 0 false = false ∧
    tgoes (.shepAbort (ehl 5 0 0 0 0) .lit) = true ∧ (tenants (.nop uh)).shepBad 3 5 0 0 false = false ∧
    tgoes (.shepAccept (ehl 3 0x10000 0 0 0) .lit) = true ∧ (tenants (.nop uh)).shepBad 4 3 0x10000 0 false = false ∧
    tgoes (.savexSave (ehl 3 8 0 0 0) .lit) = true ∧ tgoes (.savexThaw (ehl 5 0 0 0 0) .lit) = true ∧
    tgoes (.savexDiscard (ehl 5 0 0 0 0) .lit) = true ∧ tgoes (.loadx (ehl 3 0 0 0 0) .lit) = true ∧
    isHbm 8 = true ∧ (tenants (.nop uh)).drovesOf 3 = [] := by decide +kernel

/-! ### Crooks -/

/-- CROOK3 bound to one COMMIT that pushes operand A, or that stores operand C at B; or evicted. -/
def crookWith (w : DWord) (len : Nat) (i : Instr) : State :=
  ((demo i).modPad 0 fun d => { d with binds := [(3, ⟨0, len, 0⟩)] }).modCore 0 fun c => { c with store := [(0, w)] }
def crk : Instr := .crook xh 3 0 0 (.v 4) (.const .zero) (.const .zero) (.const .zero)
/-- COMMIT.ST: B %b, C %c, MOD 1. -/
def commitSt : DWord := 0xFFF4254001000000#64
/-- A crook of the demo band has begun and its first wave is to come; the next move is an event of another die. -/
def running : State :=
  let c : CrookRun :=
    { i := crk, bandB := false, lanes := q0.lanes, pc := 0, count := 0, act := q0.lanes
      ops := List.replicate 32 [0#32, 0#32, 0#32], run := CrkRun.start, left := [commitA], parts := none, bad := false }
  (demo crk).modStage 0 0 fun st => { st with turn := some { oneTurn with run := some c } }
theorem test_crook_beside : running.crookMarks ≠ [] ∧
    (match step { running with agenda := [.event (.bandwidthWindow 15)] } with
      | .next t => running.crookMarks.all fun m => t.crookMarks.contains m
      | _ => false) = true := by decide +kernel
theorem test_issues_crook :
    issues (demo crk) q0 crk = true ∧ (demo crk).pad 0 = (demo crk).pad 0 ∧
    kget ((demo crk).pad 0).binds 3 = none ∧ issues (crookWith 0 0 crk) q0 crk = true ∧
    issues (crookWith commitA 1 crk) q0 crk = true ∧ unsettled (crookWith commitA 1 crk) q0 crk = false ∧
    (crookWith commitA 1 crk).crookHeld q0 [commitA] = false ∧ sequenceOk [commitA] = true ∧
    sequenceOk [commitSt] = true ∧ (microOf commitA).md.testBit 0 = false ∧ (microOf commitSt).md.testBit 0 = true ∧
    (microOf commitSt).md.testBit 3 = false ∧
    (crookWith commitSt 1 crk).spTrap oneFold q0.lanes (commitAcc (microOf commitSt) fun _ _ => 0) = none := by
  decide +kernel


/-! ### Turns, flocks and folds -/

/-- No band has a turn. -/
def idle (i : Instr) : State := (demo i).modStage 0 0 fun st => { st with turn := none }
theorem test_turn_selection : ((idle (.nop uh)).stageOf 0 0).turn = none ∧
    (idle (.nop uh)).pickSlot ((idle (.nop uh)).stageOf 0 0) = some (0, 0, 0) ∧
    ((idle (.nop uh)).flock 0 0).deliver = 0 := by decide +kernel
/-- The step at reset with an issue of the demo band. -/
theorem test_step_runs : (demo (.nop uh)).agenda = .issue 0 0 :: [] ∧ (demo (.nop uh)).holdReset = false ∧
    (demo (.nop uh)).started = true ∧ (demo (.nop uh)).crooks = [] ∧
    ({ demo (.nop uh) with agenda := [] }.attend 0 0).fetchStruck
      (({ demo (.nop uh) with agenda := [] }.attend 0 0).fo q0).paddock q0.pc = false ∧ isCrook (.nop uh) = false ∧
    ({ demo (.nop uh) with agenda := [] }.attend 0 0).issuer = some q0 ∧
    ({ demo (.nop uh) with agenda := [] }.attend 0 0).fetch
      (({ demo (.nop uh) with agenda := [] }.attend 0 0).fo q0).paddock q0.pc = some (encode (.nop uh)) ∧
    decode (encode (.nop uh)) = some (.nop uh, []) := by decide +kernel
theorem test_step_sound : Sound State.reset ∧ step State.reset = .next State.reset := ⟨by unfold Sound; decide, rfl⟩

/-- A fold on core 0 whose flock is changed, with the clocks of die 0 advanced. -/
def resting (g : Flock → Flock) (h : Fold → Fold) (n : Nat) : State :=
  (((idle (.nop uh)).modFlock 0 0 g).modFold 0 h).modDie 0 fun d => { d with refs := n, cycles := n }
def parked : State := resting (fun fl => { fl with parked := true }) id 0
theorem test_unpark : kget parked.folds 0 = some (parked.fo q0) ∧ (parked.flock? 0 0).isSome = true ∧
    (parked.flock 0 0).parked = true ∧ parked.ops = [] ∧ parked.copiesOf 0 = [] ∧
    ((parked.core 0).mq.filter fun m => m.fold == 0 && m.flock == 0).length ≤ 24 ∧
    parked.inTurn 0 0 0 = false := by decide +kernel
/-- Lane 3 waits in a TRYWAIT since cycle 0, lane 4 since cycle 1. -/
def trying : State := resting (fun fl => { fl with waits :=
  [none, none, none, some (.trywait 0 1 0 1 false 0 8), some (.trywait 0 1 0 1 false 1 8)] }) id 2048
theorem test_timeout : kget trying.folds 0 = some (trying.fo q0) ∧ (trying.flock? 0 0).isSome = true ∧
    (trying.flock 0 0).wait 3 = some (.trywait 0 1 0 1 false 0 8) ∧
    0 + 2048 ≤ (trying.die (dieOf (trying.fo q0).core)).cycles ∧
    (trying.flock 0 0).wait 4 = some (.trywait 0 1 0 1 false 1 8) ∧
    (trying.die (dieOf (trying.fo q0).core)).cycles < 1 + 2048 := by decide +kernel
/-- Code with 64 registers, one flock and two segments in its prologue, and one segment in its floor. -/
def twoSegs : CodeObj := { oneObj 1 with prologue := ⟨64, 1, 2, 0, 4⟩ }
/-- A drove with its one fold pending, and nothing on any core. -/
def waitingDrove : Drove := { oneDrove with nextFold := 0 }
def empties (o : CodeObj) (n : Nat) : State :=
  (({ State.reset with droves := [(5, waitingDrove)], nextId := 6 }.setReg 0 0 0x0E 0 (2 ^ 52)).modPad 0
    fun x => { x with objs := [(0, o)] }).modDie 0 fun d => { d with cycles := n }
theorem test_admission : kget (empties twoSegs 0).droves 5 = some waitingDrove ∧
    kget ((empties twoSegs 0).pad waitingDrove.paddock).objs waitingDrove.obj = some twoSegs ∧
    (empties twoSegs 0).mayAdmit waitingDrove = true ∧ (empties twoSegs 0).targetOf waitingDrove = some 0 ∧
    (empties twoSegs 0).folds = [] ∧ (∀ e ∈ (empties twoSegs 0).droves, e.1 = 5 ∧ e.2 = waitingDrove) ∧
    (empties twoSegs 0).segsFree 0 twoSegs.prologue.segs [6, 2] = true := by decide +kernel
/-- A fold stopped at core 0, and nothing else. -/
def stopped : State :=
  { empties (oneObj 1) 0 with
    droves := [(0, oneDrove)], folds := [(0, { oneFold with status := .stopped, segs := [] })] }
theorem test_restore : kget stopped.folds 0 = some (stopped.fo q0) ∧ stopped.mayReturn (stopped.fo q0) = true ∧
    stopped.waitsOn (stopped.fo q0) (dieOf 7) = true ∧ (∀ e ∈ stopped.folds, e.1 = 0) ∧
    stopped.streamsOk (stopped.fo q0).paddock (dieOf 0) (stopped.objOf (stopped.fo q0)) = true ∧
    stopped.bestCore 0 (dieOf 0) (stopped.objOf (stopped.fo q0)) (stopped.returnNeed (stopped.fo q0)) = some 0 ∧
    stopped.segsFree 0 ((stopped.objOf (stopped.fo q0)).section (stopped.restoreSect (stopped.fo q0))).segs [3]
      = true := by decide +kernel
def ended : State := resting (fun fl => { fl with exited := ~~~0 }) id 0
theorem test_fold_end : kget ended.folds 0 = some (ended.fo q0) ∧
    (∀ k < (ended.fo q0).flocks.length, (ended.flock 0 k).live = 0 ∧ (ended.flock 0 k).parked = false) ∧
    ended.copiesOf 0 = [] ∧ ended.spLeft 0 = false ∧ (ended.fo q0).onCore = true ∧ ended.matrixQuiet 0 (ended.fo q0) = true := by
  decide +kernel
/-- Segment 3 of core 639 has been released and not yet cleared; segment 4 has not. -/
theorem test_clearing : (let s := State.reset.modCore 639 fun c => { c with dirtySegs := [3], dirtySlots := [1], dirty0 := 9 }
    Sound s ∧ 3 ∈ (s.core 639).dirtySegs ∧ 4 ∉ (s.core 639).dirtySegs) := by unfold Sound; decide +kernel
theorem test_aging : kget (empties twoSegs (2 ^ 20)).droves 5 = some waitingDrove ∧
    waitingDrove.pendingFold = true ∧
    waitingDrove.since.getD 0 0 + 2 ^ 20 ≤ ((empties twoSegs (2 ^ 20)).die 0).total := by decide +kernel
/-- The fold holds two segments in its prologue while a drove waits. -/
def shrinking : State :=
  { empties twoSegs 4096 with folds := [(0, { oneFold with sect := 4, segs := [0, 1] })] }
theorem test_shrink : kget shrinking.folds 0 = some (shrinking.fo q0) ∧ (shrinking.fo q0).onCore = true ∧
    (5, waitingDrove) ∈ shrinking.droves ∧ waitingDrove.paddock = (shrinking.fo q0).paddock ∧
    shrinking.mayAdmit waitingDrove = true ∧ waitingDrove.since.getD 0 0 + 4096 ≤ (shrinking.die 0).total ∧
    (shrinking.objOf (shrinking.fo q0)).floor.segs < (shrinking.budget (shrinking.fo q0)).segs := by decide +kernel

/-- A stopped fold that has waited on die 0 since cycle 0. -/
def waitingFold : State :=
  { shrinking with folds := shrinking.folds ++
      [(9, { oneFold with status := .stopped, segs := [], waitFrom := [(0, 0)] })] }
theorem test_shrink_for_fold : kget waitingFold.folds 0 = some (shrinking.fo q0) ∧
    (waitingFold.folds.any fun e => e.1 == 9 && waitingFold.mayReturn e.2 && waitingFold.waitsOn e.2 0
      && kget e.2.waitFrom 0 == some 0) = true ∧ 0 + 4096 ≤ (waitingFold.die 0).total := by decide +kernel

/-! ### Droves and queues -/

/-- A launch record of all zeros but for a grid of one fold, at an address. -/
def recorded (a : Nat) : State := { demo (.nop uh) with mem := memWrite (demo (.nop uh)).mem (a + 8) (leBytes (1 + 2 ^ 32 + 2 ^ 48) 8) }
def launching : State :=
  { recorded (commonsAt 0 0) with
    nextId := 9
    launches := [(8, { fold := 0, drove := 0, paddock := 0, vd := 127, die := 0, core := 0, flock := 0, pc := 0
                       addr := commonsAt 0 0, group := 0, gx := 1, gy := 1, gz := 1, pool := 0 })]
    ops := [(8, { storing .launch 0 with todo := [(31, ([], []))] })] }
theorem test_launch_record : (kget launching.launches 8).isSome = true ∧ (kget launching.ops 8).isSome = true ∧
    launching.droveIdOk 0 7 = true ∧ (∀ e ∈ launching.ops, 8 ≤ e.1) ∧
    (∀ e ∈ launching.ops, launching.coverWaits 8 e.2 ((lanesOf e.2.whose).headD 0) ⟨true, false, false, false⟩ false = false) ∧
    launching.struck (commonsAt 0 0) 256 = false ∧
    launching.launchBad 0 true (launchOf (memRead launching.mem (commonsAt 0 0) 256)) = false := by decide +kernel
/-- Queue 15 of the physical function of port B holds a record, its ring at bus address 4096 with 16
entries, and completion queue 15 is there too. -/
def queued : State :=
  let s := { demo (.nop uh) with
    mem := memWrite (demo (.nop uh)).mem (hostPa 1 4096 + 8) (leBytes (1 + 2 ^ 32 + 2 ^ 48) 8), nextId := 9 }
  (((s.setBar 129 (lqReg 15 0) (4096 + 4)).setBar 129 (lqReg 15 2) 1).setBar 129 (lqReg 15 3) 15).setBar 129
    (cqReg 15 0) (8192 + 4)
theorem test_launch_entry : queued.serves 129 = true ∧ queued.fnUp 129 = true ∧ queued.queueServed 129 15 = true ∧
    queued.unread 129 15 ≠ 0 ∧ queued.droveIdOk (queued.padOfFn 129) 7 = true ∧
    queued.launchBad (queued.padOfFn 129) false
      (launchOf (memRead queued.mem (ringAt 129 (queued.bar 129 (lqReg 15 0)) 256 0) 256)) = false := by
  decide +kernel
/-- The drove's one fold has ended. -/
def finished : State := { empties (oneObj 1) 0 with droves := [(5, { oneDrove with ended := 1 })] }
theorem test_retire : kget finished.droves 5 = some { oneDrove with ended := 1 } ∧ oneDrove.retired = false ∧
    oneDrove.nextFold = oneDrove.gx * oneDrove.gy * oneDrove.gz ∧ (∀ e ∈ finished.droves, e.2.host = true) ∧
    finished.launches = [] ∧ finished.copies = [] ∧ finished.ops = [] ∧
    finished.recordWaits { oneDrove with ended := 1 } = false ∧
    (finished.vd ({ oneDrove with ended := 1 } : Drove).fn).withheldCount < 1024 ∧
    1024 ≤ ((finished.modVd 128 fun v => { v with withheld := [(0, List.replicate 1024 (1, 5, []))] }).vd
      ({ oneDrove with ended := 1 } : Drove).fn).withheldCount := by decide +kernel
def completing : State := queued.modVd 129 fun v => { v with withheld := [(15, [(3, 5, [1#32, 2#32, 3#32, 0#32])])] }
theorem test_completion : Sound completing ∧
    kgetD (completing.vd 129).withheld 15 [] = (3, 5, [1#32, 2#32, 3#32, 0#32]) :: [] ∧
    (completing.vd 129).inOrder 3 = true ∧
    completing.runs 129 = true ∧ completing.fnUp 129 = true ∧ 15 < completing.cqn 129 ∧ completing.bar 129 (cqReg 15 0) ≠ 0 ∧
    (completing.bar 129 (cqReg 15 1) + 2 ^ 32 - completing.bar 129 (cqReg 15 2) % 2 ^ 32) % 2 ^ 32
      < 2 ^ bits (completing.bar 129 (cqReg 15 0)) 3 0 ∧ completing.ops = [] := by
  unfold Sound; decide +kernel

/-! ### Stops -/

/-- Two flocks on core 0 under a stop: flock 0 at a barrier that has a live map, flock 1 running. -/
def halting (want n : Nat) (ws : List (Option Wait)) : State :=
  ((idle (.nop uh)).modFold 0 fun fo => { fo with
    flocks := [{ oneFlock with waits := ws }, { oneFlock with ix := 1 }], stopWanted := want
    stopT1 := n, stopT2 := n }).modDie 0 fun d => { d with refs := 7 }
def allAt (w : Wait) : List (Option Wait) := List.replicate 32 (some w)
def held (s : State) : State := s.modPad 0 fun d => { d with held := true }
theorem test_stop_request : kget (held trying).folds 0 = some (trying.fo q0) ∧ (trying.fo q0).onCore = true ∧
    (trying.fo q0).stopWanted = 0 ∧ (held trying).stopDue (trying.fo q0) = true ∧
    ((held trying).flock? 0 0).isSome = true ∧
    ((held trying).flock 0 0).wait 3 = some (.trywait 0 1 0 1 false 0 8) := by decide +kernel
/-- A copy operation of the fold's flock 0 on core 0: one chunk at device address 0. -/
def copying (kind phase note : Nat) : CopyOp :=
  { copyOpOf (demo (.nop uh)) 0 0 0 oneFold with kind := kind, phase := phase, note := note, naddr := commonsAt 0 0 }
def withCopy (s : State) (o : CopyOp) : State := { s with copies := [(4, o)], nextId := 5 }
theorem test_deadline : kget (withCopy (halting 1 7 []) (copying 0 1 0)).folds 0 = some ((halting 1 7 []).fo q0) ∧
    ((halting 1 7 []).fo q0).paddock = 0 ∧ ((halting 1 7 []).fo q0).onCore = true ∧
    ((halting 1 7 []).fo q0).stopT1 ≤ ((halting 1 7 []).die 0).refs ∧
    (copying 0 1 0).fold = 0 ∧ (copying 0 1 0).phase = 1 ∧ (copying 0 1 0).kind ≠ 5 ∧ (copying 0 1 0).wrote = false ∧
    ((withCopy (halting 1 7 []) (copying 0 1 0)).modCore 0 fun c => { c with own := [(0, .copy 4)] }).leftOf 4
      (copying 0 1 0) ≠ [] ∧ (copying 1 1 0).data = [] ∧ (copying 2 1 0).kind = 2 := by decide +kernel
theorem test_saves :
    ((halting 1 9 (allAt (.bar 0 0 8))).fo q0).flocks[0]? = some { oneFlock with waits := allAt (.bar 0 0 8) } ∧
    ((halting 1 9 (allAt (.bar 0 0 8))).fo q0).flocks[1]? = some { oneFlock with ix := 1 } ∧
    ((((halting 1 9 (allAt (.bar 0 0 8))).fo q0).flocks.find? fun x =>
      (halting 1 9 (allAt (.bar 0 0 8))).savable 0 ((halting 1 9 (allAt (.bar 0 0 8))).fo q0) x
        && (x.atRest && !x.handler)).map Flock.ix) = some 0 ∧
    ((((halting 2 9 []).fo q0).flocks.find? fun x =>
      (halting 2 9 []).savable 0 ((halting 2 9 []).fo q0) x && (!x.atRest && !x.handler)).map Flock.ix) = some 0 := by
  decide +kernel
/-- Both flocks are saved, one of them at an instruction boundary. -/
def savedUp : State := (halting 2 9 []).modFold 0 fun fo =>
  { fo with flocks := [{ oneFlock with saved := 2 }, { oneFlock with ix := 1, saved := 1 }] }
theorem test_finish : kget savedUp.folds 0 = some (savedUp.fo q0) ∧ (savedUp.fo q0).onCore = true ∧
    (savedUp.fo q0).allSaved = true ∧ savedUp.matrixQuiet 0 (savedUp.fo q0) = true ∧
    savedUp.copiesStill 0 = true ∧ ((savedUp.fo q0).flocks.any fun fl => fl.saved == 2) = true := by decide +kernel
/-- Every lane waits in a CWAIT for drove 9. -/
def forKids : State :=
  { resting (fun fl => { fl with waits := allAt (.cwait [9] 0 8) }) id 0 with
    droves := [(0, oneDrove), (9, { oneDrove with host := false })] }
theorem test_child_stop : kget forKids.folds 0 = some (forKids.fo q0) ∧ (forKids.fo q0).status = .resident ∧
    (forKids.fo q0).stopWanted = 0 ∧ forKids.waitsForKids (forKids.fo q0) = true ∧
    (∀ fl ∈ (forKids.fo q0).flocks, fl.atRest = true ∧ fl.handler = false ∧
      (fl.live ≠ 0 → forKids.savable 0 (forKids.fo q0) fl = true)) ∧
    forKids.matrixQuiet 0 (forKids.fo q0) = true ∧ forKids.copiesStill 0 = true := by decide +kernel
/-- Flock 1 is in handler mode at T1 + T2. -/
def handling : State := (halting 2 7 []).modFlock 0 1 fun fl => { fl with handler := true, tlanes := 1 }
theorem test_forced_reset : kget handling.folds 0 = some (handling.fo q0) ∧
    (handling.fo q0).paddock = 0 ∧ (handling.fo q0).onCore = true ∧
    (handling.fo q0).stopWanted = 2 ∧ handling.quiesced 0 (handling.fo q0) = false ∧
    (handling.fo q0).stopT2 ≤ (handling.die (dieOf (handling.fo q0).core)).refs ∧
    kget (halting 2 7 []).folds 0 = some ((halting 2 7 []).fo q0) ∧
    (∀ e ∈ (halting 2 7 []).folds, e.1 = 0 → e.2 = (halting 2 7 []).fo q0) ∧
    (halting 2 7 []).quiesced 0 ((halting 2 7 []).fo q0) = true := by
  decide +kernel
/-- Paddock 1 is shared, and slice 7 with virtual device 3 runs or follows; a drove of it is pending. -/
def slicing (run : Option SliceEnt) (n : Nat) : State :=
  { (tenants (.nop uh)).modPad 1 fun d => { d with
      slices := [(7, ⟨true, 3, 1⟩)], runEnt := run, delivered := n, switching := false } with
    droves := [(5, { waitingDrove with paddock := 1, vd := 3 })], folds := [] }
theorem test_slices : ((slicing (some ⟨true, 3, 1⟩) 65536).pad 1).runEnt = some ⟨true, 3, 1⟩ ∧
    (slicing (some ⟨true, 3, 1⟩) 65536).kind 1 = 2 ∧ ((slicing (some ⟨true, 3, 1⟩) 65536).pad 1).held = false ∧
    ((slicing (some ⟨true, 3, 1⟩) 65536).pad 1).switching = false ∧
    1 * 65536 ≤ ((slicing (some ⟨true, 3, 1⟩) 65536).pad 1).delivered ∧
    (((slicing (some ⟨true, 3, 1⟩) 0).modPad 1 fun d => { d with idle := true }).pad 1).idle = true ∧
    ((slicing (some ⟨true, 3, 1⟩) 0).vd 3).withheldCount = 0 ∧
    (slicing (some ⟨true, 3, 1⟩) 65536).releasing 3 = false ∧ (slicing (some ⟨true, 3, 1⟩) 0).releasing 3 = false ∧
    ((slicing none 0).pad 1).runEnt = none ∧ (slicing none 0).folds = [] ∧
    (slicing none 0).nextSlice 1 = some (7, ⟨true, 3, 1⟩) ∧ ((slicing none 0).sliceEnt 1 7).valid = true ∧
    (slicing none 0).vdIdle ((slicing none 0).sliceEnt 1 7).vd = false := by decide +kernel

/-! ### Engines -/

/-- Chunk 0 of core 0 with a holder. -/
def holding (s : State) (h : Holder) : State := s.modCore 0 fun c => { c with own := [(0, h)] }
theorem test_chunk_return :
    kget ((holding (demo (.nop uh)) .matrix).core 0).own 0 = some .matrix ∧
    kget ((holding (demo (.nop uh)) .matrix).core 0).hold 0 = none ∧
    (let s := holding (withCopy (demo (.nop uh)) (copying 0 1 0)) (.copy 4)
     kget (s.core 0).own 0 = some (.copy 4) ∧ s.copyRuns (copying 0 1 0) = true ∧
     ((List.range (copying 0 1 0).count).find? fun i =>
       segChunk (copying 0 1 0).segs ((copying 0 1 0).first + i) == 0) = some 0 ∧
     s.rangesFit 4 (copying 0 1 0) 0 = true ∧
     (match s.loadRows (copying 0 1 0) ((copying 0 1 0).chunkRows 0) with
      | .ok (bs, n, _) => bs.length == 512 && n == 512
      | .error _ => false) = true) := by decide +kernel
theorem test_copy_start : (copying 4 0 0).phase = 0 ∧ ((demo (.nop uh)).fo q0).stopWanted = 0 ∧
    (withCopy (demo (.nop uh)) (copying 4 0 0)).streamStalled (copying 4 0 0) = false ∧
    (withCopy (demo (.nop uh)) (copying 4 0 0)).engineFree 0 0 4 (copying 4 0 0).lanes = true ∧
    (∀ ch ∈ (copying 4 0 0).chunks, (withCopy (demo (.nop uh)) (copying 4 0 0)).chunkQuiet 0
      (segChunk (copying 4 0 0).segs ch) = true) := by decide +kernel
theorem test_copy_complete : Sound (withCopy (demo (.nop uh)) (copying 0 1 1)) ∧
    (withCopy (demo (.nop uh)) (copying 0 1 1)).copyRuns (copying 0 1 1) = true ∧
    (∀ ch ∈ (copying 0 1 1).chunks, (withCopy (demo (.nop uh)) (copying 0 1 1)).heldBy 0 4
      (segChunk (copying 0 1 1).segs ch) = false) ∧
    (withCopy (demo (.nop uh)) (copying 0 1 1)).performedBefore 0 0 4 = true ∧
    (withCopy (demo (.nop uh)) (copying 0 1 1)).noteReady (copying 0 1 1).naddr = true ∧
    (copying 0 1 1).acked = true ∧ (withCopy (demo (.nop uh)) (copying 0 1 1)).restOf (copying 0 1 1) = false ∧
    (withCopy (demo (.nop uh)) (copying 0 1 1)).struck (copying 0 1 1).naddr 4 = false ∧
    -- one range of a remnant that has another
    (let o := { copying 0 1 1 with rem := 9 }
     let s := { withCopy (demo (.nop uh)) o with copies := [(4, o), (6, o)] }
     s.restOf o = true ∧ s.copyRuns o = true ∧ (∀ ch ∈ o.chunks, s.heldBy 0 4 (segChunk o.segs ch) = false) ∧
     s.performedBefore 0 0 4 = true ∧ s.noteReady o.naddr = true) := by
  unfold Sound; decide +kernel
theorem test_copy_fault : ({ copying 5 1 0 with fail := some 7 } : CopyOp).fail = some 7 ∧ (copying 5 1 0).kind ≠ 7 ∧
    (copying 5 1 0).phase ≠ 3 ∧ ((demo (.nop uh)).flock 0 0).born = (copying 5 1 0).born ∧
    ((withCopy (demo (.nop uh)) { copying 5 1 0 with fail := some 7 }).flock? 0 0).isSome = true ∧
    ((demo (.nop uh)).flock 0 0).live ≠ 0 ∧ ((demo (.nop uh)).flock 0 0).handler = false := by decide +kernel
/-- A store of virtual device 3, whose stage-2 table is empty. -/
def translated : CopyOp := { copying 1 1 0 with paddock := 1, vd := 3 }
def unmapped : State := withCopy ((tenants (.nop uh)).setReg 1 3 2 0 1) translated
theorem test_translation : ((unmapped.copyErr 4 translated).map fun e => e.2.stage) = some 2 ∧
    unmapped.faultAssist translated = false ∧ unmapped.copyRuns translated = true ∧ translated.paddock ≠ 0 ∧
    translated.assist = false ∧
    ({ translated with phase := 2 } : CopyOp).phase = 2 ∧ unmapped.standby ≠ 1 := by decide +kernel
/-- Virtual device 3 with both stages mapping the lowest 512 MiB onto themselves, number 77, and a group 0 of
that number alone at 16 MiB; one page of host window. -/
def mapped : State :=
  let s := ((((tenants (.nop uh)).setReg 1 3 2 0 (2 ^ 22 + 1)).setReg 1 3 4 0 (2 ^ 16 + 77)).setReg 0 1 0x0F 0
    (2 ^ 24 + 2 ^ 52)).setReg 1 3 3 0 (2 ^ 10)
  let w := fun m (e : Nat × Nat) => memWrite m e.1 (leBytes e.2 8)
  { s with mem := [(2 ^ 20, 2 ^ 21 + 1), (2 ^ 21, 27), (2 ^ 22, 2 ^ 23 + 1), (2 ^ 23, 27), (2 ^ 24, 1),
      (2 ^ 24 + 8, 2 ^ 24 + 16), (2 ^ 24 + 16, 77), (scratchAt 0 0, 2 ^ 32),
      (scratchAt 0 8, 0x010101), (scratchAt 0 16, 7)].foldl w s.mem }
def collective : CopyOp := { translated with kind := 5, rowlen := 512, group := [77] }
theorem test_collective :
    (let s := withCopy mapped collective
     s.copyRuns collective = true ∧ kget collective.data 0 = none ∧
     s.ownVdn 3 = some 77 ∧ s.readsBad collective.core collective.segs [(512 * collective.first, 64)] = false ∧
     s.rankOf collective = 0 ∧ shapeBad (s.shape collective) 1 0 = false ∧ s.subOf collective = [77] ∧
     subGroup (shGrid (s.shape collective)).1 (shGrid (s.shape collective)).2.1 (shGrid (s.shape collective)).2.2
       (bits ((s.shape collective).getD 4 0) 2 0) 0 = [0] ∧
     (match s.memberParts collective (shapeBytes (s.shape collective)) [(77, [])] with
      | some (xs, _) => xs.length == 1 && xs.all fun x => shapeMatch (s.shape collective) x.1
      | none => false) = true ∧
     s.memberHere collective 77 = true ∧
     (match s.mate collective 77 with
      | some (id, m) => id == 4 && s.copyRuns m
          && !s.readsBad m.core m.segs [(512 * m.first, 64)] && !shapeBad (s.shape m) 1 0
          && shapeMatch (s.shape collective) (s.shape m)
      | none => false) = true ∧
     (match s.copyRead collective.keep 1 3 collective.addr (shapeBytes (s.shape collective)) with
      | .ok (bs, _) => bs.length == shapeBytes (s.shape collective)
      | .error _ => false) = true) := by decide +kernel
/-- A record and contribution that came from number 78, of another device, and one of another count: what the first
matches is the operation's record. A record of rank 5 breaks a rule. -/
theorem test_collective_remote :
    (let s := { withCopy mapped collective with vdns := [(77, ⟨1, 0, 0, 3, 0, (0, 0), 0⟩), (78, ⟨2, 0, 0, 0, 900, (0, 0), 0⟩)] }
     let came := wordsBytes ((s.shape collective).map wd) ++ [1, 2]
     let other := wordsBytes (((s.shape collective).set 1 3).map wd)
     s.memberHere collective 78 = false ∧ came.length = 64 + 2 ∧
     shapeMatch (s.shape collective) ((List.range 16).map fun j => leNat ((came.drop (4 * j)).take 4)) = true ∧
     (match s.memberParts { collective with group := [77, 78] } 2 [(78, other)] with
      | some (xs, _) => xs.any fun x => !shapeMatch (s.shape collective) x.1
      | none => false) = true ∧ shapeBad (s.shape collective) 1 5 = true) := by decide +kernel
theorem test_staging :
    ((withCopy (resting id (fun fo => { fo with status := .staging }) 0) (copying 7 1 0)).copies.filter fun e =>
      e.2.fold == 0 && e.2.kind == 7 && e.2.qn == 0) = [(4, copying 7 1 0)] ∧
    (withCopy (resting id (fun fo => { fo with status := .staging }) 0) (copying 7 1 0)).copyRuns (copying 7 1 0)
      = true ∧
    (match (withCopy (demo (.nop uh)) (copying 7 1 0)).copyRead (copying 7 1 0).keep 0 127 0 512 with
      | .ok (bs, _) => bs.length == 512
      | .error _ => false) = true ∧
    ((resting id (fun fo => { fo with status := .staging }) 0).fo q0).status = .staging := by decide +kernel
theorem test_flushh : (storing .flushh 0).kind = .flushh ∧
    kget (underway (storing .flushh 0)).ops 5 = some (storing .flushh 0) ∧
    (∀ e ∈ (underway (storing .flushh 0)).ops, 5 ≤ e.1) ∧ 5 < (underway (storing .flushh 0)).nextId ∧
    (storing .flushh 0).failed = false ∧ (storing .flushh 0).held = [] ∧
    -- an earlier store of the flock to a host window
    (storing .store 0).writes = true ∧ (windowAt 0 64) ∈
      ({ storing .store 0 with todo := [(31, ([windowAt 0 64], [7#32]))] } : MemOp).addrsIn (~~~0) ∧
    2 ^ 46 ≤ windowAt 0 64 ∧ windowAt 0 64 < 2 ^ 47 := by decide +kernel

/-! ### Units, hosts and records -/

/-- A request of a unit under way, beside the tenants. -/
def asking (o : PrivOp) : State := { mapped with privs := [(5, o)], nextId := 6 }
def request (what elem reg ix val : Nat) : PrivOp := { privOf what elem [0] with reg := reg, ix := ix, val := val }
/-- The configuration unit's oldest request, which nothing holds back. -/
def cfgReady (s : State) (o : PrivOp) : Bool :=
  (s.privs.find? fun e => e.2.what == 20 || e.2.what == 21) == some (5, o) && s.cfgDrained o && !s.cfgInRun 5 o
    && o.pool == 0 && o.note == 0
def cfgGoes (reg val : Nat) (args : List Nat) : Bool :=
  let o := { request 20 1 reg 0 val with args := args }
  cfgReady { asking o with cores := [] } o
theorem test_config_complete :
    [0x00, 0x01, 0x02, 0x03, 0x04, 0x05, 0x06, 0x07, 0x08, 0x09, 0x0B, 0x0C, 0x0D, 0x0E, 0x0F, 0x20, 0x21, 0x22, 0x23, 0x24,
      0x25, 0x40, 0x41].all (fun r => cfgGoes r 9 [0]) = true ∧
    [1, 2, 3].all (fun v => cfgGoes 0x0A v [0]) = true ∧
    -- core 1 taken from paddock 1, and the shared paddock made a fixed one
    cfgGoes 0x01 1 [3] = true ∧ coresTaken 0 3 1 = [1] ∧ cfgGoes 0x00 1 [2] = true ∧ bits 2 1 0 ≠ bits 1 1 0 ∧
    -- a virtual device no longer valid
    bitOf 256 8 ≠ bitOf 0 8 ∧ cfgGoes 0x20 0 [256] = true := by decide +kernel
theorem test_config_read_complete :
    (let o := { request 21 1 0 0 0 with naddr := commonsAt 0 8 }
     let s := asking o
     (s.privs.find? fun e => e.2.what == 20 || e.2.what == 21) = some (5, o) ∧ Sound s ∧
     s.performedBefore 0 0 5 = true ∧ s.noteReady o.naddr = true) := by unfold Sound; decide +kernel
theorem test_units : (∀ w ∈ [1, 2, 10, 11, 13, 14, 15, 16, 18, 19], kget (asking (request w 1 0 0 1)).privs 5 = some (request w 1 0 0 1)) ∧
    (request 10 1 0 0 1).note = 0 ∧ Sound (asking (request 18 0 0 0 1)) ∧
    -- CRKLOAD of the last slot of the region of paddock 2, with a core
    mapped.crookRuns 2 = false ∧ (running.crookRuns 0) = true ∧
    (mapped.setBw 1 15 0 1024).bwBroken 15 = false ∧
    (15 + [7].length ≤ bits (mapped.reg 0 2 0x06 0) 27 16 ∧
      ((mapped.setReg 0 2 0x01 0 1).padCores 2).isEmpty = false) ∧
    (kget ((mapped.modPad 2 fun d => { d with binds := [(15, ⟨0, 1, 0⟩)] }).pad 2).binds 15).isSome = true ∧
    -- PMAP of a leaf of level 1, and of an entry of the root table, and of none
    mapped.entry2At 3 0 1 = some (2 ^ 20) ∧ mapped.writeErr 0 (2 ^ 20) 8 = none ∧ mapped.upsets = [] ∧
    entryIs 0 0 = false ∧ bitOf (mapped.rd (2 ^ 20) 8) 0 = true ∧ entryIs (2 ^ 21 + 1) 0 = true ∧
    bitOf (mapped.rd (2 ^ 20 + 8) 8) 0 = false ∧ entryIs 27 1 = true ∧
    mapped.waysLeft (request 17 31 0 15 0) = [] ∧ (asking (request 19 127 0 0 0)).msgReady 5 (request 19 127 0 0 0) = true ∧
    -- CODEMV of paddock 2: the one turn is of paddock 0
    (mapped.cores.all fun c => [c.2.st0.turn, c.2.st1.turn].all fun r => r.isNone || r == some oneTurn) = true ∧
    (mapped.fo q0).paddock ≠ 2 := by unfold Sound; decide +kernel
/-- SAVEX, LOADX and SHEP of virtual device 3, which is still: a stream of no bytes, and one whose first record
cannot be read. -/
theorem test_migration_units :
    (∀ w ∈ [40, 41, 42, 43], (let o := { request w 3 (commonsAt 0 8) 0 0 with args := [2 ^ 30, 16] }
      let s := asking o
      kget s.privs 5 = some o ∧ o.note = 0 ∧ o.pool = 0 ∧ Sound s ∧ s.performedBefore 0 0 5 = true ∧
      s.noteReady o.reg = true)) ∧ mapped.vdStill 3 = true ∧
    (∀ f ∈ mapped.folds, f.2.paddock = 0) ∧
    (mapped.streamBad (2 ^ 30) 16 fun off n => mapped.rd (2 ^ 30 + off) n).1 = none ∧
    (let s := mapped.modPage (2 ^ 30 / 2 ^ 17) fun p => { p with cleared := false, bad := [(0, 0)] }
     (s.streamBad (2 ^ 30) 16 fun off n => s.rd (2 ^ 30 + off) n).1 = some 0) ∧
    (∀ w ∈ [30, 31, 32, 33, 34], kget (asking (request w 3 (commonsAt 0 0) 0 0)).privs 5
      = some (request w 3 (commonsAt 0 0) 0 0)) ∧
    1000 * [1, 0, 1001].getD 0 0 < [1, 0, 1001].getD 2 0 ∧ [1, 0, 1000].getD 2 0 ≤ 1000 * [1, 0, 1000].getD 0 0 := by
  unfold Sound; decide +kernel
/-- Virtual device 5 has no tables; the root table of virtual device 3 cannot be read. -/
theorem test_scan : kget (asking (request 30 5 0 0 0)).privs 5 = some (request 30 5 0 0 0) ∧
    (asking (request 30 5 0 0 0)).scanBad 5 = false ∧
    (let s := (asking (request 30 3 0 0 0)).modPage (2 ^ 20 / 2 ^ 17) fun p => { p with cleared := false, bad := [(0, 0)] }
     kget s.privs 5 = some (request 30 3 0 0 0) ∧ s.scanBad 3 = true) := by decide +kernel
theorem test_ways :
    ((asking (request 17 31 0 15 0x8000)).privs.find? fun e => e.2.what == 17 && e.2.ix == 15 &&
      ((asking (request 17 31 0 15 0x8000)).waysLeft e.2).contains 15) = some (5, request 17 31 0 15 0x8000) ∧
    (request 17 31 0 15 0x8000).elem < 32 := by decide +kernel
theorem test_forwarding : kget ((mapped.modPad 2 fun d => { d with fwd := [(0, ⟨0, 4096, 128, [3, 5]⟩)] }).pad 2).fwd 0
      = some ⟨0, 4096, 128, [3, 5]⟩ ∧ (∀ f ∈ [3, 5], kget mapped.folds f = none) := by decide +kernel
/-- The band stands at address 4, which holds no code. -/
def strayed : State := (demo (.nop uh)).modFlock 0 0 fun fl => { fl with pcs := List.replicate 32 4 }
theorem test_fetch_decode : (strayed.attend 0 0).issuer = some { q0 with pc := 4 } ∧
    fetchInstr (strayed.attend 0 0) { q0 with pc := 4 } = none ∧
    (strayed.attend 0 0).fetchStruck 0 4 = false ∧
    -- an error has struck the band's word (R404)
    (let s := ((demo (.nop uh)).modPage ((demo (.nop uh)).codeBase 0 / 2 ^ 17) fun p => { p with bad := [(0, 0)] }).attend 0 0
     s.issuer = some q0 ∧ fetchInstr s q0 = none ∧ s.fetchStruck 0 0 = true) := by decide +kernel
theorem test_host_registers :
    mapped.visible 129 = true ∧ mapped.fnUp 128 = true ∧ mapped.fnUp 129 = true ∧ mapped.fnUp 127 = true ∧ 15 < mapped.lqn 129 ∧ (mapped.vd 129).shep ≠ 2 ∧ (mapped.vd 129).shep ≠ 3 ∧
    15 < mapped.cqn 129 ∧ mapped.visible 3 = true ∧ mapped.vdValid 3 = true ∧ mapped.visible (fnOf 1 0) = true ∧
    15 < mapped.cqn (fnOf 1 0) := by decide +kernel
/-- An operation stalled under guest fault record 7; a configuration request with TAG 9. -/
def answered : State :=
  ((withCopy mapped { translated with phase := 2, posted := some 7 }).modVd 3 fun d => { d with gfOut := [(7, 4)] }).modVd
    129 fun d => { d with reqs := [(9, 64, [2#32, 0#32])] }
theorem test_answers : answered.visible 3 = true ∧ kget (answered.vd 3).gfOut (bits 7 15 0) = some 4 ∧
    (kget answered.copies 4).map CopyOp.phase = some 2 ∧
    ((answered.vd (128 + 1)).reqs.find? fun r => r.1 == bits 9 15 0) = some (9, 64, [2#32, 0#32]) ∧
    (kget answered.copies 4).map CopyOp.posted = some (some (bits 7 15 0)) ∧
    (kget answered.copies 4).map CopyOp.posted ≠ some (some (bits 8 15 0)) := by decide +kernel
/-- Host-assisted migration and configuration of paddock 1. -/
def assisted : State := mapped.setReg 0 1 0 0 (2 + 2 ^ 6 + 2 ^ 7)
theorem test_shepherd_command : (4 : Nat) < 5 ∧ assisted.shepRuns 1 = false ∧
    assisted.shepBad 4 3 (assisted.bar 129 0x9000 % 2 ^ 32) (assisted.bar 129 0x9000 / 2 ^ 32) true = false ∧
    bits (4 * 256 + 3) 6 0 = 3 ∧ bits (4 * 256 + 3) 11 8 = 4 := by decide +kernel
theorem test_config_requests : ({ assisted with standby := 1 } : State).standby = 1 ∧ assisted.standby ≠ 1 ∧
    assisted.vdValid 3 = true ∧ assisted.mode (assisted.vdPad 3) 6 = true ∧ bitOf assisted.portsDown 0 = false ∧
    (assisted.vd (128 + portOf 3)).reqs.length < 64 := by decide +kernel
/-- Virtual function 4 of port 0 is virtual device 3. -/
theorem test_host_window : Sound mapped ∧ fnOf 0 4 = 3 ∧ mapped.visible 3 = true ∧ (mapped.vd 3).shep ≠ 2 ∧
    (mapped.vd 3).shep ≠ 3 ∧ mapped.hwinCount 3 = 1 ∧ mapped.struck (windowAt 0 0) 64 = false ∧
    ({ mapped with upsets := [(windowAt 0 0, 1)] } : State).struck (windowAt 0 0) 64 = true := by
  unfold Sound; decide +kernel
def noting : State :=
  { (queued.setBar 129 0x80 (16384 + 4)).modVd 129 fun d => { d with assist := [[5#32, 6#32]] } with
    evNew := [[1#32]], evBuf := [] }
theorem test_assist_record : Sound noting ∧ (noting.vd 129).assist = [5#32, 6#32] :: [] ∧ noting.bar 129 0x80 ≠ 0 ∧
    (noting.bar 129 0x88 + 2 ^ 32 - noting.bar 129 0x90 % 2 ^ 32) % 2 ^ 32 < 2 ^ bits (noting.bar 129 0x80) 3 0 ∧
    noting.fnUp 129 = true ∧ noting.standby = 0 ∧ (noting.image 3).verifies = true ∧
    (({ noting with images := [(3, ⟨[7#32], true, false⟩)] } : State).image 3).verifies = false ∧ noting.evNew = [1#32] :: [] ∧ noting.evSize = 0 ∧ noting.evBuf = [] := by
  unfold Sound; decide +kernel
/-- An event queue of two records at the first byte of commons; fault queues of paddocks 0 and 1. -/
def queues (full : Bool) : State :=
  let s := ((mapped.setReg 0 0 0x0B 0 (2 ^ 32)).setReg 0 1 0x09 0 (2 ^ 25 + 2 ^ 48)).modPad 1 fun d =>
    { d with faultNew := [[3#32]] }
  { s with evBuf := [[9#32]], mem := if full then memWrite s.mem (2 ^ 25) (leBytes 127 4) else s.mem }
theorem test_event_poll : Sound (queues false) ∧ (queues false).evBuf = [[9#32]] ∧
    (0 + 2 ^ 32 - leNat (memRead (queues false).mem ((queues false).evAt + 4) 4)) % 2 ^ 32 < (queues false).evSize ∧
    leNat (memRead (queues false).mem (queues false).evAt 4) = 0 ∧ (queues false).evBad = false ∧
    (queues false).evSize ≠ 0 ∧ ({ queues false with upsets := [((queues false).evAt, 1)] } : State).evBad = true := by
  unfold Sound; decide +kernel
theorem test_fault_queue : (mapped.modPad 1 fun d => { d with faultNew := [[3#32]] }).fqSize 1 = 0 ∧
    ((queues true).pad 1).faultNew = [3#32] :: [] ∧ (queues true).fqSize 1 ≠ 0 ∧ ((queues true).pad 1).faultBuf = [] ∧
    (queues true).fqSize 1 ≤ ((queues true).fqWord 1 0 + 2 ^ 32 - (queues true).fqWord 1 1) % 2 ^ 32 ∧
    ((queues false).fqWord 1 0 + 2 ^ 32 - (queues false).fqWord 1 1) % 2 ^ 32 < (queues false).fqSize 1 ∧
    (queues true).upsets = [] ∧
    ((queues true).modPage (2 ^ 25 / 2 ^ 17) fun p => { p with cleared := false, bad := [(0, 0)] }).fqReads 1 0 = false := by
  decide +kernel
/-- The same queue, where paddock 0 owns no way of the cache. -/
def queued1 : State := ((queues false).modPad 0 fun d => { d with ways := [(0, 0)] }).modPad 1 fun d =>
  { d with faultNew := [], faultBuf := [[3#32]] }
theorem test_fault_queue_poll : (queued1.pad 1).faultBuf = [[3#32]] ∧ queued1.fqSize 1 ≠ 0 ∧
    (queued1.fqPass 1).fqReads 1 0 = true ∧ (queued1.fqPass 1).fqReads 1 1 = true ∧
    (queued1.fqWord 1 0 + 2 ^ 32 - queued1.fqWord 1 1) % 2 ^ 32 < queued1.fqSize 1 := by decide +kernel
/-- A staged record of virtual device 3, and a trace buffer of paddock 1 of 64 KiB. -/
def tracing : State :=
  { (mapped.setReg 0 1 0x07 0 (2 ^ 25 + 2 ^ 48 + 1)).modPad 1 fun d => { d with runEnt := some ⟨true, 3, 1⟩ } with
    stage := [(16, [[0x30001#32, 2#32]])] }
theorem test_trace_record : kgetD tracing.stage (1 * 16 + 0) [] = [0x30001#32, 2#32] :: [] ∧
    kgetD tracing.traceDrop (1 * 16 + 0) 0 = 0 ∧ wbits (0x30001#32) 22 16 = 3 ∧
    bitOf (tracing.reg 0 1 0x07 0) 0 = true ∧ (tracing.tracePart 1 3).2 ≠ 0 ∧
    tracing.bar 3 0x30 < (tracing.tracePart 1 3).2 := by decide +kernel
/-- Records of paddock 1 on die 0 were dropped, and nothing is staged. -/
theorem test_trace_overflow : (let s := { tracing with stage := [], traceDrop := [(16, 5)] }
    kgetD s.stage (1 * 16 + 0) [] = [] ∧ kgetD s.traceDrop (1 * 16 + 0) 0 ≠ 0 ∧ s.atCap 1 (s.traceDie 1) = false ∧
    s.runningVd 1 < 128) := by decide +kernel

/-! ### Housekeeping and migration -/

theorem test_housekeeping : ((empties twoSegs 0).modDie 15 fun d => { d with refs := 100000 }).die 15 =
      { Die.empty with refs := 100000 } ∧ (0 : Nat) + (empties twoSegs 0).reg 2 15 0x01 0 ≤ 100000 ∧
    kget (demo (.nop uh)).folds 0 = some oneFold ∧ oneFold.onCore = true ∧ dieOf oneFold.core = 0 ∧
    bitOf (State.reset.die (511 / 32)).retiredChans (511 % 32) = false ∧ (State.reset.core 639).retired = false ∧
    (∀ p < 2, State.reset.fnUp (128 + p) = true) ∧ State.reset.started = false ∧ (State.reset.die 0).power ≤ 190 := by
  decide +kernel
/-- The hottest sensor of die 15 at 109, 110 and 125 degrees. -/
def heated (t : Nat) : State := State.reset.modCore 639 fun c => { c with temp := t }
theorem test_heat : (heated 109).hottest 15 = 109 ∧ (heated 105).hottest 15 ≤ 105 ∧ 110 ≤ (heated 110).hottest 15 ∧
    125 ≤ (heated 125).hottest 15 := by decide +kernel
/-- Sixteen blocks of channel 511, eight mismatches of core 639, and no core left on die 15. -/
theorem test_retirement_causes :
    (State.reset.modDie 15 fun d =>
      { d with badBlocks := (List.range 16).map fun i => (31 * 2 ^ 25 + i, 10 ^ 8 * (i % 2)) }).chanFails 511 = true ∧
    ((State.reset.modCore 639 fun c => { c with misses := [0, 1, 2, 3, 4, 5, 6, 10 ^ 8] }).core 639).fails = true ∧
    ((List.range 40).foldl (fun s i => s.modCore (600 + i) fun c => { c with retired := true }) State.reset).noCoreLeft 15
      = true := by decide +kernel
/-- Nothing has gone before a first start; the image of the hypervisor complex may fail to verify (R449). -/
theorem test_no_failed_start (p : Nat × Nat) : State.reset.bootFailed p = false := rfl
theorem test_start_conditions :
    (let s := { State.reset with
       journal := [[7, 0, 0, 0]], loaded := [(1, State.reset.image 0), (5, State.reset.image 2), (6, State.reset.image 4)] }
     s.started = false ∧ s.bootLeft = some (7, 0) ∧ ∀ k ∈ [1, 5, 6], (kget s.loaded k).isSome = true) ∧
    State.reset.bootLeft = none ∧ State.reset.bootFaults = [] ∧
    (∀ i ∈ [0, 2, 4], (State.reset.image i).verifies = true) ∧
    (let s := { State.reset with images := [(4, ⟨[7#32], true, false⟩)] }
     (s.image 4).verifies = false ∧ (s.image 0).verifies = true ∧ (s.image 2).verifies = true) := by decide +kernel
/-- A shepherd command of a kind under way for virtual device 3. -/
def moving (what ix st : Nat) : State :=
  (asking { request what 3 (commonsAt 0 0) ix 0 with args := [0, 0] }).modVd 3 fun d => { d with shep := st, shepArgs := [0, 900, 0, 1] }
theorem test_switch : ((moving 32 4 2).vd 3).shep = 2 ∧
    (moving 32 4 2).shepOp 3 32 = some (5, { request 32 3 (commonsAt 0 0) 4 0 with args := [0, 0] }) ∧
    (((moving 40 0 4).modVd 3 fun d => { d with got := true }).vd 3).shep = 4 ∧
    (((moving 40 0 4).modVd 3 fun d => { d with got := true }).vd 3).got = true := by decide +kernel
theorem test_granule : Sound (moving 40 0 4) ∧ (moving 40 0 4).receives 3 900 = true ∧
    (moving 40 0 4).receives 3 901 = false ∧
    (moving 40 0 4).walk2 3 (2048 * 5 % 2 ^ 48) true = .mem 0 (2048 * 5) ∧
    (moving 40 0 4).writeErr 0 (2048 * 5) 2048 = none ∧ (moving 40 0 4).upsets = [] ∧
    (moving 40 0 4).fabricUp (2 ^ 18 - 1) = true ∧ (moving 40 0 4).leaves 900 = true ∧
    ({ moving 40 0 4 with portsDown := 2 ^ 20 - 4 } : State).fabricUp (2 ^ 18 - 1) = false := by
  unfold Sound; decide +kernel
theorem test_transfer :
    (moving 31 2 1).shepOp 3 31 = some (5, { request 31 3 (commonsAt 0 0) 2 0 with args := [0, 0] }) ∧
    (moving 32 3 2).shepOp 3 31 = none ∧
    (moving 32 3 2).shepOp 3 32 = some (5, { request 32 3 (commonsAt 0 0) 3 0 with args := [0, 0] }) ∧
    ((moving 31 2 1).vd 3).shep ≠ 4 ∧ ((moving 40 0 4).vd 3).got = false := by decide +kernel
/-- Numbers 77, of virtual device 3, 78, on another device, and 79, moved. -/
def peers (st : Nat) : State :=
  { mapped with
    vdns := [(77, ⟨1, 0, 6, 3, 0, (0, 0), 0⟩), (78, ⟨2, 0, 6, 0, 900, (0, 0), 0⟩), (79, ⟨st, 0, 6, 3, 900, (0, 0), 0⟩)]
    dies := [(16, { Die.empty with refs := 1000000 })] }
theorem test_peer_access : (peers 3).fabricUp (leaPorts 1) = true ∧ (peers 3).leaves ((peers 3).deviceOf 78) = true ∧
    (peers 3).leaves 900 = true ∧ ({ peers 3 with portsDown := 2 ^ 20 - 4 } : State).fabricUp (leaPorts 1) = false ∧
    (peers 3).upsets = [] ∧ mapped.vdnEnt 80 = none ∧ (peers 3).vdnEnt 77 = some ⟨1, 0, 6, 3, 0, (0, 0), 0⟩ ∧
    (peers 3).sameGroup 80 77 = false ∧ (((peers 3).modVd 3 fun d => { d with shep := 2 }).vd 3).shep = 2 ∧
    ((peers 3).deviceOf 78) = 900 ∧
    (peers 3).sameGroup 78 77 = true ∧ ((peers 3).vd 3).shep ≠ 2 ∧
    (∀ w ∈ [true, false], ∀ p ∈ piecesOf (2 ^ 30 % 2 ^ 29) 4, (peers 3).peerPieceBad 3 w p = false) ∧ Sound (peers 3) ∧
    piecesOf (64 % 2 ^ 48) 4 = [(64, 4)] ∧ (peers 3).walk2 3 64 true = .mem 0 64 ∧
    (withCopy (peers 3) translated).reaches translated 78 = true ∧ translated.phase = 1 ∧ translated.paddock ≠ 0 ∧
    translated.wrote = false ∧ translated.owed = [] ∧ translated.backs = [] ∧
    (peers 3).peerRoute 3 78 (78 * 2 ^ 20) true = .peer 78 (78 * 2 ^ 20) ∧ ({ translated with moved := some 0 } : CopyOp).moved = some 0 ∧ 0 + 4096 ≤ ((peers 3).die 16).refs ∧
    (peers 3).vdnEnt 79 = some ⟨3, 0, 6, 3, 900, (0, 0), 0⟩ ∧ 0 + 1000000 ≤ ((peers 3).die 16).refs := by
  unfold Sound; decide +kernel
/-- R101: an exact pair keeps an infinity under SAT finite; a rounding pair does not (R99). -/
theorem test_exact_infinity : convElem .f32 .f16 false false .rne 0x7C00 = (0x7F800000, 0) ∧
    convElem .f16 .f32 false false .rne 0x7F800000 = (0x7BFF, fNV) := by decide +kernel
/-- R457: s0 outlives an ACQUIRE that does not list it; between variants it does not (R311). -/
def fromSection (n : Nat) : Word :=
  let s := State.reset.placeWords [0xD1800000#32]
  let fo := { (kget s.folds 0).getD Fold.blank with sect := n, flocks := [{ Flock.empty with s := [(0, 5)] }] }
  ((s.grantTo 0 fo LiveMap.none 0 0).flock 0 0).getS 0
theorem test_acquire_keeps : fromSection 4 = 5 ∧ fromSection 1 = 0 := by decide +kernel

/-! ### Forms of the statements on arithmetic, checks and traps -/

/-- A signalling F32 NaN as the literal, and a pattern whose halves are signalling NaNs of FP16 and of BF16. -/
def sx : LHdr := { xh with lit := 0x7F800001 }
def sx2 : LHdr := { xh with lit := 0x7C017C01 }
def sxb : LHdr := { xh with lit := 0x7F817F81 }
def sn : Word := 0x7F800001#32
def sn2 : Word := 0x7C017C01#32
theorem test_arith_trap_single : ([(.fsub sx nomods .dflt (.v 1) .lit .lit, (fsubW nomods .dflt sn sn).2),
    (.fmul sx nomods .dflt (.v 1) .lit .lit, (fmulW nomods .dflt sn sn).2),
    (.fmin sx nomods (.v 1) .lit .lit, (fminW nomods sn sn).2), (.fmax sx nomods (.v 1) .lit .lit, (fmaxW nomods sn sn).2),
    (.fscale sx nomods .dflt (.v 1) .lit .lit, (fscaleW nomods .dflt sn sn).2),
    (.ffrac sx nomods (.v 1) .lit, (ffracW nomods sn).2), (.frint sx nomods .dflt (.v 1) .lit, (frintW nomods .dflt sn).2),
    (.frcp sx nomods 1 .lit, (frcpW nomods sn).2), (.frsq sx nomods 1 .lit, (frsqW nomods sn).2),
    (.fsqrt sx nomods .dflt 1 .lit, (fsqrtW nomods .dflt sn).2), (.fexp2 sx nomods 1 .lit, (fexp2W nomods sn).2),
    (.flog2 sx nomods 1 .lit, (flog2W nomods sn).2), (.fsin sx nomods 1 .lit, (fsinW nomods sn).2),
    (.fcos sx nomods 1 .lit, (fcosW nomods sn).2), (.ftanh sx nomods 1 .lit, (ftanhW nomods sn).2),
    (.fexs sx nomods 1 .lit .lit, (fexsW nomods sn sn).2),
    (.fcmp sx .lt nocc false 1 .lit .lit, (fcmpW .lt false sn sn).2)] : List (Instr × Flg)).all
    (fun e => raises e.1 fun _ => e.2) = true := by decide +kernel
theorem test_arith_trap_packed : ([(.hadd2 sx2 false nomods .dflt (.v 1) .lit .lit, (hadd2W false nomods .dflt sn2 sn2).2),
    (.hmul2 sx2 false nomods .dflt (.v 1) .lit .lit, (hmul2W false nomods .dflt sn2 sn2).2),
    (.hfma2 sx2 false nomods .dflt (.v 1) .lit .lit .lit, (hfma2W false nomods .dflt sn2 sn2 sn2).2),
    (.hmin2 sx2 false nomods (.v 1) .lit .lit, (hminmax2W false false nomods sn2 sn2).2),
    (.hmax2 sx2 false nomods (.v 1) .lit .lit, (hminmax2W false true nomods sn2 sn2).2),
    (.fdot2 sx2 false nomods .dflt (.v 1) .lit .lit .lit, (fdot2W false nomods .dflt sn2 sn2 sn2).2),
    (.fdot4 sx true true false .dflt (.v 1) .lit .lit .lit, (fdot4W true true false .dflt sn sn sn).2),
    (.hcmp2 sx2 false .lt nocc false 1 .lit .lit, (hcmpW false .lt false 0 sn2 sn2).2)] : List (Instr × Flg)).all
    (fun e => raises e.1 fun _ => e.2) = true := by decide +kernel
theorem test_arith_trap_conversions :
    ([(.cvt sx .f16 .f32 false .dflt 0 (.v 1) .lit none,
        fun l => (cvtW .f16 .f32 false ((enabled (.nop uh)).slotVal q0 0) .dflt sn (randOf oneFlock sx none l)).2),
      (.cvt2 sx .f16 .f32 false .dflt 0 (.v 1) .lit .lit none,
        fun l => (cvt2W .f16 .f32 false ((enabled (.nop uh)).slotVal q0 0) .dflt sn sn (randOf oneFlock sx none l)).2),
      (.cvt4 sx2 .e4m3 .f16 false .dflt 0 (.v 1) .lit .lit none,
        fun l => (cvt4W .e4m3 .f16 false ((enabled (.nop uh)).slotVal q0 0) .dflt sn2 sn2 (randOf oneFlock sx2 none l)).2),
      (.unpk2 sx2 .f16 true (.v 1) .lit, fun _ => (unpk2W .f16 true sn2).2),
      (.sround sx .f16 .dflt 0 (.v 1) .lit none,
        fun l => (sroundW .f16 ((enabled (.nop uh)).slotVal q0 0) .dflt sn (randOf oneFlock sx none l)).2),
      (.scaleof sx true 0 (.v 1) .lit, scaleNV (enabled (.scaleof sx true 0 (.v 1) .lit)) q0 sx .lit),
      (.sqz4 sx .dflt 0 (.v 1) .lit none,
        fun l => (sqzLane sx .e2m1 8 .dflt 0 .lit none
          (blockScale (enabled (.sqz4 sx .dflt 0 (.v 1) .lit none)) q0 sx .lit .e2m1 q0.lanes)
          (enabled (.sqz4 sx .dflt 0 (.v 1) .lit none)) q0 q0.lanes l).2),
      (.sqz8 sx .dflt 0 (.v 1) .lit none,
        fun l => (sqzLane sx .e4m3 4 .dflt 0 .lit none
          (blockScale (enabled (.sqz8 sx .dflt 0 (.v 1) .lit none)) q0 sx .lit .e4m3 q0.lanes)
          (enabled (.sqz8 sx .dflt 0 (.v 1) .lit none)) q0 q0.lanes l).2)] : List (Instr × (Nat → Flg))).all
    (fun e => raises e.1 e.2) = true := by decide +kernel
/-- Lane 0 is the only lane of TLANES: it goes on after the instruction at TPC 0, of one word or of two. -/
theorem test_trap_return_skip :
    (let s := inHandler (.nop uh)
     kget s.folds 0 = some (s.fo q0) ∧ (s.flock? 0 0).isSome = true ∧ (s.flock 0 0).cause &&& ~~~(0#32) = 0 ∧
     (s.flock 0 0).exited.getLsbD 0 = false ∧
     s.forward (s.fo q0).paddock (s.flock 0 0).tpc.toNat = (s.flock 0 0).tpc.toNat ∧
     s.lenAt (s.fo q0).paddock (s.flock 0 0).tpc.toNat = 4) ∧
    (inHandler (.sadd uh 1 .lit .one)).lenAt 0 0 = 8 := by decide +kernel
/-- An error has struck v2 of lane 5, which RDX reads by index and WRX as its value. -/
def struckV2 (i : Instr) : State := (demo i).modFlock 0 0 fun fl => { fl with bad := [(2, 32#32)] }
def rdx2 : Instr := .rdx { xh with lit := 2 } 32 (.v 40) 0 .lit
def wrx2 : Instr := .wrx xh 32 0 (.v 2) (.const .zero)
theorem test_indexed_struck : issues (struckV2 rdx2) q0 rdx2 = true ∧ (struckV2 rdx2).struckOf q0 rdx2 = 32#32 ∧
    issues (struckV2 wrx2) q0 wrx2 = true ∧ (struckV2 wrx2).struckOf q0 wrx2 = 32#32 ∧
    ((struckV2 rdx2).fl q0).pendV = 0 ∧ (demo rdx2).struckOf q0 rdx2 = 0 ∧ (demo wrx2).struckOf q0 wrx2 = 0 := by
  decide +kernel
/-- The table read of XPAND: held while a store of its lanes to the scratchpad is under way;
or struck by an error. -/
def lut (i : Instr) : State := withSlot 0x0070000000000000#64 i
def xp : Instr := .xpand xh false true 0 (.v 1) (.v 2)
theorem test_xpand_held :
    (let s := { lut xp with
       ops := [(5, { storing .store 0 with sp := true, todo := [(31, ([scratchAt 0 0], [7#32]))] })], nextId := 6 }
     issues s q0 xp = true ∧ xpandTrap s q0 false 0 = none ∧ s.xpandHeld q0 false 0 = true) := by decide +kernel
theorem test_xpand_struck :
    (let s := { lut xp with upsets := [(scratchAt 0 0, 1)] }
     issues s q0 xp = true ∧ xpandTrap s q0 false 0 = none ∧ s.xpandHeld q0 false 0 = false ∧
     (s.fl q0).active xh q0.lanes ≠ 0 ∧ xpandSrc s q0 false 0 = .lut4 ∧ xpandStruck s q0 0 = true) := by decide +kernel

/-! ### Forms of the statements on memory, tiles and copies -/

/-- Every form at the misaligned address 1. -/
theorem test_misaligned_forms : goes
    [.sts xh .w noord (.const .one) (.const .zero) (.v 1), .ldsm xh 8 1 1 (.const .one) (.const .zero),
     .stsm xh 8 32 (.const .one) (.const .zero) 1, .atoms lh .add .w1 noord 1 (.const .one) (.v 2),
     .cass xh true noord 2 (.const .one) (.v 4) (.v 6), .ldc lh .w noord 1 (.const .one) (.const .zero),
     .stc xh .w noord (.const .one) (.const .zero) (.v 1), .atomc lh .add .w1 noord 1 (.const .one) (.v 2),
     .casc xh false noord 1 (.const .one) (.v 2) (.v 3), .redc lh .add .w1 (.const .one) (.v 2),
     .sget uh true 1 .one .zero, .sget uh false 1 .one .zero] = true ∧
    (demo (.nop uh)).spTrap oneFold q0.lanes (strideAcc lh 8 1 (.const .one) (.const .zero) oneFlock)
      = some (cAlign, q0.lanes) ∧
    (demo (.nop uh)).spTrap oneFold q0.lanes (atomAcc lh .w1 (.const .one) (.v 2) oneFlock) = some (cAlign, q0.lanes) ∧
    (demo (.nop uh)).spTrap oneFold q0.lanes (casAcc xh true (.const .one) (.v 4) (.v 6) oneFlock)
      = some (cAlign, q0.lanes) ∧
    (demo (.nop uh)).cmTrap oneFold q0.lanes (atomAcc lh .w1 (.const .one) (.v 2) oneFlock) = some (cAlign, q0.lanes) ∧
    (demo (.nop uh)).spTrap oneFold 1 (sgetAcc 1) = some (cAlign, 1) ∧
    (demo (.nop uh)).cmTrap oneFold 1 (sgetAcc 1) = some (cAlign, 1) := by decide +kernel
/-- The last word of the commons of die 15 and of the host window of port A, and the first bytes outside both. -/
theorem test_commons_traps :
    (demo (.nop uh)).cmTrap oneFold 1 (sgetAcc (16 * 2 ^ 26 - 4)) = none ∧
    (demo (.nop uh)).cmTrap oneFold 1 (sgetAcc (3 * 2 ^ 30)) = some (cCommons, 1) ∧
    (demo (.nop uh)).cmTrap oneFold 1 (sgetAcc (2 ^ 30 + 2 ^ 21)) = some (cHostwin, 1) ∧
    (demo (.nop uh)).cmTrap oneFold 1 (sgetAcc (2 ^ 30 + 2 ^ 21 - 4)) = none := by decide +kernel
/-- Without the accumulator set; with chunk 64 of a fold of 64; with a chunk that a copy holds; with a reserved bit. -/
theorem test_matrix_traps : ([.mdrain (eh 0 0 0 0) 3 0 true false .dflt, .mloadLoad (eh 16 0 0 0) 0,
      .mloadAdd (eh 16 0 0 0) 0, .mloadAddv (eh 0 0 0 0) 0 0, .mzero uh 15] : List Instr).all
      (fun i => issues (withSlot 0 i) q0 i && (withSlot 0 i |>.core 0).accFold.isNone) = true ∧
    matTrap (withAcc 0 (.nop uh)) q0 false false false (chunkRun 17 48) = some cSpbounds ∧
    matTrap ((withAcc 0 (.nop uh)).modCore 0 fun c => { c with own := [(0, .copy 4)] }) q0 false false false
      (chunkRun 0 48) = some cSpowner ∧
    matTrap (withAcc 0 (.nop uh)) q0 true false false [] = some cEngparam ∧
    issues (withAcc 0 (.mloadLoad (eh 17 0 0 0) 0)) q0 (.mloadLoad (eh 17 0 0 0) 0) = true := by decide +kernel
theorem test_copy_traps : copies
    [.tcopyStore (eh 0 0 64 0) ⟨5, 15, 0⟩ .zero, .tcopyFill (eh 0 0 64 0) ⟨5, 15, 0⟩ .zero,
     .tcopyGather (eh 0 0 64 0) ⟨5, 15, 0⟩ .zero, .tcopyScatter (eh 0 0 64 0) ⟨5, 15, 0⟩ .zero,
     .tcopyColl (eh 0 0 64 0) ⟨0, 15, 0⟩ .zero] = true ∧
    (∀ k ∈ [1, 2, 3, 4], (copyTrap (demo (.nop uh)) q0 k 5 0 0 0 64 0).isSome = true) ∧
    copyTrap ((demo (.nop uh)).modCore 0 fun c => { c with own := [(63, .matrix)] }) q0 0 5 512 0 0 63 0
      = some cSpowner := by decide +kernel
/-- A flock made anew since the load was issued. -/
theorem test_result_of_another : ((demo (.nop uh)).flock 0 0).born = (storing .load 1).born ∧
    (((demo (.nop uh)).modFlock 0 0 fun fl => { fl with born := 1 }).flock 0 0).born ≠ (storing .load 1).born := by
  decide +kernel
theorem test_matrix_ready : ∀ op ∈ [0, 1, 2, 3, 4, 5],
    (((commands op).core 0).mq.all fun c => (commands op).matReady 0 c && !(commands op).matBad 0 c) = true ∧
    ((commands op).flock? 0 0).isSome = true ∧ ((commands op).flock 0 0).live ≠ 0 := by decide +kernel
theorem test_promotion_ends : recording.counts = true ∧ recording.sp = false := by decide +kernel
/-- An atomic, a compare-and-swap and a reduction of one word of commons, each to be performed. -/
theorem test_commons_atomic : ([(.atom .add .w1, true, [7#32]), (.cas false, true, [0#32, 9#32]), (.atom .umax .w1, false, [7#32])] :
      List (OpKind × Bool × List Word)).all (fun k =>
    let o := { storing k.1 1 with counts := k.2.1, nreg := if k.2.1 then 1 else 0, todo := [(31, ([commonsAt 0 0], k.2.2))] }
    let s := underway o
    s.mayPerform 5 o 31 && (s.promoFor o 31).isNone && o.promo.isEmpty && s.upsets.isEmpty && o.alu == 0 && o.bytes == 4
      && o.size == .w && !o.sp && wordsOfMem (memGet s.mem) [commonsAt 0 0] == [0#32]) = true := by decide +kernel
/-- ATOMS and CASS of a fresh fold: no access is under way, and no ALU of the bank has failed. -/
theorem test_scratchpad_atomic : ((demo (.nop uh)).stageOf q0.core q0.stage).turn = some oneTurn ∧ oneTurn.alu = 0 ∧
    (oneFlock.active lh q0.lanes) ≠ 0 ∧ Sound (demo (.nop uh)) := by unfold Sound; decide +kernel
/-- Values that meet the premises of the statements on rounding and on lane values. -/
theorem test_value_premises : (.sr 16 65535 : RMode).ok ∧ (.rna : RMode).plain ∧ fp32.isFinite 0x7F7FFFFF ∧
    e4m3.isFinite 0xFE ∧ fp32.val 1 ≠ 0 ∧ fp32.val 0x80000000 = 0 ∧ fp32.val 0xBF800000 < 0 ∧
    fp32.val 1 * 2 ^ 149 = ((2 ^ 149 : Nat) : Int) ∧ fp32.decode 0x7F800000 = .inf false ∧
    fp32.decode 0x7F800001 = .nan true ∧ fp32.maxBits < fp32.abs 0x7F800001 ∧ fpOf .e4m3 = some e4m3 ∧ fpOf .int8 = none := by
  refine ⟨⟨by decide, by decide⟩, trivial, ⟨by decide, by decide⟩, ⟨by decide, by decide⟩, ?_⟩; decide +kernel

/-! ### Forms of the statements on privileged instructions and crooks -/

/-- An error has struck the first word that PKEY LOAD, or CRKLOAD LOAD, reads. -/
theorem test_key_struck :
    (let s := { tenants (.pkeyLoad (ehl 2 64 0 0 0) .lit) with upsets := [(commonsAt 0 64, 1)] }
     issues s q0 (.pkeyLoad (ehl 2 64 0 0 0) .lit) = true ∧ s.slotFree 2 = true ∧
     s.struck (s.cmPlace (s.fo q0) 64) 64 = true) ∧
    (tenants (.nop uh)).struck (commonsAt 0 64) 64 = false ∧ (tenants (.nop uh)).slotFree 2 = true := by decide +kernel
/-- A bound crook whose destination is pending or whose operand an error has struck, and one whose FSUB of infinities
raises NV. -/
def fsubAB : DWord := 0x3A0427E000000000#64
def crookAt (g : Flock → Flock) (i : Instr) : State := (crookWith commitA 1 i).modFlock 0 0 g
def crkInf : Instr := .crook xh 3 0 0 (.v 4) (.const .inf) (.const .inf) (.const .zero)
theorem test_crook_checks :
    issues (crookAt (fun fl => { fl with pendV := 16#64 }) crk) q0 crk = true ∧
    unsettled (crookAt (fun fl => { fl with pendV := 16#64 }) crk) q0 crk = true ∧
    (let i : Instr := .crook xh 3 0 0 (.v 4) (.v 2) (.const .zero) (.const .zero)
     let s := crookAt (fun fl => { fl with bad := [(2, 32#32)] }) i
     issues s q0 i = true ∧ unsettled s q0 i = false ∧ s.struckOf q0 i = 32#32) := by decide +kernel
theorem test_crook_runs : (crookWith commitA 1 crk).struckOf q0 crk = 0 ∧
    (crookWith commitA 1 crk).crookStruck 0 0 ⟨0, 1, 0⟩ = none ∧
    (crookWith commitA 1 crk).crookWords 0 0 ⟨0, 1, 0⟩ = [commitA] ∧ ((crookWith commitA 1 crk).fl q0).active xh q0.lanes ≠ 0 := by
  decide +kernel
theorem test_crook_arith :
    (let s := ((crookWith commitA 2 crkInf).modCore 0 fun c => { c with store := [(0, fsubAB), (1, commitA)] }).modFlock 0 0
       fun fl => { fl with ftrapen := 31#32 }
     issues s q0 crkInf = true ∧ s.crookWords 0 0 ⟨0, 2, 0⟩ = [fsubAB, commitA] ∧ s.crookHeld q0 [fsubAB, commitA] = false ∧
     (match microRun s q0 q0.lanes (fun _ => [0x7F800000#32, 0x7F800000#32, 0#32]) 0 0 CrkRun.start [microOf fsubAB] with
      | .ok r => trapLanes (s.fl q0) q0.lanes (fun l => r.fl.getD l 0) != 0
      | .error _ => false) = true) := by decide +kernel

end Sys2Proof.Tests
end

/-! PROOFS. Every step keeps the canonical form of memory (O4, log 2).

One lemma for each function of the model that changes the state, named after it: from `Sound s` it concludes
`Sound` of what the function gives. Memory itself changes only where bytes are written (`Sound.of_memWrite`,
`Sound.segWrite`), where a range is cleared (`Sound.of_memClear`), and where a reset keeps host memory alone
(`Sound.holdIn`); the other fields are free to change (`Sound.set`). A proof term names the operations of its
function from the last to the first. -/
namespace Sys2Proof.Machine
section
variable {s t : State}

/-! ### What is kept -/

/-- If an instruction's own part does not trap, the state that it leaves is sound. -/
def EffSound : Eff → Prop
  | .ok r => Sound r.1
  | .error _ => True

/-- If a meaning ends in a next state, that state is sound. -/
def OutSound : Host.Outcome State Fault Refusal → Prop
  | .next t => Sound t
  | _ => True

/-! ### Rules for states -/

/-- A change of any fields but the memory. -/
theorem Sound.set {started agenda focus nextId free cfg cores folds droves ops copies launches privs pads
    vds dies pages keys vdns counters stage traceDrop evBuf evNew hvMail msix outbox journal upsets images
    bootFaults portsDown powerLimit holdReset standby loaded} (h : Sound s) :
    Sound ⟨started, agenda, focus, nextId, free, s.mem, cfg, cores, folds, droves, ops, copies, launches,
      privs, pads, vds, dies, pages, keys, vdns, counters, stage, traceDrop, evBuf, evNew, hvMail, msix,
      outbox, journal, upsets, images, bootFaults, portsDown, powerLimit, holdReset, standby, loaded⟩ := h
/-- Bytes written. -/
theorem Sound.of_memWrite {a bs} (h : Sound s) (e : t.mem = memWrite s.mem a bs) : Sound t := by
  unfold Sound; rw [e]; exact memWrite_wf bs _ a h
/-- A range made 0. -/
theorem Sound.of_memClear {a n} (h : Sound s) (e : t.mem = memClear s.mem a n) : Sound t := by
  unfold Sound; rw [e]; exact Memory.wf_filter _ _ h

theorem Sound.ite {c : Prop} [Decidable c] (hs : Sound s) (ht : Sound t) : Sound (if c then s else t) := by
  split <;> assumption
/-- A state that is changed further under a condition. -/
theorem Sound.when {c : Prop} [Decidable c] (h : Sound s) (ht : Sound s → Sound t) :
    Sound (if c then t else s) :=
  .ite (ht h) h
/-- A state that is changed further unless a condition holds. -/
theorem Sound.unless {c : Prop} [Decidable c] (h : Sound s) (ht : Sound s → Sound t) :
    Sound (if c then s else t) :=
  .ite h (ht h)
/-- A state that is changed further in one of two ways. -/
theorem Sound.branch {c : Prop} [Decidable c] {u : State} (ht : Sound s → Sound t) (hu : Sound s → Sound u)
    (h : Sound s) : Sound (if c then t else u) := .ite (ht h) (hu h)
theorem Sound.elim {α : Type} {o : Option α} {f : α → State} (h : Sound s) (hf : ∀ a, Sound (f a)) :
    Sound (o.elim s f) := by
  cases o with
  | none => exact h
  | some a => exact hf a

/-- A fold keeps the soundness of the state `st b` that its accumulator `b` holds. -/
theorem Sound.foldl_of {α β : Type} {st : β → State} {f : β → α → β} {l : List α} {b : β}
    (hf : ∀ b a, Sound (st b) → Sound (st (f b a))) (h : Sound (st b)) : Sound (st (l.foldl f b)) := by
  induction l generalizing b with
  | nil => exact h
  | cons a l ih => exact ih (hf b a h)
theorem Sound.foldl {α : Type} {f : State → α → State} {l : List α} (hf : ∀ s a, Sound s → Sound (f s a))
    (h : Sound s) : Sound (l.foldl f s) := Sound.foldl_of (st := id) hf h
theorem Sound.foldl_fst {α β : Type} {f : State × β → α → State × β} {l : List α} {b : State × β}
    (hf : ∀ b a, Sound b.1 → Sound (f b a).1) (h : Sound b.1) : Sound (l.foldl f b).1 :=
  Sound.foldl_of (st := Prod.fst) hf h
theorem Sound.foldl_snd {α β : Type} {f : β × State → α → β × State} {l : List α} {b : β × State}
    (hf : ∀ b a, Sound b.2 → Sound (f b a).2) (h : Sound b.2) : Sound (l.foldl f b).2 :=
  Sound.foldl_of (st := Prod.snd) hf h
theorem Sound.foldl_st {α : Type} {f : Load → α → Load} {l : List α} {x : Load}
    (hf : ∀ x a, Sound x.st → Sound (f x a).st) (h : Sound x.st) : Sound (l.foldl f x).st :=
  Sound.foldl_of (st := Load.st) hf h

/-! ### Rules for effects and outcomes -/

theorem EffSound.ok {w : Mask} (h : Sound s) : EffSound (.ok (s, w)) := h
theorem EffSound.error {e : Nat × Mask} : EffSound (.error e) := trivial
theorem EffSound.ite {c : Prop} [Decidable c] {x y : Eff} (hx : EffSound x) (hy : EffSound y) :
    EffSound (if c then x else y) := by
  split <;> assumption
/-- An effect whose WATCH lanes alone are changed. -/
theorem EffSound.map {x : Eff} {g : State × Mask → Mask} (h : EffSound x) :
    EffSound (x.map fun r => (r.1, g r)) := by
  cases x with
  | ok r => exact h
  | error e => exact .error

theorem OutSound.next (h : Sound s) : OutSound (.next s) := h
theorem OutSound.fault {r : Fault} : OutSound (.fault r) := trivial
theorem OutSound.ite {c : Prop} [Decidable c] {x y : Host.Outcome State Fault Refusal} (hx : OutSound x)
    (hy : OutSound y) : OutSound (if c then x else y) := by
  split <;> assumption

/-- What a computation that does not fail is made of. -/
theorem except_bind_eq_ok {ε α β : Type} {x : Except ε α} {f : α → Except ε β} {b : β} :
    x >>= f = .ok b ↔ ∃ a, x = .ok a ∧ f a = .ok b := by
  cases x with
  | error e => exact ⟨nofun, nofun⟩
  | ok a => exact ⟨fun h => ⟨a, rfl, h⟩, fun ⟨_, e, h⟩ => by cases e; exact h⟩

/-! ### The pieces of the state -/

theorem Sound.modCore {c g} (h : Sound s) : Sound (s.modCore c g) := .set h
theorem Sound.modStage {c st g} (h : Sound s) : Sound (s.modStage c st g) := .modCore h
theorem Sound.modFold {f g} (h : Sound s) : Sound (s.modFold f g) := .set h
theorem Sound.modFlock {f k g} (h : Sound s) : Sound (s.modFlock f k g) := .modFold h
theorem Sound.modPad {p g} (h : Sound s) : Sound (s.modPad p g) := .set h
theorem Sound.modVd {v g} (h : Sound s) : Sound (s.modVd v g) := .set h
theorem Sound.modDie {d g} (h : Sound s) : Sound (s.modDie d g) := .set h
theorem Sound.modDrove {d g} (h : Sound s) : Sound (s.modDrove d g) := .set h
theorem Sound.freeVal (h : Sound s) : Sound (s.freeVal).2 := .set h
theorem Sound.setReg {tgt elem reg ix v} (h : Sound s) : Sound (s.setReg tgt elem reg ix v) := .set h
theorem Sound.wr {a n v} (h : Sound s) : Sound (s.wr a n v) := .of_memWrite h rfl
theorem Sound.count {p d num n} (h : Sound s) : Sound (s.count p d num n) := .ite h (.set h)
theorem Sound.trace {p d cls rec} (h : Sound s) : Sound (s.trace p d cls rec) :=
  .ite (.ite (.set h) (.count (.set h))) h
theorem Sound.markFaulted {n d} (h : Sound s) : Sound (s.markFaulted n d) := by
  induction n generalizing s d with
  | zero => exact h
  | succ n ih =>
    unfold State.markFaulted
    split
    · exact .ite (.modDrove h) (ih (.modDrove h))
    · exact h
theorem Sound.fault {p drove rec} (h : Sound s) : Sound (s.fault p drove rec) :=
  .unless (.markFaulted h) .modPad

/-! ### Joins, barriers, grants and exits -/

theorem Sound.cover {fold flock below m} (h : Sound s) : Sound (s.cover fold flock below m) := .set h
theorem Sound.coverMarks {fid marks} (h : Sound s) : Sound (s.coverMarks fid marks) :=
  .foldl (fun _ _ h => .cover h) h
theorem Sound.keepJust {fid k js} (h : Sound s) : Sound (s.keepJust fid k js) := by
  unfold State.keepJust
  split
  · exact h
  · exact .modStage h
theorem Sound.settleJoins {fid k} (h : Sound s) : Sound (s.settleJoins fid k) :=
  .ite h (.modFlock (.keepJust (.cover h)))
theorem Sound.placeFlock {fid k} (h : Sound s) : Sound (s.placeFlock fid k) := by
  unfold State.placeFlock
  split
  · exact h
  · split
    · exact h
    · exact .modFlock (.modStage h)
theorem Sound.seatFlock {fid k} (h : Sound s) : Sound (s.seatFlock fid k) := by
  unfold State.seatFlock
  split
  · exact h
  · split
    · exact .modFlock h
    · exact .ite h (.placeFlock h)
theorem Sound.dropFlock {core stage slot regs} (h : Sound s) : Sound (s.dropFlock core stage slot regs) :=
  .modCore h
theorem Sound.grantTo {fid fo lm v pc} (h : Sound s) : Sound (s.grantTo fid fo lm v pc) := by
  unfold State.grantTo
  refine .foldl (fun _ _ h => ?_) ?_
  · exact .seatFlock h
  · refine .set (.modCore (.modCore (.foldl (fun _ _ h => ?_) h)))
    refine .ite ?_ h
    split
    · exact .dropFlock h
    · exact h
theorem Sound.settleBar {fid b} (h : Sound s) : Sound (s.settleBar fid b) := by
  unfold State.settleBar
  split
  · exact h
  · refine .ite ?_ h
    refine .ite (.grantTo (.modFold (.coverMarks h))) ?_
    split
    · exact .grantTo (.modFold (.coverMarks h))
    · exact .modFold (.coverMarks h)
theorem Sound.settle {fid} (h : Sound s) : Sound (s.settle fid) :=
  .foldl (fun _ _ h => .settleBar h) (.modFold (.foldl (fun _ _ h => .settleJoins h) h))

/-! ### The issuing flock -/

theorem Sound.setFl {q g} (h : Sound s) : Sound (s.setFl q g) := .modFlock h

/-! ### Traps, turns and the issue of an instruction -/

theorem Sound.traceFl {fo k cls type tag pc a b} (h : Sound s) : Sound (s.traceFl fo k cls type tag pc a b) :=
  .trace h
theorem Sound.unhandled {fid k cause pc} (h : Sound s) : Sound (s.unhandled fid k cause pc) := by
  unfold State.unhandled
  split
  · exact h
  · exact .settle (.modFlock (.fault h))
theorem Sound.deliver {fold flock born cause} (h : Sound s) : Sound (s.deliver fold flock born cause) :=
  .modFlock h
theorem Sound.errorRecord {d p vd drove did ix core flock pc} (h : Sound s) :
    Sound (s.errorRecord d p vd drove did ix core flock pc) :=
  .fault h
theorem Sound.takeTrap {fid k tr} (h : Sound s) : Sound (s.takeTrap fid k tr) := by
  unfold State.takeTrap
  split
  · exact h
  · exact .ite (.unhandled h) (.branch .modFlock .unhandled (.traceFl (.count h)))
theorem Sound.returnTrap {fid k a skip} (h : Sound s) : Sound (s.returnTrap fid k a skip) := by
  unfold State.returnTrap
  split
  · exact h
  · exact .modFlock h
theorem Sound.settleRett {fid k} (h : Sound s) : Sound (s.settleRett fid k) := .ite (.returnTrap h) h
theorem Sound.modTurn {q g} (h : Sound s) : Sound (s.modTurn q g) := .modStage h
theorem Sound.modBand {q g} (h : Sound s) : Sound (s.modBand q g) := .modTurn h
theorem Sound.closeCycle {core t} (h : Sound s) : Sound (s.closeCycle core t) := by
  unfold State.closeCycle
  split
  · exact h
  · exact .count (.count h)
theorem Sound.endTurn {core stage t} (h : Sound s) : Sound (s.endTurn core stage t) := by
  unfold State.endTurn
  dsimp only
  split
  · exact .takeTrap (.modFlock (.modStage h))
  · exact .takeTrap (.modFlock (.modStage h))
  · exact .modFlock (.modStage h)
theorem Sound.endInstr {q} (h : Sound s) : Sound (s.endInstr q) := by
  unfold State.endInstr
  split
  · exact h
  · exact .ite (.modTurn h) (.ite (.modTurn h) (.branch .endTurn .modTurn (.closeCycle h)))
theorem Sound.raise {q cause pc m next} (h : Sound s) : Sound (s.raise q cause pc m next) :=
  .branch .setFl .modTurn (.modBand h)
theorem Sound.trapAt {q cause m toBase} (h : Sound s) : Sound (s.trapAt q cause m toBase) :=
  .endInstr (.raise h)
theorem Sound.bankRead {q ns} (h : Sound s) : Sound (s.bankRead q ns) := .modTurn h
theorem Sound.addWaves {q n} (h : Sound s) : Sound (s.addWaves q n) := .modTurn h
theorem Sound.retire {q i watch} (h : Sound s) : Sound (s.retire q i watch) :=
  .endInstr (.unless (.modBand (.bankRead (.count h))) .raise)
theorem Sound.advance {q i} (h : Sound s) : Sound (s.advance q i) := .setFl h
theorem OutSound.issue {i body} (hb : ∀ q s, Sound s → EffSound (body q s)) (h : Sound s) :
    OutSound (issue i body s) := by
  unfold Machine.issue
  split
  · exact .fault
  next q _ =>
    split
    · exact .next (.trapAt h)
    · have hr := hb q _ (h.advance (q := q) (i := i))
      split
      next e => rw [e] at hr; exact .next (.retire hr)
      · exact .next (.trapAt h)
theorem EffSound.qOp {hdr d f q} (h : Sound s) : EffSound (qOp hdr d f q s) := .ok (.setFl h)
theorem Sound.flags {q g} (h : Sound s) : Sound (s.flags q g) := .unless (.setFl h) .modTurn
theorem EffSound.fOp {hdr d f q} (h : Sound s) : EffSound (fOp hdr d f q s) :=
  .ite .error (.ok (.setFl (.flags h)))
theorem Sound.addOp {o} (h : Sound s) : Sound (s.addOp o) := .set h
theorem EffSound.dOp {hdr d f q} (h : Sound s) : EffSound (dOp hdr d f q s) :=
  .ite .error (.ite (.ok h) (.ok (.addOp (.setFl (.flags h)))))
theorem EffSound.pOp {hdr p f q} (h : Sound s) : EffSound (pOp hdr p f q s) := .ok (.setFl h)
theorem EffSound.uOp {hdr f q} (h : Sound s) (hf : EffSound (f q s)) : EffSound (uOp hdr f q s) :=
  .ite hf (.ok h)
theorem EffSound.sOp {hdr d f q} (h : Sound s) : EffSound (sOp hdr d f q s) := .uOp h (.ok (.setFl h))

/-! ### Accesses under way -/

theorem Sound.writeWords {o as ws} (h : Sound s) : Sound (s.writeWords o as ws) := by
  induction as generalizing s ws with
  | nil => exact h
  | cons a as ih =>
    cases ws with
    | nil => exact h
    | cons w ws => exact ih (.wr h)
theorem Sound.access {o as data} (h : Sound s) : Sound (s.access o as data) := by
  unfold State.access
  dsimp only
  split
  · exact .writeWords h
  · exact .writeWords h
  · exact .ite (.writeWords h) h
  · exact h
theorem Sound.owe {fold flock below l} (h : Sound s) : Sound (s.owe fold flock below l) := .set h
theorem Sound.setRecord {a r} (h : Sound s) : Sound (s.setRecord a r) := .modDie h
theorem Sound.recordRelease {o l a} (h : Sound s) : Sound (s.recordRelease o l a) :=
  .ite h (.ite (.setRecord h) (.ite (.setRecord h) h))
theorem Sound.failLane {id l} (h : Sound s) : Sound (s.failLane id l) := .set h
theorem Sound.mismatch {c} (h : Sound s) : Sound (s.mismatch c) := .modCore h
theorem Sound.failAlu {id l o} (h : Sound s) : Sound (s.failAlu id l o) := .unless (.failLane h) .mismatch
theorem Sound.perform {id l} (h : Sound s) : Sound (s.perform id l) := by
  unfold State.perform
  split
  · exact h
  · split
    · exact h
    · exact .ite (.failLane h) (.ite (.failAlu h) (.set (.when (.when (.access h) .recordRelease) .owe)))
theorem Sound.sweep (h : Sound s) : Sound (s.sweep) := .set h
theorem Sound.unhold {id} (h : Sound s) : Sound (s.unhold id) := by
  unfold State.unhold
  split
  · exact h
  · exact .set h
theorem Sound.drainOne {id} (h : Sound s) : Sound (s.drainOne id) := by
  unfold State.drainOne
  split
  · exact h
  · split
    · exact .set h
    · exact .set h
    · exact .ite (.foldl (fun _ _ h => .perform h) h) h
theorem Sound.drainN {n} (h : Sound s) : Sound (s.drainN n) := by
  induction n generalizing s with
  | zero => exact h
  | succ n ih => exact .unless (.foldl (fun _ _ h => .drainOne (.unhold h)) h) ih
theorem Sound.drain (h : Sound s) : Sound (s.drain) := .sweep (.drainN h)

/-! ### Memory instructions and their events -/

theorem Sound.putOp {q o} (h : Sound s) : Sound (s.putOp q o) := .sweep (.drainOne (.addOp h))
theorem Sound.start {q act x sp k sz o d n} (h : Sound s) : Sound (s.start q act x sp k sz o d n) :=
  .ite h (.putOp (.ite h (.setFl h)))
theorem EffSound.spInstr {hdr x k write atom sz o d n q} (h : Sound s) :
    EffSound (spInstr hdr x k write atom sz o d n q s) := by
  unfold Machine.spInstr
  dsimp only
  split
  · exact .error
  · exact .ok (.start (.addWaves h))
theorem EffSound.cmInstr {hdr x k write sz o d n q} (h : Sound s) :
    EffSound (cmInstr hdr x k write sz o d n q s) := by
  unfold Machine.cmInstr
  dsimp only
  split
  · exact .error
  · exact .ok (.start h)
theorem OutSound.execLdsm {hdr n st d a b} (h : Sound s) : OutSound (execLdsm hdr n st d a b s) := by
  unfold Machine.execLdsm
  refine .issue (fun _ _ h => ?_) h
  dsimp only
  split
  · exact .error
  · exact .ok (.start (.addWaves h))
theorem OutSound.execStsm {hdr n st a b c} (h : Sound s) : OutSound (execStsm hdr n st a b c s) := by
  unfold Machine.execStsm
  refine .issue (fun _ _ h => ?_) h
  dsimp only
  split
  · exact .error
  · exact .ok (.foldl (fun _ _ h => .start h) (.addWaves h))
theorem Sound.fence {q act ord scope} (h : Sound s) : Sound (s.fence q act ord scope) := by
  unfold State.fence
  refine .ite h ?_
  dsimp only
  split
  · exact .putOp (.ite (.ite (.setFl h) (.putOp h)) h)
  · exact .putOp h
  · exact .ite (.setFl h) (.putOp h)
  · exact .putOp (.ite (.setFl h) (.putOp h))
theorem OutSound.execSget {hdr sp d a b} (h : Sound s) : OutSound (execSget hdr sp d a b s) := by
  unfold Machine.execSget
  refine .issue (fun _ _ h => ?_) h
  refine .uOp h ?_
  dsimp only
  split
  · exact .error
  · exact .ok (.putOp (.setFl (.ite (.addWaves h) h)))
theorem Sound.serve {id o l} (h : Sound s) : Sound (s.serve id o l) :=
  .drain (.foldl (fun _ _ h => .perform h) h)
theorem Sound.askPromos {id o l cs} (h : Sound s) : Sound (s.askPromos id o l cs) := .ite h (.set h)
theorem Sound.commonsOp {id l} (h : Sound s) : Sound (s.commonsOp id l) := by
  unfold State.commonsOp
  split
  · exact h
  · refine .ite h ?_
    split
    · exact .serve h
    · exact .askPromos h
theorem Sound.promoEnd {id l} (h : Sound s) : Sound (s.promoEnd id l) := by
  unfold State.promoEnd
  split
  · exact h
  · refine .ite h ?_
    split
    · exact .serve h
    · exact .askPromos h
theorem Sound.endOp {id o g} (h : Sound s) : Sound (s.endOp id o g) := .set (.modFlock h)
theorem Sound.failResult {id o} (h : Sound s) : Sound (s.failResult id o) := .errorRecord (.deliver (.endOp h))
theorem Sound.resultReturn {id} (h : Sound s) : Sound (s.resultReturn id) := by
  unfold State.resultReturn
  split
  · exact h
  · exact .ite (.ite (.failResult h) (.endOp h)) h
theorem Sound.flushDone {id} (h : Sound s) : Sound (s.flushDone id) := by
  unfold State.flushDone
  split
  · exact .ite (.drain (.set h)) h
  · exact h

/-! ### Control, barriers, LAUNCH and CWAIT -/

theorem Sound.jump {q m x} (h : Sound s) : Sound (s.jump q m x) := .setFl h
theorem Sound.waitAt {q m x} (h : Sound s) : Sound (s.waitAt q m x) := .setFl h
theorem Sound.emptyQueues {q} (h : Sound s) : Sound (s.emptyQueues q) := .setFl h
theorem Sound.arriveAt {q b sw wait} (h : Sound s) : Sound (s.arriveAt q b sw wait) := by
  unfold State.arriveAt
  refine .settle ?_
  split
  · exact .waitAt (.modFold h)
  · exact .modFold h
theorem EffSound.barEff {hdr b sw wait q} (h : Sound s) : EffSound (barEff hdr b sw wait q s) := by
  unfold Machine.barEff
  exact .uOp (.emptyQueues h) (.ok (.arriveAt (.emptyQueues h)))
theorem OutSound.execLaunch {hdr a group} (h : Sound s) : OutSound (execLaunch hdr a group s) := by
  unfold Machine.execLaunch
  refine .issue (fun _ _ h => ?_) h
  dsimp only
  split
  · exact .error
  · exact .ok (.traceFl (.putOp (.set h)))

/-! ### Rings and registers that hosts see -/

theorem Sound.setBar {v off x} (h : Sound s) : Sound (s.setBar v off x) := .modVd h
theorem Sound.putWords {a ws} (h : Sound s) : Sound (s.putWords a ws) := .of_memWrite h rfl
theorem Sound.msixRaise {v vec} (h : Sound s) : Sound (s.msixRaise v vec) := .set h
theorem Sound.assistPut {port rec} (h : Sound s) : Sound (s.assistPut port rec) := .modVd h
theorem Sound.assistWrite {port} (h : Sound s) : Sound (s.assistWrite port) := by
  unfold State.assistWrite
  dsimp only
  split
  · exact h
  · exact .ite h (.msixRaise (.setBar (.modVd (.putWords h))))
theorem Sound.queueReg {v off x} (h : Sound s) : Sound (s.queueReg v off x) := by
  unfold State.queueReg
  refine .ite ?_ ?_
  · refine .ite h ?_
    split
    · split
      · exact .setBar h
      · exact h
    · exact .setBar h
    · exact h
  · refine .ite h ?_
    split
    · split
      · exact .setBar h
      · exact h
    · exact .setBar h
    · exact h
theorem Sound.dropHost {v} (h : Sound s) : Sound (s.dropHost v) := .modVd h
theorem Sound.lqNotify {v q x} (h : Sound s) : Sound (s.lqNotify v q x) :=
  .ite h (.ite (.dropHost h) (.when (.modVd (.setBar h)) .assistPut))
theorem Sound.mailPut {v ws} (h : Sound s) : Sound (s.mailPut v ws) :=
  .branch .setBar (fun h => .msixRaise (.setBar (.putWords h))) (.ite (.freeVal h) h)
theorem Sound.event {code die vd pad detail pay} (h : Sound s) : Sound (s.event code die vd pad detail pay) :=
  .set h
theorem Sound.evReport (h : Sound s) : Sound (s.evReport) := .errorRecord h
theorem Sound.evFlush {n} (h : Sound s) : Sound (s.evFlush n) := by
  induction n generalizing s with
  | zero => exact h
  | succ n ih =>
    unfold State.evFlush
    split
    · exact h
    · exact .ite (.evReport h) (.ite h (ih (.wr (.putWords h))))
theorem Sound.evArrive {r} (h : Sound s) : Sound (s.evArrive r) :=
  .ite (.evFlush (.set (.evFlush h))) (.unless (.evFlush h) .wr)

/-! ### The memory-side cache -/

theorem Sound.yieldErrors {a n} (h : Sound s) : Sound (s.yieldErrors a n) := .ite h (.modDie h)
theorem Sound.wroteBack {p d bs} (h : Sound s) : Sound (s.wroteBack p d bs) :=
  .foldl (fun _ _ h => .set (.errorRecord h)) h
theorem Sound.dropStruck (h : Sound s) : Sound (s.dropStruck) := .ite h (.set h)
theorem Sound.cached {p k wr slot a n} (h : Sound s) : Sound (s.cached p k wr slot a n) :=
  .ite h (.dropStruck (.set (.ite h (.yieldErrors h))))
theorem Sound.cleanWay {p d w} (h : Sound s) : Sound (s.cleanWay p d w) := .dropStruck (.modDie (.wroteBack h))
theorem Sound.loseLines {lost} (h : Sound s) : Sound (s.loseLines lost) := .dropStruck (.set h)
theorem Sound.dropLines {first n} (h : Sound s) : Sound (s.dropLines first n) := .loseLines h
theorem Sound.demote {p chain} (h : Sound s) : Sound (s.demote p chain) := .ite h (.set h)

/-! ### Translation and device memory -/

theorem Sound.modPage {n g} (h : Sound s) : Sound (s.modPage n g) := .set h
theorem Sound.devWrite {slot a bs} (h : Sound s) : Sound (s.devWrite slot a bs) :=
  .ite h (.ite (.modPage (.of_memWrite h rfl)) (.of_memWrite h rfl))
theorem Sound.memPut {p k slot a bs} (h : Sound s) : Sound (s.memPut p k slot a bs) :=
  .ite h (.cached (.devWrite (.ite (.modDie h) h)))
theorem Sound.devPut {p a bs} (h : Sound s) : Sound (s.devPut p a bs) := .foldl (fun _ _ h => .memPut h) h
theorem Sound.freeBytes {n} (h : Sound s) : Sound (s.freeBytes n).2 := by
  induction n generalizing s with
  | zero => exact h
  | succ n ih => exact ih (.freeVal h)
theorem Sound.passTables {pad es} (h : Sound s) : Sound (s.passTables pad es) :=
  .foldl (fun _ _ h => .cached h) h
theorem Sound.walked2 {pad vd gpa} (h : Sound s) : Sound (s.walked2 pad vd gpa) := .passTables h
theorem Sound.walked {pad vd va wr} (h : Sound s) : Sound (s.walked pad vd va wr) := by
  unfold State.walked
  refine .ite h ?_
  extract_lets t u
  have hu : Sound u := by
    dsimp only [u]
    split
    · exact .passTables h
    · exact .walked2 (.passTables h)
  split
  · split
    · exact .ite (.walked2 hu) hu
    · exact hu
  · exact hu
theorem Sound.packet {dest kind ws} (h : Sound s) : Sound (s.packet dest kind ws) := .ite (.set h) h
theorem Sound.readPiece {k pad vd p} (h : Sound s) : Sound (s.readPiece k pad vd p).2 := by
  unfold State.readPiece
  dsimp only
  split
  · exact .cached (.walked h)
  · exact .freeBytes (.packet (.walked h))
  · exact .walked h
theorem Sound.copyRead {k pad vd va n x} (h : Sound s) (e : s.copyRead k pad vd va n = .ok x) : Sound x.2 := by
  unfold State.copyRead at e
  split at e
  · cases e
  · cases e
    exact .foldl_snd (fun _ _ h => .readPiece h) h
theorem Sound.writePiece {k pad vd p bs} (h : Sound s) : Sound (s.writePiece k pad vd p bs) := by
  unfold State.writePiece
  dsimp only
  split
  · exact .memPut (.walked h)
  · exact .packet (.walked h)
  · exact .when (.walked h) .lqNotify
  · exact .walked h
theorem Sound.copyWrite {k pad vd va bs} (h : Sound s) : Sound (s.copyWrite k pad vd va bs) :=
  .foldl_fst (fun _ _ h => .writePiece h) h
theorem Sound.partPiece {k pad vd d p bs} (h : Sound s) : Sound (s.partPiece k pad vd d p bs) := by
  unfold State.partPiece
  refine .ite h (.ite (.walked h) ?_)
  split
  · exact .foldl (fun _ _ h => .unless (.freeVal h) (fun h => .count (.memPut h))) (.walked h)
  · exact .when (.freeVal h) (fun h => .count (.writePiece h))
theorem Sound.partWrite {k pad vd d va bs} (h : Sound s) : Sound (s.partWrite k pad vd d va bs) :=
  .foldl_fst (fun _ _ h => .partPiece h) h

/-! ### Fetching, time, and what a host stores -/

theorem Sound.fetchPass {q} (h : Sound s) : Sound (s.fetchPass q) := by
  unfold State.fetchPass
  dsimp only
  split
  · exact .cached h
  · exact h
theorem Sound.fetchDecode (h : Sound s) : Sound (s.fetchDecode) := by
  unfold State.fetchDecode
  split
  · exact h
  · exact .ite h (.branch .trapAt .trapAt (.fetchPass h))
theorem Sound.attend {core stage} (h : Sound s) : Sound (s.attend core stage) := by
  unfold State.attend
  dsimp only
  split
  · exact .set h
  · exact .unless (.set h) .setFl
theorem Sound.deliverTo {d cycles p} (h : Sound s) : Sound (s.deliverTo d cycles p) :=
  .ite h (.when (.count h) .modPad)
theorem Sound.elapse {d refs} (h : Sound s) : Sound (s.elapse d refs) :=
  .when (.modDie h) (fun h => .foldl (fun _ _ h => .deliverTo h) h)
theorem Sound.hostPut {a bs} (h : Sound s) : Sound (s.hostPut a bs) :=
  .ite (.of_memWrite h rfl) (.foldl (fun _ _ h => .ite h (.memPut h)) h)
theorem Sound.loadCode {p o ws} (h : Sound s) : Sound (s.loadCode p o ws) := .ite (.modPad (.devPut h)) h

/-! ### Conversions -/

theorem EffSound.xpandEff {hdr b hi slot d a q} (h : Sound s) : EffSound (xpandEff hdr b hi slot d a q s) := by
  unfold Machine.xpandEff
  split
  · exact .error
  · exact .ite .error (.map (.qOp (.ite (.addWaves h) h)))
theorem OutSound.execXpand {hdr b hi slot d a} (h : Sound s) : OutSound (execXpand hdr b hi slot d a s) := by
  unfold Machine.execXpand
  dsimp only
  split
  · exact .issue (fun _ _ => .xpandEff) h
  · exact .ite (.next h) (.issue (fun _ _ => .xpandEff) h)

/-! ### The matrix unit -/

theorem Sound.segWrite {core segs a bs} (h : Sound s) : Sound (s.segWrite core segs a bs) := by
  induction bs generalizing s a with
  | nil => exact h
  | cons b bs ih => exact ih (memSet_wf _ _ _ h)
theorem Sound.segPut {core segs a bs} (h : Sound s) : Sound (s.segPut core segs a bs) := .set (.segWrite h)
theorem Sound.queueMat {q c} (h : Sound s) : Sound (s.queueMat q c) := .modCore h
theorem OutSound.execMma {hdr a tile slot} (h : Sound s) : OutSound (execMma hdr a tile slot s) := by
  unfold Machine.execMma
  refine .issue (fun _ _ h => ?_) h
  dsimp only
  split
  · exact .error
  · exact .ok (.queueMat h)
theorem OutSound.execMzero {hdr mask} (h : Sound s) : OutSound (execMzero hdr mask s) := by
  unfold Machine.execMzero
  refine .issue (fun _ _ h => ?_) h
  refine .uOp h ?_
  split
  · exact .error
  · exact .ok (.queueMat h)
theorem OutSound.execMdrain {hdr tile slot raw z r} (h : Sound s) :
    OutSound (execMdrain hdr tile slot raw z r s) := by
  unfold Machine.execMdrain
  refine .issue (fun _ _ h => ?_) h
  dsimp only
  split
  · exact .error
  · exact .ok (.queueMat h)
theorem EffSound.mloadEff {hdr op tile w sl bad q} (h : Sound s) :
    EffSound (mloadEff hdr op tile w sl bad q s) := by
  unfold Machine.mloadEff
  dsimp only
  split
  · exact .error
  · exact .ok (.queueMat h)
theorem Sound.setTile {core t x} (h : Sound s) : Sound (s.setTile core t x) := .modCore h
theorem Sound.mergeFlags {core fold flock born g} (h : Sound s) : Sound (s.mergeFlags core fold flock born g) :=
  .ite h (.modStage (.modFlock h))
theorem Sound.runMat {core c} (h : Sound s) : Sound (s.runMat core c) := by
  unfold State.runMat
  dsimp only
  split
  · exact .setTile h
  · exact .foldl (fun _ _ h => .ite (.setTile h) h) h
  · exact .when (.mergeFlags (.segPut h)) .setTile
  · exact .setTile h
  · exact .setTile h
  · exact .setTile h
theorem Sound.failMat {core c rest} (h : Sound s) : Sound (s.failMat core c rest) :=
  .errorRecord (.deliver (.modCore h))
theorem Sound.matStart {core} (h : Sound s) : Sound (s.matStart core) := by
  unfold State.matStart
  split
  · exact h
  · refine .ite h ?_
    refine .ite (.failMat h) ?_
    refine .modCore ?_
    split
    · exact .count (.runMat (.modCore h))
    · exact .runMat (.modCore h)

/-! ### Tile copies and collectives -/

theorem Sound.bindQueue {fid qn} (h : Sound s) : Sound (s.bindQueue fid qn).2 := by
  unfold State.bindQueue
  split
  · exact h
  · split
    · exact h
    · exact .modFold h
theorem Sound.numbered {o} (h : Sound s) : Sound (s.numbered o).2 := by
  unfold State.numbered
  split
  · exact .modVd h
  · exact h
theorem Sound.ownChunks {id o} (h : Sound s) : Sound (s.ownChunks id o) := .modCore h
theorem EffSound.tcopy {kind hdr t a q} (h : Sound s) : EffSound (tcopy kind hdr t a q s) := by
  unfold Machine.tcopy
  dsimp only
  split
  · exact .error
  · exact .ok (.ownChunks (.set (.numbered (.bindQueue h))))
theorem Sound.flipChunk {core ch} (h : Sound s) : Sound (s.flipChunk core ch) := .modCore h
theorem Sound.settleTry {core} (h : Sound s) : Sound (s.settleTry core) := .set h
theorem Sound.stopTry {fid} (h : Sound s) : Sound (s.stopTry fid) := .modFold h
theorem Sound.tryTimeout {fold flock} (h : Sound s) : Sound (s.tryTimeout fold flock) := by
  unfold State.tryTimeout
  split
  · exact h
  · exact .modFlock h
theorem Sound.copyBegin {id} (h : Sound s) : Sound (s.copyBegin id) := by
  unfold State.copyBegin
  split
  · exact h
  · exact .ite h (.set (.ite (.foldl (fun _ _ h => .foldl (fun _ _ h => .cached h) h) h) h))
theorem Sound.loadRows {o rs x} (h : Sound s) (e : s.loadRows o rs = .ok x) : Sound x.2.2 := by
  induction rs generalizing s x with
  | nil => cases e; exact h
  | cons r rs ih =>
    obtain ⟨_ | a, n⟩ := r
    · simp only [State.loadRows] at e
      obtain ⟨y, ey, e⟩ := except_bind_eq_ok.1 e
      cases e
      exact (ih h ey :)
    · simp only [State.loadRows] at e
      obtain ⟨y, ey, e⟩ := except_bind_eq_ok.1 e
      obtain ⟨z, ez, e⟩ := except_bind_eq_ok.1 e
      cases e
      exact (ih (.copyRead h ey) ez :)
theorem Sound.copyChunk {id o ch} (h : Sound s) : Sound (s.copyChunk id o ch) := by
  unfold State.copyChunk
  split
  · exact .settleTry (.flipChunk h)
  · refine .ite h ?_
    split
    · split
      · exact h
      next e => exact .settleTry (.flipChunk (.count (.segPut (h.loadRows e))))
    · exact .ite (.ite h (.settleTry (.flipChunk h))) h
theorem Sound.chunkReturn {core ch} (h : Sound s) : Sound (s.chunkReturn core ch) := by
  unfold State.chunkReturn
  split
  · exact h
  · exact .ite h (.settleTry (.flipChunk h))
  · split
    · exact .ite (.copyChunk h) h
    · exact h
theorem Sound.notify {note a} (h : Sound s) : Sound (s.notify note a) := .ite h (.when (.wr h) .setRecord)
theorem Sound.giveSlot {o} (h : Sound s) : Sound (s.giveSlot o) := by
  unfold State.giveSlot
  split
  · exact .packet h
  · exact h
theorem Sound.pastColl {o} (h : Sound s) : Sound (s.pastColl o) := .modVd h
theorem Sound.copyEnd {id o} (h : Sound s) : Sound (s.copyEnd id o) :=
  .unless (.giveSlot (.set (.ite (.settleTry (.flipChunk (.pastColl h))) h))) .notify
theorem Sound.copyDone {id} (h : Sound s) : Sound (s.copyDone id) := by
  unfold State.copyDone
  split
  · exact h
  · exact .ite h <| .ite (.ite (.copyEnd h) h) <| .ite h <| .branch .copyEnd .set <|
      .count (.foldl (fun _ _ h => .copyWrite h) h)
theorem Sound.segMix {core segs a bs} (h : Sound s) : Sound (s.segMix core segs a bs) := .set (.segPut (.set h))
theorem Sound.partLoad {o i} (h : Sound s) : Sound (s.partLoad o i) := by
  unfold State.partLoad
  refine .foldl_fst (fun r p h => ?_) h
  dsimp only
  split
  · exact h
  next bs t e =>
    have ht : Sound t := by
      split at e
      · cases e; exact h
      · split at e
        · cases e
        · split at e
          next x e' => cases e; exact .copyRead h e'
          · cases e
    exact .segMix (.ite (.count ht) ht)
theorem Sound.leaveParts {id o} (h : Sound s) : Sound (s.leaveParts id o) :=
  .ite h (.ite (.foldl (fun _ _ h => .partLoad h) h) (.ite h (.foldl (fun _ _ h => .partWrite h) h)))
theorem Sound.copyFail {id o sub va} (h : Sound s) : Sound (s.copyFail id o sub va) :=
  .branch (fun h => .modFold (.set h)) (fun h => .settleTry (.deliver h)) <| .fault <|
    .set (.modCore (.giveSlot (.leaveParts h)))
theorem Sound.copyFaultNow {id sub} (h : Sound s) : Sound (s.copyFaultNow id sub) := by
  unfold State.copyFaultNow
  split
  · exact h
  · split
    · exact .ite (.copyFail h) h
    · split
      · refine .ite ?_ h
        refine .copyFail ?_
        split
        · exact .when (.walked h) .yieldErrors
        · exact .walked h
      · exact h
theorem Sound.postFault {id o wr e} (h : Sound s) : Sound (s.postFault id o wr e) :=
  .ite (.set h) (.ite (.set h) (.msixRaise (.setBar (.set (.modVd (.putWords h))))))
theorem Sound.transFault {id} (h : Sound s) : Sound (s.transFault id) := by
  unfold State.transFault
  split
  · exact h
  · split
    · exact .ite (.postFault h) h
    · split
      · exact h
      · exact .ite h (.ite h (.ite (.postFault (.count (.walked h))) (.branch .set .set (.count (.walked h)))))
theorem Sound.answerFault {id fail} (h : Sound s) : Sound (s.answerFault id fail) := by
  unfold State.answerFault
  split
  · exact .ite (.set h) h
  · exact h
theorem Sound.stage2Answer {id fixed} (h : Sound s) : Sound (s.stage2Answer id fixed) := by
  unfold State.stage2Answer
  split
  · exact .ite h (.answerFault h)
  · exact h
theorem Sound.stage1 {fold region} (h : Sound s) : Sound (s.stage1 fold region) := by
  unfold State.stage1
  split
  · exact h
  · refine .ite h ?_
    split
    · exact h
    next e => exact .unless (.settleTry (.modCore (.count (.segPut (h.copyRead e))))) .modFold
theorem Sound.memberPart {o vdn n came x} (h : Sound s) (e : s.memberPart o vdn n came = some x) :
    Sound x.2.2 := by
  unfold State.memberPart at e
  dsimp only at e
  split at e
  · split at e
    · split at e
      · cases e
      · split at e
        · cases e; exact h
        · split at e
          · cases e
          · split at e
            next e' => cases e; exact h.copyRead e'
            · cases e
    · split at e
      · split at e
        · cases e
        · cases e; exact h
      · cases e
  · split at e
    · cases e
    · split at e
      · cases e; exact h
      · split at e
        · cases e; exact h
        · cases e
theorem Sound.memberParts {o n ms x} (h : Sound s) (e : s.memberParts o n ms = some x) : Sound x.2 := by
  induction ms generalizing s x with
  | nil => cases e; exact h
  | cons m ms ih =>
    simp only [State.memberParts] at e
    obtain ⟨y, ey, e⟩ := Option.bind_eq_some_iff.1 e
    obtain ⟨z, ez, e⟩ := Option.bind_eq_some_iff.1 e
    cases e
    exact (ih (.memberPart h ey) ez :)
theorem Sound.failColl {id o} (h : Sound s) : Sound (s.failColl id o) := .pastColl (.set h)
theorem Sound.failMates {o} (h : Sound s) : Sound (s.failMates o) := by
  unfold State.failMates
  refine .foldl (fun _ _ h => ?_) h
  split
  · exact .failColl h
  · exact h
theorem Sound.askSlot {o cop} (h : Sound s) : Sound (s.askSlot o cop).2 := by
  unfold State.askSlot
  dsimp only
  split
  · exact h
  · exact .packet (.freeVal h)
theorem Sound.collRun {id peers} (h : Sound s) : Sound (s.collRun id peers) := by
  unfold State.collRun
  split
  · exact h
  · refine .ite h (.ite h (.ite (.failColl h) ?_))
    dsimp only
    split
    · exact h
    next e => exact .ite (.failMates h) (.set (.askSlot (.count (h.memberParts e))))
theorem Sound.memberRead {id vdn} (h : Sound s) : Sound (s.memberRead id vdn) := by
  unfold State.memberRead
  split
  · exact h
  · refine .ite h ?_
    split
    · exact h
    next e => exact .packet (h.copyRead e)
theorem Sound.takeOne {α : Type} {l : List α} (h : Sound s) : Sound (s.takeOne l).2 := .freeVal h
theorem Sound.peerAnswer {id refused} (h : Sound s) : Sound (s.peerAnswer id refused) := by
  unfold State.peerAnswer
  split
  · exact h
  · exact .ite (.set (.takeOne h)) (.ite h (.set h))

/-! ### Crooks -/

theorem Sound.commitStore {fo m acc q} (h : Sound s) : Sound (commitStore fo m acc q s) := by
  unfold Machine.commitStore
  refine .foldl (fun _ _ h => ?_) h
  dsimp only
  split
  · exact .owe (.wr h)
  · exact .wr h
theorem Sound.commitEnd {act acc st d com v r q} (h : Sound s) : Sound (commitEnd act acc st d com v r q s).1 :=
  .flags (.when (.setFl (.addWaves h)) .setFl)
theorem EffSound.crookCommit {fo act ops md d com r q} (h : Sound s) :
    EffSound (crookCommit fo act ops md d com r q s) := by
  unfold Machine.crookCommit
  dsimp only
  split
  · exact .error
  · exact .ok (.commitEnd (.ite (.commitStore h) h))
theorem EffSound.crookEff {hdr ws bad slotNo md d a b c q} (h : Sound s) :
    EffSound (crookEff hdr ws bad slotNo md d a b c q s) := by
  unfold Machine.crookEff
  refine .ite (.ok h) ?_
  split
  · exact .error
  · exact .ite .error (.crookCommit h)
theorem Sound.crookWait {q p key b} (h : Sound s) : Sound (s.crookWait q p key b) :=
  .endInstr (.modBand (.unless (.waitAt h) (fun h => .event (.modPad h))))
theorem OutSound.execCrook {hdr n slot mx d a b c} (h : Sound s) :
    OutSound (execCrook hdr n slot mx d a b c s) := by
  unfold Machine.execCrook
  extract_lets _ _ go
  have hgo : OutSound go := by
    refine .issue (fun _ _ h => ?_) h
    split
    · exact .error
    · exact .ite .error (.ite .error (.crookEff h))
  split
  · exact hgo
  · split
    · exact hgo
    · exact .ite hgo (.ite (.next (.crookWait h)) (.ite (.next h) hgo))
theorem Sound.startPriv {q counts o} (h : Sound s) : Sound (s.startPriv q counts o) :=
  .branch .putOp .set (.set h)
theorem Sound.privError {o} (h : Sound s) : Sound (s.privError o) := .errorRecord (.deliver h)
theorem Sound.privEnd {id o} (h : Sound s) : Sound (s.privEnd id o) := .branch .privError .notify (.set h)
theorem EffSound.crkEff {op n hdr a q} (h : Sound s) : EffSound (crkEff op n hdr a q s) :=
  .ite .error (.ite .error (.ok (.startPriv h)))
theorem Sound.crkRelease {p key} (h : Sound s) : Sound (s.crkRelease p key) := .set h
theorem Sound.crkEvict {p key} (h : Sound s) : Sound (s.crkEvict p key) := .modPad h
theorem Sound.modStores {p a ws} (h : Sound s) : Sound (s.modStores p a ws) :=
  .foldl (fun _ _ h => .modCore h) h
theorem Sound.crkInstall {p key first tag ws} (h : Sound s) : Sound (s.crkInstall p key first tag ws) :=
  .ite h (.crkRelease (.modPad (.foldl (fun _ _ h => .crkEvict h) (.modStores h))))
theorem Sound.crkAct {o} (h : Sound s) : Sound (s.crkAct o) :=
  .ite (.crkInstall h) (.ite (.modPad h) (.crkEvict h))

/-! ### Bringing a fold to rest, and restoring it -/

theorem Sound.requestStop {fid} (h : Sound s) : Sound (s.requestStop fid) := by
  unfold State.requestStop
  split
  · exact h
  · exact .ite h (.stopTry (.modFold h))
theorem Sound.flushRows {o} (h : Sound s) : Sound (s.flushRows o).1 :=
  .count (.foldl (fun _ _ h => .copyWrite h) h)
theorem Sound.cutCopy {id} (h : Sound s) : Sound (s.cutCopy id) := by
  unfold State.cutCopy
  split
  · exact h
  · refine .ite h ?_
    refine .ite (.ite (.set (.flushRows h)) h) ?_
    refine .set ?_
    split
    · exact .flushRows h
    · split
      · exact .leaveParts h
      · split
        · exact .ownChunks h
        · exact h
theorem Sound.restDeadline {p} (h : Sound s) : Sound (s.restDeadline p) :=
  .foldl (fun _ _ h => .modFold (.foldl (fun _ _ h => .cutCopy h) h)) h
theorem Sound.leaveCore {fid} (h : Sound s) : Sound (s.leaveCore fid) := by
  unfold State.leaveCore
  split
  · exact h
  · exact .modCore (.foldl (fun _ _ h => .ite (.dropFlock h) h) h)
theorem Sound.allRemnants {fid} (h : Sound s) : Sound (s.allRemnants fid) := .set h
theorem Sound.finishStop {fid status} (h : Sound s) : Sound (s.finishStop fid status) := by
  unfold State.finishStop
  split
  · exact h
  · exact .ite h (.set (.modFold (.allRemnants (.leaveCore (.ite h (.errorRecord h))))))
theorem Sound.saveFlock {fid pick g} (h : Sound s) : Sound (s.saveFlock fid pick g) := by
  unfold State.saveFlock
  split
  · exact h
  · split
    · exact .finishStop (.modFlock h)
    · exact .finishStop h
theorem Sound.pointStop {fid} (h : Sound s) : Sound (s.pointStop fid) := by
  unfold State.pointStop
  split
  · exact h
  · exact .ite h (.saveFlock h)
theorem Sound.boundaryStop {fid} (h : Sound s) : Sound (s.boundaryStop fid) := by
  unfold State.boundaryStop
  split
  · exact h
  · exact .ite h (.saveFlock h)
theorem Sound.childStop {fid} (h : Sound s) : Sound (s.childStop fid) := by
  unfold State.childStop
  split
  · exact h
  · exact .ite (.finishStop (.modFold h)) h
theorem Sound.resetFold {fid} (h : Sound s) : Sound (s.resetFold fid) := by
  unfold State.resetFold
  split
  · exact h
  · exact .modFold <| .set <| .modCore <| .foldl (fun _ _ h => .modCore h) <|
      .foldl (fun _ _ h => .giveSlot (.leaveParts h)) <| .fault h
theorem Sound.forceReset {p} (h : Sound s) : Sound (s.forceReset p) := .foldl (fun _ _ h => .resetFold h) h
theorem Sound.settleCwait {fid} (h : Sound s) : Sound (s.settleCwait fid) := .modFold h
theorem Sound.placeFlocks {fid have_ n} (h : Sound s) : Sound (s.placeFlocks fid have_ n) :=
  .foldl (fun _ _ h => .ite (.placeFlock h) h) h
theorem Sound.addRange {id o r} (h : Sound s) : Sound (s.addRange id o r) := .modCore (.set h)
theorem Sound.restartCopy {fid id fo} (h : Sound s) : Sound (s.restartCopy fid id fo) := by
  unfold State.restartCopy
  split
  · exact h
  · dsimp only
    split
    · refine .set ?_
      split
      · exact h
      · exact .bindQueue h
    · refine .set ?_
      split
      · exact h
      · exact .bindQueue h
    · refine .foldl (fun _ _ h => ?_) ?_
      · exact .addRange h
      · refine .set ?_
        split
        · exact h
        · exact .bindQueue h
theorem Sound.rebind {fid olddie fo} (h : Sound s) : Sound (s.rebind fid olddie fo) :=
  .foldl (fun _ _ h => .bindQueue h) (.modFold h)
theorem Sound.restoreOn {fid core segs} (h : Sound s) : Sound (s.restoreOn fid core segs) := by
  unfold State.restoreOn
  split
  · exact h
  · exact .settleCwait <| .settle <| .modFold <| .foldl (fun _ _ h => .restartCopy h) <| .rebind <|
      .placeFlocks <| .modCore <| .set (.foldl (fun _ _ h => .segPut h) (.set h))

/-! ### The scheduler -/

theorem Sound.beginTurn {core stage i fid k} (h : Sound s) : Sound (s.beginTurn core stage i fid k) := by
  unfold State.beginTurn
  dsimp only
  split
  · exact h
  · exact .ite (.modStage h) (.endTurn (.modStage (.modFlock h)))
theorem Sound.turnSelect {core stage} (h : Sound s) : Sound (s.turnSelect core stage) := by
  unfold State.turnSelect
  refine .ite h ?_
  split
  · exact .beginTurn h
  · exact h
theorem Sound.unparkFlock {fid k} (h : Sound s) : Sound (s.unparkFlock fid k) := by
  unfold State.unparkFlock
  split
  · exact h
  · exact .ite h (.when (.modFlock h) .dropFlock)
theorem Sound.addDrove {key d} (h : Sound s) : Sound (s.addDrove key d) := .set h
theorem Sound.recordBad {id l o} (h : Sound s) : Sound (s.recordBad id l o) :=
  .drain (.errorRecord (.deliver (.set h)))
theorem Sound.recordRead {id droveId} (h : Sound s) : Sound (s.recordRead id droveId) := by
  unfold State.recordRead
  split
  · refine .ite h (.ite (.recordBad h) ?_)
    exact .ite (.drain (.fault (.addDrove (.set h)))) (.drain (.addDrove (.set h)))
  · exact h
theorem Sound.entryRead {v q droveId} (h : Sound s) : Sound (s.entryRead v q droveId) :=
  .ite h (.branch (fun h => .fault (.addDrove h)) .addDrove (.set (.trace (.modVd (.setBar h)))))
theorem Sound.dropShrink {p d} (h : Sound s) : Sound (s.dropShrink p d) := .ite h (.set h)
theorem Sound.dropShrinks {p} (h : Sound s) : Sound (s.dropShrinks p) := .foldl (fun _ _ h => .dropShrink h) h
theorem Sound.noteWaits {d} (h : Sound s) : Sound (s.noteWaits d) :=
  .foldl (fun _ _ h => .dropShrink h) (.set h)
theorem Sound.stageRegions {fid fo o args} (h : Sound s) : Sound (s.stageRegions fid fo o args) :=
  .foldl (fun _ _ h => .ite h (.set h)) h
theorem Sound.hostFold {d die} (h : Sound s) : Sound (s.hostFold d die) := .set (.modPad h)
theorem Sound.admitOn {key d o core segs} (h : Sound s) : Sound (s.admitOn key d o core segs) :=
  .stageRegions (.placeFlocks (.when (.when (.modDrove (.set h)) .hostFold) .modCore))
theorem Sound.admitFold {key core segs} (h : Sound s) : Sound (s.admitFold key core segs) := by
  unfold State.admitFold
  split
  · exact h
  · split
    · exact h
    · exact .ite (.dropShrinks (.admitOn h)) h
theorem Sound.restore {fid core segs} (h : Sound s) : Sound (s.restore fid core segs) := by
  unfold State.restore
  split
  · exact h
  · exact .ite (.dropShrinks (.restoreOn h)) h
theorem Sound.age {key} (h : Sound s) : Sound (s.age key) := .modDrove h
theorem Sound.askShrink {fid} (h : Sound s) : Sound (s.askShrink fid) := by
  unfold State.askShrink
  split
  · exact h
  · exact .ite (.modFold h) h
theorem Sound.endFold {fid} (h : Sound s) : Sound (s.endFold fid) := by
  unfold State.endFold
  split
  · exact h
  · exact .ite (.modDrove (.set (.ite (.leaveCore h) h))) h
theorem Sound.clearSeg {core g} (h : Sound s) : Sound (s.clearSeg core g) :=
  .ite (.modCore (.of_memClear h rfl)) h
theorem Sound.clearCore {core what n} (h : Sound s) : Sound (s.clearCore core what n) :=
  .ite (.clearSeg h) (.modCore h)
theorem Sound.retireDrove {key} (h : Sound s) : Sound (s.retireDrove key) := by
  unfold State.retireDrove
  split
  · exact h
  · exact .ite h (.branch (fun h => .modVd (.set h)) .settleCwait (.trace (.when (.set h) .demote)))
theorem Sound.completionWrite {v cq} (h : Sound s) : Sound (s.completionWrite v cq) := by
  unfold State.completionWrite
  split
  · exact h
  · exact .ite h (.msixRaise (.setBar (.modVd (.putWords h))))
theorem Sound.sliceTrace {p type v} (h : Sound s) : Sound (s.sliceTrace p type v) := .trace h
theorem Sound.sliceEnd {p} (h : Sound s) : Sound (s.sliceEnd p) := by
  unfold State.sliceEnd
  split
  · exact h
  · exact .ite h (.modPad (.sliceTrace h))
theorem Sound.sliceSwitch {p} (h : Sound s) : Sound (s.sliceSwitch p) := by
  unfold State.sliceSwitch
  refine .ite h ?_
  split
  · exact h
  · exact .sliceTrace (.modVd (.modPad h))

/-! ### Configuration registers -/

theorem Sound.cfgPut {o} (h : Sound s) : Sound (s.cfgPut o) :=
  .ite (.ite h (.modPad h)) (.ite (.setReg h) (.setReg h))
theorem Sound.markTables {x} (h : Sound s) : Sound (s.markTables x) := .foldl (fun _ _ h => .modPage h) h
theorem Sound.clearPage {p} (h : Sound s) : Sound (s.clearPage p) := .modPage (.dropLines (.of_memClear h rfl))
theorem Sound.newTable {a n} (h : Sound s) : Sound (s.newTable a n) := .modPage (.memPut h)
theorem Sound.copyRegion {p new} (h : Sound s) : Sound (s.copyRegion p new) := by
  unfold State.copyRegion
  dsimp only
  split
  · exact .modPad h
  · exact .foldl (fun _ _ h => .modCore h) h
theorem Sound.stopAct {p act} (h : Sound s) : Sound (s.stopAct p act) := by
  unfold State.stopAct
  refine .ite ?_ (.ite (.foldl (fun _ _ h => .resetFold h) h) (.modPad h))
  refine .modPad ?_
  split
  · exact .ite (.sliceTrace h) h
  · exact h
theorem Sound.setTrace {v x} (h : Sound s) : Sound (s.setTrace v x) := .setReg (.ite (.setBar h) h)
theorem Sound.newVd {v} (h : Sound s) : Sound (s.newVd v) := .modVd (.set h)
theorem Sound.cfgApply {o} (h : Sound s) : Sound (s.cfgApply o) := by
  unfold State.cfgApply
  dsimp only
  split
  · exact .unless (.ite h (.cfgPut h)) .modPad
  · exact .cfgPut (.copyRegion h)
  · exact .modPad (.ite h (.cfgPut h))
  · exact .set (.ite h (.cfgPut h))
  · exact .when (.ite h (.cfgPut h)) .modPad
  · exact .stopAct h
  · exact .markTables (.ite h (.cfgPut h))
  · exact .markTables (.ite h (.cfgPut h))
  · exact .unless (.ite h (.cfgPut h)) .newVd
  · exact .when (.ite h (.cfgPut h)) .newTable
  · exact .setTrace h
  · exact .set (.ite h (.cfgPut h))
  · exact .ite h (.cfgPut h)
theorem Sound.clearAll {c} (h : Sound s) : Sound (s.clearAll c) :=
  .modCore (.foldl (fun _ _ h => .clearSeg h) h)
theorem Sound.cfgClear {o} (h : Sound s) : Sound (s.cfgClear o) :=
  .when (.foldl (fun _ _ h => .clearPage h) <| .set <| .foldl (fun _ _ h => .of_memClear h rfl) h)
    fun h => .unless (.foldl (fun _ _ h => .modCore (.clearAll h)) h) .modPad
theorem Sound.relStore {a n v} (h : Sound s) : Sound (s.relStore a n v) := .when (.wr h) .setRecord
theorem Sound.cfgStep {id} (h : Sound s) : Sound (s.cfgStep id) := by
  unfold State.cfgStep
  split
  · exact h
  · exact .ite h <| .ite (.ite (.relStore (.set h)) h) <|
      .when (.ite h (.set (.cfgApply h))) (fun h => .privEnd (.cfgClear h))
theorem EffSound.pcfgEff {tgt reg hdr a q} (h : Sound s) : EffSound (pcfgEff tgt reg hdr a q s) :=
  .ite .error (.ok (.startPriv h))
theorem EffSound.pcfgRdEff {tgt reg hdr a q} (h : Sound s) : EffSound (pcfgRdEff tgt reg hdr a q s) :=
  .ite .error (.ok (.startPriv h))

/-! ### Privileged instructions -/

theorem Sound.loseSlot {k} (h : Sound s) : Sound (s.loseSlot k) := .loseLines h
theorem EffSound.pkeyEff {op hdr a q} (h : Sound s) : EffSound (pkeyEff op hdr a q s) :=
  .ite .error (.ite .error (.ok (.startPriv (.ite (.loseSlot (.set h)) h))))
theorem Sound.keyAct {o} (h : Sound s) : Sound (s.keyAct o) := .ite (.set h) (.loseSlot (.set h))
theorem Sound.pmapPass {vd level gpa e} (h : Sound s) : Sound (s.pmapPass vd level gpa e) :=
  .foldl (fun _ _ h => .cached h) h
theorem Sound.pmapAct {vd level gpa e} (h : Sound s) : Sound (s.pmapAct vd level gpa e) := by
  unfold State.pmapAct
  split
  · exact h
  · refine .memPut (.when (.when (.when (.pmapPass h) .newTable) ?_) ?_)
    · exact fun h => .foldl (fun _ _ h => .modPage h) h
    · exact fun h => .foldl (fun _ _ h => .modPage h) h
theorem EffSound.tlbiEff {bad q} (h : Sound s) : EffSound (tlbiEff bad q s) := .ite .error (.ok (.startPriv h))
theorem Sound.vdnAct {o} (h : Sound s) : Sound (s.vdnAct o) := .set h
theorem Sound.setBw {p st mn cap} (h : Sound s) : Sound (s.setBw p st mn cap) := .modPad h
theorem Sound.shrinkBw {st} (h : Sound s) : Sound (s.shrinkBw st) :=
  .ite h (.event (.foldl (fun _ _ h => .setBw h) (.foldl (fun _ _ h => .setBw h) h)))
theorem Sound.bwAct {p st mn cap} (h : Sound s) : Sound (s.bwAct p st mn cap) := .shrinkBw (.setBw h)
theorem EffSound.qosEff {what hdr a q} (h : Sound s) : EffSound (qosEff what hdr a q s) :=
  .ite .error (.ok (.startPriv h))
theorem Sound.giveWay {d way new} (h : Sound s) : Sound (s.giveWay d way new) :=
  .foldl (fun _ _ h => .ite (.ite h (.modPad h)) (.ite (.modPad (.cleanWay h)) h)) h
theorem Sound.handover {die way} (h : Sound s) : Sound (s.handover die way) := by
  unfold State.handover
  split
  · exact .giveWay h
  · exact h
theorem Sound.clearRange {first n} (h : Sound s) : Sound (s.clearRange first n) := .of_memClear h rfl
theorem Sound.msgAct {o} (h : Sound s) : Sound (s.msgAct o) := .ite (.set h) (.mailPut h)
theorem Sound.privStep {id o} (h : Sound s) : Sound (s.privStep id o) := by
  unfold State.privStep
  refine .ite h ?_
  split
  · exact .ite h (.privEnd (.crkAct h))
  · exact .ite h (.privEnd (.crkAct h))
  · exact .ite h (.privEnd (.crkAct h))
  · exact .privEnd (.keyAct h)
  · exact .privEnd (.keyAct h)
  · exact .privEnd (.pmapAct h)
  · exact .privEnd h
  · exact .privEnd h
  · exact .privEnd (.vdnAct h)
  · exact .privEnd (.bwAct h)
  · exact .ite (.privEnd h) h
  · exact .privEnd (.clearRange h)
  · exact .ite (.privEnd (.msgAct h)) h
  · exact h

/-! ### Saves, loads and moved code -/

theorem Sound.loadPut {v rd r} {x : Load} (h : Sound x.st) : Sound (x.put v rd r).st := by
  unfold Load.put
  split
  · exact .modVd h
  · exact .modVd (.foldl (fun _ _ h => .modVd h) (.foldl (fun _ _ h => .queueReg (.setBar (.setBar (.queueReg h))))
      (.foldl (fun _ _ h => .modVd (.queueReg (.setBar (.setBar (.queueReg h))))) h)))
  · exact .of_memWrite h rfl
  · exact .when (.addDrove h) .modVd
  · exact .modDrove h
  · exact .modFold h
  · exact .modFold h
  · exact .modFold h
  · exact .modFold h
  · exact .modFold (.numbered h)
  · exact h
theorem Sound.loadLink {x : Load} (h : Sound x.st) : Sound x.link :=
  .foldl (fun _ _ h => .modFold h) (.foldl (fun _ _ h => .modDrove h) h)
theorem Sound.putCrooks {v rd rs fs} (h : Sound s) : Sound (s.putCrooks v rd rs fs) := by
  unfold State.putCrooks
  split
  · exact h
  · exact .foldl (fun _ _ h => .crkInstall h) (.modPad h)
theorem Sound.loadStream {v limit rd} (h : Sound s) : Sound (s.loadStream v limit rd).2.2 := by
  unfold State.loadStream
  split
  · exact h
  · split
    · exact h
    · split
      · exact h
      · dsimp only
        split
        · exact h
        · exact .putCrooks (.loadLink (.foldl_st (fun _ _ h => .loadPut h) h))
theorem EffSound.savexEff {op hdr a q} (h : Sound s) : EffSound (savexEff op hdr a q s) :=
  .ite .error (.ok (.startPriv (.ite (.modVd h) h)))
theorem Sound.dropVd {v} (h : Sound s) : Sound (s.dropVd v) := .modVd (.set h)
theorem Sound.savexEnd {id o code n} (h : Sound s) : Sound (s.savexEnd id o code n) := .privEnd (.relStore h)
theorem Sound.saveAct {id o} (h : Sound s) : Sound (s.saveAct id o) := .savexEnd (.devPut (.modPad h))
theorem Sound.devGot {p a n} (h : Sound s) : Sound (s.devGot p a n) := .foldl (fun _ _ h => .cached h) h
theorem Sound.loadAct {id o} (h : Sound s) : Sound (s.loadAct id o) := by
  unfold State.loadAct
  dsimp only
  split
  · exact .savexEnd (.errorRecord (.devGot h))
  · exact .savexEnd (.loadStream (.devGot h))
theorem Sound.savexStep {id o} (h : Sound s) : Sound (s.savexStep id o) := by
  unfold State.savexStep
  refine .ite h ?_
  split
  · exact .ite (.saveAct h) h
  · exact .savexEnd (.modVd h)
  · exact .ite h (.savexEnd (.modVd (.dropVd h)))
  · exact .loadAct h
theorem Sound.moveHeld {p f} (h : Sound s) : Sound (s.moveHeld p f) := .set h
theorem Sound.moveCode {p old new len} (h : Sound s) : Sound (s.moveCode p old new len) :=
  .modPad (.unless (.moveHeld h) (fun h => .foldl (fun _ _ h => .modVd h) h))
theorem Sound.codemvStep {id o} (h : Sound s) : Sound (s.codemvStep id o) := .ite h (.privEnd (.moveCode h))
theorem Sound.fwdRetire {p i} (h : Sound s) : Sound (s.fwdRetire p i) := by
  unfold State.fwdRetire
  split
  · exact h
  · exact .ite h (.modPad h)

/-! ### Live migration -/

theorem Sound.scan {v} (h : Sound s) : Sound (s.scan v) := .foldl (fun _ _ h => .cached h) h
theorem Sound.shepError {v} (h : Sound s) : Sound (s.shepError v) := .fault h
theorem Sound.trackPages {ps on} (h : Sound s) : Sound (s.trackPages ps on) :=
  .foldl (fun _ _ h => .modPage h) h
theorem Sound.predict {v} (h : Sound s) : Sound (s.predict v).2 := by
  unfold State.predict
  dsimp only
  split
  · exact .freeVal h
  · exact h
theorem Sound.shepArgsNow {cmd v a b} (h : Sound s) : Sound (s.shepArgsNow cmd v a b).2 := by
  unfold State.shepArgsNow
  split
  · exact .predict h
  · exact h
theorem EffSound.shepEff {cmd hdr a q} (h : Sound s) : EffSound (shepEff cmd hdr a q s) :=
  .ite .error (.ok (.startPriv (.shepArgsNow h)))
theorem Sound.shepReport {v code cmd} (h : Sound s) : Sound (s.shepReport v code cmd).2 := .predict h
theorem Sound.shepEnd {id o code} (h : Sound s) : Sound (s.shepEnd id o code) := by
  refine .branch .privEnd (fun h => .when (.set h) .msixRaise) ?_
  exact .when (.when (.shepReport h) .putWords) fun h => .foldl (fun _ _ h => .setRecord h) h
theorem Sound.setPriv {id o} (h : Sound s) : Sound (s.setPriv id o) := .set h
theorem Sound.snapshot {v page gpa} (h : Sound s) : Sound (s.snapshot v page gpa) := .modVd (.modPage h)
theorem Sound.markAgain {v} (h : Sound s) : Sound (s.markAgain v) := .modVd (.foldl (fun _ _ h => .modPage h) h)
theorem Sound.toBuffer {v bs t} (h : Sound s) (e : s.toBuffer v bs = .ok t) : Sound t := by
  unfold State.toBuffer at e
  dsimp only at e
  split at e
  · cases e
  · split at e
    · cases e
    · cases e
      exact .modVd (.of_memWrite h rfl)
theorem Sound.sendGranule {v g} (h : Sound s) :
    (∀ t, s.sendGranule v g = .ok t → Sound t) ∧ ∀ c t, s.sendGranule v g = .error (c, t) → Sound t := by
  unfold State.sendGranule
  dsimp only
  split
  · exact ⟨nofun, fun _ _ e => by cases e; exact .shepError (.yieldErrors (.modVd h))⟩
  · split
    · exact ⟨nofun, fun _ _ e => by cases e; exact .modVd h⟩
    · split
      · exact ⟨fun _ e => by cases e; exact .packet (.modVd (.cached (.modVd h))), nofun⟩
      · split
        next e' => exact ⟨fun _ e => by cases e; exact .toBuffer (.modVd (.cached (.modVd h))) e', nofun⟩
        · exact ⟨nofun, fun _ _ e => by cases e; exact .modVd h⟩
theorem Sound.shepResume {v} (h : Sound s) : Sound (s.shepResume v) := .modVd (.markAgain h)
theorem Sound.shepBegin {v a b} (h : Sound s) : Sound (s.shepBegin v a b) := .modVd (.trackPages h)
theorem Sound.shepSend {id o g} (h : Sound s) : Sound (s.shepSend id o g) := by
  unfold State.shepSend
  obtain ⟨hok, herr⟩ := h.sendGranule (v := o.elem) (g := g)
  split
  next t e => exact hok t e
  next c t e => exact .shepEnd (.ite (.shepResume (herr c t e)) (.markAgain (herr c t e)))
theorem Sound.shepStream {id o} (h : Sound s) : Sound (s.shepStream id o) := by
  unfold State.shepStream
  refine .ite (.shepEnd (.shepResume (.modPad h))) (.ite (.setPriv (.packet (.modPad h))) ?_)
  split
  next e => exact .setPriv (.toBuffer (.modPad h) e)
  · exact .shepEnd (.shepResume (.modPad h))
theorem Sound.snapshotOf {v x} (h : Sound s) : Sound (s.snapshotOf v x) := .snapshot (.walked2 h)
theorem Sound.shepRoundStep {id o} (h : Sound s) : Sound (s.shepRoundStep id o) := by
  unfold State.shepRoundStep
  refine .ite (.setPriv (.modVd (.scan h))) ?_
  split
  · exact .shepSend h
  · exact .setPriv (.snapshotOf h)
  · exact .ite (.setPriv h) (.shepEnd (.modVd h))
theorem Sound.shepStopStep {id o} (h : Sound s) : Sound (s.shepStopStep id o) := by
  unfold State.shepStopStep
  dsimp only
  split
  · exact .branch .shepEnd (fun h => .setPriv (.modVd h)) (.modVd h)
  · exact .ite h (.branch (fun h => .shepEnd (.shepResume (.shepError h))) .setPriv (.scan h))
  · split
    · exact .setPriv (.snapshotOf h)
    · exact .setPriv h
  · split
    · exact .shepSend h
    · exact .shepStream h
  · exact h
theorem Sound.shepStep {id o} (h : Sound s) : Sound (s.shepStep id o) := by
  unfold State.shepStep
  refine .ite h (.ite (.shepEnd (.shepError (.scan h))) ?_)
  split
  · exact .shepEnd (.shepBegin (.scan h))
  · exact .shepRoundStep h
  · exact .shepStopStep h
  · exact .shepEnd (.modVd (.when (.ite (.trackPages (.scan h)) h) .shepError))
  · exact .shepEnd (.modVd h)
theorem Sound.roundAck {v refused} (h : Sound s) : Sound (s.roundAck v refused) := by
  unfold State.roundAck
  split
  · exact .ite h (.ite (.shepEnd (.markAgain h)) (.shepEnd (.modVd h)))
  · exact h
theorem Sound.transferFail {v refused} (h : Sound s) : Sound (s.transferFail v refused) := by
  unfold State.transferFail
  dsimp only
  split
  · exact .ite h (.shepEnd (.markAgain h))
  · exact .ite h (.shepEnd (.shepResume h))
  · exact h
theorem Sound.modOwnVdn {v g} (h : Sound s) : Sound (s.modOwnVdn v g) := by
  unfold State.modOwnVdn
  split
  · exact .ite h (.set h)
  · exact h
theorem Sound.migSwitch {v} (h : Sound s) : Sound (s.migSwitch v) := by
  unfold State.migSwitch
  refine .ite ?_ (.ite (.modVd (.modOwnVdn h)) h)
  split
  · exact .ite h (.shepEnd (.modVd (.dropVd (.trackPages (.scan (.modOwnVdn h))))))
  · exact h
theorem Sound.granuleIn {v g bs src} (h : Sound s) : Sound (s.granuleIn v g bs src) := by
  unfold State.granuleIn
  refine .ite h (.ite (.packet h) ?_)
  dsimp only
  split
  · exact .branch .packet (fun h => .packet (.memPut h)) (.walked2 h)
  · exact .packet (.walked2 h)
theorem Sound.streamIn {v bs src} (h : Sound s) : Sound (s.streamIn v bs src) :=
  .ite h (.ite (.packet h) (.ite (.packet (.modVd (.loadStream h))) (.packet (.loadStream h))))
theorem Sound.peerRead {v p} (h : Sound s) : Sound (s.peerRead v p).2 := by
  unfold State.peerRead
  dsimp only
  split
  · exact .cached (.walked2 h)
  · exact .walked2 h
theorem Sound.peerWrite {v p bs} (h : Sound s) : Sound (s.peerWrite v p bs) := by
  unfold State.peerWrite
  dsimp only
  split
  · exact .memPut (.walked2 h)
  · exact .when (.walked2 h) .lqNotify
  · exact .walked2 h
theorem Sound.peerTried {v wr ps} (h : Sound s) : Sound (s.peerTried v wr ps) := by
  unfold State.peerTried
  refine .foldl (fun _ _ h => ?_) h
  dsimp only
  split
  · exact .when (.walked2 h) .yieldErrors
  · exact .walked2 h
theorem Sound.peerIn {vdn src gpa wr bs lea} (h : Sound s) : Sound (s.peerIn vdn src gpa wr bs lea) := by
  unfold State.peerIn
  refine .ite h ?_
  split
  · exact .packet h
  · refine .ite (.ite (.packet h) (.packet h)) <| .ite (.packet h) <| .ite h <| .ite (.packet h) <|
      .ite (.packet (.peerTried h)) (.ite (.packet ?_) (.packet ?_))
    · exact .foldl_fst (fun _ _ h => .peerWrite h) h
    · exact .foldl_snd (fun _ _ h => .peerRead h) h
theorem Sound.movedIn {vdn op} (h : Sound s) : Sound (s.movedIn vdn op) := by
  unfold State.movedIn
  split
  · exact h
  · exact .ite (.set (.freeVal h)) (.ite h (.set h))
theorem Sound.sendAgain {op x} (h : Sound s) : Sound (s.sendAgain op x) := by
  unfold State.sendAgain
  split
  · exact h
  · refine .ite (.set h) ?_
    split
    · exact .set h
    · exact .set h
    · exact .set (.packet h)
    · split
      · exact .set h
      · exact .memPut (.elim h (fun _ => .walked2 h))
    · exact .when (.elim h (fun _ => .walked2 h)) .lqNotify
theorem Sound.movedAgain {op} (h : Sound s) : Sound (s.movedAgain op) := by
  unfold State.movedAgain
  split
  · exact h
  · refine .ite h ?_
    dsimp only
    split
    · exact .unless (.foldl (fun _ _ h => .sendAgain h) (.set h)) .set
    · exact .foldl (fun _ _ h => .sendAgain h) (.set h)
theorem Sound.fwdExpire {vdn} (h : Sound s) : Sound (s.fwdExpire vdn) := by
  unfold State.fwdExpire
  split
  · exact h
  · exact .ite (.set h) h
theorem Sound.shepCommand {port x} (h : Sound s) : Sound (s.shepCommand port x) :=
  .ite (.setBar h) (.set (.setBar (.shepArgsNow h)))
theorem Sound.privDone {id} (h : Sound s) : Sound (s.privDone id) := by
  unfold State.privDone
  split
  · exact h
  · exact .ite h (.ite (.shepStep h) (.ite (.savexStep h) (.ite (.codemvStep h) (.privStep h))))

/-! ### Host requests, events and fault records -/

theorem Sound.cqHead {v q x} (h : Sound s) : Sound (s.cqHead v q x) := .ite (.setBar h) h
theorem Sound.tlbInv {v} (h : Sound s) : Sound (s.tlbInv v) := .ite (.setBar h) h
theorem Sound.gfAnswer {v x} (h : Sound s) : Sound (s.gfAnswer v x) := by
  unfold State.gfAnswer
  split
  · exact h
  · exact .when (.modVd h) .answerFault
theorem Sound.s1root {v x} (h : Sound s) : Sound (s.s1root v x) := .ite (.setReg h) h
theorem Sound.shadow {v q x} (h : Sound s) : Sound (s.shadow v q x) := .ite (.setBar h) h
theorem Sound.setRing {v off count top x} (h : Sound s) : Sound (s.setRing v off count top x) := by
  unfold State.setRing
  split
  · exact h
  · exact .ite (.setBar (.setBar h)) (.setBar h)
theorem Sound.regWrite {v off x} (h : Sound s) : Sound (s.regWrite v off x) := by
  unfold State.regWrite
  refine .ite h (.ite (.queueReg h) ?_)
  split
  · exact .setRing h
  · exact .setTrace h
  · exact .setBar h
  · exact .ite (.setBar h) h
  · exact .setBar h
  · exact .setRing h
  · exact .setBar h
  · exact .setBar h
  · exact .setBar h
  · exact h
theorem Sound.regRead {port vf off} (h : Sound s) : Sound (s.regRead port vf off) := .ite h (.packet h)
theorem Sound.journalRead {port ix} (h : Sound s) : Sound (s.journalRead port ix) := .ite h (.packet h)
theorem Sound.windowRead {place a room n} (h : Sound s) : Sound (s.windowRead place a room n).2 := by
  unfold State.windowRead
  refine .foldl_snd (fun _ _ h => ?_) h
  split
  · exact h
  · split
    · exact .freeBytes h
    · exact h
theorem Sound.windowAccess {port vf a wr bs} (h : Sound s) : Sound (s.windowAccess port vf a wr bs) :=
  .ite h (.ite (.ite (.dropHost h) (.of_memWrite h rfl)) (.packet (.when (.windowRead h) .errorRecord)))
theorem Sound.cfgReply {v status data} (h : Sound s) : Sound (s.cfgReply v status data) := .packet h
theorem Sound.cfgRequest {v ws} (h : Sound s) : Sound (s.cfgRequest v ws) :=
  .ite (.cfgReply h) <| .ite (.cfgReply h) <| .ite (.cfgReply (.freeVal h)) <|
    .ite (.cfgReply h) (.assistPut (.modVd h))
theorem Sound.cfgAnswer {port x} (h : Sound s) : Sound (s.cfgAnswer port x) := by
  unfold State.cfgAnswer
  dsimp only
  split
  · exact h
  · exact .cfgReply (.modVd h)
theorem Sound.takeover {lea} (h : Sound s) : Sound (s.takeover lea) := .ite (.event (.set h)) (.ite (.set h) h)
theorem Sound.eventRecord {src pay} (h : Sound s) : Sound (s.eventRecord src pay) := by
  unfold State.eventRecord
  refine .ite ?_ (.ite (.event h) h)
  split
  · exact h
  · exact .evArrive (.set h)
theorem Sound.fqPass {p} (h : Sound s) : Sound (s.fqPass p) := .cached h
theorem Sound.fqFlush {p n} (h : Sound s) : Sound (s.fqFlush p n) := by
  induction n generalizing s with
  | zero => exact h
  | succ n ih =>
    unfold State.fqFlush
    split
    · exact h
    · exact .ite (.modPad h) (.unless (.fqPass h) fun h => ih (.devPut (.devPut (.modPad h))))
theorem Sound.faultWrite {p} (h : Sound s) : Sound (s.faultWrite p) := by
  unfold State.faultWrite
  split
  · exact h
  · exact .unless (.fqFlush (.modPad h)) (fun h => .ite (.fqFlush (.modPad h)) (.ite h (.devPut h)))
theorem Sound.traceWrite {p d} (h : Sound s) : Sound (s.traceWrite p d) := by
  unfold State.traceWrite
  dsimp only
  split
  · exact .ite h (.set h)
  · exact .unless (.set h) (fun h => .setBar (.devPut h))
theorem Sound.fetchStage {core stage band} (h : Sound s) : Sound (s.fetchStage core stage band) := by
  unfold State.fetchStage
  dsimp only
  split
  · exact h
  · exact .ite (.fetchDecode (.attend h)) h

/-! ### Housekeeping, errors, retirement and boot -/

theorem Sound.window {d} (h : Sound s) : Sound (s.window d) := .ite (.modDie h) h
theorem Sound.heat {c temp droop} (h : Sound s) : Sound (s.heat c temp droop) := .ite h (.modCore h)
theorem Sound.clockMove {d up} (h : Sound s) : Sound (s.clockMove d up) := .ite h (.modDie h)
theorem Sound.resetOn {on} (h : Sound s) : Sound (s.resetOn on) := .foldl (fun _ _ h => .resetFold h) h
theorem Sound.forgetMisses {d} (h : Sound s) : Sound (s.forgetMisses d) := .set h
theorem Sound.dieReset {d} (h : Sound s) : Sound (s.dieReset d) := .ite h (.modDie (.forgetMisses (.resetOn h)))
theorem Sound.upsetReg {fold flock code m} (h : Sound s) : Sound (s.upsetReg fold flock code m) :=
  .ite h (.modFlock h)
theorem Sound.upsetMem {a} (h : Sound s) : Sound (s.upsetMem a) := .ite (.modPage h) (.ite h (.set h))
theorem Sound.upsetCache {a} (h : Sound s) : Sound (s.upsetCache a) := .ite (.dropStruck (.set h)) h
theorem Sound.upsetTile {core tile word} (h : Sound s) : Sound (s.upsetTile core tile word) := .modCore h
theorem Sound.upsetLatch {core stage band latch m} (h : Sound s) :
    Sound (s.upsetLatch core stage band latch m) :=
  .modStage h
theorem Sound.upsetStore {core slot} (h : Sound s) : Sound (s.upsetStore core slot) := .modCore h
theorem Sound.scrubFind {d a} (h : Sound s) : Sound (s.scrubFind d a).1 := by
  unfold State.scrubFind
  simp only [apply_ite Prod.fst]
  refine .ite (.yieldErrors (.upsetMem h)) (.ite (.upsetMem h) (.ite (.upsetMem h) ?_))
  split
  · exact h
  · exact .upsetReg h
theorem Sound.scrubAt {d a bad} (h : Sound s) : Sound (s.scrubAt d a bad) :=
  .ite h (.errorRecord (.scrubFind h))
theorem Sound.eccIssue {core stage m} (h : Sound s) : Sound (s.eccIssue core stage m) := by
  unfold State.eccIssue
  dsimp only
  split
  · exact h
  · split
    · exact h
    · exact .ite h (.mismatch (.trapAt (.fetchPass (.attend h))))
theorem Sound.setAlu {core stage m} (h : Sound s) : Sound (s.setAlu core stage m) := .modStage h
theorem Sound.eccResult {id l} (h : Sound s) : Sound (s.eccResult id l) := by
  unfold State.eccResult
  split
  · exact h
  · split
    · exact .ite h (.mismatch (.failResult h))
    · exact .ite (.drain (.failAlu h)) h
    · exact .ite (.drain (.failAlu h)) h
    · exact h
theorem Sound.eccMatrix {core} (h : Sound s) : Sound (s.eccMatrix core) := by
  unfold State.eccMatrix
  split
  · exact h
  · exact .ite (.failMat h) h
theorem Sound.eccReduce {id} (h : Sound s) : Sound (s.eccReduce id) := by
  unfold State.eccReduce
  split
  · exact .ite (.set h) h
  · exact h
theorem Sound.log {e} (h : Sound s) : Sound (s.log e) := .set h
theorem Sound.retireCores {on} (h : Sound s) : Sound (s.retireCores on) :=
  .foldl (fun _ _ h => .modCore h) (.resetOn h)
theorem Sound.retireChan {ix} (h : Sound s) : Sound (s.retireChan ix) :=
  .ite h (.shrinkBw (.log (.event (.modDie h))))
theorem Sound.retireCore {ix} (h : Sound s) : Sound (s.retireCore ix) := .ite h (.log (.event (.retireCores h)))
theorem Sound.retireDie {ix} (h : Sound s) : Sound (s.retireDie ix) :=
  .ite h (.shrinkBw (.log (.event (.modDie (.retireCores h)))))
theorem Sound.retireRes {kind ix} (h : Sound s) : Sound (s.retireRes kind ix) := by
  unfold State.retireRes
  split
  · exact .ite (.retireChan h) h
  · exact .ite (.retireCore h) h
  · exact h
theorem Sound.loads {step ix} (h : Sound s) : Sound (s.loads step ix) := .set h
theorem Sound.bootAlt {p t} (h : Sound s) (e : s.bootAlt p = some t) : Sound t := by
  unfold State.bootAlt at e
  split at e
  · split at e
    · cases e; exact .loads (.set h)
    · cases e
  · cases e; exact .retireDie (.set h)
  · cases e; exact .foldl (fun _ _ h => .ite (.retireChan h) h) (.modDie h)
  · cases e; exact .when (.foldl (fun _ _ h => .ite (.retireCore h) h) h) .retireDie
  · split at e
    · cases e; exact .loads (.set (.set h))
    · cases e
  · cases e
  · cases e; exact .set (.set h)
  · cases e; exact .set (.set h)
theorem Sound.bootDone {p} (h : Sound s) : Sound (s.bootDone p) := by
  unfold State.bootDone
  split
  · exact .loads h
  · exact .modDie h
  · exact .loads (.set h)
  · exact .loads h
  · exact .set h
  · exact .set h
  · exact h
theorem Sound.bootFrom {ps} (h : Sound s) : Sound (s.bootFrom ps).1 := by
  induction ps generalizing s with
  | nil => exact h
  | cons p ps ih =>
    unfold State.bootFrom
    split
    · exact ih h
    · dsimp only
      split
      · split
        next e => exact ih (.log (Sound.bootAlt (.log h) e))
        · exact .log h
      · split
        · exact ih (.log (.bootDone (.log h)))
        · exact .log h
theorem Sound.startUp {code save} (h : Sound s) : Sound (s.startUp code save) :=
  .ite h (.when (.bootFrom h) (fun h => .set (.markTables (.setReg (.setReg h)))))
theorem Sound.attest {port nonce} (h : Sound s) : Sound (s.attest port nonce) := .ite h (.packet h)
theorem Sound.i3cGet {r} (h : Sound s) : Sound (s.i3cGet r) :=
  .ite (.packet h) (.ite (.packet h) (.ite (.packet h) h))
theorem Sound.holdIn {on} (h : Sound s) : Sound (s.holdIn on) := .ite h (Memory.wf_filter _ _ h)

/-! ### Moves, exchanges and predicates -/

theorem OutSound.execRdx {hdr len d n b} (h : Sound s) : OutSound (execRdx hdr len d n b s) := by
  unfold Machine.execRdx
  refine .issue (fun _ _ h => ?_) h
  dsimp only
  split
  · exact .error
  · exact .ite .error (.qOp (.bankRead h))
theorem OutSound.execWrx {hdr len n a b} (h : Sound s) : OutSound (execWrx hdr len n a b s) := by
  unfold Machine.execWrx
  refine .issue (fun _ _ h => ?_) h
  dsimp only
  split
  · exact .error
  · exact .ite .error (.ok (.setFl h))
theorem EffSound.cmpOp {hdr f w q} (h : Sound s) : EffSound (cmpOp hdr f w q s) :=
  .ite .error (.ok (.setFl (.flags h)))

/-! ### Special registers, counts and traces -/

theorem Sound.setSpecial {q reg w} (h : Sound s) : Sound (s.setSpecial q reg w) := by
  unfold State.setSpecial
  dsimp only
  split
  · exact .setFl h
  · exact .ite (.modPad h) (.modVd h)
  · exact .setFl h
  · exact .setFl h
  · exact .setFl h
  · exact .setFl h
  · exact h
theorem OutSound.execRdperf {hdr hi d a b} (h : Sound s) : OutSound (execRdperf hdr hi d a b s) := by
  unfold Machine.execRdperf
  refine .issue (fun _ _ h => ?_) h
  refine .uOp h ?_
  dsimp only
  split
  · exact .error
  · exact .ite .error (.ite (.ok (.setFl h)) (.ok (.setFl h)))

/-! ### Every instruction and event -/

theorem OutSound.exec {i} (h : Sound s) : OutSound (exec i s) := by
  unfold Machine.exec
  cases i with
  | iadd | isub | imul | imulh | imad | iadds | isubs | imin | imax | iabs | iabsd | and | or | xor | andn
  | lop3 | shl | shr | sar | rol | popc | clz | brev | bfx | bfi | lea | idot4 | idot2 | mov | sel | shfl
  | shflu | shfld | shflx | vote | matchv | prmt | ppack => exact .issue (fun _ _ => .qOp) h
  | fadd | fsub | fmul | ffma | fmin | fmax | fscale | ffrac | frint | fclass | fcopys | hadd2 | hmul2
  | hfma2 | hmin2 | hmax2 | fdot2 | fdot4 | cvt | cvt2 | cvt4 | unpk2 | unpk4 | sqz4 | sqz8 | sround
  | scaleof => exact .issue (fun _ _ => .fOp) h
  | fdiv | frcp | frsq | fsqrt | fexp2 | flog2 | fsin | fcos | ftanh | fexs => exact .issue (fun _ _ => .dOp) h
  | elect | icmp | plop => exact .issue (fun _ _ => .pOp) h
  | fcmp | hcmp2 => exact .issue (fun _ _ => .cmpOp) h
  | punpk | sli | slih => exact .issue (fun _ _ h => .ok (.setFl h)) h
  | lds | sts | atoms | cass => exact .issue (fun _ _ => .spInstr) h
  | ldc | stc | atomc | casc | redc => exact .issue (fun _ _ => .cmInstr) h
  | fence => exact .issue (fun _ _ h => .ok (.fence h)) h
  | chko => exact .issue (fun _ _ h => .ite .error (.pOp h)) h
  | brl => exact .issue (fun _ _ h => .ok (.jump h)) h
  | brxl => exact .issue (fun _ _ h => .ite .error (.ok (.jump h))) h
  | join => exact .issue (fun _ _ h => .ok (.settle (.waitAt h))) h
  | lexit => exact .issue (fun _ _ h => .ok (.settleRett (.settle (.setFl h)))) h
  | sadd | ssub | smul | smulh | smad | sand | sor | sxor | sshl | sshr | ssar | smin | smax | ssel | smov
  | slea | rdsr => exact .issue (fun _ _ => .sOp) h
  | scmp | sadd64 | klop | rdclk => exact .issue (fun _ _ h => .uOp h (.ok (.setFl h))) h
  | bra => exact .issue (fun _ _ h => .uOp h (.ok (.jump h))) h
  | brk | trap => exact .issue (fun _ _ h => .uOp h .error) h
  | call => exact .issue (fun _ _ h => .uOp h (.ite .error (.ok (.traceFl (.jump (.setFl h)))))) h
  | ret => exact .issue (fun _ _ h => .uOp h (.ite .error (.ok (.traceFl (.jump h))))) h
  | brx => exact .issue (fun _ _ h => .uOp h (.ite .error (.ok (.jump h)))) h
  | exit => exact .issue (fun _ _ h => .uOp h (.ok (.settleRett (.settle (.setFl h))))) h
  | nop => exact .issue (fun _ _ => .ok) h
  | rett => exact .issue (fun _ _ h => .uOp h (.ok (.settleRett (.setFl (.waitAt h))))) h
  | bar | barSw | bara | barw | acquire => exact .issue (fun _ _ => .barEff) h
  | trywait => exact .issue (fun _ _ h => .uOp h (.ite .error (.ite (.ok (.setFl h)) (.ok (.waitAt h))))) h
  | trywaitTimeout => exact .next (.tryTimeout h)
  | launchRecordRead => exact .next (.recordRead h)
  | cwait =>
    exact .issue (fun _ _ h => .uOp h (.ok (.unless (.emptyQueues h) (fun h => .settle (.waitAt h))))) h
  | tcopyLoad | tcopyStore | tcopyFill | tcopyGather | tcopyScatter | tcopyColl =>
    exact .issue (fun _ _ => .tcopy) h
  | mloadLoad | mloadAdd | mloadAddv => exact .issue (fun _ _ => .mloadEff) h
  | matrixCommandStart => exact .next (.matStart h)
  | tstat => exact .issue (fun _ _ h => .uOp h (.ite .error (.ok (.setFl h)))) h
  | wrsr => exact .issue (fun _ _ h => .uOp h (.ite .error (.ok (.setSpecial h)))) h
  | trace => exact .issue (fun _ _ h => .uOp h (.ok (.traceFl h))) h
  | flushh => exact .issue (fun _ _ h => .uOp h (.ok (.putOp h))) h
  | flushhComplete => exact .next (.flushDone h)
  | pcfgPctl | pcfgCores | pcfgChans | pcfgCommons | pcfgStreams | pcfgKeys | pcfgCrook | pcfgTracebuf
  | pcfgDrover | pcfgFaultq | pcfgEvq | pcfgStopHold | pcfgStopReset | pcfgStopRelease | pcfgDeadline
  | pcfgNetred | pcfgCode | pcfgGrouptab | pcfgSavearea | pcfgVctl | pcfgS2root | pcfgS1root | pcfgHwin
  | pcfgVdn | pcfgTracectl | pcfgHot | pcfgQwin => exact .issue (fun _ _ => .pcfgEff) h
  | pcfgRd => exact .issue (fun _ _ => .pcfgRdEff) h
  | configWriteComplete => exact .next (.cfgStep h)
  | pkeyGen | pkeyLoad | pkeyErase => exact .issue (fun _ _ => .pkeyEff) h
  | pmap => exact .issue (fun _ _ h => .ite .error (.ite .error (.ite .error (.ok (.startPriv h))))) h
  | tlbiVd | tlbiPage | tlbiPad | tlbiAll => exact .issue (fun _ _ h => .uOp h (.tlbiEff h)) h
  | vdnset | clearp => exact .issue (fun _ _ h => .uOp h (.ite .error (.ok (.startPriv h)))) h
  | slice => exact .issue (fun _ _ h => .ite .error (.ok (.startPriv (.modPad h)))) h
  | qossetBw | qossetWays => exact .issue (fun _ _ => .qosEff) h
  | wayHandover => exact .next (.handover h)
  | privilegedCompletion => exact .next (.privDone h)
  | crkloadLoad | crkloadUnbind | crkloadEvict => exact .issue (fun _ _ => .crkEff) h
  | shepBegin | shepRound | shepStop | shepAbort | shepAccept => exact .issue (fun _ _ => .shepEff) h
  | migrationSwitch => exact .next (.migSwitch h)
  | granuleReceive => exact .next (.granuleIn h)
  | savexSave | savexThaw | savexDiscard | loadx => exact .issue (fun _ _ => .savexEff) h
  | msg | codemv => exact .issue (fun _ _ h => .ite .error (.ok (.startPriv h))) h
  | forwardingEntryRetire => exact .next (.fwdRetire h)
  | turnSelect => exact .next (.turnSelect h)
  | unpark => exact .next (.unparkFlock h)
  | resultReturn => exact .next (.resultReturn h)
  | commonsOperation => exact .next (.commonsOp h)
  | promotionEnd => exact .next (.promoEnd h)
  | chunkReturn => exact .next (.chunkReturn h)
  | copyStart => exact .next (.copyBegin h)
  | copyComplete => exact .next (.copyDone h)
  | copyFault => exact .next (.copyFaultNow h)
  | translationFault => exact .next (.transFault h)
  | stage2Resolve => exact .next (.stage2Answer h)
  | collectiveStart => exact .next (.collRun h)
  | stagingCopy => exact .next (.stage1 h)
  | foldAdmit => exact .next (.admitFold h)
  | foldRestore => exact .next (.restore h)
  | foldEnd => exact .next (.endFold h)
  | resourceClear => exact .next (.clearCore h)
  | droveRetire => exact .next (.retireDrove h)
  | completionEntryWrite => exact .next (.completionWrite h)
  | launchEntryRead => exact .next (.entryRead h)
  | prioAging => exact .next (.age h)
  | shrinkRequest => exact .next (.askShrink h)
  | childStop => exact .next (.childStop h)
  | stopRequest => exact .next (.requestStop h)
  | pointSave => exact .next (.pointStop h)
  | deadlineT1 => exact .next (.restDeadline h)
  | instructionBoundarySave => exact .next (.boundaryStop h)
  | forcedReset => exact .next (.forceReset h)
  | sliceEnd => exact .next (.sliceEnd h)
  | sliceSwitch => exact .next (.sliceSwitch h)
  | standbyTakeover => exact .next (.takeover h)
  | configRequest => exact .next (.ite (.cfgRequest h) h)
  | hostWindowAccess => exact .next (.windowAccess h)
  | peerAccess => exact .next (.peerIn h)
  | movedRefusal => exact .next (.movedIn h)
  | movedRetry => exact .next (.movedAgain h)
  | forwardingExpiry => exact .next (.fwdExpire h)
  | eventRecord => exact .next (.eventRecord h)
  | eventQueuePoll => exact .next (.evFlush h)
  | faultRecordWrite => exact .next (.faultWrite h)
  | faultQueuePoll => exact .next (.fqFlush h)
  | hostAssistRecord => exact .next (.assistWrite h)
  | lqnotify => exact .next (.ite (.lqNotify h) h)
  | cqhead => exact .next (.cqHead h)
  | tlbinv => exact .next (.tlbInv h)
  | gfqans => exact .next (.gfAnswer h)
  | shadow => exact .next (.shadow h)
  | cfgans => exact .next (.ite (.cfgAnswer h) h)
  | hacons => exact .next (.ite (.setBar h) h)
  | shepcmd => exact .next (.ite (.shepCommand h) h)
  | registerWrite => exact .next (.ite (.regWrite h) h)
  | bandwidthWindow => exact .next (.window h)
  | hotMark => exact .next (.heat h)
  | clockStep => exact .next (.clockMove h)
  | thermalReset => exact .next (.dieReset h)
  | scrub => exact .next (.scrubAt h)
  | resourceRetire => exact .next (.retireRes h)
  | start => exact .next (.startUp h)
  | attestationRequest => exact .next (.attest h)
  | i3cRead => exact .next (.i3cGet h)
  | i3cSetPowerLimit => exact .next (.ite (.set h) h)
  | i3cHoldReset => exact .next (.holdIn h)
  | fetchDecode => exact .next (.fetchStage h)
  | roundAcknowledged => exact .next (.roundAck h)
  | transferFailure => exact .next (.transferFail h)
  | streamReceive => exact .next (.streamIn h)
  | traceRecordWrite => exact .next (.traceWrite h)
  | s1rootWrite => exact .next (.s1root h)
  | xpand => exact .execXpand h
  | rdx => exact .execRdx h
  | wrx => exact .execWrx h
  | ldsm => exact .execLdsm h
  | stsm => exact .execStsm h
  | crook => exact .execCrook h
  | sget => exact .execSget h
  | launch => exact .execLaunch h
  | mma => exact .execMma h
  | mdrain => exact .execMdrain h
  | mzero => exact .execMzero h
  | rdperf => exact .execRdperf h

/-! ### Crooks wave by wave -/

theorem OutSound.keepCrooks {o} (h : Sound s) (ho : OutSound o) : OutSound (s.keepCrooks o) := by
  obtain e | e := keepCrooks_cases s o <;> rw [e]
  · exact ho
  · exact .next h
theorem Sound.setRun {q c} (h : Sound s) : Sound (s.setRun q c) := .modTurn h
theorem Sound.crookTrap {q t} (h : Sound s) : Sound (s.crookTrap q t) := .trapAt (.setRun h)
theorem Sound.crookCommitWave {q c com} (h : Sound s) : Sound (s.crookCommitWave q c com) := by
  unfold State.crookCommitWave
  dsimp only
  split
  · exact .crookTrap h
  · refine .ite ?_ ?_
    · refine .retire (.commitEnd (.advance (.setRun ?_)))
      split
      · exact h
      · exact .commitStore h
    · refine .setRun ?_
      split
      · exact h
      · exact .commitStore h
theorem Sound.crookStep {q c} (h : Sound s) : Sound (s.crookStep q c) := by
  unfold State.crookStep
  dsimp only
  split
  · exact .crookTrap h
  · refine .ite (.crookCommitWave h) (.ite ?_ ?_)
    · split
      · exact .crookTrap h
      · exact .ite (.setRun h) (.setRun h)
    · split
      · exact .crookTrap h
      · exact .setRun h
theorem Sound.crookWave {core stage} (h : Sound s) : Sound (s.crookWave core stage) := by
  unfold State.crookWave
  split
  · exact h
  · split
    · exact h
    · exact .ite h (.crookStep h)
theorem Sound.crookBegin {q c} (h : Sound s) : Sound (s.crookBegin q c) := .crookStep (.modTurn h)
theorem OutSound.issueOf {q i waves} (h : Sound s) : OutSound (s.issueOf q i waves) := by
  unfold State.issueOf
  refine .ite (.exec (.fetchPass h)) (.ite (.next h) ?_)
  split
  · exact .exec (.fetchPass h)
  · exact .next (.crookBegin (.fetchPass h))

/-! ### One step -/

theorem OutSound.stepIssue {core stage waves} (h : Sound s) : OutSound (stepIssue s core stage waves) := by
  unfold Machine.stepIssue
  dsimp only
  split
  · exact .next (.attend h)
  · split
    · exact .issueOf (.attend h)
    · exact .next (.fetchDecode (.attend h))
theorem OutSound.stepBank {core stage m} (h : Sound s) : OutSound (stepBank s core stage m) := by
  unfold Machine.stepBank
  have hs : OutSound (Machine.stepIssue ((s.attend core stage).setAlu core stage m) core stage false) :=
    .stepIssue (.setAlu (.attend h))
  split
  next e => rw [e] at hs; exact .next (.setAlu hs)
  · exact hs
theorem OutSound.makeMove {mv} (h : Sound s) : OutSound (s.makeMove mv) := by
  unfold State.makeMove
  split
  · exact .stepIssue h
  · exact .stepIssue h
  · exact .next (.crookWave h)
  · exact .ite (.next h) (.exec h)
  · exact .next (.elapse (.noteWaits h))
  · exact .next (.hostPut h)
  · exact .next (.loadCode h)
  · exact .next (.eccIssue h)
  · exact .stepBank h
  · exact .next (.eccResult h)
  · exact .next (.eccMatrix h)
  · exact .next (.eccReduce h)
  · exact .next (.upsetReg h)
  · exact .next (.upsetMem h)
  · exact .next (.upsetCache h)
  · exact .next (.upsetTile h)
  · exact .next (.upsetLatch h)
  · exact .next (.upsetStore h)
  · exact .next (.modDie h)
  · exact .next (.set h)
  · exact .next (.set h)
  · exact .next (.peerAnswer h)
  · exact .next (.memberRead h)
  · exact .next (.regRead h)
  · exact .next (.journalRead h)
theorem OutSound.step (h : Sound s) : OutSound (step s) := by
  unfold Machine.step
  split
  · exact .next h
  · exact .ite (.next h) (.ite (.makeMove h) (.keepCrooks h (.makeMove h)))

end

/-- Settles O4: a step ends in what `OutSound.step` says of it. -/
theorem stepSound : Obligations.StepSound := by
  unfold Obligations.StepSound
  intro s t h e
  have hs : OutSound (step s) := .step h
  rw [e] at hs
  exact hs

end Sys2Proof.Machine

/-! PROOFS. Launch records become droves, and droves that have ended retire (O53, R229, R238, R268, R293, R299, R331).

The events of the family end in shared operations: the pool is drained once a launch record is read
(`Drains.drain`), and a trace record is staged when a drove begins or retires (`trace_eq`). Each leaves
most of the state as it was, which is stated once for it here; the four events follow. -/
namespace Sys2Proof.Machine
section
variable {s t u : State}

/-! ### Entries by number, and the event that an equation gives -/

theorem kget_eq_none_iff {α : Type} {m : SMap α} {n : Nat} : kget m n = none ↔ n ∉ m.map Prod.fst := by
  induction m with
  | nil => simp [kget]
  | cons e m ih =>
    by_cases h : e.1 = n
    · simp [kget, h]
    · simp [kget, h, ih, Ne.symm h]

theorem kget_kdel_self {α : Type} (m : SMap α) (n : Nat) : kget (kdel m n) n = none := by
  rw [kget_kdel, if_pos rfl]

theorem Next.of_eq {i : Instr} {P : State → Prop} (h : exec i s = .next u) (e : u = t) (p : P t) : Next i s P :=
  ⟨t, h.trans (congrArg _ e), p⟩

/-! ### What draining the pool leaves (R202) -/

/-- From `s` to `t` the droves and the launches stay as they were, and no entry joins the pool. -/
structure Drains (s t : State) : Prop where
  droves : t.droves = s.droves
  launches : t.launches = s.launches
  gone : ∀ id, kget s.ops id = none → kget t.ops id = none

theorem Drains.refl (s : State) : Drains s s := ⟨rfl, rfl, fun _ h => h⟩
theorem Drains.trans (a : Drains s t) (b : Drains t u) : Drains s u where
  droves := b.droves.trans a.droves
  launches := b.launches.trans a.launches
  gone id h := b.gone id (a.gone id h)
theorem Drains.ite {c : Prop} [Decidable c] (a : Drains s t) (b : Drains s u) : Drains s (if c then t else u) := by
  split <;> assumption
theorem Drains.foldl {α : Type} {f : State → α → State} (hf : ∀ s a, Drains s (f s a)) (l : List α)
    (s : State) : Drains s (l.foldl f s) := by
  induction l generalizing s with
  | nil => exact .refl s
  | cons a l ih => exact (hf s a).trans (ih _)

/-- An entry of the pool changed where it is present. -/
theorem Drains.kmod_ops (s : State) (id : Nat) (g : MemOp → MemOp) : Drains s { s with ops := kmod s.ops id g } where
  droves := rfl
  launches := rfl
  gone j h := by
    rw [kget_kmod]
    split
    · subst_vars; rw [h]; rfl
    · exact h
/-- An entry of the pool replaced. -/
theorem Drains.kset_ops {id : Nat} {o : MemOp} (e : kget s.ops id = some o) (x : MemOp) :
    Drains s { s with ops := kset s.ops id x } where
  droves := rfl
  launches := rfl
  gone j h := by
    rw [kget_kset]
    split
    · subst_vars; rw [h] at e; cases e
    · exact h
theorem Drains.sweep (s : State) : Drains s s.sweep where
  droves := rfl
  launches := rfl
  gone j h := by
    rw [kget_eq_none_iff] at h ⊢
    exact fun hj => h ((List.filter_sublist.map _).subset hj)
theorem Drains.owe (s : State) (fold flock below l : Nat) : Drains s (s.owe fold flock below l) where
  droves := rfl
  launches := rfl
  gone j h := by rwa [kget_eq_none_iff, owe_ids, ← kget_eq_none_iff]

theorem Drains.failAlu (s : State) (id l : Nat) (o : MemOp) : Drains s (s.failAlu id l o) :=
  .ite (.kmod_ops ..) (.trans (.kmod_ops ..) ⟨rfl, rfl, fun _ h => h⟩)
theorem Drains.writeWords (o : MemOp) (as : List Nat) (ws : List Word) (s : State) :
    Drains s (s.writeWords o as ws) := by
  induction as generalizing s ws with
  | nil => exact .refl s
  | cons a as ih =>
    cases ws with
    | nil => exact .refl s
    | cons w ws => exact (⟨rfl, rfl, fun _ h => h⟩ : Drains s (s.wr a o.bytes w.toNat)).trans (ih ..)
theorem Drains.access (s : State) (o : MemOp) (as : List Nat) (data : List Word) : Drains s (s.access o as data) := by
  unfold State.access
  dsimp only
  split
  · exact .writeWords ..
  · exact .writeWords ..
  · exact .ite (.writeWords ..) (.refl s)
  · exact .refl s
theorem Drains.recordRelease (s : State) (o : MemOp) (l a : Nat) : Drains s (s.recordRelease o l a) :=
  .ite (.refl s) (.ite ⟨rfl, rfl, fun _ h => h⟩ (.ite ⟨rfl, rfl, fun _ h => h⟩ (.refl s)))
theorem Drains.perform (s : State) (id l : Nat) : Drains s (s.perform id l) := by
  unfold State.perform
  split
  · exact .refl s
  · split
    · exact .refl s
    · refine .ite (.kmod_ops ..) (.ite (.failAlu ..) (.trans ?_ (.kmod_ops ..)))
      exact (Drains.access ..).trans (.trans (.ite (.recordRelease ..) (.refl _)) (.ite (.owe ..) (.refl _)))
theorem Drains.unhold (s : State) (id : Nat) : Drains s (s.unhold id) := by
  unfold State.unhold
  split
  · exact .refl s
  · exact .kset_ops ‹_› _
theorem Drains.drainOne (s : State) (id : Nat) : Drains s (s.drainOne id) := by
  unfold State.drainOne
  split
  · exact .refl s
  · split
    · exact .kset_ops ‹_› _
    · exact .kset_ops ‹_› _
    · exact .ite (.foldl (fun _ _ => .perform ..) _ _) (.refl s)
theorem Drains.drainN (n : Nat) (s : State) : Drains s (s.drainN n) := by
  induction n generalizing s with
  | zero => exact .refl s
  | succ n ih =>
    have round := Drains.foldl (fun s id => (Drains.unhold s id).trans (.drainOne _ id)) (s.ops.map Prod.fst) s
    exact .ite round (round.trans (ih _))
theorem Drains.drain (s : State) : Drains s s.drain := (Drains.drainN _ s).trans (.sweep _)

/-! ### Functions and their registers (R331) -/

@[simp] theorem vd_modVd_self (s : State) (v : Nat) (g : VDev → VDev) : (s.modVd v g).vd v = g (s.vd v) := by
  simp only [State.vd, State.modVd, kgetD_kset, if_true]
theorem bar_congr {v : Nat} (h : (t.vd v).bar0 = (s.vd v).bar0) (off : Nat) : t.bar v off = s.bar v off := by
  simp only [State.bar, h]
/-- A register reads what was written, which fits it. -/
theorem bar_setBar (s : State) (v off : Nat) {x : Nat} (hx : x < 2 ^ 64) : (s.setBar v off x).bar v off = x := by
  simp only [State.bar, State.setBar, vd_modVd_self, kgetD_kset, if_true, BitVec.toNat_ofNat]
  exact Nat.mod_eq_of_lt hx
theorem withheld_setBar (s : State) (v off x : Nat) : ((s.setBar v off x).vd v).withheld = (s.vd v).withheld := by
  rw [State.setBar, vd_modVd_self]

/-! ### What staging a trace record and giving up a chain's lines leave (R358, R366) -/

theorem trace_eq (s : State) (p d cls : Nat) (rec : List Word) : s.trace p d cls rec =
    { s with
      stage := (s.trace p d cls rec).stage, traceDrop := (s.trace p d cls rec).traceDrop
      counters := (s.trace p d cls rec).counters } := by
  unfold State.trace
  split
  · dsimp only
    split
    · rfl
    · unfold State.count
      split <;> rfl
  · rfl
theorem demote_eq (s : State) (p chain : Nat) : s.demote p chain = { s with dies := (s.demote p chain).dies } := by
  unfold State.demote
  split <;> rfl

/-! ### Launch records (R293, R297 to R299) -/

/-- Whether a record is refused is told by the code objects, the configuration and the cores. -/
theorem launchBad_congr (hp : t.pads = s.pads) (hc : t.cfg = s.cfg) (hk : t.cores = s.cores) (p : Nat)
    (child : Bool) (r : LaunchRec) : t.launchBad p child r = s.launchBad p child r := by
  simp only [State.launchBad, State.hasCore, State.coresOn, State.holdsCore, State.reg, State.pad, hp, hc, hk]

/-- The child drove of a launch, with the number that it is given (R293, R297). -/
def State.childOf (s : State) (l : LaunchOp) (droveId : Nat) : Drove :=
  { droveOf droveId (launchOf (memRead s.mem l.addr 256)) with
    paddock := l.paddock, vd := l.vd, parentDrove := l.drove, parentFold := l.fold, group := l.group, host := false
    gx := l.gx, gy := l.gy, gz := l.gz, lastDie := l.die
    depth := match kget s.droves l.drove with
      | some d => d.depth + 1
      | none => 0 }
/-- The state without a launch and its entry of the pool. -/
def State.dropLaunch (s : State) (id : Nat) : State :=
  { s with launches := kdel s.launches id, ops := kdel s.ops id }

/-- LAUNCH_RECORD_READ with what orders it performed, on a record that the dispatcher does not refuse. -/
theorem recordRead_accepts {id droveId : Nat} {l : LaunchOp} {o : MemOp} (hl : kget s.launches id = some l)
    (ho : kget s.ops id = some o) (hid : s.droveIdOk l.paddock droveId = true)
    (hp : ∀ e ∈ s.ops, e.1 < id → e.2.fold = o.fold → e.2.flock = o.flock →
      ∀ m < 32, o.whose.getLsbD m = true → e.2.stands m = false)
    (hc : s.coverWaits id o ((lanesOf o.whose).headD 0) ⟨true, false, false, false⟩ false = false)
    (hw : s.owedWaits id o ⟨true, false, false, false⟩ = false) (hs : s.struck l.addr 256 = false)
    (hb : s.launchBad l.paddock true (launchOf (memRead s.mem l.addr 256)) = false) :
    s.recordRead id droveId = ((s.dropLaunch id).addDrove id (s.childOf l droveId)).drain := by
  have before : (s.ops.all fun e => id ≤ e.1 || e.2.fold != o.fold || e.2.flock != o.flock
      || (lanesOf o.whose).all fun m => !e.2.stands m) = true := by
    rw [List.all_eq_true]
    intro e he
    by_cases h : e.1 < id
    · by_cases h2 : e.2.fold = o.fold
      · by_cases h3 : e.2.flock = o.flock
        · have past : ((lanesOf o.whose).all fun m => !e.2.stands m) = true := by
            rw [List.all_eq_true]
            intro m hm
            obtain ⟨h4, h5⟩ := (mem_lanesOf _ _).1 hm
            rw [hp e he h h2 h3 m h4 h5, Bool.not_false]
          simp only [past, Bool.or_true]
        · simp [h3]
      · simp [h2]
    · simp [Nat.not_lt.1 h]
  have hb' : (s.dropLaunch id).launchBad l.paddock true (launchOf (memRead s.mem l.addr 256)) = false := hb
  unfold State.dropLaunch at hb'
  unfold State.recordRead
  simp only [hl, ho, before, hc, hw, hid, hs, hb', Bool.not_true, Bool.not_false, Bool.and_true, Bool.or_false,
    Bool.false_eq_true, if_false]
  rfl

theorem kget_addDrove (s : State) (key : Nat) (d : Drove) : kget (s.addDrove key d).droves key = some { d with
    order := s.nextId, since := (List.range 16).map fun i => (s.die i).total, after := (s.pad d.paddock).startDie } :=
  kget_kset_self ..

/-- The drove that a launch queue's entry becomes, with the number that it is given (R299, R331). -/
def State.entryDrove (s : State) (v q droveId : Nat) : Drove :=
  let r := launchOf (memRead s.mem (ringAt v (s.bar v (lqReg q 0)) 256 (s.bar v (lqReg q 1))) 256)
  { droveOf droveId r with
    paddock := s.padOfFn v, vd := if 128 ≤ v then 127 else v, port := portOfFn v, queue := q
    cq := bits (s.bar v (lqReg q 3)) 3 0, prev := kget (s.vd v).lastDrove q
    lastDie := (s.sliceMaster (s.padOfFn v)).getD 0 }
/-- A launch queue's head moves past its entry, and the drove of key `key` is the queue's last. -/
def State.passEntry (s : State) (v q key : Nat) : State :=
  (s.setBar v (lqReg q 1) ((s.bar v (lqReg q 1) + 1) % 2 ^ 32)).modVd v fun x =>
    { x with lastDrove := kset x.lastDrove q key }
/-- The head has moved to the next entry (R331). -/
theorem bar_passEntry (s : State) (v q key : Nat) :
    (s.passEntry v q key).bar v (lqReg q 1) = (s.bar v (lqReg q 1) + 1) % 2 ^ 32 := by
  rw [← bar_setBar s v (lqReg q 1) (x := (s.bar v (lqReg q 1) + 1) % 2 ^ 32) (by omega), State.passEntry]
  exact bar_congr (by rw [vd_modVd_self]) _
/-- The state once the entry of a launch queue is taken and the trace record of its drove is staged. -/
def State.takeEntry (s : State) (v q droveId : Nat) : State :=
  let die := (s.sliceMaster (s.padOfFn v)).getD 0
  { (s.passEntry v q s.nextId).trace (s.padOfFn v) die 1
      (traceRec (if 128 ≤ v then 127 else v) 0 1 0 0 droveId 0 0 0 (s.die die).refs) with
    nextId := s.nextId + 1 }
theorem takeEntry_eq (s : State) (v q droveId : Nat) : s.takeEntry v q droveId = { s.passEntry v q s.nextId with
    nextId := s.nextId + 1, stage := (s.takeEntry v q droveId).stage
    traceDrop := (s.takeEntry v q droveId).traceDrop, counters := (s.takeEntry v q droveId).counters } := by
  simp only [State.takeEntry]
  rw [trace_eq]
theorem bar_takeEntry (s : State) (v q droveId : Nat) :
    (s.takeEntry v q droveId).bar v (lqReg q 1) = (s.bar v (lqReg q 1) + 1) % 2 ^ 32 := by
  rw [takeEntry_eq]
  exact bar_passEntry ..
/-- LAUNCH_ENTRY_READ of a queue that is served, on a record that the dispatcher does not refuse. -/
theorem entryRead_accepts {v q droveId : Nat} (hs : s.serves v = true) (hf : s.fnUp v = true)
    (hq : s.queueServed v q = true) (hu : s.unread v q ≠ 0) (hid : s.droveIdOk (s.padOfFn v) droveId = true)
    (hb : s.launchBad (s.padOfFn v) false
      (launchOf (memRead s.mem (ringAt v (s.bar v (lqReg q 0)) 256 (s.bar v (lqReg q 1))) 256)) = false) :
    s.entryRead v q droveId = (s.takeEntry v q droveId).addDrove s.nextId (s.entryDrove v q droveId) := by
  have hb' := (launchBad_congr (t := s.takeEntry v q droveId) (by rw [takeEntry_eq]; rfl) (by rw [takeEntry_eq]; rfl)
    (by rw [takeEntry_eq]; rfl) ..).trans hb
  unfold State.entryRead
  rw [if_neg (by simp [hs, hf, hq, hu, hid])]
  exact if_neg (Bool.eq_false_iff.1 hb')

/-! ### Retirement (R268, R299) -/

/-- A host drove does not retire while its function withholds 1,024 entries. -/
theorem retireDrove_waits {key : Nat} {d : Drove} (hd : kget s.droves key = some d) (hh : d.host = true)
    (hn : 1024 ≤ (s.vd d.fn).withheldCount) : s.retireDrove key = s := by
  unfold State.retireDrove
  simp [hd, hh, hn]

/-- The state once a drove has left the device: a chain that ends has given up its cache lines (R358), and the trace
record of the retirement is staged (R366). -/
def State.leaveDrove (s : State) (key : Nat) (d : Drove) : State :=
  let t : State := { s with droves := kdel s.droves key }
  (if bitOf d.flags 0 then t.demote d.paddock d.chain else t).trace d.paddock d.lastDie 1
    (traceRec d.vd 0 2 0 0 d.id 0 0 0
      ((if bitOf d.flags 0 then t.demote d.paddock d.chain else t).die d.lastDie).refs)
theorem leaveDrove_eq (s : State) (key : Nat) (d : Drove) : s.leaveDrove key d = { s with
    droves := kdel s.droves key, dies := (s.leaveDrove key d).dies, stage := (s.leaveDrove key d).stage
    traceDrop := (s.leaveDrove key d).traceDrop, counters := (s.leaveDrove key d).counters } := by
  simp only [State.leaveDrove]
  rw [trace_eq]
  split
  · rw [demote_eq]
  · rfl
theorem mem_leaveDrove (s : State) (key : Nat) (d : Drove) : (s.leaveDrove key d).mem = s.mem := by
  rw [leaveDrove_eq]
theorem vd_leaveDrove (s : State) (key : Nat) (d : Drove) (v : Nat) : (s.leaveDrove key d).vd v = s.vd v := by
  rw [leaveDrove_eq]
  rfl
theorem kget_leaveDrove (s : State) (key : Nat) (d : Drove) : kget (s.leaveDrove key d).droves key = none := by
  rw [leaveDrove_eq]
  exact kget_kdel_self ..
/-- The words of a host drove's completion entry (R299). -/
def Drove.completion (d : Drove) : List Word :=
  [d.tag, wd (d.queue * 65536 + if d.refused then 1 else if d.faulted then 2 else 0), wd d.id, 0]
/-- The completion entry of a host drove joins those that its queue withholds (R299, R331). -/
def State.withhold (s : State) (key : Nat) (d : Drove) : State :=
  { s with nextId := s.nextId + 1 }.modVd d.fn fun v =>
    { v with withheld := kset v.withheld d.cq (kgetD v.withheld d.cq [] ++ [(s.nextId, key, d.completion)]) }
theorem withheld_withhold (s : State) (key : Nat) (d : Drove) :
    kgetD ((s.withhold key d).vd d.fn).withheld d.cq [] =
      kgetD (s.vd d.fn).withheld d.cq [] ++ [(s.nextId, key, d.completion)] := by
  rw [State.withhold, vd_modVd_self, kgetD_kset, if_pos rfl]
  rfl

/-- DROVE_RETIRE of a drove that has ended, with every access performed. -/
theorem retireDrove_ends {key : Nat} {d : Drove} (hd : kget s.droves key = some d) (hr : d.retired = false)
    (hn : d.nextFold = d.gx * d.gy * d.gz) (he : d.ended = d.gx * d.gy * d.gz)
    (hk : ∀ e ∈ s.droves, e.2.host = false → e.2.parentDrove = key → e.2.retired = true)
    (hl : ∀ e ∈ s.launches, e.2.drove ≠ key) (hc : ∀ e ∈ s.copies, e.2.drove ≠ key)
    (hw : s.recordWaits d = false) (ho : ∀ e ∈ s.ops, e.2.drove = key → e.2.todo = [])
    (hf : d.host = true → (s.vd d.fn).withheldCount < 1024) :
    s.retireDrove key = if d.host then (s.leaveDrove key d).withhold key d
      else (s.leaveDrove key d).settleCwait d.parentFold := by
  have kids : ((s.droves.any fun e => !e.2.host && e.2.parentDrove == key && !e.2.retired)
      || s.launches.any fun e => e.2.drove == key) = false := by
    simp only [Bool.or_eq_false_iff, List.any_eq_false]
    exact ⟨fun e h => by simpa using hk e h, fun e h => by simpa using hl e h⟩
  have full : (d.host && decide (1024 ≤ (s.vd d.fn).withheldCount)) = false := by
    cases h : d.host with
    | false => rfl
    | true => simpa using hf h
  have copies : (s.copies.any fun e => e.2.drove == key) = false := by
    simpa using fun a b h => hc (a, b) h
  have done : s.accessesDone key = true := by
    simp only [State.accessesDone, List.all_eq_true]
    intro e h
    by_cases hek : e.2.drove = key
    · simp [ho e h hek]
    · simp [hek]
  unfold State.retireDrove
  simp only [hd, hr, hn, he, kids, full, hw, copies, done, bne_self_eq_false, Bool.not_true, Bool.or_false,
    Bool.false_eq_true, if_false]
  rfl

/-! ### Completion entries (R238, R331) -/

/-- The oldest withheld entry of a queue whose ring has room, its drove's writes performed. -/
theorem entryReady_of_room {v cq i key : Nat} {e : List Word} {rest : List (Nat × Nat × List Word)}
    (hw : kgetD (s.vd v).withheld cq [] = (i, key, e) :: rest) (hi : (s.vd v).inOrder i = true)
    (hf : s.fnUp v = true) (hq : cq < s.cqn v) (hb : s.bar v (cqReg cq 0) ≠ 0)
    (hu : (s.bar v (cqReg cq 1) + 2 ^ 32 - s.bar v (cqReg cq 2) % 2 ^ 32) % 2 ^ 32 <
      2 ^ bits (s.bar v (cqReg cq 0)) 3 0)
    (ho : ∀ o ∈ s.ops, o.2.drove = key → o.2.writes = true → o.2.todo = []) : s.entryReady v cq = true := by
  have done : (s.ops.all fun o => o.2.drove != key || !o.2.writes || o.2.todo.isEmpty) = true := by
    rw [List.all_eq_true]
    intro o h
    by_cases hk : o.2.drove = key
    · by_cases hs : o.2.writes = true
      · simp [ho o h hk hs]
      · simp [hs]
    · simp [hk]
  unfold State.entryReady
  simp only [hw, hi, hf, done, Bool.and_true, Bool.and_eq_true, decide_eq_true_eq, bne_iff_ne]
  exact ⟨⟨hq, hb⟩, hu⟩
/-- COMPLETION_ENTRY_WRITE of a queue whose oldest entry is ready. -/
theorem completionWrite_writes {v cq i key : Nat} {e : List Word} {rest : List (Nat × Nat × List Word)}
    (hw : kgetD (s.vd v).withheld cq [] = (i, key, e) :: rest) (hr : s.runs v = true)
    (he : s.entryReady v cq = true) :
    s.completionWrite v cq =
      (((s.putWords (ringAt v (s.bar v (cqReg cq 0)) 16 (s.bar v (cqReg cq 1))) e).modVd v fun x =>
          { x with withheld := kset x.withheld cq rest }).setBar v (cqReg cq 1)
        ((s.bar v (cqReg cq 1) + 1) % 2 ^ 32)).msixRaise v (bits (s.bar v (cqReg cq 3)) 10 0) := by
  unfold State.completionWrite
  simp only [hw, hr, he, Bool.not_true, Bool.or_false, Bool.false_eq_true, if_false]

end

/-- Settles O53: each event by what its function gives where it goes through, `recordRead_accepts`,
`entryRead_accepts`, `retireDrove_ends` and `completionWrite_writes`. -/
theorem drovesAndQueues : Obligations.DrovesAndQueues := by
  unfold Obligations.DrovesAndQueues
  refine ⟨?_, ?_, ?_, ?_⟩
  · intro s id droveId l o r hl ho hid hp hc hw hs hr hb
    subst hr
    have drained := Drains.drain ((s.dropLaunch id).addDrove id (s.childOf l droveId))
    refine .of_eq rfl (recordRead_accepts hl ho hid hp hc hw hs hb) ⟨?_, drained.gone id ?_, ?_⟩
    · exact (congrArg (kget · id) drained.launches).trans (kget_kdel_self ..)
    · exact kget_kdel_self ..
    · rw [drained.droves]
      exact ⟨_, kget_addDrove .., rfl, rfl, rfl, rfl, rfl, rfl, rfl, rfl, rfl, rfl, rfl, rfl, rfl, rfl⟩
  · intro s v q droveId h r hs hf hq hu hid hh hr hb
    subst hh hr
    refine .of_eq rfl (entryRead_accepts hs hf hq hu hid hb) ⟨fun a => ?_, bar_takeEntry .., _,
      kget_addDrove .., rfl, rfl, rfl, rfl, rfl, rfl, rfl, rfl, rfl, rfl, rfl, rfl⟩
    exact congrArg (memGet · a) (by rw [takeEntry_eq]; rfl)
  · intro s key d hd hr hn he hk hl hc hw ho
    refine ⟨fun hh hfull => congrArg _ (retireDrove_waits hd hh hfull), fun hf => ?_⟩
    refine .of_eq rfl (retireDrove_ends hd hr hn he hk hl hc hw ho hf) ?_
    have bytes : SameBytes s (s.leaveDrove key d) := fun a => congrArg (memGet · a) (mem_leaveDrove ..)
    have gone := kget_leaveDrove s key d
    cases hh : d.host with
    | false => exact ⟨bytes, gone, nofun⟩
    | true =>
      refine ⟨bytes, gone, fun _ => ⟨(s.leaveDrove key d).nextId, ?_⟩⟩
      rw [← vd_leaveDrove s key d]
      exact withheld_withhold ..
  · intro s v cq i key a tail e rest hm hw hi hr hf hq hb ht hu ho ha
    subst ht ha
    refine .of_eq rfl (completionWrite_writes hw hr (entryReady_of_room hw hi hf hq hb hu ho))
      ⟨fun k hk => (memGet_memWrite _ _ _ _ hm).trans ?_, fun y hy => ?_, bar_setBar _ _ _ (by omega), ?_, rfl⟩
    · rw [if_pos (by omega), Nat.add_sub_cancel_left]
    · exact (memGet_memWrite _ _ _ _ hm).trans (if_neg (by omega))
    · refine (congrArg (kgetD · cq []) (withheld_setBar ..)).trans ?_
      rw [vd_modVd_self, kgetD_kset, if_pos rfl]

end Sys2Proof.Machine

/-! PROOFS. Privileged instructions outside the control paddock (O25, R61, R82).

Every encoded instruction tests its checks before its own effect, so one whose checks fail takes the trap of
the first that fails (`exec_of_precheck`). A privileged opcode is none of those whose DECODE or whose return
address depends on more than the words, so outside the control paddock that first check is PRIV
(`precheck_of_privileged`). -/
namespace Sys2Proof.Machine
section
variable {s : State} {q : Iss} {i : Instr} {c : Nat}

/-! ### An instruction whose checks fail (R61) -/

/-- A failing check is the trap, and the instruction's own part has no effect. -/
theorem issue_of_precheck {body : Iss → State → Eff} (hq : s.issuer = some q) (hp : precheck s q i = some c) :
    issue i body s = .next (s.trapAt q c (checkLanes s q i c) (isRett i)) := by
  simp only [issue, hq, hp]

/-- XPAND looks at the latches that it waits for only where its checks pass. -/
theorem execXpand_of_precheck {h : LHdr} {b hi : Bool} {slot : Nat} {d : LDst} {a : LSrc} (hq : s.issuer = some q)
    (hp : precheck s q (.xpand h b hi slot d a) = some c) :
    execXpand h b hi slot d a s =
      .next (s.trapAt q c (checkLanes s q (.xpand h b hi slot d a) c) false) := by
  unfold execXpand
  simp only [hq, hp, Option.isNone_some, Bool.false_and, Bool.false_eq_true, if_false]
  exact issue_of_precheck hq hp

/-- A crook waits for its binding, or for what it is held by, only where its checks pass. -/
theorem execCrook_of_precheck {h : LHdr} {n slot mx : Nat} {d : LDst} {a b e : LSrc} (hq : s.issuer = some q)
    (hp : precheck s q (.crook h n slot mx d a b e) = some c) :
    execCrook h n slot mx d a b e s =
      .next (s.trapAt q c (checkLanes s q (.crook h n slot mx d a b e) c) false) := by
  unfold execCrook
  simp only [hq, hp, Option.isSome_some, if_true]
  split <;> exact issue_of_precheck hq hp

/-- R61: an encoded instruction, of any row of the table, takes the trap of the first check that it fails. -/
theorem exec_of_precheck (he : i.encoded = true) (hq : s.issuer = some q) (hp : precheck s q i = some c) :
    exec i s = .next (s.trapAt q c (checkLanes s q i c) (isRett i)) := by
  unfold exec
  cases i with
  | xpand => exact execXpand_of_precheck hq hp
  | crook => exact execCrook_of_precheck hq hp
  | trywaitTimeout | launchRecordRead | matrixCommandStart | flushhComplete | configWriteComplete | wayHandover
  | privilegedCompletion | migrationSwitch | granuleReceive | forwardingEntryRetire | turnSelect | unpark
  | resultReturn | commonsOperation | promotionEnd | chunkReturn | copyStart | copyComplete | copyFault
  | translationFault | stage2Resolve | collectiveStart | stagingCopy | foldAdmit | foldRestore | foldEnd
  | resourceClear | droveRetire | completionEntryWrite | launchEntryRead | prioAging | shrinkRequest | childStop
  | stopRequest | pointSave | deadlineT1 | instructionBoundarySave | forcedReset | sliceEnd | sliceSwitch
  | standbyTakeover | configRequest | hostWindowAccess | peerAccess | movedRefusal | movedRetry
  | forwardingExpiry | eventRecord | eventQueuePoll | faultRecordWrite | faultQueuePoll | hostAssistRecord
  | lqnotify | cqhead | tlbinv | gfqans | shadow | cfgans | hacons | shepcmd | registerWrite | bandwidthWindow
  | hotMark | clockStep | thermalReset | scrub | resourceRetire | start | attestationRequest | i3cRead
  | i3cSetPowerLimit | i3cHoldReset | fetchDecode | roundAcknowledged | transferFailure | streamReceive
  | traceRecordWrite | s1rootWrite => cases he
  | _ => exact issue_of_precheck hq hp

/-! ### Privileged opcodes, by the fields of the instruction (R80, R82) -/

theorem privileged_of_lr {h : LHdr} {op d a b e r sl md : Nat} {m : Bool}
    (hr : i.toRaw = some (lr h op d a b m e r sl md)) (ho : op < 0xC8) : privileged i = false := by
  have opc : i.opc = op := by simp only [Instr.opc, hr, lr]
  simp only [privileged, uniPriv, opc, Bool.and_eq_false_iff, decide_eq_false_iff_not]
  omega

theorem privileged_of_ur {h : UHdr} {op d a b : Nat} {m : Bool} (hr : i.toRaw = some (ur h op d a b m)) :
    privileged i = uniPriv op := by
  have opc : i.opc = 128 + op := by simp only [Instr.opc, hr, ur]
  simp only [privileged, opc, Nat.le_add_right, decide_true, Bool.true_and, Nat.add_sub_cancel_left]

theorem privileged_of_ue {h : EHdr} {op a ops : Nat} (hr : i.toRaw = some (ue h op a ops)) :
    privileged i = uniPriv op := by
  have opc : i.opc = 128 + op := by simp only [Instr.opc, hr, ue]
  simp only [privileged, opc, Nat.le_add_right, decide_true, Bool.true_and, Nat.add_sub_cancel_left]

/-! ### The checks of a privileged instruction (R61, R82) -/

/-- Check 2 depends on the words alone: no opcode of `decodeBad` is privileged. -/
theorem decodeBad_of_privileged (h : privileged i = true) : decodeBad s q i = false := by
  unfold decodeBad
  split
  case h_1 | h_2 | h_3 =>
    rw [privileged_of_lr rfl (by decide)] at h
    cases h
  case h_4 | h_5 | h_6 | h_7 | h_8 | h_9 | h_10 =>
    rw [privileged_of_ur rfl] at h
    cases h
  case h_11 => rfl

theorem isRett_of_privileged (h : privileged i = true) : isRett i = false := by
  unfold isRett
  split
  · rw [privileged_of_ur rfl] at h
    cases h
  · rfl

/-- PRIV is the first check that a privileged instruction fails outside the control paddock. -/
theorem precheck_of_privileged (h : privileged i = true) (hp : (s.fo q).paddock ≠ 0) :
    precheck s q i = some cPriv := by
  have outside : ((s.fo q).paddock != 0) = true := bne_iff_ne.2 hp
  simp only [precheck, decodeBad_of_privileged h, h, outside, Bool.and_true, Bool.false_eq_true, if_false, if_true]

/-- R82: what a privileged instruction does outside the control paddock. -/
theorem exec_of_privileged (he : i.encoded = true) (h : privileged i = true) (hq : s.issuer = some q)
    (hp : (s.fo q).paddock ≠ 0) : exec i s = .next (s.trapAt q cPriv q.lanes false) := by
  have lanes : checkLanes s q i cPriv = q.lanes := if_neg (by decide)
  rw [exec_of_precheck he hq (precheck_of_privileged h hp), lanes, isRett_of_privileged h]

end

/-- Settles O25: PRIV is the check that fails, `precheck_of_privileged`, and the failing check is the trap of
every encoded instruction, `exec_of_precheck`; the rows named are privileged by their opcodes. -/
theorem privilege : Obligations.Privilege := by
  unfold Obligations.Privilege
  refine ⟨fun i s q he h hq hp => exec_of_privileged he h hq hp, fun h a => ?_, fun h a b => ?_⟩
  · and_intros <;> exact (privileged_of_ue rfl).trans rfl
  · and_intros <;> exact (privileged_of_ur rfl).trans rfl

end Sys2Proof.Machine

/-! PROOFS. Floating point, packed halves and conversions (O11, O12, O15, O16).

An instruction's own part reads its operands, its format slot and its table after its lanes have moved on; each
reader answers there what it answers before (`src_advance` and those after it). A lane function of shared shape is
then one lemma for each shape of operands, over the model's two operations with flags: `fOp`, whose result is settled
(`givesF_of_fOp`), and `dOp`, whose result is deferred (`givesD_of_dOp`). XPAND has its own part, `xpandEff`, that
may read a table first; where the read meets no trap it is a `qOp` in a state quiet beside the advanced one. -/
namespace Sys2Proof.Machine

/-! ### What an instruction reads after its lanes have moved on -/

theorem slotVal_advance (s : State) (q : Iss) (i : Instr) (n : Nat) :
    (s.advance q i).slotVal q n = s.slotVal q n := by
  unfold State.slotVal
  rw [fo_advance]
  rfl

section
variable {s : State} {q : Iss} (i : Instr) (hf : (s.flock? q.fold q.flock).isSome = true)
include hf

theorem src_advance (lit : Word) (x : LSrc) (l : Nat) :
    ((s.advance q i).fl q).src lit x l = (s.fl q).src lit x l := by rw [fl_advance i hf]; rfl

theorem srcH_advance (bf : Bool) (lit : Word) (x : LSrc) (l : Nat) :
    ((s.advance q i).fl q).srcH bf lit x l = (s.fl q).srcH bf lit x l := by rw [fl_advance i hf]; rfl

theorem active_advance (h : LHdr) :
    ((s.advance q i).fl q).active h q.lanes = (s.fl q).active h q.lanes := by rw [fl_advance i hf]; rfl

theorem randOf_advance (h : LHdr) (c : Option LSrc) (l : Nat) :
    randOf ((s.advance q i).fl q) h c l = randOf (s.fl q) h c l := by rw [fl_advance i hf]; rfl

theorem blockScale_advance (h : LHdr) (a : LSrc) (t : Fmt) (m : Mask) :
    blockScale (s.advance q i) q h a t m = blockScale s q h a t m := by
  simp only [blockScale, src_advance i hf]

theorem scaleNV_advance (h : LHdr) (a : LSrc) (l : Nat) :
    scaleNV (s.advance q i) q h a l = scaleNV s q h a l := by
  simp only [scaleNV, src_advance i hf]

theorem sqzLane_advance (h : LHdr) (t : Fmt) (n : Nat) (r : Rnd) (sl : Nat) (a : LSrc) (c : Option LSrc) (sc : Nat)
    (m : Mask) (l : Nat) :
    sqzLane h t n r sl a c sc (s.advance q i) q m l = sqzLane h t n r sl a c sc s q m l := by
  simp only [sqzLane, src_advance i hf, randOf_advance i hf, slotVal_advance, scaleNV_advance i hf]

end

/-! ### Lane functions with flags, settled and deferred (R77, R102, R103, R147) -/

theorem trapLanes_zero (fl : Flock) (m : Mask) : trapLanes fl m (fun _ => 0) = 0 := by
  apply BitVec.eq_of_getLsbD_eq
  intro l hl
  rw [trapLanes, getLsbD_maskOf]
  simp

section
variable {i : Instr} {h : LHdr} {d : LDst} {f : State → Iss → Nat → Word} {g : State → Iss → Nat → Flg}

/-- A settled lane function that is chosen from the whole state at issue, as the scale of a block is, gives in each
lane what it gives there before the lanes move on. -/
theorem givesF_of_state {F : State → Iss → State → Iss → Mask → Nat → WF}
    (he : ∀ s, exec i s = issue i (fun q s => fOp h d (F s q) q s) s)
    (hF : ∀ s q, (s.flock? q.fold q.flock).isSome = true → ∀ l,
      F (s.advance q i) q (s.advance q i) q ((s.fl q).active h q.lanes) l = (f s q l, g s q l)) :
    GivesF i h d f g := by
  intro s q hi hg
  obtain ⟨-, -, hf, -⟩ := issues_iff hi
  obtain ⟨t, e, ht⟩ := issue_fOp (F := fun s q => F s q s q) hi (fun l _ _ => hF s q hf l) hg
  exact ⟨t, (he s).trans e, ht⟩

/-- A settled lane function gives in each lane what it gives there before the lanes move on. -/
theorem givesF_of_fOp {F : State → Iss → Mask → Nat → WF} (he : ∀ s, exec i s = issue i (fOp h d F) s)
    (hF : ∀ s q, (s.flock? q.fold q.flock).isSome = true → ∀ l,
      F (s.advance q i) q ((s.fl q).active h q.lanes) l = (f s q l, g s q l)) : GivesF i h d f g :=
  givesF_of_state (F := fun _ _ => F) he hF

/-- An instruction that raises no flag never traps on one. -/
theorem GivesF.givesQ (gives : GivesF i h d f fun _ _ _ => 0) : GivesQ i h d f :=
  fun s q hs => gives s q hs (trapLanes_zero _ _)

/-- A deferred lane function gives in each lane what it gives there before the lanes move on. -/
theorem givesD_of_dOp {d : Nat} {F : State → Iss → Nat → WF} (he : ∀ s, exec i s = issue i (dOp h d F) s)
    (hF : ∀ s q, (s.flock? q.fold q.flock).isSome = true → ∀ l, F (s.advance q i) q l = (f s q l, g s q l)) :
    GivesD i h d f g := by
  intro s q hi hg
  obtain ⟨-, -, hf, -⟩ := issues_iff hi
  obtain ⟨t, e, ht⟩ := issue_dOp hi (fun l _ _ => hF s q hf l) hg
  exact ⟨t, (he s).trans e, ht⟩

end

/-! ### One lemma for each shape of operands -/

section
variable {i : Instr} {h : LHdr} {d : LDst} {n : Nat} {bf : Bool} {a b c : LSrc} {W1 : Word → WF}
  {W2 : Word → Word → WF} {W3 : Word → Word → Word → WF}

theorem givesF_fon1 (he : ∀ s, exec i s = issue i (fOp h d (fon1 h a W1)) s) :
    GivesF i h d (f1 h a fun x => (W1 x).1) fun s q l => (W1 (val s q h a l)).2 :=
  givesF_of_fOp he fun s q hf l => by simp only [fon1, src_advance i hf, f1, val]

theorem givesF_fon2 (he : ∀ s, exec i s = issue i (fOp h d (fon2 h a b W2)) s) :
    GivesF i h d (f2 h a b fun x y => (W2 x y).1) fun s q l => (W2 (val s q h a l) (val s q h b l)).2 :=
  givesF_of_fOp he fun s q hf l => by simp only [fon2, src_advance i hf, f2, val]

theorem givesF_fon3 (he : ∀ s, exec i s = issue i (fOp h d (fon3 h a b c W3)) s) :
    GivesF i h d (f3 h a b c fun x y z => (W3 x y z).1)
      fun s q l => (W3 (val s q h a l) (val s q h b l) (val s q h c l)).2 :=
  givesF_of_fOp he fun s q hf l => by simp only [fon3, src_advance i hf, f3, val]

/-- A and B in packed positions. -/
theorem givesF_hon2 (he : ∀ s, exec i s = issue i (fOp h d (hon2 h bf a b W2)) s) :
    GivesF i h d (fun s q l => (W2 (hval s q h bf a l) (hval s q h bf b l)).1)
      fun s q l => (W2 (hval s q h bf a l) (hval s q h bf b l)).2 :=
  givesF_of_fOp he fun s q hf l => by simp only [hon2, srcH_advance i hf, hval]

/-- A, B and C in packed positions. -/
theorem givesF_hon3 (he : ∀ s, exec i s = issue i (fOp h d (hon3 h bf a b c W3)) s) :
    GivesF i h d (fun s q l => (W3 (hval s q h bf a l) (hval s q h bf b l) (hval s q h bf c l)).1)
      fun s q l => (W3 (hval s q h bf a l) (hval s q h bf b l) (hval s q h bf c l)).2 :=
  givesF_of_fOp he fun s q hf l => by simp only [hon3, srcH_advance i hf, hval]

/-- A and B in packed positions, C a word. -/
theorem givesF_hhw3 (he : ∀ s, exec i s = issue i (fOp h d (hhw3 h bf a b c W3)) s) :
    GivesF i h d (fun s q l => (W3 (hval s q h bf a l) (hval s q h bf b l) (val s q h c l)).1)
      fun s q l => (W3 (hval s q h bf a l) (hval s q h bf b l) (val s q h c l)).2 :=
  givesF_of_fOp he fun s q hf l => by simp only [hhw3, srcH_advance i hf, src_advance i hf, hval, val]

theorem givesD_fon1 (he : ∀ s, exec i s = issue i (dOp h n fun s q => fon1 h a W1 s q 0) s) :
    GivesD i h n (f1 h a fun x => (W1 x).1) fun s q l => (W1 (val s q h a l)).2 :=
  givesD_of_dOp he fun s q hf l => by simp only [fon1, src_advance i hf, f1, val]

theorem givesD_fon2 (he : ∀ s, exec i s = issue i (dOp h n fun s q => fon2 h a b W2 s q 0) s) :
    GivesD i h n (f2 h a b fun x y => (W2 x y).1) fun s q l => (W2 (val s q h a l) (val s q h b l)).2 :=
  givesD_of_dOp he fun s q hf l => by simp only [fon2, src_advance i hf, f2, val]

end

/-! ### FCOPYS (R155) -/

/-- The sign bit alone, as a word. -/
theorem sign_and (x : Word) : (if wbit x 31 then 0x80000000#32 else 0) = x &&& 0x80000000#32 :=
  (BitVec.and_twoPow x 31).symm

/-- The magnitude of a word. -/
theorem ofNat_mod_sign (x : Word) : BitVec.ofNat 32 (x.toNat % 2 ^ 31) = x &&& 0x7FFFFFFF#32 := by
  apply BitVec.eq_of_toNat_eq
  have mask : x.toNat &&& 0x7FFFFFFF = x.toNat % 2 ^ 31 := Nat.and_two_pow_sub_one_eq_mod x.toNat 31
  rw [BitVec.toNat_and, BitVec.toNat_ofNat, BitVec.toNat_ofNat, Nat.mod_eq_of_lt (by omega)]
  exact mask.symm

theorem fcopysW_copy (x y : Word) :
    fcopysW .copy x y = BitVec.ofNat 32 (x.toNat % 2 ^ 31) ||| (y &&& 0x80000000#32) := by
  rw [ofNat_mod_sign, ← sign_and]
  rfl

theorem fcopysW_neg (x y : Word) :
    fcopysW .neg x y = BitVec.ofNat 32 (x.toNat % 2 ^ 31) ||| (~~~y &&& 0x80000000#32) := by
  have sign : wbit (~~~y) 31 = !wbit y 31 := by simp [wbit]
  rw [ofNat_mod_sign, ← sign_and, sign]
  rfl

theorem fcopysW_xor (x y : Word) :
    fcopysW .xor x y = BitVec.ofNat 32 (x.toNat % 2 ^ 31) ||| ((x ^^^ y) &&& 0x80000000#32) := by
  have sign : wbit (x ^^^ y) 31 = (wbit x 31 != wbit y 31) := by simp [wbit]
  rw [ofNat_mod_sign, ← sign_and, sign]
  rfl

/-- Settles O11: each instruction is its lane function in a settled result, `givesF_of_fOp`; FCLASS and FCOPYS raise
no flag. -/
theorem floatArithmetic : Obligations.FloatArithmetic := by
  unfold Obligations.FloatArithmetic
  refine ⟨fun _ _ _ _ _ _ => givesF_fon2 fun _ => rfl, fun _ _ _ _ _ _ => givesF_fon2 fun _ => rfl,
    fun _ _ _ _ _ _ => givesF_fon2 fun _ => rfl, fun _ _ _ _ _ _ _ => givesF_fon3 fun _ => rfl,
    fun _ _ _ _ _ => givesF_fon2 fun _ => rfl, fun _ _ _ _ _ => givesF_fon2 fun _ => rfl,
    fun _ _ _ _ _ _ => givesF_fon2 fun _ => rfl, fun _ _ _ _ => givesF_fon1 fun _ => rfl,
    fun _ _ _ _ _ => givesF_fon1 fun _ => rfl,
    fun _ _ _ => (givesF_fon1 (W1 := fun x => (fclassW x, 0)) fun _ => rfl).givesQ, fun h sg d a b => ?_⟩
  have gives : GivesQ (.fcopys h sg d a b) h d (f2 h a b (fcopysW sg)) :=
    (givesF_fon2 (W2 := fun x y => (fcopysW sg x y, 0)) fun _ => rfl).givesQ
  cases sg with
  | copy => simpa only [← fcopysW_copy] using gives
  | neg => simpa only [← fcopysW_neg] using gives
  | xor => simpa only [← fcopysW_xor] using gives

/-- Settles O12: each instruction is its lane function in a deferred result, `givesD_of_dOp`. -/
theorem floatDeferred : Obligations.FloatDeferred := by
  unfold Obligations.FloatDeferred
  exact ⟨fun _ _ _ _ _ _ => givesD_fon2 fun _ => rfl, fun _ _ _ _ => givesD_fon1 fun _ => rfl,
    fun _ _ _ _ => givesD_fon1 fun _ => rfl, fun _ _ _ _ _ => givesD_fon1 fun _ => rfl,
    fun _ _ _ _ => givesD_fon1 fun _ => rfl, fun _ _ _ _ => givesD_fon1 fun _ => rfl,
    fun _ _ _ _ => givesD_fon1 fun _ => rfl, fun _ _ _ _ => givesD_fon1 fun _ => rfl,
    fun _ _ _ _ => givesD_fon1 fun _ => rfl, fun _ _ _ _ _ => givesD_fon2 fun _ => rfl⟩

/-- Settles O15: each instruction is its lane function in a settled result, with its operands in packed positions or as
words. -/
theorem packedHalves : Obligations.PackedHalves := by
  unfold Obligations.PackedHalves
  exact ⟨fun _ _ _ _ _ _ _ => givesF_hon2 fun _ => rfl, fun _ _ _ _ _ _ _ => givesF_hon2 fun _ => rfl,
    fun _ _ _ _ _ _ _ _ => givesF_hon3 fun _ => rfl, fun _ _ _ _ _ _ => givesF_hon2 fun _ => rfl,
    fun _ _ _ _ _ _ => givesF_hon2 fun _ => rfl, fun _ _ _ _ _ _ _ _ => givesF_hhw3 fun _ => rfl,
    fun _ _ _ _ _ _ _ _ _ => givesF_fon3 fun _ => rfl⟩

/-! ### XPAND (R162) -/

section
variable {s : State} {q : Iss}

theorem xpandSrc_advance (s : State) (q : Iss) (i : Instr) (b : Bool) (sl : Nat) :
    xpandSrc (s.advance q i) q b sl = xpandSrc s q b sl := by
  simp only [xpandSrc, slotVal_advance]

theorem xpandLut_advance (s : State) (q : Iss) (i : Instr) (sl : Nat) :
    xpandLut (s.advance q i) q sl = xpandLut s q sl := by
  simp only [xpandLut, slotVal_advance]
  rw [fo_advance]
  rfl

theorem xpandTrap_advance (s : State) (q : Iss) (i : Instr) (b : Bool) (sl : Nat) :
    xpandTrap (s.advance q i) q b sl = xpandTrap s q b sl := by
  simp only [xpandTrap, xpandSrc_advance, slotVal_advance]
  rw [fo_advance]
  rfl

theorem xpandStruck_advance (s : State) (q : Iss) (i : Instr) (sl : Nat) :
    xpandStruck (s.advance q i) q sl = xpandStruck s q sl := by
  simp only [xpandStruck, slotVal_advance]
  rw [fo_advance]
  rfl

theorem xpandWatch_advance (i : Instr) (hf : (s.flock? q.fold q.flock).isSome = true) (b : Bool) (sl : Nat)
    (m : Mask) :
    xpandWatch (s.advance q i) q b sl m = xpandWatch s q b sl m := by
  simp only [xpandWatch, xpandAcc, xpandSrc_advance, slotVal_advance]
  rw [fl_advance i hf]
  rfl

/-- The wave of a table read is part of the turn alone. -/
theorem waves_parts {w : State} {p : Prop} [Decidable p] (hw : w = if p then s.addWaves q 1 else s)
    (ht : TurnOk s q) (hf : (s.flock? q.fold q.flock).isSome = true) :
    Quiet s w q ∧ w.fl q = s.fl q ∧ TurnOk w q ∧ (w.flock? q.fold q.flock).isSome = true := by
  subst hw
  split
  · exact ⟨quiet_modTurn s q _, rfl, turnOk_modTurn _ ht fun _ => ⟨rfl, rfl, rfl, rfl⟩, hf⟩
  · exact ⟨Quiet.refl s q, rfl, ht, hf⟩

variable {h : LHdr} {b hi : Bool} {sl : Nat} {d : LDst} {a : LSrc}

/-- XPAND whose table read would be held waits. -/
theorem execXpand_of_held (hs : issues s q (.xpand h b hi sl d a) = true) (ht : xpandTrap s q b sl = none)
    (hh : s.xpandHeld q b sl = true) : execXpand h b hi sl d a s = .next s := by
  obtain ⟨hq, hp, -, -⟩ := issues_iff hs
  simp only [execXpand, hq, hp, ht, hh, Option.isNone_none, Bool.and_self, if_true]

/-- XPAND whose table read is not held issues. -/
theorem execXpand_of_free (hs : issues s q (.xpand h b hi sl d a) = true) (hh : s.xpandHeld q b sl = false) :
    execXpand h b hi sl d a s = issue (.xpand h b hi sl d a) (xpandEff h b hi sl d a) s := by
  obtain ⟨hq, -, -, -⟩ := issues_iff hs
  simp only [execXpand, hq, hh, Bool.and_false, Bool.false_eq_true, if_false]

/-- A table word that an error has struck: ECC in the Active lanes (R447). -/
theorem xpandEff_of_struck (i : Instr) (hf : (s.flock? q.fold q.flock).isSome = true)
    (ht : xpandTrap s q b sl = none) (ha : (s.fl q).active h q.lanes ≠ 0) (hl : xpandSrc s q b sl = .lut4)
    (hb : xpandStruck s q sl = true) :
    xpandEff h b hi sl d a q (s.advance q i) = .error (cEcc, (s.fl q).active h q.lanes) := by
  simp only [xpandEff, xpandTrap_advance, ht, active_advance i hf, xpandSrc_advance, xpandStruck_advance]
  exact if_pos ⟨hl, ha, hb⟩

/-- The table read of XPAND meets no trap and no watched block: a result of kind Q after the wave of the read. -/
theorem xpandEff_of_read (i : Instr) (hf : (s.flock? q.fold q.flock).isSome = true)
    (ht : xpandTrap s q b sl = none)
    (hb : (s.fl q).active h q.lanes ≠ 0 → xpandSrc s q b sl = .lut4 → xpandStruck s q sl = false)
    (hw : xpandWatch s q b sl ((s.fl q).active h q.lanes) = 0) :
    xpandEff h b hi sl d a q (s.advance q i) =
      qOp h d (on1 h a (xpandW (xpandSrc s q b sl) hi (xpandLut s q sl))) q
        (if xpandSrc s q b sl = .lut4 then (s.advance q i).addWaves q 1 else s.advance q i) := by
  have read : ¬ (xpandSrc s q b sl = .lut4 ∧ (s.fl q).active h q.lanes ≠ 0 ∧ xpandStruck s q sl = true) :=
    fun ⟨hl, ha, hs⟩ => by simp [hb ha hl] at hs
  simp only [xpandEff, xpandTrap_advance, ht, active_advance i hf, xpandSrc_advance, xpandStruck_advance,
    xpandLut_advance, xpandWatch_advance i hf, hw]
  exact if_neg read

/-- A result of kind Q that an instruction's own part gives after `w`, which is quiet beside the state before its lanes
moved on and has the flock that has moved on. -/
theorem issue_qOp_after {w : State} {i : Instr} {body : Iss → State → Eff} {F : State → Iss → Mask → Nat → Word}
    {f : Nat → Word} (hi : issues s q i = true) (hb : body q (s.advance q i) = qOp h d F q w)
    (hq : Quiet s w q) (hfl : w.fl q = (s.fl q).movePc q.lanes fun _ => nextPc q i) (ht : TurnOk w q)
    (hs : (w.flock? q.fold q.flock).isSome = true)
    (hF : ∀ l < 32, act s q h l = true → F w q ((s.fl q).active h q.lanes) l = f l) :
    ∃ t, issue i body s = .next t ∧ ResultQ s t q i h d f fun _ => 0 := by
  have hact : (w.fl q).active h q.lanes = (s.fl q).active h q.lanes := by rw [hfl]; rfl
  obtain ⟨t, e, hqt, hst⟩ := issue_leaves hi hb (turnOk_setFl _ ht) (some_setFl _ hs)
  rw [fl_setFl _ hs, hact, hfl] at hst
  refine ⟨t, e, resultQ_of (f' := lane (tab fun l => if ((s.fl q).active h q.lanes).getLsbD l then
    F w q ((s.fl q).active h q.lanes) l else 0)) (hq.trans ((quiet_setFl w q _).trans hqt)) ?_ ?_⟩
  · intro l hl ha
    rw [lane_tab, if_pos hl]
    exact (if_pos ha).trans (hF l hl ha)
  · rw [orFlags_zero]
    have e0 : (s.fl q).fflags ||| 0 = (s.fl q).fflags := BitVec.or_zero
    rw [e0]
    exact hst

/-- XPAND whose table read meets nothing: the codes of each Active lane's word, expanded. -/
theorem next_xpand (hs : issues s q (.xpand h b hi sl d a) = true) (ht : xpandTrap s q b sl = none)
    (hh : s.xpandHeld q b sl = false)
    (hb : (s.fl q).active h q.lanes ≠ 0 → xpandSrc s q b sl = .lut4 → xpandStruck s q sl = false)
    (hw : xpandWatch s q b sl ((s.fl q).active h q.lanes) = 0) :
    Next (.xpand h b hi sl d a) s fun t => ResultQ s t q (.xpand h b hi sl d a) h d
      (fun l => xpandW (xpandSrc s q b sl) hi (xpandLut s q sl) (val s q h a l)) fun _ => 0 := by
  obtain ⟨-, -, hf, htn⟩ := issues_iff hs
  obtain ⟨quiet, same, turn, seat⟩ := waves_parts (p := xpandSrc s q b sl = .lut4) rfl
    (turnOk_advance (i := .xpand h b hi sl d a) htn) (some_advance _ hf)
  obtain ⟨t, e, r⟩ := issue_qOp_after hs (xpandEff_of_read _ hf ht hb hw) ((quiet_setFl s q _).trans quiet)
    (same.trans (fl_advance _ hf)) turn seat fun l _ _ => by
      rw [on1, same, src_advance _ hf, ← val]
  exact ⟨t, (execXpand_of_free hs hh).trans e, r⟩

end

/-- Settles O16: CVT to UNPK4, SROUND and the block operations are lane functions in a settled result, where the scale
of a block is of the Active lanes; XPAND waits (`execXpand_of_held`), traps (`xpandEff_of_struck`) or reads its table
and expands (`next_xpand`). -/
theorem conversions : Obligations.Conversions := by
  unfold Obligations.Conversions
  refine ⟨?cvt, ?cvt2, ?cvt4, fun _ _ _ _ _ => givesF_fon1 fun _ => rfl, fun _ _ _ _ _ => givesF_fon1 fun _ => rfl,
    ?xpand, ?sround, ?scaleof, ?sqz4, ?sqz8⟩
  case cvt | cvt2 | cvt4 | sround =>
    intros
    exact givesF_of_fOp (fun _ => rfl) fun s q hf l => by
      simp only [src_advance _ hf, slotVal_advance, randOf_advance _ hf, val]
  case xpand =>
    intro h b hi sl d a s q hs ht
    refine ⟨next_xpand hs ht, execXpand_of_held hs ht, fun hh ha hl hb => ?_⟩
    obtain ⟨-, -, hf, -⟩ := issues_iff hs
    exact (execXpand_of_free hs hh).trans (issue_error hs (xpandEff_of_struck _ hf ht ha hl hb))
  case scaleof =>
    intro h f4 sl d a
    exact givesF_of_state (fun s => show execScaleof h f4 sl d a s = _ from rfl) fun s q hf l => by
      simp only [active_advance _ hf, slotVal_advance, blockScale_advance _ hf, scaleNV_advance _ hf, wd]
  case sqz4 =>
    intro h r sl d a c
    exact givesF_of_state (fun s => show execSqz4 h r sl d a c s = _ from rfl) fun s q hf l => by
      simp only [active_advance _ hf, blockScale_advance _ hf, sqzLane_advance _ hf]
  case sqz8 =>
    intro h r sl d a c
    exact givesF_of_state (fun s => show execSqz8 h r sl d a c s = _ from rfl) fun s q hf l => by
      simp only [active_advance _ hf, slotVal_advance, blockScale_advance _ hf, sqzLane_advance _ hf]

end Sys2Proof.Machine

/-! PROOFS. The matrix unit: commands join its queue at issue, and the unit runs the oldest one (O43, O44).

The own part of every matrix instruction is the trap of R180 or a command that joins the queue (`matEff`), so one
lemma for an instruction that changes the device beside its flock (`issue_beside`) serves all of them. When the unit
takes a command it ends in `failMat` or in `runMat` (`matStart_of_struck`, `matStart_of_unstruck`); around `runMat`
stand the queue, which only loses the command, a counter and the hold counts, and what `runMat` leaves is said once
for each of the updates that it is made of: `setTile`, `segPut` and `mergeFlags`. -/
namespace Sys2Proof.Machine

/-! ### A matrix instruction issues (R179, R180) -/

section
variable {s u : State} {q : Iss} {i : Instr}

/-- An instruction whose own part changes the device beside flocks and turns: it leaves that device, and its lanes go
on. -/
theorem issue_beside {body : Iss → State → Eff} (hs : issues s q i = true)
    (hb : body q (s.advance q i) = .ok (u.advance q i, 0)) (hf : u.folds = s.folds)
    (ht : u.stageOf q.core q.stage = s.stageOf q.core q.stage) :
    ∃ t, issue i body s = .next t ∧ Leaves s u t q i := by
  obtain ⟨-, -, some_s, turn_s⟩ := issues_iff hs
  have some_u : (u.flock? q.fold q.flock).isSome = true := by simpa only [State.flock?, hf] using some_s
  have same : u.fl q = s.fl q := by simp only [State.fl, State.flock, State.flock?, hf]
  have turn_u : TurnOk u q := by simpa only [TurnOk, ht] using turn_s
  obtain ⟨t, e, quiet, keep⟩ := issue_leaves hs hb (turnOk_advance turn_u) (some_advance i some_u)
  rw [fl_advance i some_u] at keep
  exact ⟨t, e, (quiet_setFl u q _).trans quiet, by rw [keep]; rfl, pc_goes (by rw [same]) keep⟩

/-- The own part of a matrix instruction: the trap of the first check of R180 that fails, or its command joins the
queue. -/
def matEff (s : State) (q : Iss) (reserved slotBad countBad : Bool) (chunks : List Nat) (c : MatCmd) : Eff :=
  match matTrap s q reserved slotBad countBad chunks with
  | some x => .error (x, q.lanes)
  | none => .ok (s.queueMat q c, 0)

theorem matTrap_advance (s : State) (q : Iss) (i : Instr) (reserved slotBad countBad : Bool) (chunks : List Nat) :
    matTrap (s.advance q i) q reserved slotBad countBad chunks = matTrap s q reserved slotBad countBad chunks := by
  unfold matTrap
  rw [fo_advance]
  rfl

theorem matCmd_advance (i : Instr) (hf : (s.flock? q.fold q.flock).isSome = true) (op tile : Nat)
    (chunks : List Nat) : matCmd (s.advance q i) q op tile chunks = matCmd s q op tile chunks := by
  unfold matCmd
  rw [fo_advance, fl_advance i hf]
  rfl

theorem oneChunkBad_advance (i : Instr) (hf : (s.flock? q.fold q.flock).isSome = true) (h : EHdr) :
    oneChunkBad (s.advance q i) q h = oneChunkBad s q h := by
  simp only [oneChunkBad, pnat_advance i _ hf]
  rfl

theorem mloadEff_advance (i : Instr) (hf : (s.flock? q.fold q.flock).isSome = true) (h : EHdr) (op tile w : Nat)
    (sl : DWord) (bad : Bool) :
    mloadEff h op tile w sl bad q (s.advance q i) =
      matEff (s.advance q i) q (oneChunkBad s q h) bad false (chunkRun (ueP s q h.p0) (2 * w))
        { matCmd s q op tile (chunkRun (ueP s q h.p0) (2 * w)) with slot := sl, a := ueP s q h.p0 } := by
  simp only [mloadEff, pnat_advance i _ hf, oneChunkBad_advance i hf, matCmd_advance i hf]
  rfl

theorem stageOf_queueMat (s : State) (q : Iss) (c : MatCmd) (d x : Nat) :
    (s.queueMat q c).stageOf d x = s.stageOf d x := by
  simp only [State.stageOf, State.queueMat, core_modCore]
  split
  · subst d; rfl
  · rfl

/-- A matrix instruction that passes the checks of R180 leaves the queue with its command. -/
theorem next_matEff {body : Iss → State → Eff} {reserved slotBad countBad : Bool} {chunks : List Nat} {c : MatCmd}
    (hs : issues s q i = true) (he : exec i s = issue i body s)
    (hb : body q (s.advance q i) = matEff (s.advance q i) q reserved slotBad countBad chunks c)
    (ht : matTrap s q reserved slotBad countBad chunks = none) :
    Next i s fun t => Leaves s (s.queueMat q c) t q i := by
  have joins : body q (s.advance q i) = .ok ((s.queueMat q c).advance q i, 0) := by
    rw [hb, matEff, matTrap_advance, ht]
    rfl
  obtain ⟨t, e, left⟩ := issue_beside hs joins rfl (stageOf_queueMat s q c _ _)
  exact ⟨t, he.trans e, left⟩

end

/-- Settles O43: each instruction's own part is `matEff` of the operands that it reads, which are those before its
lanes move on. -/
theorem matrixIssue : Obligations.MatrixIssue := by
  unfold Obligations.MatrixIssue
  refine ⟨?mma, ?mzero, ?mdrain, ?load, ?add, ?addv⟩
  case mma =>
    intro h a tile slot s q hs ht
    obtain ⟨-, -, hf, -⟩ := issues_iff hs
    refine next_matEff hs (show execMma h a tile slot s = _ from rfl) ?_ ht
    simp only [uni_advance _ _ _ hf, pnat_advance _ _ hf, slotVal_advance, matCmd_advance _ hf]
    rfl
  case mzero =>
    intro h mask s q hs hg hacc
    obtain ⟨-, -, hf, -⟩ := issues_iff hs
    have guard : ((s.advance q (.mzero h mask)).fl q).guardK h.k h.kn = true := (guardK_advance _ _ _ hf).trans hg
    have passes : matTrap s q false false false [] = none := by simp [matTrap, hacc]
    refine next_matEff hs (show execMzero h mask s = _ from rfl) ?_ passes
    simp only [uOp, guard, if_true, matCmd_advance _ hf]
    rfl
  case mdrain =>
    rintro h tile slot raw z r s q w hs rfl ht
    obtain ⟨-, -, hf, -⟩ := issues_iff hs
    refine next_matEff hs (show execMdrain h tile slot raw z r s = _ from rfl) ?_ ht
    simp only [pnat_advance _ _ hf, slotVal_advance, oneChunkBad_advance _ hf, matCmd_advance _ hf]
    rfl
  case load =>
    intro h tile s q hs ht
    obtain ⟨-, -, hf, -⟩ := issues_iff hs
    exact next_matEff hs (show execMloadLoad h tile s = _ from rfl) (mloadEff_advance _ hf ..) ht
  case add =>
    intro h tile s q hs ht
    obtain ⟨-, -, hf, -⟩ := issues_iff hs
    exact next_matEff hs (show execMloadAdd h tile s = _ from rfl) (mloadEff_advance _ hf ..) ht
  case addv =>
    intro h tile slot s q f hs hd hv ht
    obtain ⟨-, -, hf, -⟩ := issues_iff hs
    refine next_matEff hs (show execMloadAddv h tile slot s = _ from rfl) ?_ ht
    simp only [slotVal_advance, hd, hv]
    exact mloadEff_advance _ hf ..

/-! ### What the unit's updates leave -/

section
variable (s : State) (core : Nat)

theorem core_modCore_self (g : Core → Core) : (s.modCore core g).core core = g (s.core core) := by
  rw [core_modCore, if_pos rfl]

/-- A fault marks droves alone (R299). -/
theorem markFaulted_eq (n d : Nat) : s.markFaulted n d = { s with droves := (s.markFaulted n d).droves } := by
  induction n generalizing s d with
  | zero => rfl
  | succ n ih =>
    unfold State.markFaulted
    split
    · dsimp only
      split
      · rfl
      · rw [ih]; rfl
    · rfl

/-- A die's record of a fault changes droves and paddocks alone (R299, R402). -/
theorem fault_eq (p drove : Nat) (rec : List Word) :
    s.fault p drove rec =
      { s with droves := (s.fault p drove rec).droves, pads := (s.fault p drove rec).pads } := by
  unfold State.fault
  rw [markFaulted_eq]
  dsimp only
  split <;> rfl

theorem tile_setTile (t : Nat) (x : Tile) (i : Nat) :
    ((s.setTile core t x).core core).tile i = if i = t then x else (s.core core).tile i := by
  rw [State.setTile, core_modCore_self]
  exact kgetD_kset ..

theorem mq_setTile (t : Nat) (x : Tile) : ((s.setTile core t x).core core).mq = (s.core core).mq := by
  rw [State.setTile, core_modCore_self]

/-- The bytes that a write through a segment map leaves are those of memory and of what is written. -/
theorem segWrite_mem_congr {s u : State} (h : u.mem = s.mem) (segs : List Nat) (a : Nat) (bs : List Byte) :
    (u.segWrite core segs a bs).mem = (s.segWrite core segs a bs).mem := by
  induction bs generalizing s u a with
  | nil => exact h
  | cons b bs ih => exact ih (by rw [h]) _

theorem flock?_segPut (segs : List Nat) (a : Nat) (bs : List Byte) (f k : Nat) :
    (s.segPut core segs a bs).flock? f k = s.flock? f k := by rw [segPut_eq]; rfl

theorem flock_segPut (segs : List Nat) (a : Nat) (bs : List Byte) (f k : Nat) :
    (s.segPut core segs a bs).flock f k = s.flock f k := by rw [segPut_eq]; rfl

theorem tile_zeroTiles (mask : Nat) (ts : List Nat) (i : Nat) :
    ((ts.foldl (fun s t => if bitOf mask t then s.setTile core t Tile.zero else s) s).core core).tile i =
      if i ∈ ts ∧ bitOf mask i = true then Tile.zero else (s.core core).tile i := by
  induction ts generalizing s with
  | nil => simp
  | cons t ts ih =>
    rw [List.foldl_cons, ih]
    by_cases hi : i = t
    · subst hi
      by_cases hb : bitOf mask i = true <;> simp [hb, tile_setTile]
    · by_cases hb : bitOf mask t = true <;> simp [hb, tile_setTile, hi]

/-- Tiles that are zeroed leave the queue and memory. -/
theorem rest_zeroTiles (mask : Nat) (ts : List Nat) :
    ((ts.foldl (fun s t => if bitOf mask t then s.setTile core t Tile.zero else s) s).core core).mq =
        (s.core core).mq ∧
      (ts.foldl (fun s t => if bitOf mask t then s.setTile core t Tile.zero else s) s).mem = s.mem := by
  induction ts generalizing s with
  | nil => exact ⟨rfl, rfl⟩
  | cons t ts ih =>
    obtain ⟨queue, mem⟩ := ih (if bitOf mask t then s.setTile core t Tile.zero else s)
    rw [List.foldl_cons, queue, mem]
    split
    · exact ⟨mq_setTile .., rfl⟩
    · exact ⟨rfl, rfl⟩

theorem mem_mergeFlags (fold flock born : Nat) (g : Flg) :
    (s.mergeFlags core fold flock born g).mem = s.mem := by
  unfold State.mergeFlags
  split <;> rfl

/-- Merged flags change no part of the core but its stages. -/
theorem core_mergeFlags (fold flock born : Nat) (g : Flg) :
    ∃ st0 st1, (s.mergeFlags core fold flock born g).core core = { s.core core with st0 := st0, st1 := st1 } := by
  unfold State.mergeFlags
  split
  · exact ⟨_, _, rfl⟩
  · dsimp only
    rw [State.modStage, core_modCore_self]
    unfold Core.modStage
    split <;> exact ⟨_, _, rfl⟩

/-- Flags of a command whose flock another one has replaced are dropped (R186). -/
theorem mergeFlags_of_replaced {fold flock born : Nat} (g : Flg) (h : (s.flock fold flock).born ≠ born) :
    s.mergeFlags core fold flock born g = s := if_pos h

/-- Flags of a command whose flock is there and has a lane join its FFLAGS (R186). -/
theorem flock_mergeFlags {fold flock born : Nat} (g : Flg) (there : (s.flock? fold flock).isSome = true)
    (same : (s.flock fold flock).born = born) (live : (s.flock fold flock).live ≠ 0) :
    (s.mergeFlags core fold flock born g).flock fold flock =
      { s.flock fold flock with fflags := (s.flock fold flock).fflags ||| g } := by
  unfold State.mergeFlags
  rw [if_neg (not_not_intro same)]
  exact (flock_modFlock s fold flock _ there).trans (if_neg live)

end

/-! ### The effect of each command (R182, R184, R186, R188) -/

section
variable {s : State} {core : Nat} {c : MatCmd} {rest : List MatCmd}

/-- The bytes that an MDRAIN stores and the flags that its rounding raises. -/
def MatCmd.drained (c : MatCmd) (t : Tile) : List Byte × Flg :=
  if c.raw then (drainRaw t, 0)
  else drainBytes ((slotDfmt c.slot).getD .f32) c.slot (slotRnd c.slot c.rnd .rne) t

/-- An MDRAIN has stored its tile and merged its flags, and has not yet zeroed the tile. -/
def State.drainMat (s : State) (core : Nat) (c : MatCmd) : State :=
  (s.segPut core c.segs (512 * c.a) (c.drained ((s.core core).tile c.tile)).1).mergeFlags core c.fold c.flock c.born
    ((c.drained ((s.core core).tile c.tile)).2 ||| tileFlags ((s.core core).tile c.tile))

theorem runMat_of_mdrain (h : c.op = 2) : s.runMat core c =
    if c.z then (s.drainMat core c).setTile core c.tile Tile.zero else s.drainMat core c := by
  simp only [State.runMat, h]
  rfl

theorem mem_drainMat :
    (s.drainMat core c).mem =
      (s.segWrite core c.segs (512 * c.a) (c.drained ((s.core core).tile c.tile)).1).mem :=
  mem_mergeFlags ..

theorem core_drainMat : ∃ st0 st1, (s.drainMat core c).core core = { s.core core with st0 := st0, st1 := st1 } := by
  have put : ∀ a bs, (s.segPut core c.segs a bs).core core = s.core core := fun a bs => by rw [segPut_eq]; rfl
  obtain ⟨st0, st1, e⟩ := core_mergeFlags (s.segPut ..) core ..
  exact ⟨st0, st1, by rw [State.drainMat, e, put]⟩

theorem folds_drainMat_of_replaced (replaced : (s.flock c.fold c.flock).born ≠ c.born) :
    (s.drainMat core c).folds = s.folds := by
  rw [State.drainMat, mergeFlags_of_replaced _ _ _ (by rwa [flock_segPut]), segPut_eq]

theorem flock_drainMat (there : (s.flock? c.fold c.flock).isSome = true)
    (same : (s.flock c.fold c.flock).born = c.born) (live : (s.flock c.fold c.flock).live ≠ 0) :
    (s.drainMat core c).flock c.fold c.flock = { s.flock c.fold c.flock with
      fflags := (s.flock c.fold c.flock).fflags ||| ((c.drained ((s.core core).tile c.tile)).2 |||
        tileFlags ((s.core core).tile c.tile)) } := by
  rw [State.drainMat, flock_mergeFlags _ _ _ (by rwa [flock?_segPut]) (by rwa [flock_segPut])
    (by rwa [flock_segPut]), flock_segPut]

/-- No command but MDRAIN changes memory. -/
theorem mem_runMat (h : c.op ≠ 2) : (s.runMat core c).mem = s.mem := by
  unfold State.runMat
  dsimp only
  split
  · rfl
  · exact (rest_zeroTiles s core c.tile _).2
  · exact absurd ‹_› h
  all_goals rfl

theorem mq_runMat : ((s.runMat core c).core core).mq = (s.core core).mq := by
  by_cases h : c.op = 2
  · obtain ⟨st0, st1, e⟩ := core_drainMat (s := s) (core := core) (c := c)
    rw [runMat_of_mdrain h]
    split
    · rw [mq_setTile, e]
    · rw [e]
  · unfold State.runMat
    dsimp only
    split
    · exact mq_setTile ..
    · exact (rest_zeroTiles s core c.tile _).1
    · exact absurd ‹_› h
    all_goals exact mq_setTile ..

/-- MDRAIN zeroes its tile under `.Z`, and otherwise leaves it. -/
theorem tile_runMat_of_mdrain (h : c.op = 2) :
    ((s.runMat core c).core core).tile c.tile = if c.z then Tile.zero else (s.core core).tile c.tile := by
  obtain ⟨st0, st1, e⟩ := core_drainMat (s := s) (core := core) (c := c)
  rw [runMat_of_mdrain h]
  split
  · rw [tile_setTile, if_pos rfl]
  · rw [e]; rfl

theorem mem_runMat_of_mdrain (h : c.op = 2) :
    (s.runMat core c).mem =
      (s.segWrite core c.segs (512 * c.a) (c.drained ((s.core core).tile c.tile)).1).mem := by
  rw [runMat_of_mdrain h]
  split <;> exact mem_drainMat

theorem folds_runMat_of_mdrain (h : c.op = 2) : (s.runMat core c).folds = (s.drainMat core c).folds := by
  rw [runMat_of_mdrain h]
  split <;> rfl

/-! ### The unit takes its oldest command (R173, R447) -/

/-- The unit has taken a command off its queue, and the errors in the tiles that it writes whole are gone. -/
def State.takeMat (s : State) (core : Nat) (c : MatCmd) (rest : List MatCmd) : State :=
  s.modCore core fun k => { k with mq := rest, tileBad := k.tileBad.filter fun e => !c.heals e.1 }

theorem core_takeMat : ((s.takeMat core c rest).core core).mq = rest ∧
    ∀ i, ((s.takeMat core c rest).core core).tile i = (s.core core).tile i := by
  rw [State.takeMat, core_modCore_self]
  exact ⟨rfl, fun _ => rfl⟩

/-- A command that reads a struck word leaves the queue, and tiles and memory are as they were. -/
theorem failMat_leaves : (s.failMat core c rest).mem = s.mem ∧ ((s.failMat core c rest).core core).mq = rest ∧
    ((s.failMat core c rest).core core).tiles = (s.core core).tiles := by
  have left : (s.failMat core c rest).mem = s.mem ∧
      (s.failMat core c rest).cores = (s.modCore core fun k => c.letGo { k with mq := rest }).cores := by
    unfold State.failMat State.errorRecord
    rw [fault_eq]
    exact ⟨rfl, rfl⟩
  obtain ⟨mem, cores⟩ := left
  have taken : (s.failMat core c rest).core core = c.letGo { s.core core with mq := rest } := by
    rw [State.core, cores]
    exact core_modCore_self ..
  rw [taken]
  exact ⟨mem, rfl, rfl⟩

variable (hq : (s.core core).mq = c :: rest) (hr : s.matReady core c = true)
include hq hr

theorem matStart_of_struck (hb : s.matBad core c = true) : s.matStart core = s.failMat core c rest := by
  simp only [State.matStart, hq, hr, hb, Bool.not_true, Bool.false_eq_true, if_false, if_true]

/-- A command that meets no error has run; a counter and the hold counts of its chunks are all that changes after
it. -/
theorem matStart_of_unstruck (hb : s.matBad core c = false) :
    ∃ counters, s.matStart core =
      State.modCore { (s.takeMat core c rest).runMat core c with counters := counters } core c.letGo := by
  simp only [State.matStart, hq, hr, hb, Bool.not_true, Bool.false_eq_true, if_false]
  split
  · unfold State.count
    split <;> exact ⟨_, rfl⟩
  · exact ⟨_, rfl⟩

/-- Memory, folds, and the unit's queue and tiles after a command that meets no error are those that its effect
leaves. -/
theorem matStart_leaves (hb : s.matBad core c = false) :
    (s.matStart core).mem = ((s.takeMat core c rest).runMat core c).mem ∧
      (s.matStart core).folds = ((s.takeMat core c rest).runMat core c).folds ∧
      ((s.matStart core).core core).mq = (((s.takeMat core c rest).runMat core c).core core).mq ∧
      ∀ i, ((s.matStart core).core core).tile i = (((s.takeMat core c rest).runMat core c).core core).tile i := by
  obtain ⟨counters, e⟩ := matStart_of_unstruck hq hr hb
  rw [e, core_modCore_self]
  exact ⟨rfl, rfl, rfl, fun _ => rfl⟩

end

/-- Settles O44: `failMat_leaves` where a word is struck; otherwise the parts of the device that `runMat` leaves
(`matStart_leaves`), each by the lemma for its command. -/
theorem matrixCommand : Obligations.MatrixCommand := by
  unfold Obligations.MatrixCommand
  intro s core c rest hq hr
  have runs : exec (.matrixCommandStart core) s = .next (s.matStart core) :=
    show execMatrixCommandStart core s = _ from rfl
  refine ⟨fun hb => ⟨_, runs, ?struck⟩, fun hb => ⟨_, runs, ?sound⟩⟩
  case struck =>
    obtain ⟨mem, queue, tiles⟩ := failMat_leaves (s := s) (core := core) (c := c) (rest := rest)
    rw [matStart_of_struck hq hr hb]
    exact ⟨fun a => by rw [mem], queue, tiles⟩
  case sound =>
    obtain ⟨hmem, hfolds, hmq, htile⟩ := matStart_leaves hq hr hb
    obtain ⟨queue, tile⟩ := core_takeMat (s := s) (core := core) (c := c) (rest := rest)
    refine ⟨by rw [hmq, mq_runMat, queue], fun h a => by rw [hmem, mem_runMat h]; rfl, fun h => ?mma,
      fun h i hi => ?mzero, fun h bs g hd => ?mdrain, fun h => ?load, fun h => ?add, fun h => ?addv⟩
    case mma | load | add | addv =>
      simp only [htile, State.runMat, h, tile_setTile, if_true, tile]
      rfl
    case mzero =>
      simp only [htile, State.runMat, h, tile_zeroTiles, List.mem_range, hi, true_and, tile]
    case mdrain =>
      have drained : c.drained (((s.takeMat core c rest).core core).tile c.tile) = (bs, g) := by rw [tile, hd]; rfl
      have folds := hfolds.trans (folds_runMat_of_mdrain h)
      refine ⟨?_, ?_, fun there same live => ?_, fun replaced => ?_⟩
      · rw [hmem, mem_runMat_of_mdrain h, drained]
        exact segWrite_mem_congr core (State.modCore_mem s core _) ..
      · rw [htile, tile_runMat_of_mdrain h, tile]
      · have flock : (s.matStart core).flock c.fold c.flock =
            ((s.takeMat core c rest).drainMat core c).flock c.fold c.flock := by
          simp only [State.flock, State.flock?, folds]
        rw [flock, flock_drainMat (s := s.takeMat core c rest) there same live, drained, tile]
        rfl
      · rw [folds]
        exact folds_drainMat_of_replaced replaced

end Sys2Proof.Machine
